-- ==== Sys2Proof/Word.lean ====
section
/-! DEFINITION. The words of the part and the numbers of its records. -/

namespace Sys2Proof

/-- One byte of a frame, and every field the wire carries in one byte (R175). -/
abbrev Byte := BitVec 8
/-- A two-byte field: terms, patiences, liveness windows, session numbers, renew counts. -/
abbrev Half := BitVec 16
/-- A four-byte field: the epoch (R11). -/
abbrev Quad := BitVec 32

/-- A host port, P0 to P3; P0 is the supervisor port (R129). -/
abbrev Port := Fin 4
/-- A resource number, 0 to 63 (R1). -/
abbrev ResNo := Fin 64
/-- The index of a lease record, 0 to 95 (R21). -/
abbrev LeaseNo := Fin 96
/-- The index of a wait record, 0 to 47 (R48). -/
abbrev WaitNo := Fin 48
/-- A gate, G0 to G15 (R115). -/
abbrev GateNo := Fin 16

end Sys2Proof
end

