-- ==== Sys2Proof/Syntax.lean ====
section
/-! DEFINITION. The commands of the part, one constructor for each row of spec/opcode_table.json. -/

namespace Sys2Proof

/-- How a transaction command leaves CS_N (log entry 9). -/
inductive CsEnd where
  /-- CS_N rises before the first byte of the transaction is complete (R157, R158, R159). -/
  | early
  /-- CS_N stays low after the bytes of the command. -/
  | held
  /-- CS_N rises after the bytes of the command; `cutByte` says that it rises within a further byte. -/
  | rise (cutByte : Bool)
  deriving DecidableEq, Repr

/-- A command. The taken requests carry the port only: SEQ and BODY are those of the request at the head of that
port's request queue (R163, log entry 3). -/
inductive Instr where
  /-- R130, R131. -/
  | attach (p : Port)
  /-- R134. -/
  | detach (p : Port)
  /-- R133. -/
  | keepalive (p : Port)
  /-- R140. -/
  | portStatus (p : Port)
  /-- R26 to R32. -/
  | acquire (p : Port)
  /-- R36 to R39. -/
  | renew (p : Port)
  /-- R41, R42. -/
  | release (p : Port)
  /-- R44. -/
  | queryLease (p : Port)
  /-- R72 to R74. -/
  | promote (p : Port)
  /-- R82, R83. -/
  | demote (p : Port)
  /-- R62, R63. -/
  | cancelWait (p : Port)
  /-- R15. -/
  | queryResource (p : Port)
  /-- R16. -/
  | checkEpoch (p : Port)
  /-- R17, R18. -/
  | scan (p : Port)
  /-- R149 to R151. -/
  | fetchNotice (p : Port)
  /-- R4, R5. -/
  | define (p : Port)
  /-- R95 to R98. -/
  | retire (p : Port)
  /-- R90 to R92. -/
  | revoke (p : Port)
  /-- R139. -/
  | setQuota (p : Port)
  /-- R120, R121. -/
  | bindGate (p : Port)
  /-- R122. -/
  | unbindGate (p : Port)
  /-- R110. -/
  | setTimebase (p : Port)
  /-- R111. -/
  | startTimebase (p : Port)
  /-- R112. -/
  | haltTimebase (p : Port)
  /-- R135. -/
  | evict (p : Port)
  /-- R141, R142. -/
  | warmReset (p : Port)
  /-- R163: a taken request whose code names no request. -/
  | unknownRequest (p : Port)
  /-- R160, R161: the bytes after the type byte and the end of the transaction. -/
  | submit (p : Port) (bytes : List Byte) (e : CsEnd)
  /-- R165, R166: the count of whole bytes shifted after the type byte and the end of the transaction. -/
  | collect (p : Port) (n : Nat) (e : CsEnd)
  /-- R167: the count of whole bytes shifted after the type byte and the end of the transaction. -/
  | status (p : Port) (n : Nat) (e : CsEnd)
  /-- R159: an unknown type byte, the count of whole bytes shifted after it and the end of the transaction. -/
  | unknownTypeByte (p : Port) (t : Byte) (n : Nat) (e : CsEnd)
  /-- R105, R106. -/
  | tick
  /-- R9. -/
  | settleExpiry (r : ResNo)
  /-- R35. -/
  | termExpiry (l : LeaseNo)
  /-- R85, R86. -/
  | graceExpiry (l : LeaseNo)
  /-- R60. -/
  | patienceExpiry (w : WaitNo)
  /-- R78. -/
  | promotionPatienceExpiry (l : LeaseNo)
  /-- R132. -/
  | livenessExpiry (p : Port)
  /-- R19, R46, R69, R113, R125, R143, R155, R171. -/
  | coldReset
  /-- R119: the new level of GATE_OE_N. -/
  | gateOeNChange (high : Bool)
  /-- R157. -/
  | csNFall (p : Port)
  /-- R157, R158: the first byte of the transaction, as received on MOSI. -/
  | firstByteCompletion (p : Port) (t : Byte)
  /-- R105. -/
  | refclkPeriod
  /-- R125, R171. -/
  | rstNRise
  deriving DecidableEq, Repr

end Sys2Proof
end

