-- ==== Sys2Proof/Decode.lean ====
section
/-! DEFINITION. What the bytes a host sends stand for: the type byte of a transaction (Table 10-2) and the code of a
request with its body length, authority and session need (Tables 11-3 and 8-3); and the words of the opcode table,
which give no bits to any row. -/

namespace Sys2Proof

/-- The command a word of the opcode table spells: none, since the table gives no bits to any of its 44 rows
(log entry 20). Requests travel as frames (R160, Table 11-1), not as instruction words. -/
def decodeTableWord (_nbits _w : Nat) : Option Instr := none

/-- The three transactions of Table 10-2. -/
inductive TxnKind where
  | submit
  | collect
  | status
  deriving DecidableEq, Repr

/-- Table 10-2: the transaction a type byte names; none for an unknown type byte (R159). -/
def TxnKind.ofByte (t : Byte) : Option TxnKind :=
  if t = 0xA1 then some .submit
  else if t = 0xA2 then some .collect
  else if t = 0xA3 then some .status
  else none

/-- The type byte of a transaction (Table 10-2). -/
def TxnKind.toByte : TxnKind → Byte
  | .submit => 0xA1
  | .collect => 0xA2
  | .status => 0xA3

/-- The requests of Table 11-3. -/
inductive Req where
  | attach
  | detach
  | keepalive
  | portStatus
  | acquire
  | renew
  | release
  | queryLease
  | promote
  | demote
  | cancelWait
  | queryResource
  | checkEpoch
  | scan
  | fetchNotice
  | define
  | retire
  | revoke
  | setQuota
  | bindGate
  | unbindGate
  | setTimebase
  | startTimebase
  | haltTimebase
  | evict
  | warmReset
  deriving DecidableEq, Repr

/-- The code of a request (Table 11-3). -/
def Req.code : Req → Byte
  | .attach => 0x01
  | .detach => 0x02
  | .keepalive => 0x03
  | .portStatus => 0x04
  | .acquire => 0x10
  | .renew => 0x11
  | .release => 0x12
  | .queryLease => 0x13
  | .promote => 0x14
  | .demote => 0x15
  | .cancelWait => 0x18
  | .queryResource => 0x20
  | .checkEpoch => 0x21
  | .scan => 0x22
  | .fetchNotice => 0x28
  | .define => 0x40
  | .retire => 0x41
  | .revoke => 0x42
  | .setQuota => 0x43
  | .bindGate => 0x44
  | .unbindGate => 0x45
  | .setTimebase => 0x46
  | .startTimebase => 0x47
  | .haltTimebase => 0x48
  | .evict => 0x49
  | .warmReset => 0x4A

/-- The one body length of a request (Table 11-3, R172). -/
def Req.bodyLen : Req → Nat
  | .attach => 2
  | .detach => 0
  | .keepalive => 0
  | .portStatus => 1
  | .acquire => 7
  | .renew => 4
  | .release => 2
  | .queryLease => 2
  | .promote => 4
  | .demote => 2
  | .cancelWait => 2
  | .queryResource => 1
  | .checkEpoch => 5
  | .scan => 6
  | .fetchNotice => 0
  | .define => 10
  | .retire => 1
  | .revoke => 2
  | .setQuota => 3
  | .bindGate => 4
  | .unbindGate => 1
  | .setTimebase => 2
  | .startTimebase => 0
  | .haltTimebase => 0
  | .evict => 1
  | .warmReset => 0

/-- The supervisor requests, refused NOT_PERMITTED on P1, P2 and P3 (Table 8-3). -/
def Req.supervisor : Req → Bool
  | .define | .retire | .revoke | .setQuota | .bindGate | .unbindGate | .setTimebase | .startTimebase
  | .haltTimebase | .evict | .warmReset => true
  | _ => false

/-- The requests that need a session on the requesting port (Table 8-3). -/
def Req.needsSession : Req → Bool
  | .attach | .queryResource | .checkEpoch | .scan | .portStatus => false
  | _ => true

/-- Every request of Table 11-3. -/
def Req.all : List Req :=
  [.attach, .detach, .keepalive, .portStatus, .acquire, .renew, .release, .queryLease, .promote, .demote,
   .cancelWait, .queryResource, .checkEpoch, .scan, .fetchNotice, .define, .retire, .revoke, .setQuota, .bindGate,
   .unbindGate, .setTimebase, .startTimebase, .haltTimebase, .evict, .warmReset]

/-- The request a code names; none for every code not in Table 11-3, 0x00 included. -/
def Req.ofCode (c : Byte) : Option Req := Req.all.find? fun k => k.code == c

end Sys2Proof
end

