-- ==== Sys2Proof/Config.lean ====
section
/-! DEFINITION. What the part fixes once (capacities and cold reset values), and the free values: constants without
a body for the three orders the spec leaves open. -/

namespace Sys2Proof.Config

/-- Entries of a request queue and of a response queue (R156, Table 0-4). -/
def queueDepth : Nat := 4

/-- Most body bytes of a request frame (R161, Table 11-1). -/
def maxBody : Nat := 24

/-- Most bytes of a SUBMIT frame that are stored (R156, Table 10-1). -/
def maxStored : Nat := 28

/-- The divider after cold reset (R113). -/
def resetDivider : Nat := 10000

/-- The default lease quota of every port (R143). -/
def resetLeaseQuota : Byte := 24

/-- The default wait quota of every port (R143). -/
def resetWaitQuota : Byte := 12

/-- FREE VALUE (log entry 6). In the session end numbered by the first argument, the resources where the port had a
live claim are treated in rising order of this rank. R137 says that they need no order, and R146 that two entries
the session end gives to another port stand in whichever order was taken. -/
opaque treatmentRank : Nat → ResNo → Nat

/-- FREE VALUE (log entry 7). When the forced end of a lease of P0 completes a retirement, whether the RETIRED entry
of R100 is appended before the REVOKED entry of R86. R146 names both entries and gives no order. -/
opaque retiredBeforeRevoked : Nat → Bool

/-- FREE VALUE (log entry 5). The countdowns that a tick in progress has still to reach when it ends are reached in rising
order of this rank of their codes. R108 says that a tick reaches its records without order among them. -/
opaque expiryRank : Nat → Nat → Nat

end Sys2Proof.Config
end

