-- ==== Sys2Proof/Machine/State.lean ====
section
/-! DEFINITION. The state of the part as plain data: the records of its eight blocks, the input pins, the queue of
waiting commands and the model's three bookkeeping fields; the value of all of it at reset. -/

namespace Sys2Proof.Machine

/-! ### Resource table (R1, Table 1-1) -/

/-- The mode of a lease or of a wait (R26). -/
inductive Mode where
  | exclusive
  | shared
  deriving DecidableEq, Repr

/-- The seven attributes of a resource (R2, Table 1-2). -/
structure Attrs where
  cls : Byte
  shareLimit : Byte
  defaultTerm : Half
  maxTerm : Half
  grace : Byte
  settle : Byte
  queueLimit : Byte
  deriving DecidableEq, Repr

/-- Cleared attributes, which a host sees as 0 (R2). -/
def Attrs.cleared : Attrs := ⟨0, 0, 0, 0, 0, 0, 0⟩

/-- The six states of a resource (R3); settle remaining is present in SETTLING only. -/
inductive ResState where
  | undefined
  | free
  | exclusive
  | shared
  | settling (left : Byte)
  | retiring
  deriving DecidableEq, Repr

/-- A resource record (Table 1-1). Ids are held as record indexes: a listed record keeps its generation while it is
listed (log entry 11). -/
structure Resource where
  st : ResState
  attrs : Attrs
  epoch : Quad
  holders : List LeaseNo
  queue : List WaitNo
  slot : Option LeaseNo
  retireNotice : Bool
  deriving DecidableEq, Repr

/-! ### Lease pool (R21, Table 2-1) -/

/-- The revoke causes, lowest rank first (Table 5-1). -/
inductive RevokeCause where
  | term
  | supervisor
  | retire
  deriving DecidableEq, Repr

/-- The fields of a lease record present whenever it is out of FREE (Table 2-1). -/
structure Claim where
  port : Port
  res : ResNo
  mode : Mode
  contend : Bool
  deriving DecidableEq, Repr

/-- The fields of a lease record present in ACTIVE, GRACE and ENDED (Table 2-1). -/
structure Holding where
  claim : Claim
  epoch : Quad
  grantedTerm : Half
  renews : Half
  deriving DecidableEq, Repr

/-- The further fields of an ACTIVE lease: term remaining, contention sent flag, promotion part (Table 2-1). -/
structure ActivePart where
  termLeft : Half
  sent : Bool
  promo : Option Half
  deriving DecidableEq, Repr

/-- The further fields of a lease in GRACE: grace remaining, revoke cause, contention sent flag (Table 2-1). -/
structure GracePart where
  graceLeft : Byte
  cause : RevokeCause
  sent : Bool
  deriving DecidableEq, Repr

/-- The five states of a lease record, each with the fields Table 2-1 gives it (R24). An ENDED lease has the end cause
REVOKED, its only value. -/
inductive LeaseState where
  | free
  | reserved (c : Claim)
  | active (h : Holding) (a : ActivePart)
  | grace (h : Holding) (g : GracePart)
  | ended (h : Holding) (cause : RevokeCause)
  deriving DecidableEq, Repr

/-- A lease record: its generation (R22) and its state. -/
structure Lease where
  gen : Byte
  st : LeaseState
  deriving DecidableEq, Repr

/-! ### Wait queues (R48, Table 3-1) -/

/-- The end causes of a wait (Table 3-1). -/
inductive WaitEnd where
  | expired
  | withdrawn
  deriving DecidableEq, Repr

/-- The fields of a wait record present in WAITING and ENDED (Table 3-1). -/
structure WaitClaim where
  port : Port
  res : ResNo
  mode : Mode
  term : Half
  contend : Bool
  deriving DecidableEq, Repr

/-- The three states of a wait record (R50). -/
inductive WaitState where
  | free
  | waiting (c : WaitClaim) (patience : Half) (reserved : LeaseNo)
  | ended (c : WaitClaim) (cause : WaitEnd)
  deriving DecidableEq, Repr

/-- A wait record: its generation (R49) and its state. -/
structure Wait where
  gen : Byte
  st : WaitState
  deriving DecidableEq, Repr

/-! ### Timebase (R104) -/

/-- The state of the timebase. -/
inductive TbMode where
  | halted
  | running
  deriving DecidableEq, Repr

/-- The timebase record (R104). -/
structure Timebase where
  mode : TbMode
  divider : Nat
  prescaler : Nat
  deriving DecidableEq, Repr

/-! ### Gate unit (R115, Table 7-1) -/

/-- The polarity of a gate. -/
inductive Polarity where
  | activeHigh
  | activeLow
  deriving DecidableEq, Repr

/-- The resource and port of a bound gate. -/
structure Binding where
  res : ResNo
  port : Port
  deriving DecidableEq, Repr

/-- A gate binding: the resource and port are absent while it is unbound, the polarity is kept (R115). -/
structure Gate where
  binding : Option Binding
  polarity : Polarity
  deriving DecidableEq, Repr

/-! ### Session unit (R127, Table 8-1) -/

/-- The last end cause of a session. -/
inductive EndCause where
  | none
  | detach
  | silent
  | evicted
  | reattach
  | warmReset
  deriving DecidableEq, Repr

/-- The three states of a session record (R128); liveness remaining is present while ATTACHED with a window above 0. -/
inductive SessState where
  | detached
  | attached (live : Option Half)
  | lost
  deriving DecidableEq, Repr

/-- A session record (Table 8-1). -/
structure Session where
  st : SessState
  number : Half
  window : Half
  leaseQuota : Byte
  waitQuota : Byte
  lastEnd : EndCause
  deriving DecidableEq, Repr

/-! ### Notice unit (R144) -/

/-- The reference of an attention entry. -/
inductive Ref where
  | lease (l : LeaseNo)
  | wait (w : WaitNo)
  | resource (r : ResNo)
  deriving DecidableEq, Repr

/-- An attention entry: a reference and its cause set, the sum of the causes' values (R175). -/
structure Entry where
  ref : Ref
  causes : Byte
  deriving DecidableEq, Repr

/-! ### Link ports (R156, Table 10-1) -/

/-- The results of Table 11-5. NONE is carried by the empty frame only (R166). -/
inductive Result where
  | done
  | queued
  | pending
  | ended
  | notAttached
  | notPermitted
  | unknownRequest
  | badLength
  | badArgument
  | noResource
  | retiring
  | held
  | queueFull
  | duplicate
  | quota
  | poolEmpty
  | staleId
  | notOwner
  | wrongMode
  | conflict
  | revoking
  | state
  | epochExhausted
  | none
  deriving DecidableEq, Repr

/-- A request in the request queue; LEN is the length of the body (Table 11-1). -/
structure Request where
  seq : Byte
  code : Byte
  body : List Byte
  deriving DecidableEq, Repr

/-- A response in the response queue; LEN is the length of the body (Table 11-2). -/
structure Response where
  seq : Byte
  code : Byte
  result : Result
  body : List Byte
  deriving DecidableEq, Repr

/-- What a port in SENDING shifts out: nothing of its own (STATUS), the frame of the head response, the empty frame
of R166, or a frame whose response has been discarded meanwhile (R169, R170). -/
inductive Outgoing where
  | nothing
  | response (frame : List Byte)
  | empty (frame : List Byte)
  | gone
  deriving DecidableEq, Repr

/-- The transaction state of a link port, with the status byte formed at the opening edge, the frame being received
(bytes stored, and bytes counted) and the frame being sent (with the count of its bytes shifted out). -/
inductive Txn where
  | idle
  | opening (status : Byte)
  | receiving (stored : List Byte) (count : Nat)
  | sending (o : Outgoing) (sent : Nat)
  | ignoring
  deriving DecidableEq, Repr

/-- A link port (Table 10-1), its CS_N pin, and the bytes it has shifted out whole on MISO since the last falling edge
of CS_N (the model's record of that output, log entry 15). -/
structure Link where
  requests : List Request
  responses : List Response
  refused : Bool
  badFrame : Bool
  txn : Txn
  csLow : Bool
  shifted : List Byte
  deriving DecidableEq, Repr

/-! ### The whole state -/

/-- A countdown of Table 6-2 by the record that holds it: the settle of a resource, the term or grace of a lease, the
promotion patience of a lease, the patience of a wait, the liveness of a port. -/
inductive TickRef where
  | settle (r : ResNo)
  | lease (l : LeaseNo)
  | promo (l : LeaseNo)
  | wait (w : WaitNo)
  | live (p : Port)
  deriving DecidableEq, Repr

/-- The state of the part. -/
structure State where
  /-- The commands that are waiting, first in, first out (log entry 1). -/
  pending : List Instr
  /-- RST_N is high (R19, R171). -/
  rstN : Bool
  /-- GATE_OE_N is high (R119). -/
  gateOeN : Bool
  /-- The resource table (R1). -/
  resources : Vector Resource 64
  /-- The lease pool (R21). -/
  leases : Vector Lease 96
  /-- The wait pool (R48). -/
  waits : Vector Wait 48
  /-- The timebase record (R104). -/
  timebase : Timebase
  /-- The gate bindings (R115). -/
  gates : Vector Gate 16
  /-- The session records (R127). -/
  sessions : Vector Session 4
  /-- The attention lists, oldest entry first (R144). -/
  attention : Vector (List Entry) 4
  /-- The link ports (R156). -/
  links : Vector Link 4
  /-- The model's own: the countdowns that the tick in progress has still to reach (R108, log entry 5). -/
  due : List TickRef
  /-- The model's own: for each tick to come, first in, first out, the countdowns it reaches later than its own event (R108,
  log entry 5); the list is placed from outside, as the waiting commands are. -/
  late : List (List TickRef)
  /-- The model's own: how many free values have been used (log entry 8). -/
  freeCount : Nat
  deriving DecidableEq, Repr

/-- The faults of the part: it has none. Every event of the spec leaves a next state, and every refusal is a result in
a response (Table 11-5). Nothing raises a fault (safe). -/
inductive Fault
  deriving DecidableEq, Repr

/-- Why the model gives a command no meaning. -/
inductive Refusal where
  /-- Raised by an arm of `exec` whose command has no meaning yet; no arm raises it (safe). -/
  | notModelled (mnemonic : String)
  deriving DecidableEq, Repr

/-! ### Reset -/

/-- A resource record after cold reset (R19). -/
def Resource.initial : Resource := ⟨.undefined, .cleared, 0, [], [], none, false⟩

/-- A lease record after cold reset (R46). -/
def Lease.initial : Lease := ⟨0, .free⟩

/-- A wait record after cold reset (R69). -/
def Wait.initial : Wait := ⟨0, .free⟩

/-- The timebase after cold reset (R113). -/
def Timebase.initial : Timebase := ⟨.halted, Config.resetDivider, 0⟩

/-- A gate binding after cold reset (R125). -/
def Gate.initial : Gate := ⟨none, .activeHigh⟩

/-- A session record after cold reset (R143). -/
def Session.initial : Session := ⟨.detached, 0, 0, Config.resetLeaseQuota, Config.resetWaitQuota, .none⟩

/-- A link port after cold reset (R171); CS_N is high (log entry 10). -/
def Link.initial : Link := ⟨[], [], false, false, .idle, false, []⟩

/-- The part right after cold reset: RST_N has risen, GATE_OE_N is low and CS_N is high on every port (log entry 10);
every record stands as the rules of each block give it. -/
def State.reset : State where
  pending := []
  rstN := true
  gateOeN := false
  resources := Vector.replicate 64 .initial
  leases := Vector.replicate 96 .initial
  waits := Vector.replicate 48 .initial
  timebase := .initial
  gates := Vector.replicate 16 .initial
  sessions := Vector.replicate 4 .initial
  attention := Vector.replicate 4 []
  links := Vector.replicate 4 .initial
  due := []
  late := []
  freeCount := 0

end Sys2Proof.Machine
end

