-- ==== Sys2Proof/Machine/Access.lean ====
section
/-! DEFINITION. Reading and replacing the records of the state, and the questions a record answers about itself. -/

namespace Sys2Proof.Machine

/-! ### Records of the state -/

def State.res (s : State) (r : ResNo) : Resource := s.resources[r]
def State.lease (s : State) (l : LeaseNo) : Lease := s.leases[l]
def State.wait (s : State) (w : WaitNo) : Wait := s.waits[w]
def State.gate (s : State) (g : GateNo) : Gate := s.gates[g]
def State.session (s : State) (p : Port) : Session := s.sessions[p]
def State.attn (s : State) (p : Port) : List Entry := s.attention[p]
def State.link (s : State) (p : Port) : Link := s.links[p]

def State.setRes (s : State) (r : ResNo) (x : Resource) : State :=
  { s with resources := s.resources.set r.val x r.isLt }
def State.setLease (s : State) (l : LeaseNo) (x : Lease) : State :=
  { s with leases := s.leases.set l.val x l.isLt }
def State.setWait (s : State) (w : WaitNo) (x : Wait) : State :=
  { s with waits := s.waits.set w.val x w.isLt }
def State.setGate (s : State) (g : GateNo) (x : Gate) : State :=
  { s with gates := s.gates.set g.val x g.isLt }
def State.setSession (s : State) (p : Port) (x : Session) : State :=
  { s with sessions := s.sessions.set p.val x p.isLt }
def State.setAttn (s : State) (p : Port) (x : List Entry) : State :=
  { s with attention := s.attention.set p.val x p.isLt }
def State.setLink (s : State) (p : Port) (x : Link) : State :=
  { s with links := s.links.set p.val x p.isLt }

/-! ### Lease records (R24) -/

/-- The port, resource, mode and contention request flag of a record out of FREE. -/
def Lease.claim? (x : Lease) : Option Claim :=
  match x.st with
  | .free => none
  | .reserved c => some c
  | .active h _ => some h.claim
  | .grace h _ => some h.claim
  | .ended h _ => some h.claim

/-- The record is FREE. -/
def Lease.isFree (x : Lease) : Bool :=
  match x.st with
  | .free => true
  | _ => false

/-- The record is ACTIVE or GRACE: a holder (R24). -/
def Lease.isHolder (x : Lease) : Bool :=
  match x.st with
  | .active _ _ => true
  | .grace _ _ => true
  | _ => false

/-- The record is ENDED: a tombstone (R43). -/
def Lease.isEnded (x : Lease) : Bool :=
  match x.st with
  | .ended _ _ => true
  | _ => false

/-- The record belongs to port `p`: it is out of FREE and names `p` (R24). -/
def Lease.ownedBy (p : Port) (x : Lease) : Bool :=
  match x.claim? with
  | some c => c.port = p
  | none => false

/-- The record is a live claim of `p` on `r`: RESERVED, ACTIVE or GRACE (R27). -/
def Lease.liveClaim (p : Port) (r : ResNo) (x : Lease) : Bool :=
  !x.isEnded && match x.claim? with
    | some c => decide (c.port = p ∧ c.res = r)
    | none => false

/-- The record returned to FREE, its generation unchanged (R22). -/
def Lease.freed (x : Lease) : Lease := { x with st := .free }

/-! ### Wait records (R50) -/

/-- The port, resource, mode, term and contention request flag of a wait out of FREE. -/
def Wait.claim? (x : Wait) : Option WaitClaim :=
  match x.st with
  | .free => none
  | .waiting c _ _ => some c
  | .ended c _ => some c

/-- The record is FREE. -/
def Wait.isFree (x : Wait) : Bool :=
  match x.st with
  | .free => true
  | _ => false

/-- The record is ENDED: a tombstone (R65). -/
def Wait.isEnded (x : Wait) : Bool :=
  match x.st with
  | .ended _ _ => true
  | _ => false

/-- The record belongs to port `p`. -/
def Wait.ownedBy (p : Port) (x : Wait) : Bool :=
  match x.claim? with
  | some c => c.port = p
  | none => false

/-- The record is a live claim of `p` on `r`: WAITING (R27). -/
def Wait.liveClaim (p : Port) (r : ResNo) (x : Wait) : Bool :=
  match x.st with
  | .waiting c _ _ => decide (c.port = p ∧ c.res = r)
  | _ => false

/-- The mode a wait out of FREE requested. -/
def Wait.mode? (x : Wait) : Option Mode := x.claim?.map (·.mode)

/-- The record returned to FREE, its generation unchanged (R49). -/
def Wait.freed (x : Wait) : Wait := { x with st := .free }

/-! ### Sessions (R128) -/

/-- The session is open. -/
def Session.isAttached (x : Session) : Bool :=
  match x.st with
  | .attached _ => true
  | _ => false

/-- The port's session is ATTACHED. -/
def State.attached (s : State) (p : Port) : Bool := (s.session p).isAttached

/-- Liveness remaining as an open session with this window sets it: absent for window 0 (R130, R132). -/
def liveOf (window : Half) : Option Half := if window = 0 then none else some window

/-! ### Generations (R22, R49) and session numbers (R130) -/

/-- The generation of a record that leaves FREE: one more, passing from 255 to 1. -/
def nextGen (g : Byte) : Byte := if g = 255 then 1 else g + 1

/-- The session number of a new session: one more, passing from 65535 to 1. -/
def nextNumber (n : Half) : Half := if n = 65535 then 1 else n + 1

/-- The last epoch (R13). -/
def maxEpoch : Quad := 0xFFFFFFFF

/-! ### Counts and searches -/

/-- A port's lease use: its lease records in RESERVED, ACTIVE, GRACE or ENDED (R45). -/
def State.leaseUse (s : State) (p : Port) : Nat := (List.finRange 96).countP fun l => (s.lease l).ownedBy p

/-- A port's leases in ACTIVE or GRACE (Table 8-4). -/
def State.leasesHeld (s : State) (p : Port) : Nat :=
  (List.finRange 96).countP fun l => (s.lease l).ownedBy p && (s.lease l).isHolder

/-- A port's lease tombstones (Table 8-4). -/
def State.leaseTombstones (s : State) (p : Port) : Nat :=
  (List.finRange 96).countP fun l => (s.lease l).ownedBy p && (s.lease l).isEnded

/-- A port's wait use: its wait records in WAITING or ENDED (R68). -/
def State.waitUse (s : State) (p : Port) : Nat := (List.finRange 48).countP fun w => (s.wait w).ownedBy p

/-- A port's wait tombstones (Table 8-4). -/
def State.waitTombstones (s : State) (p : Port) : Nat :=
  (List.finRange 48).countP fun w => (s.wait w).ownedBy p && (s.wait w).isEnded

/-- The FREE lease record with the lowest index (R25). -/
def State.freeLease? (s : State) : Option LeaseNo := (List.finRange 96).find? fun l => (s.lease l).isFree

/-- The FREE wait record with the lowest index (R51). -/
def State.freeWait? (s : State) : Option WaitNo := (List.finRange 48).find? fun w => (s.wait w).isFree

/-- Port `p` has a live claim on resource `r` (R27). -/
def State.hasLiveClaim (s : State) (p : Port) (r : ResNo) : Bool :=
  ((List.finRange 96).any fun l => (s.lease l).liveClaim p r)
    || ((List.finRange 48).any fun w => (s.wait w).liveClaim p r)

/-- Port `p` holds resource `r`: a lease of `p` on `r` is ACTIVE or GRACE. -/
def State.holds (s : State) (p : Port) (r : ResNo) : Bool :=
  (List.finRange 96).any fun l => (s.lease l).isHolder && (s.lease l).liveClaim p r

end Sys2Proof.Machine
end

