-- ==== Sys2Proof/Machine/Flags.lean ====
section
/-! DEFINITION. The flags a host sees: notice causes and the attention lists that carry them (R144 to R148), the
status byte and the sticky flags (R158), and the lines driven from them (R116, R118, R153). -/

namespace Sys2Proof.Machine

/-! ### Causes and attention lists -/

/-- The causes of Table 9-1. -/
inductive Cause where
  | granted
  | contended
  | revokePending
  | rescued
  | revoked
  | promoted
  | promoteEnded
  | expired
  | withdrawn
  | retired
  deriving DecidableEq, Repr

/-- The value of a cause in a cause set, by the kind of its record (R175). -/
def Cause.value : Cause → Byte
  | .granted => 1
  | .contended => 2
  | .revokePending => 4
  | .rescued => 8
  | .revoked => 16
  | .promoted => 32
  | .promoteEnded => 64
  | .expired => 1
  | .withdrawn => 2
  | .retired => 1

/-- A list after one flagging (R145): the cause joins the record's entry, which keeps its place, or a new entry is
appended at the tail. -/
def addCause (x : Ref) (c : Cause) : List Entry → List Entry
  | [] => [⟨x, c.value⟩]
  | e :: es => if e.ref = x then { e with causes := e.causes ||| c.value } :: es else e :: addCause x c es

/-- A flagging at the list of port `p` (R145). -/
def State.flag (s : State) (p : Port) (x : Ref) (c : Cause) : State := s.setAttn p (addCause x c (s.attn p))

/-- A flagging on a lease, at the list of the port the record names (R145). -/
def State.flagLease (s : State) (l : LeaseNo) (c : Cause) : State :=
  match (s.lease l).claim? with
  | some k => s.flag k.port (.lease l) c
  | none => s

/-- The withdrawal of a record's entry from the list of port `p`, wherever it stands (R148). -/
def State.withdraw (s : State) (p : Port) (x : Ref) : State := s.setAttn p ((s.attn p).filter fun e => e.ref ≠ x)

/-- ATTN_N of port `p` is driven low: its list holds at least one entry, and RST_N is high (R153). -/
def State.attnLow (s : State) (p : Port) : Bool := s.rstN && !(s.attn p).isEmpty

/-! ### The status byte -/

/-- Bit `i` of a byte set when the condition holds. -/
def bitIf (b : Bool) (v : Byte) : Byte := if b then v else 0

/-- The status byte of port `p` as the state stands (R158, Table 10-3). -/
def State.statusByte (s : State) (p : Port) : Byte :=
  bitIf (s.attached p) 0x80
    ||| bitIf (!(s.attn p).isEmpty) 0x40
    ||| bitIf (!(s.link p).responses.isEmpty) 0x20
    ||| bitIf (s.link p).refused 0x10
    ||| bitIf (s.link p).badFrame 0x08
    ||| BitVec.ofNat 8 (Config.queueDepth - (s.link p).requests.length)

/-- The sticky flags after a status byte has been shifted out whole: each flag it carried as set is cleared (R158). -/
def Link.clearCarried (k : Link) (status : Byte) : Link :=
  { k with
    refused := k.refused && status &&& 0x10 == 0
    badFrame := k.badFrame && status &&& 0x08 == 0 }

/-! ### Gate outputs -/

/-- Gate `g` is asserted (R116). -/
def State.asserted (s : State) (g : GateNo) : Bool :=
  match (s.gate g).binding with
  | some b => s.holds b.port b.res
  | none => false

/-- What a three-state output drives. -/
inductive Level where
  | low
  | high
  | highZ
  deriving DecidableEq, Repr

/-- The active level of a polarity (R118). -/
def Polarity.active : Polarity → Level
  | .activeHigh => .high
  | .activeLow => .low

/-- The inactive level of a polarity (R118). -/
def Polarity.inactive : Polarity → Level
  | .activeHigh => .low
  | .activeLow => .high

/-- The output of gate `g` (Table 7-3). -/
def State.gateLevel (s : State) (g : GateNo) : Level :=
  if !s.rstN then .highZ
  else if s.gateOeN then .highZ
  else if s.asserted g then (s.gate g).polarity.active
  else (s.gate g).polarity.inactive

/-- The port drives MISO: from the falling edge of CS_N that takes it out of IDLE to the rising edge (R157, R171). -/
def Link.misoDriven (k : Link) : Bool := k.txn ≠ .idle

end Sys2Proof.Machine
end

