-- ==== Sys2Proof/Machine/Wire.lean ====
section
/-! DEFINITION. Bytes on the wire: the values of results and enumerated fields (Tables 11-5 and 11-6), the check byte
(R162), whole frames (Tables 11-1 and 11-2), and the reports of records (Tables 1-6, 2-8, 8-4, 11-4). -/

namespace Sys2Proof.Machine

/-! ### Numbers -/

/-- A two-byte field, most significant byte first (section 0.12). -/
def bytes2 (x : Half) : List Byte := [x.extractLsb' 8 8, x.extractLsb' 0 8]

/-- A four-byte field, most significant byte first (section 0.12). -/
def bytes4 (x : Quad) : List Byte :=
  [x.extractLsb' 24 8, x.extractLsb' 16 8, x.extractLsb' 8 8, x.extractLsb' 0 8]

/-- A count or a number sent in one byte. -/
def byteOf (n : Nat) : Byte := BitVec.ofNat 8 n

/-- A flag of one byte: 0 clear, 1 set (Table 11-6). -/
def flagByte (b : Bool) : Byte := if b then 1 else 0

/-! ### Values of enumerated fields -/

/-- Table 11-5. -/
def Result.value : Result → Byte
  | .done => 0x00
  | .queued => 0x01
  | .pending => 0x02
  | .ended => 0x03
  | .notAttached => 0x10
  | .notPermitted => 0x11
  | .unknownRequest => 0x12
  | .badLength => 0x13
  | .badArgument => 0x14
  | .noResource => 0x15
  | .retiring => 0x16
  | .held => 0x17
  | .queueFull => 0x18
  | .duplicate => 0x19
  | .quota => 0x1A
  | .poolEmpty => 0x1B
  | .staleId => 0x1C
  | .notOwner => 0x1D
  | .wrongMode => 0x1E
  | .conflict => 0x1F
  | .revoking => 0x20
  | .state => 0x21
  | .epochExhausted => 0x22
  | .none => 0xFF

/-- Resource state (Table 11-6). -/
def ResState.value : ResState → Byte
  | .undefined => 0
  | .free => 1
  | .exclusive => 2
  | .shared => 3
  | .settling _ => 4
  | .retiring => 5

/-- Mode (Table 11-6). -/
def Mode.value : Mode → Byte
  | .exclusive => 1
  | .shared => 2

/-- Revoke cause (Table 11-6). -/
def RevokeCause.value : RevokeCause → Byte
  | .term => 1
  | .supervisor => 2
  | .retire => 3

/-- End cause REVOKED of a lease (Table 11-6). -/
def endRevoked : Byte := 1

/-- End cause of a wait (Table 11-6). -/
def WaitEnd.value : WaitEnd → Byte
  | .expired => 2
  | .withdrawn => 3

/-- Session state (Table 11-6). -/
def SessState.value : SessState → Byte
  | .detached => 0
  | .attached _ => 1
  | .lost => 2

/-- Last end cause (Table 11-6). -/
def EndCause.value : EndCause → Byte
  | .none => 0
  | .detach => 1
  | .silent => 2
  | .evicted => 3
  | .reattach => 4
  | .warmReset => 5

/-- Timebase state (Table 11-6). -/
def TbMode.value : TbMode → Byte
  | .halted => 0
  | .running => 1

/-- Polarity (Table 11-6). -/
def Polarity.value : Polarity → Byte
  | .activeHigh => 0
  | .activeLow => 1

/-- A port number in one byte. -/
def portByte (p : Port) : Byte := byteOf p.val

/-! ### The check byte (R162) -/

/-- One shift of the check register: the generator 0x07 is combined when the bit shifted out is 1. -/
def crcShift (reg : Byte) : Byte := if reg.msb then (reg <<< 1) ^^^ 0x07 else reg <<< 1

/-- One byte taken into the check register: exclusive-or, then eight shifts. -/
def crcByte (reg b : Byte) : Byte :=
  crcShift (crcShift (crcShift (crcShift (crcShift (crcShift (crcShift (crcShift (reg ^^^ b))))))))

/-- The check byte over the bytes of a frame that precede it: register 0xFF at first, no final inversion. -/
def crc8 (bs : List Byte) : Byte := bs.foldl crcByte 0xFF

/-! ### Frames -/

/-- A response frame as sent (Table 11-2): SEQ, CODE, RESULT, LEN, BODY and the check byte over them. -/
def Response.frame (r : Response) : List Byte :=
  let head := [r.seq, r.code, r.result.value, byteOf r.body.length] ++ r.body
  head ++ [crc8 head]

/-- The empty frame of R166: SEQ 0, CODE 0, RESULT NONE, LEN 0. -/
def emptyFrame : List Byte := Response.frame ⟨0, 0, .none, []⟩

/-- A request frame as a host sends it after the type byte (Table 11-1). -/
def Request.frame (r : Request) : List Byte :=
  let head := [r.seq, r.code, byteOf r.body.length] ++ r.body
  head ++ [crc8 head]

/-! ### Reports of records -/

/-- One holder entry of a QUERY_RESOURCE answer (Table 1-6): port, mode, lease state, revoke cause. -/
def Lease.holderEntry (x : Lease) : List Byte :=
  match x.st with
  | .active h _ => [portByte h.claim.port, h.claim.mode.value, 1, 0]
  | .grace h g => [portByte h.claim.port, h.claim.mode.value, 2, g.cause.value]
  | _ => [0, 0, 0, 0]

/-- Settle remaining as reported: 0 outside SETTLING (Table 1-6). -/
def ResState.settleLeft : ResState → Byte
  | .settling n => n
  | _ => 0

/-- The port of the lease in the promotion slot, 0xFF when the slot is empty (Table 11-4). -/
def State.slotPort (s : State) (x : Resource) : Byte :=
  match x.slot with
  | some l => ((s.lease l).claim?.map fun c => portByte c.port).getD 0xFF
  | none => 0xFF

/-- The head waiter's port and mode, 0xFF and 0 when the queue is empty (Table 11-4). -/
def State.headWaiter (s : State) (x : Resource) : List Byte :=
  match x.queue with
  | w :: _ => ((s.wait w).claim?.map fun c => [portByte c.port, c.mode.value]).getD [0xFF, 0]
  | [] => [0xFF, 0]

/-- The body of a QUERY_RESOURCE answer and the snapshot of a resource (Table 1-6, Table 11-4). -/
def State.resourceReport (s : State) (r : ResNo) : List Byte :=
  let x := s.res r
  [byteOf r.val, x.st.value, x.attrs.cls, x.attrs.shareLimit] ++ bytes2 x.attrs.defaultTerm ++ bytes2 x.attrs.maxTerm
    ++ [x.attrs.grace, x.attrs.settle, x.attrs.queueLimit] ++ bytes4 x.epoch ++ [byteOf x.holders.length]
    ++ x.holders.flatMap (fun l => (s.lease l).holderEntry)
    ++ [byteOf x.queue.length] ++ s.headWaiter x
    ++ [x.st.settleLeft, s.slotPort x, flagByte x.retireNotice]

/-- The fields of a lease report in their order on the wire (Table 2-8, Table 11-4). -/
def leaseReportOf (l : LeaseNo) (gen st : Byte) (h : Holding) (termLeft : Half) (graceLeft cause endCause : Byte)
    (sent : Bool) (promo : Half) : List Byte :=
  [byteOf l.val, gen, st, byteOf h.claim.res.val, h.claim.mode.value] ++ bytes4 h.epoch ++ bytes2 h.grantedTerm
    ++ bytes2 termLeft ++ [graceLeft, cause, endCause] ++ bytes2 h.renews
    ++ [flagByte h.claim.contend, flagByte sent] ++ bytes2 promo

/-- The body of a QUERY_LEASE answer and the snapshot of a lease; a field absent in the state is 0 (R44, R150). A record
in FREE or RESERVED is never reported (R23, R144). -/
def Lease.report (x : Lease) (l : LeaseNo) : List Byte :=
  match x.st with
  | .active h a => leaseReportOf l x.gen 1 h a.termLeft 0 0 0 a.sent (a.promo.getD 0)
  | .grace h g => leaseReportOf l x.gen 2 h 0 g.graceLeft g.cause.value 0 g.sent 0
  | .ended h c => leaseReportOf l x.gen 3 h 0 0 c.value endRevoked false 0
  | _ => [byteOf l.val, x.gen] ++ List.replicate 20 0

/-- The snapshot of a wait (R150, Table 11-4). A listed wait is always ENDED (R144). -/
def Wait.report (x : Wait) (w : WaitNo) : List Byte :=
  match x.st with
  | .ended c e =>
    [byteOf w.val, x.gen, 3, byteOf c.res.val, c.mode.value] ++ bytes2 c.term ++ [flagByte c.contend, e.value]
  | _ => [byteOf w.val, x.gen] ++ List.replicate 7 0

/-- The body of a PORT_STATUS answer (Table 8-4, Table 11-4). -/
def State.portReport (s : State) (p : Port) : List Byte :=
  let x := s.session p
  let live : Half := match x.st with
    | .attached n => n.getD 0
    | _ => 0
  [portByte p, x.st.value] ++ bytes2 x.number ++ bytes2 x.window ++ bytes2 live
    ++ [x.leaseQuota, x.waitQuota, byteOf (s.leaseUse p), byteOf (s.leasesHeld p), byteOf (s.leaseTombstones p),
        byteOf (s.waitUse p), byteOf (s.waitTombstones p), byteOf (s.attn p).length, x.lastEnd.value]

/-- The four bytes that report a binding (Table 11-4); the resource and port of an unbound gate are sent as 0 (R175,
log entry 12). -/
def Gate.report (x : Gate) : List Byte :=
  match x.binding with
  | some b => [1, byteOf b.res.val, portByte b.port, x.polarity.value]
  | none => [0, 0, 0, x.polarity.value]

/-- The kind byte of a reference (Table 11-6). -/
def Ref.kind : Ref → Byte
  | .lease _ => 1
  | .wait _ => 2
  | .resource _ => 3

/-- The index byte of a reference. -/
def Ref.index : Ref → Byte
  | .lease l => byteOf l.val
  | .wait w => byteOf w.val
  | .resource r => byteOf r.val

/-- The snapshot of the record a reference names (R150). -/
def State.snapshot (s : State) : Ref → List Byte
  | .lease l => (s.lease l).report l
  | .wait w => (s.wait w).report w
  | .resource r => s.resourceReport r

end Sys2Proof.Machine
end

