-- ==== Sys2Proof/Machine/Operands.lean ====
section
/-! DEFINITION. The operand forms of the requests: the fields of a request body (Table 11-3) with their ranges (R173)
and the resolution of lease and wait ids (R23, R49, R174). -/

namespace Sys2Proof.Machine

/-- The one-byte field at an offset of a body. -/
def byteAt (body : List Byte) (i : Nat) : Byte := body.getD i 0

/-- The two-byte field at an offset of a body, most significant byte first. -/
def halfAt (body : List Byte) (i : Nat) : Half := byteAt body i ++ byteAt body (i + 1)

/-- The four-byte field at an offset of a body, most significant byte first. -/
def quadAt (body : List Byte) (i : Nat) : Quad := halfAt body i ++ halfAt body (i + 2)

/-- A number below a bound; none above it. -/
def below (n : Nat) (b : Byte) : Option (Fin n) := if h : b.toNat < n then some ⟨b.toNat, h⟩ else none

/-- A resource number: above 63 refused BAD_ARGUMENT (R173). -/
def resArg (body : List Byte) (i : Nat) : Option ResNo := below 64 (byteAt body i)

/-- A port number: above 3 refused BAD_ARGUMENT (R173). -/
def portArg (body : List Byte) (i : Nat) : Option Port := below 4 (byteAt body i)

/-- A gate number: above 15 refused BAD_ARGUMENT (R173). -/
def gateArg (body : List Byte) (i : Nat) : Option GateNo := below 16 (byteAt body i)

/-- The mode field (Table 11-4a). -/
def modeArg (b : Byte) : Option Mode :=
  if b = 0x01 then some .exclusive else if b = 0x02 then some .shared else none

/-- The flags field of ACQUIRE: CONTEND or no flag (R26, Table 11-4a). -/
def contendArg (b : Byte) : Option Bool :=
  if b = 0x00 then some false else if b = 0x01 then some true else none

/-- The polarity field (Table 11-4a). -/
def polarityArg (b : Byte) : Option Polarity :=
  if b = 0x00 then some .activeHigh else if b = 0x01 then some .activeLow else none

/-- What a lease id names (R23): nothing (stale), a lease of another port, or a lease of the requesting port. -/
inductive LeaseId where
  | stale
  | notOwner
  | names (l : LeaseNo)
  deriving DecidableEq, Repr

/-- The resolution of a lease id for port `p` (R23): the staleness check comes before the owner check. -/
def State.resolveLease (s : State) (p : Port) (index gen : Byte) : LeaseId :=
  match below 96 index with
  | none => .stale
  | some l =>
    let x := s.lease l
    if gen ≠ 0 ∧ x.gen = gen ∧ (x.isHolder ∨ x.isEnded) then
      if x.ownedBy p then .names l else .notOwner
    else .stale

/-- What a wait id names (R49). -/
inductive WaitId where
  | stale
  | notOwner
  | names (w : WaitNo)
  deriving DecidableEq, Repr

/-- The resolution of a wait id for port `p` (R49): the staleness check comes before the owner check. -/
def State.resolveWait (s : State) (p : Port) (index gen : Byte) : WaitId :=
  match below 48 index with
  | none => .stale
  | some w =>
    let x := s.wait w
    if gen ≠ 0 ∧ x.gen = gen ∧ ¬ x.isFree then
      if x.ownedBy p then .names w else .notOwner
    else .stale

/-- The term given (R29): 0 asks for the default term, more than the max term gives the max term. -/
def Attrs.givenTerm (a : Attrs) (term : Half) : Half :=
  if term = 0 then a.defaultTerm else if a.maxTerm < term then a.maxTerm else term

/-- The criteria of a SCAN that its selector names (Table 1-7, R173). -/
structure ScanArgs where
  start : ResNo
  cls : Option Byte
  states : Option Byte
  holder : Option Port
  waiters : Option Bool
  deriving DecidableEq, Repr

/-- One SCAN argument, examined only when its criterion is named (R17): `none` is a bad argument. -/
def scanArg {α : Type} (named : Bool) (value : Option α) : Option (Option α) :=
  if named then value.map some else some none

/-- The arguments of a SCAN body, or none for BAD_ARGUMENT (R17, R173). -/
def scanArgs (body : List Byte) : Option ScanArgs := do
  let sel := byteAt body 1
  let start ← resArg body 0
  if 15 < sel.toNat then none
  else
    let cls ← scanArg (sel.getLsbD 0) (if (byteAt body 2).toNat ≤ 15 then some (byteAt body 2) else none)
    let states ← scanArg (sel.getLsbD 1)
      (if 1 ≤ (byteAt body 3).toNat ∧ (byteAt body 3).toNat ≤ 63 then some (byteAt body 3) else none)
    let holder ← scanArg (sel.getLsbD 2) (portArg body 4)
    let waiters ← scanArg (sel.getLsbD 3)
      (if byteAt body 5 = 0 then some false else if byteAt body 5 = 1 then some true else none)
    some ⟨start, cls, states, holder, waiters⟩

end Sys2Proof.Machine
end

