-- ==== Sys2Proof/Machine/Ops.lean ====
section
/-! DEFINITION. The shared operations of the record stores: holders joining and leaving, the grant pass, promotion,
grace and the forced end, waits leaving, session end, and the tick at one record. Each is taken within the event that
calls it. A record that is not in the state an operation speaks of is left as it is (log entry 18). -/

namespace Sys2Proof.Machine

/-- The state after a free value has been used (log entry 8). -/
def State.spendFree (s : State) : State := { s with freeCount := s.freeCount + 1 }

/-! ### Holders joining (R6, R11, R12) -/

/-- The holding state a mode gives a FREE resource (R6). -/
def Mode.resState : Mode → ResState
  | .exclusive => .exclusive
  | .shared => .shared

/-- A resource after a grant (R6): the lease joins at the tail; from FREE a new holding period begins and the epoch
increments by one (R11), otherwise the epoch does not change (R12). -/
def Resource.join (x : Resource) (l : LeaseNo) (m : Mode) : Resource :=
  match x.st with
  | .free => { x with st := m.resState, epoch := x.epoch + 1, holders := x.holders ++ [l] }
  | _ => { x with holders := x.holders ++ [l] }

/-- A lease as a grant makes it ACTIVE (R30, R57). -/
def grantedState (c : Claim) (epoch : Quad) (term : Half) : LeaseState :=
  .active ⟨c, epoch, term, 0⟩ ⟨term, false, none⟩

/-! ### The grant pass (R54 to R57) -/

/-- The grant of a wait (R57): the wait leaves the queue and returns to FREE, its reserved lease becomes ACTIVE and
joins the holder list, and GRANTED is flagged on the lease. -/
def State.grantWait (s : State) (r : ResNo) (w : WaitNo) : State :=
  match (s.wait w).st with
  | .waiting c _ l =>
    match (s.lease l).st with
    | .reserved k =>
      let x := (s.res r).join l k.mode
      let term := (s.res r).attrs.givenTerm c.term
      let s1 := s.setRes r { x with queue := x.queue.filter (· ≠ w) }
      let s2 := s1.setWait w (s.wait w).freed
      let s3 := s2.setLease l { s.lease l with st := grantedState k x.epoch term }
      s3.flag k.port (.lease l) .granted
    | _ => s
  | _ => s

/-- The shared part of a pass (R55, R56): the queue is served from its head while the head asked for SHARED and the
holder count is below the share limit. -/
def State.grantShared (s : State) (r : ResNo) : List WaitNo → State
  | [] => s
  | w :: ws =>
    if (s.wait w).mode? = some .shared ∧ (s.res r).holders.length < (s.res r).attrs.shareLimit.toNat then
      (s.grantWait r w).grantShared r ws
    else s

/-- The grant pass at resource `r` (R54): it serves a FREE resource whose epoch is not exhausted (R55) or a SHARED one
with an empty promotion slot (R56), and otherwise changes nothing. -/
def State.grantPass (s : State) (r : ResNo) : State :=
  match (s.res r).st with
  | .free =>
    match (s.res r).queue with
    | [] => s
    | w :: ws =>
      if (s.res r).epoch = maxEpoch then s
      else if (s.wait w).mode? = some .shared then (s.grantWait r w).grantShared r ws
      else s.grantWait r w
  | .shared => if (s.res r).slot = none then s.grantShared r (s.res r).queue else s
  | _ => s

/-! ### Promotion (R73, R76, R77) -/

/-- A lease made EXCLUSIVE under a new epoch, its promotion part absent; everything else is kept (R73, R76). -/
def promotedState (h : Holding) (a : ActivePart) (epoch : Quad) : LeaseState :=
  .active { h with claim := { h.claim with mode := .exclusive }, epoch := epoch } { a with promo := none }

/-- A pending promotion whose lease `l` is left the only holder: it completes (R76), or ends unserved at an exhausted
epoch (R77). -/
def State.promotionCompletes (s : State) (r : ResNo) (l : LeaseNo) : State :=
  match (s.lease l).st with
  | .active h a =>
    let x := s.res r
    if x.epoch = maxEpoch then
      let s1 := (s.setRes r { x with slot := none }).setLease l { s.lease l with st := .active h { a with promo := none } }
      (s1.flag h.claim.port (.lease l) .promoteEnded).grantPass r
    else
      let e := x.epoch + 1
      let s1 := (s.setRes r { x with slot := none, epoch := e, st := .exclusive }).setLease l
        { s.lease l with st := promotedState h a e }
      (s1.flag h.claim.port (.lease l) .promoted).grantPass r
  | _ => s

/-! ### Holders leaving (R7, R8, R100) -/

/-- The completion of a retirement (R100): UNDEFINED, attributes cleared, epoch kept, flag cleared, and RETIRED flagged
to P0 if it is ATTACHED. -/
def State.completeRetirement (s : State) (r : ResNo) : State :=
  let s1 := s.setRes r { s.res r with st := .undefined, attrs := .cleared, retireNotice := false }
  if s.attached 0 then s1.flag 0 (.resource r) .retired else s1

/-- The last holder has left (R8). -/
def State.lastHolderLeft (s : State) (r : ResNo) : State :=
  let x := s.res r
  match x.st with
  | .retiring => s.completeRetirement r
  | .exclusive | .shared =>
    if x.attrs.settle = 0 then (s.setRes r { x with st := .free }).grantPass r
    else s.setRes r { x with st := .settling x.attrs.settle }
  | _ => s

/-- A resource without the lease `l` in its holder list, its slot emptied if `l` occupied it (R7, R80). -/
def Resource.without (x : Resource) (l : LeaseNo) : Resource :=
  { x with holders := x.holders.filter (· ≠ l), slot := if x.slot = some l then none else x.slot }

/-- Lease `l` leaves the holder list of resource `r`, which follows R7 or R8. -/
def State.leave (s : State) (r : ResNo) (l : LeaseNo) : State :=
  let x := (s.res r).without l
  let s1 := s.setRes r x
  match x.holders with
  | [] => s1.lastHolderLeft r
  | [q] => if x.slot = some q then s1.promotionCompletes r q else s1.grantPass r
  | _ => s1.grantPass r

/-! ### Grace and the forced end (R84 to R87) -/

/-- The rank of a revoke cause (section 5.1): RETIRE above SUPERVISOR above TERM. -/
def RevokeCause.rank : RevokeCause → Nat
  | .term => 0
  | .supervisor => 1
  | .retire => 2

/-- The higher-ranked of two causes (R87). -/
def RevokeCause.higher (a b : RevokeCause) : RevokeCause := if a.rank < b.rank then b else a

/-- An ACTIVE lease is placed in grace (R84) and a promotion of it ends (R79). The forced end for a grace of 0 and the
grant pass of R79 follow in the caller's event. -/
def State.enterGrace (s : State) (l : LeaseNo) (c : RevokeCause) (g : Byte) : State :=
  match (s.lease l).st with
  | .active h a =>
    let r := h.claim.res
    let s1 := s.setLease l { s.lease l with st := .grace h ⟨g, c, a.sent⟩ }
    let s2 := s1.flag h.claim.port (.lease l) .revokePending
    if (s.res r).slot = some l then
      (s2.setRes r { s.res r with slot := none }).flag h.claim.port (.lease l) .promoteEnded
    else s2
  | _ => s

/-- Escalation of a lease in GRACE (R87). -/
def State.escalate (s : State) (l : LeaseNo) (c : RevokeCause) (g : Byte) : State :=
  match (s.lease l).st with
  | .grace h x =>
    let y : GracePart := { x with cause := x.cause.higher c, graceLeft := if g < x.graceLeft then g else x.graceLeft }
    let s1 := s.setLease l { s.lease l with st := .grace h y }
    if y.cause ≠ x.cause ∨ y.graceLeft ≠ x.graceLeft then s1.flag h.claim.port (.lease l) .revokePending else s1
  | _ => s

/-- REVOKE and RETIRE at one holder: grace from ACTIVE, escalation in GRACE (R91, R98). -/
def State.applyRevocation (c : RevokeCause) (g : Byte) (s : State) (l : LeaseNo) : State :=
  match (s.lease l).st with
  | .active _ _ => s.enterGrace l c g
  | .grace _ _ => s.escalate l c g
  | _ => s

/-- The forced end at the lease record (R86): ENDED with end cause REVOKED, its revoke cause kept. -/
def State.endLease (s : State) (l : LeaseNo) : State :=
  match (s.lease l).st with
  | .grace h x => s.setLease l { s.lease l with st := .ended h x.cause }
  | _ => s

/-- The forced end of one lease in GRACE (R86): the record becomes ENDED, REVOKED is flagged, and the lease leaves its
holder list. When the lease is P0's and its leaving completes a retirement, the order of P0's two entries is a free
value (log entry 7). -/
def State.forcedEnd (s : State) (l : LeaseNo) : State :=
  match (s.lease l).st with
  | .grace h _ =>
    let r := h.claim.res
    let s1 := s.endLease l
    if h.claim.port = 0 ∧ (s.res r).st = .retiring ∧ ((s.res r).without l).holders = [] then
      let s2 := s1.spendFree
      if Config.retiredBeforeRevoked s.freeCount then (s2.leave r l).flag h.claim.port (.lease l) .revoked
      else (s2.flag h.claim.port (.lease l) .revoked).leave r l
    else (s1.flag h.claim.port (.lease l) .revoked).leave r l
  | _ => s

/-- The forced ends of every holder of a resource, taken together (R92, R98): each record ENDED with REVOKED flagged,
and the holder list emptied at once. What the resource becomes follows in the caller's event. -/
def State.endHolders (s : State) (r : ResNo) : State :=
  let s1 := (s.res r).holders.foldl (fun t l => (t.endLease l).flagLease l .revoked) s
  s1.setRes r { s1.res r with holders := [], slot := none }

/-! ### Waits leaving (R60, R62, R96) -/

/-- A wait leaves the queue of its resource; a grant pass runs when it was the head (R54). -/
def State.dropWait (s : State) (r : ResNo) (w : WaitNo) : State :=
  let x := s.res r
  let s1 := s.setRes r { x with queue := x.queue.filter (· ≠ w) }
  if x.queue.head? = some w then s1.grantPass r else s1

/-- A WAITING wait ends as a tombstone (R60, R96): its reserved lease returns to FREE and the cause is flagged. Its
leaving the queue follows in the caller's event. -/
def State.endWait (s : State) (w : WaitNo) (e : WaitEnd) (c : Cause) : State :=
  match (s.wait w).st with
  | .waiting k _ l =>
    let s1 := s.setWait w { s.wait w with st := .ended k e }
    let s2 := s1.setLease l (s.lease l).freed
    s2.flag k.port (.wait w) c
  | _ => s

/-! ### Contention notices (R66, R74) -/

/-- A holder with its contention request flag set and its sent flag clear has CONTENDED flagged and the sent flag set
(R66). -/
def State.contendHolder (s : State) (l : LeaseNo) : State :=
  match (s.lease l).st with
  | .active h a =>
    if h.claim.contend ∧ ¬ a.sent then
      (s.setLease l { s.lease l with st := .active h { a with sent := true } }).flag h.claim.port (.lease l) .contended
    else s
  | .grace h g =>
    if h.claim.contend ∧ ¬ g.sent then
      (s.setLease l { s.lease l with st := .grace h { g with sent := true } }).flag h.claim.port (.lease l) .contended
    else s
  | _ => s

/-- Contention notices to the given holders, in holder-list order. -/
def State.contend (s : State) (ls : List LeaseNo) : State := ls.foldl State.contendHolder s

/-! ### Session end (R136, R137) -/

/-- A port's live claim at one resource: a holder lease or a WAITING wait (R137). -/
inductive PortClaim where
  | holder (l : LeaseNo)
  | waiter (w : WaitNo)
  deriving DecidableEq, Repr

/-- The live claim of port `p` listed at resource `r`, if any. -/
def State.claimAt (s : State) (p : Port) (r : ResNo) : Option PortClaim :=
  match (s.res r).holders.find? fun l => (s.lease l).ownedBy p with
  | some l => some (.holder l)
  | none => ((s.res r).queue.find? fun w => (s.wait w).ownedBy p).map .waiter

/-- The resources where port `p` has a live claim, with the claim. -/
def State.claims (s : State) (p : Port) : List (ResNo × PortClaim) :=
  (List.finRange 64).filterMap fun r => (s.claimAt p r).map fun c => (r, c)

/-- Insertion by rank, after entries of the same rank. -/
def insertByRank {α : Type} (rank : α → Nat) (x : α) : List α → List α
  | [] => [x]
  | y :: ys => if rank x < rank y then x :: y :: ys else y :: insertByRank rank x ys

/-- A list in rising order of rank. -/
def sortByRank {α : Type} (rank : α → Nat) : List α → List α
  | [] => []
  | x :: xs => insertByRank rank x (sortByRank rank xs)

/-- The treatment of one resource within a session end (R137). -/
def State.treatClaim (s : State) : ResNo × PortClaim → State
  | (r, .holder l) => s.leave r l
  | (r, .waiter w) => s.dropWait r w

/-- The records of port `p` returned to FREE and its list emptied (R136), its session left with a new state and last
end cause. -/
def State.dropPort (s : State) (p : Port) (st : SessState) (cause : EndCause) : State :=
  let s1 := { s with
    leases := Vector.ofFn fun l => if (s.lease l).ownedBy p then (s.lease l).freed else s.lease l
    waits := Vector.ofFn fun w => if (s.wait w).ownedBy p then (s.wait w).freed else s.wait w }
  (s1.setAttn p []).setSession p { s.session p with st := st, lastEnd := cause }

/-- A session end (R136, R137): the port's records are freed, and each resource where it had a live claim is treated
once, in an order the spec leaves open (log entry 6). -/
def State.endSession (s : State) (p : Port) (st : SessState) (cause : EndCause) : State :=
  let claims := sortByRank (fun c => Config.treatmentRank s.freeCount c.1) (s.claims p)
  let s1 := s.dropPort p st cause
  claims.foldl State.treatClaim s1.spendFree

/-- The frame being sent when the queues are emptied: a response that is gone is sent on as 0xFF, and an empty frame
goes on (R169). -/
def Txn.afterFlush : Txn → Txn
  | .sending (.response _) n => .sending .gone n
  | t => t

/-- The loss of a session empties the port's queues; sticky flags are kept and a transaction in progress goes on
(R138, R169). -/
def State.flushLink (s : State) (p : Port) : State :=
  let k := s.link p
  s.setLink p { k with requests := [], responses := [], txn := k.txn.afterFlush }

/-- A session lost by silence or eviction (R138). -/
def State.loseSession (s : State) (p : Port) (cause : EndCause) : State := (s.endSession p .lost cause).flushLink p

/-- A valid frame renews the port's liveness (R132). -/
def State.renewLiveness (s : State) (p : Port) : State :=
  let x := s.session p
  if x.isAttached then s.setSession p { x with st := .attached (liveOf x.window) } else s

/-! ### The tick at one record (R106) -/

/-- The settle of a resource (R9). -/
def State.tickSettle (s : State) (r : ResNo) : State :=
  let x := s.res r
  match x.st with
  | .settling n =>
    if n.toNat ≤ 1 then (s.setRes r { x with st := .free }).grantPass r else s.setRes r { x with st := .settling (n - 1) }
  | _ => s

/-- Term expiry (R35). -/
def State.termExpires (s : State) (l : LeaseNo) : State :=
  match (s.lease l).st with
  | .active h _ =>
    let r := h.claim.res
    let g := (s.res r).attrs.grace
    let s1 := s.enterGrace l .term g
    let s2 := if g = 0 then s1.forcedEnd l else s1
    if (s.res r).slot = some l then s2.grantPass r else s2
  | _ => s

/-- The term of an ACTIVE lease or the grace of a lease in GRACE (R34, R35, R85, R86). -/
def State.tickLease (s : State) (l : LeaseNo) : State :=
  match (s.lease l).st with
  | .active h a =>
    if a.termLeft.toNat ≤ 1 then s.termExpires l
    else s.setLease l { s.lease l with st := .active h { a with termLeft := a.termLeft - 1 } }
  | .grace h g =>
    if g.graceLeft.toNat ≤ 1 then s.forcedEnd l
    else s.setLease l { s.lease l with st := .grace h { g with graceLeft := g.graceLeft - 1 } }
  | _ => s

/-- The promotion patience of a lease (R78): at 0 the slot is emptied, PROMOTE_ENDED is flagged and a grant pass runs. -/
def State.tickPromo (s : State) (l : LeaseNo) : State :=
  match (s.lease l).st with
  | .active h a =>
    match a.promo with
    | some n =>
      if n.toNat ≤ 1 then
        let r := h.claim.res
        let s1 := s.setLease l { s.lease l with st := .active h { a with promo := none } }
        let s2 := s1.setRes r { s.res r with slot := none }
        (s2.flag h.claim.port (.lease l) .promoteEnded).grantPass r
      else s.setLease l { s.lease l with st := .active h { a with promo := some (n - 1) } }
    | none => s
  | _ => s

/-- The patience of a WAITING wait (R59, R60). -/
def State.tickWait (s : State) (w : WaitNo) : State :=
  match (s.wait w).st with
  | .waiting c n l =>
    if n.toNat ≤ 1 then (s.endWait w .expired .expired).dropWait c.res w
    else s.setWait w { s.wait w with st := .waiting c (n - 1) l }
  | _ => s

/-- The liveness of a port (R132). -/
def State.tickLive (s : State) (p : Port) : State :=
  match (s.session p).st with
  | .attached (some n) =>
    if n.toNat ≤ 1 then s.loseSession p .silent
    else s.setSession p { s.session p with st := .attached (some (n - 1)) }
  | _ => s

/-- The tick reaches one record, which counts the countdown that is running then (R106). -/
def State.tickAt (s : State) : TickRef → State
  | .settle r => s.tickSettle r
  | .lease l => s.tickLease l
  | .promo l => s.tickPromo l
  | .wait w => s.tickWait w
  | .live p => s.tickLive p

/-! ### The tick in progress (R105, R106, R108, log entry 5) -/

/-- The timebase counts: it is RUNNING and RST_N is high (R105, R113). -/
def State.counting (s : State) : Bool := s.rstN && s.timebase.mode = .running

/-- A number for each countdown a tick may have to reach, no two alike. -/
def tickCode : TickRef → Nat
  | .settle r => r.val
  | .lease l => 64 + l.val
  | .promo l => 160 + l.val
  | .wait w => 256 + w.val
  | .live p => 304 + p.val

/-- The end of the tick in progress: the countdowns it has still to reach are reached now, in an order the spec leaves
open. While the timebase does not count, no tick is in progress and nothing happens (R109). -/
def State.finishTick (s : State) : State :=
  if s.counting then
    match s.due with
    | [] => s
    | due => (sortByRank (fun x => Config.expiryRank s.freeCount (tickCode x)) due).foldl State.tickAt
        { s.spendFree with due := [] }
  else s

end Sys2Proof.Machine
end

