-- ==== Sys2Proof/Machine/Link.lean ====
section
/-! DEFINITION. The link ports: transactions on the SPI ports (R157 to R167), and the taking of requests with the
placing of their responses (R129, R163, R164). -/

namespace Sys2Proof.Machine

/-! ### Opening a transaction (R157, R158) -/

/-- A falling edge of CS_N: a port with RST_N high leaves IDLE for OPENING and forms its status byte. With CS_N already
low there is no edge. -/
def State.csFall (s : State) (p : Port) : State :=
  let k := s.link p
  if k.csLow then s
  else if s.rstN then s.setLink p { k with csLow := true, txn := .opening (s.statusByte p), shifted := [] }
  else s.setLink p { k with csLow := true }

/-- The completion of the first byte: the status byte has been shifted out whole and clears the flags it carried, the
type byte is decoded, and COLLECT chooses the frame to send (R157, R158, R159, R165, R166). -/
def State.firstByte (s : State) (p : Port) (t : Byte) : State :=
  let k := s.link p
  match k.txn with
  | .opening status =>
    let k1 := { k.clearCarried status with shifted := [status] }
    match TxnKind.ofByte t with
    | some .submit => s.setLink p { k1 with txn := .receiving [] 0 }
    | some .collect =>
      let o := match k.responses with
        | r :: _ => Outgoing.response r.frame
        | [] => Outgoing.empty emptyFrame
      s.setLink p { k1 with txn := .sending o 0 }
    | some .status => s.setLink p { k1 with txn := .sending .nothing 0 }
    | none => s.setLink p { k1 with txn := .ignoring, badFrame := true }
  | _ => s

/-! ### The bytes after the first (R159, R160, R165, R167) -/

/-- The bytes a port in SENDING shifts out next: the rest of its frame, then 0xFF (R165, R166). -/
def Outgoing.next (o : Outgoing) (sent n : Nat) : List Byte :=
  let rest := match o with
    | .response f => f.drop sent
    | .empty f => f.drop sent
    | .nothing => []
    | .gone => []
  rest.take n ++ List.replicate (n - rest.length) 0xFF

/-- The bytes of a frame being received that are stored: those up to LEN + 4, never more than 28 (R160, Table 10-1). Until
LEN is known every byte is one of them. -/
def storedFrame (bs : List Byte) : List Byte := bs.take (min Config.maxStored ((bs.getD 2 0).toNat + 4))

/-- The port shifts in the given bytes, and shifts out as many (R159, R160, R165, R167). A port in IDLE or OPENING shifts
no byte here. -/
def Link.shift (k : Link) (bytes : List Byte) : Link :=
  let n := bytes.length
  match k.txn with
  | .receiving stored count =>
    { k with
      txn := .receiving (storedFrame (stored ++ bytes)) (count + n)
      shifted := k.shifted ++ List.replicate n 0xFF }
  | .sending o sent => { k with txn := .sending o (sent + n), shifted := k.shifted ++ o.next sent n }
  | .ignoring => { k with shifted := k.shifted ++ List.replicate n 0xFF }
  | _ => k

/-! ### The end of a transaction (R161, R165) -/

/-- What a frame received in a SUBMIT transaction is (Table 10-4, steps 1 and 2): a valid request, or malformed. -/
def frameRequest (stored : List Byte) (count : Nat) (cutByte : Bool) : Option Request :=
  let len := (stored.getD 2 0).toNat
  if count < 3 ∨ Config.maxBody < len ∨ cutByte = true ∨ count ≠ len + 4 then none
  else if stored.getD (len + 3) 0 ≠ crc8 (stored.take (len + 3)) then none
  else some ⟨stored.getD 0 0, stored.getD 1 0, (stored.drop 3).take len⟩

/-- The judgement of a received frame (R161, Table 10-4). -/
def State.judgeFrame (s : State) (p : Port) (stored : List Byte) (count : Nat) (cutByte : Bool) : State :=
  let k := s.link p
  match frameRequest stored count cutByte with
  | none => s.setLink p { k with badFrame := true }
  | some rq =>
    if Config.queueDepth ≤ k.requests.length then (s.setLink p { k with refused := true }).renewLiveness p
    else (s.setLink p { k with requests := k.requests ++ [rq] }).renewLiveness p

/-- The end of a COLLECT (R165, R166): the head response leaves when every byte of its frame has been shifted out. -/
def State.endCollect (s : State) (p : Port) (o : Outgoing) (sent : Nat) : State :=
  let k := s.link p
  match o with
  | .response f => if f.length ≤ sent then s.setLink p { k with responses := k.responses.drop 1 } else s
  | _ => s

/-- The action the transaction state calls for at the rising edge of CS_N (R157). -/
def State.endAction (s : State) (p : Port) (cutByte : Bool) : State :=
  match (s.link p).txn with
  | .receiving stored count => s.judgeFrame p stored count cutByte
  | .sending o sent => s.endCollect p o sent
  | _ => s

/-- A rising edge of CS_N ends the transaction and returns the port to IDLE (R157). -/
def State.csRise (s : State) (p : Port) (cutByte : Bool) : State :=
  let s1 := s.endAction p cutByte
  s1.setLink p { s1.link p with txn := .idle, csLow := false }

/-! ### A transaction command as a whole (log entry 9) -/

/-- The port is in the part of a transaction of this kind that follows the first byte. -/
def Txn.isOf (x : Txn) (k : Option TxnKind) : Bool :=
  match x, k with
  | .receiving _ _, some .submit => true
  | .sending .nothing _, some .status => true
  | .sending .nothing _, some .collect => false
  | .sending _ _, some .collect => true
  | .ignoring, none => true
  | _, _ => false

/-- A port that hears no transaction: RST_N is low, or CS_N has been low since RST_N rose (R171). Only its CS_N pin
follows the command. -/
def State.deaf (s : State) (p : Port) : Bool := !s.rstN || ((s.link p).csLow && (s.link p).txn = .idle)

/-- The state with the first byte of a transaction of type byte `t` complete: opened from IDLE, completed from OPENING,
or already in progress with that type. None when another transaction is in progress. -/
def State.reach (s : State) (p : Port) (t : Byte) : Option State :=
  match (s.link p).txn with
  | .idle => some ((s.csFall p).firstByte p t)
  | .opening _ => some (s.firstByte p t)
  | x => if x.isOf (TxnKind.ofByte t) then some s else none

/-- CS_N rises before the first byte is complete (R158, R159): no flag is set or cleared and nothing else happens. -/
def State.abandon (s : State) (p : Port) : State :=
  match (s.link p).txn with
  | .idle => (s.csFall p).csRise p false
  | .opening _ => s.csRise p false
  | _ => s

/-- A transaction with type byte `t`, the given bytes after it, and the given end. -/
def State.transact (s : State) (p : Port) (t : Byte) (bytes : List Byte) (e : CsEnd) : State :=
  if s.deaf p then s.setLink p { s.link p with csLow := decide (e = .held) }
  else if e = .early then s.abandon p
  else
    match s.reach p t with
    | none => s
    | some s1 =>
      let s2 := s1.setLink p ((s1.link p).shift bytes)
      match e with
      | .rise cutByte => s2.csRise p cutByte
      | _ => s2

/-! ### Taking a request (R163, R164) -/

/-- What an owner decides: the result, and the body of the response. -/
structure Reply where
  result : Result
  body : List Byte
  deriving DecidableEq, Repr

/-- A refusal, sent with LEN 0 (R164). -/
def Reply.refuse (r : Result) : Reply := ⟨r, []⟩

/-- The request a port may take: the head of its request queue, while RST_N is high and the response queue has room
(R163, R168, R171). -/
def State.takeable (s : State) (p : Port) : Option Request :=
  if s.rstN ∧ (s.link p).responses.length < Config.queueDepth then (s.link p).requests.head? else none

/-- The head request leaves the request queue (R163). -/
def State.popRequest (s : State) (p : Port) : State :=
  s.setLink p { s.link p with requests := (s.link p).requests.drop 1 }

/-- The response joins the tail of the response queue, echoing SEQ and CODE (R164). -/
def State.place (s : State) (p : Port) (rq : Request) (rp : Reply) : State :=
  s.setLink p { s.link p with responses := (s.link p).responses ++ [⟨rq.seq, rq.code, rp.result, rp.body⟩] }

/-- A request's own rule: the requesting port, the body and the state give the reply and the state after it. -/
abbrev Owner := Port → List Byte → State → Reply × State

/-- The checks every request meets first, in their order (R129): authority, session, body length. -/
def State.precheck (s : State) (k : Req) (p : Port) (body : List Byte) : Option Result :=
  if k.supervisor = true ∧ p ≠ 0 then some .notPermitted
  else if k.needsSession = true ∧ s.attached p = false then some .notAttached
  else if body.length ≠ k.bodyLen then some .badLength
  else none

/-- The reply to a taken request and the state its owner leaves. -/
def State.answer (s : State) (k : Req) (own : Owner) (p : Port) (body : List Byte) : Reply × State :=
  match s.precheck k p body with
  | some r => (.refuse r, s)
  | none => own p body s

/-- The state in which a request that stops the tick or resets its records is taken: where port `p` takes a request of
kind `k` that passes its checks, the tick in progress first reaches every countdown it has still to reach (R112). DESIGN
CHOICE, unsafe in that one case (log entry 22): where the liveness of `p` itself is among them and runs out, the session is
lost before the request is taken, so the request is discarded untaken (R138) and has no effect. -/
def State.tickEnded (s : State) (k : Req) (p : Port) : State :=
  match s.takeable p with
  | some rq => if rq.code = k.code ∧ s.precheck k p rq.body = none then s.finishTick else s
  | none => s

/-- The taking of a request of one kind by port `p`. A port whose next request is of another kind, or that may take
none, is left as it is (log entry 2). -/
def State.serve (s : State) (k : Req) (own : Owner) (p : Port) : State :=
  match s.takeable p with
  | some rq =>
    if rq.code = k.code then
      let (rp, s1) := (s.popRequest p).answer k own p rq.body
      s1.place p rq rp
    else s
  | none => s

end Sys2Proof.Machine
end

