-- ==== Sys2Proof/Machine/SessionReq.lean ====
section
/-! DEFINITION. The requests of the session unit: ATTACH, DETACH, KEEPALIVE, PORT_STATUS, SET_QUOTA, EVICT and
WARM_RESET; and a request whose code names none. -/

namespace Sys2Proof.Machine

/-- The answer of a meaning: every command leaves a next state. -/
abbrev Next := Host.Outcome State Fault Refusal

/-! ### ATTACH (R130, R131) -/

/-- The opening of a session (R130): the number advances, the window and the liveness remaining are set. -/
def State.openSession (s : State) (p : Port) (window : Half) : State :=
  let x := s.session p
  s.setSession p { x with st := .attached (liveOf window), number := nextNumber x.number, window := window }

/-- The body of an ATTACH response (Table 11-4). -/
def attachBody (x : Session) (prior : Bool) : List Byte :=
  bytes2 x.number ++ bytes2 x.window ++ [x.leaseQuota, x.waitQuota, flagByte prior, x.lastEnd.value]

/-- ATTACH: an open session is ended first with cause REATTACH, its queues left as they stand (R131). -/
def attachOwner : Owner := fun p body s =>
  let prior := s.attached p
  let s1 := if prior then s.endSession p .detached .reattach else s
  let s2 := s1.openSession p (halfAt body 0)
  (⟨.done, attachBody (s2.session p) prior⟩, s2)

/-- ATTACH (R130, R131). -/
def execAttach (p : Port) (s : State) : Next := .next (s.serve .attach attachOwner p)

/-! ### DETACH, KEEPALIVE, PORT_STATUS -/

/-- DETACH ends the session and leaves the port's queues as they stand (R134). -/
def detachOwner : Owner := fun p _ s => (⟨.done, []⟩, s.endSession p .detached .detach)

/-- DETACH (R134). -/
def execDetach (p : Port) (s : State) : Next := .next (s.serve .detach detachOwner p)

/-- KEEPALIVE changes nothing; its frame has renewed the liveness already (R133). -/
def keepaliveOwner : Owner := fun p _ s =>
  (⟨.done, [(s.session p).number.extractLsb' 0 8] ++ bytes2 (s.session p).window⟩, s)

/-- KEEPALIVE (R133). -/
def execKeepalive (p : Port) (s : State) : Next := .next (s.serve .keepalive keepaliveOwner p)

/-- PORT_STATUS reports the named port and changes nothing (R140). -/
def portStatusOwner : Owner := fun _ body s =>
  match portArg body 0 with
  | none => (.refuse .badArgument, s)
  | some q => (⟨.done, s.portReport q⟩, s)

/-- PORT_STATUS (R140). -/
def execPortStatus (p : Port) (s : State) : Next := .next (s.serve .portStatus portStatusOwner p)

/-! ### SET_QUOTA, EVICT -/

/-- SET_QUOTA replaces both quotas of the named port (R139). -/
def setQuotaOwner : Owner := fun _ body s =>
  match portArg body 0 with
  | none => (.refuse .badArgument, s)
  | some q =>
    let lq := byteAt body 1
    let wq := byteAt body 2
    if 96 < lq.toNat ∨ 48 < wq.toNat then (.refuse .badArgument, s)
    else
      let x := s.session q
      (⟨.done, [x.leaseQuota, x.waitQuota, lq, wq, byteOf (s.leaseUse q), byteOf (s.waitUse q)]⟩,
        s.setSession q { x with leaseQuota := lq, waitQuota := wq })

/-- SET_QUOTA (R139). -/
def execSetQuota (p : Port) (s : State) : Next := .next (s.serve .setQuota setQuotaOwner p)

/-- EVICT ends the session of a member port with cause EVICTED and empties its queues (R135, R138). -/
def evictOwner : Owner := fun _ body s =>
  match portArg body 0 with
  | none => (.refuse .badArgument, s)
  | some q =>
    if q = 0 then (.refuse .badArgument, s)
    else if s.attached q = false then (.refuse .state, s)
    else
      (⟨.done, bytes2 (s.session q).number ++ [byteOf (s.leaseUse q), byteOf (s.waitUse q)]⟩, s.loseSession q .evicted)

/-- EVICT (R135). -/
def execEvict (p : Port) (s : State) : Next := .next (s.serve .evict evictOwner p)

/-! ### WARM_RESET (R141, R142) -/

/-- A resource record after warm reset (R20). -/
def Resource.warm (x : Resource) : Resource :=
  let y := { x with holders := [], queue := [], slot := none, retireNotice := false }
  match x.st with
  | .undefined => y
  | .free => y
  | .retiring => { y with st := .undefined, attrs := .cleared }
  | _ => if x.attrs.settle = 0 then { y with st := .free } else { y with st := .settling x.attrs.settle }

/-- A session record after warm reset (R142). -/
def Session.warm (x : Session) : Session :=
  { x with st := .detached, lastEnd := if x.isAttached then .warmReset else x.lastEnd }

/-- A frame being sent at warm reset: every COLLECT in progress shifts 0xFF from then on (R170, log entry 16).
DESIGN CHOICE, unsafe in that one case (log entry 24): a COLLECT still in its first byte is OPENING, has chosen no frame, and
chooses one as the queue stands when that byte is complete (R165). -/
def Txn.warm : Txn → Txn
  | .sending (.response _) n => .sending .gone n
  | .sending (.empty _) n => .sending .gone n
  | t => t

/-- A link port after warm reset (R170): queues emptied, sticky flags cleared, a transaction in progress not cut
short. -/
def Link.warm (k : Link) : Link :=
  { k with requests := [], responses := [], refused := false, badFrame := false, txn := k.txn.warm }

/-- Warm reset as one event across the part (R141): R20, R47, R70, R114, R126, R142, R155, R170. -/
def State.warm (s : State) : State :=
  { s with
    resources := Vector.ofFn fun r => (s.res r).warm
    leases := Vector.ofFn fun l => (s.lease l).freed
    waits := Vector.ofFn fun w => (s.wait w).freed
    timebase := { s.timebase with prescaler := 0 }
    sessions := Vector.ofFn fun p => (s.session p).warm
    attention := Vector.replicate 4 []
    links := Vector.ofFn fun p => (s.link p).warm }

/-- WARM_RESET: the DONE is placed in P0's emptied response queue (R141). -/
def warmResetOwner : Owner := fun _ _ s => (⟨.done, []⟩, s.warm)

/-- WARM_RESET (R141, R142). A tick in progress reaches its countdowns before the warm reset is taken, so that it lowers
none of the settle periods the warm reset begins (R20, R114, log entry 5). -/
def execWarmReset (p : Port) (s : State) : Next :=
  .next ((s.tickEnded .warmReset p).serve .warmReset warmResetOwner p)

/-! ### A code that names no request (R163) -/

/-- UNKNOWN_REQUEST: answered by the link port itself before any check, nothing else changes (R163, R172). -/
def execUnknownRequest (p : Port) (s : State) : Next :=
  .next (match s.takeable p with
    | some rq =>
      if Req.ofCode rq.code = none then (s.popRequest p).place p rq (.refuse .unknownRequest) else s
    | none => s)

end Sys2Proof.Machine
end

