-- ==== Sys2Proof/Machine/LeaseReq.lean ====
section
/-! DEFINITION. The requests of the lease pool and the wait queues: ACQUIRE, RENEW, RELEASE, QUERY_LEASE, PROMOTE, DEMOTE
and CANCEL_WAIT. -/

namespace Sys2Proof.Machine

/-! ### ACQUIRE (R26 to R32) -/

/-- The fields of an ACQUIRE (R26). -/
structure AcquireArgs where
  res : ResNo
  mode : Mode
  term : Half
  patience : Half
  contend : Bool
  deriving DecidableEq, Repr

/-- The fields of an ACQUIRE body, or none for BAD_ARGUMENT (R26, R173). -/
def acquireArgs (body : List Byte) : Option AcquireArgs :=
  match resArg body 0, modeArg (byteAt body 1), contendArg (byteAt body 6) with
  | some r, some m, some c => some ⟨r, m, halfAt body 2, halfAt body 4, c⟩
  | _, _, _ => none

/-- Grantable now (R28). -/
def Resource.grantable (x : Resource) (m : Mode) : Bool :=
  x.queue.isEmpty && match x.st, m with
    | .free, _ => true
    | .shared, .shared => decide (x.holders.length < x.attrs.shareLimit.toNat) && x.slot.isNone
    | _, _ => false

/-- The immediate grant (R30): the allocated record becomes ACTIVE and joins the holder list. -/
def State.grantNow (s : State) (p : Port) (a : AcquireArgs) (l : LeaseNo) : Reply × State :=
  let x := (s.res a.res).join l a.mode
  let term := (s.res a.res).attrs.givenTerm a.term
  let gen := nextGen (s.lease l).gen
  let s1 := (s.setRes a.res x).setLease l ⟨gen, grantedState ⟨p, a.res, a.mode, a.contend⟩ x.epoch term⟩
  (⟨.done, [byteOf l.val, gen] ++ bytes4 x.epoch ++ bytes2 term⟩, s1)

/-- The queueing of an ACQUIRE (R32, R52): the lease record becomes RESERVED, the wait record WAITING at the tail of the
queue, and contention notices follow (R66). -/
def State.enqueue (s : State) (p : Port) (a : AcquireArgs) (l : LeaseNo) (w : WaitNo) : Reply × State :=
  let x := s.res a.res
  let gen := nextGen (s.wait w).gen
  let s1 := s.setLease l ⟨nextGen (s.lease l).gen, .reserved ⟨p, a.res, a.mode, a.contend⟩⟩
  let s2 := s1.setWait w ⟨gen, .waiting ⟨p, a.res, a.mode, a.term, a.contend⟩ a.patience l⟩
  let s3 := s2.setRes a.res { x with queue := x.queue ++ [w] }
  (⟨.queued, [byteOf w.val, gen, byteOf (x.queue.length + 1)]⟩, s3.contend x.holders)

/-- An ACQUIRE that is not grantable now, in the order of Table 2-5 (R32). -/
def State.acquireWait (s : State) (p : Port) (a : AcquireArgs) (l : LeaseNo) : Reply × State :=
  let x := s.res a.res
  if a.patience = 0 then (.refuse .held, s)
  else if x.attrs.queueLimit.toNat ≤ x.queue.length then (.refuse .queueFull, s)
  else if (s.session p).waitQuota.toNat ≤ s.waitUse p then (.refuse .quota, s)
  else
    match s.freeWait? with
    | none => (.refuse .poolEmpty, s)
    | some w => s.enqueue p a l w

/-- ACQUIRE from step 4 of Table 2-4 on (R27). -/
def State.acquireChecked (s : State) (p : Port) (a : AcquireArgs) : Reply × State :=
  let x := s.res a.res
  if x.st = .undefined then (.refuse .noResource, s)
  else if x.st = .retiring then (.refuse .retiring, s)
  else if a.mode = .shared ∧ x.attrs.shareLimit = 0 then (.refuse .wrongMode, s)
  else if s.hasLiveClaim p a.res then (.refuse .duplicate, s)
  else if (s.session p).leaseQuota.toNat ≤ s.leaseUse p then (.refuse .quota, s)
  else
    match s.freeLease? with
    | none => (.refuse .poolEmpty, s)
    | some l =>
      if x.grantable a.mode then
        if x.st = .free ∧ x.epoch = maxEpoch then (.refuse .epochExhausted, s) else s.grantNow p a l
      else s.acquireWait p a l

/-- ACQUIRE after the checks of R129. -/
def acquireOwner : Owner := fun p body s =>
  match acquireArgs body with
  | none => (.refuse .badArgument, s)
  | some a => s.acquireChecked p a

/-- ACQUIRE (R26 to R32). -/
def execAcquire (p : Port) (s : State) : Next := .next (s.serve .acquire acquireOwner p)

/-! ### Requests that carry a lease id -/

/-- A request on the lease that an id in the first two bytes of the body names (R23). -/
def withLease (own : LeaseNo → Owner) : Owner := fun p body s =>
  match s.resolveLease p (byteAt body 0) (byteAt body 1) with
  | .stale => (.refuse .staleId, s)
  | .notOwner => (.refuse .notOwner, s)
  | .names l => own l p body s

/-- The answer ENDED: the tombstone returns to FREE and its entry is withdrawn (R39, R42, R72, R82). -/
def State.answerEnded (s : State) (p : Port) (l : LeaseNo) (c : RevokeCause) : Reply × State :=
  (⟨.ended, [endRevoked, c.value]⟩, (s.setLease l (s.lease l).freed).withdraw p (.lease l))

/-- The renew count incremented, staying at 65535 once there (R37). -/
def renewed (n : Half) : Half := if n = 65535 then n else n + 1

/-- A lease as a renewal or a rescue leaves it: term set, renew count up, contention sent flag clear (R37, R38). -/
def renewedState (h : Holding) (term : Half) (promo : Option Half) : LeaseState :=
  .active { h with grantedTerm := term, renews := renewed h.renews } ⟨term, false, promo⟩

/-- RENEW of the lease its id names (Table 2-7, R37 to R39). -/
def renewLease (l : LeaseNo) : Owner := fun p body s =>
  match (s.lease l).st with
  | .active h a =>
    let term := (s.res h.claim.res).attrs.givenTerm (halfAt body 2)
    (⟨.done, bytes2 term ++ [flagByte false]⟩, s.setLease l { s.lease l with st := renewedState h term a.promo })
  | .grace h g =>
    if g.cause = .term then
      let term := (s.res h.claim.res).attrs.givenTerm (halfAt body 2)
      (⟨.done, bytes2 term ++ [flagByte true]⟩,
        (s.setLease l { s.lease l with st := renewedState h term none }).flag p (.lease l) .rescued)
    else (.refuse .revoking, s)
  | .ended _ c => s.answerEnded p l c
  | _ => (.refuse .staleId, s)

/-- RENEW after the checks of R129. -/
def renewOwner : Owner := withLease renewLease

/-- RENEW (R36 to R39). -/
def execRenew (p : Port) (s : State) : Next := .next (s.serve .renew renewOwner p)

/-- The release of a holder (R41): the record returns to FREE, its entry is withdrawn, and it leaves the holder list. -/
def State.releaseHolder (s : State) (p : Port) (l : LeaseNo) (r : ResNo) : State :=
  ((s.setLease l (s.lease l).freed).withdraw p (.lease l)).leave r l

/-- RELEASE of the lease its id names (R41, R42). -/
def releaseLease (l : LeaseNo) : Owner := fun p _ s =>
  match (s.lease l).st with
  | .active h _ => (⟨.done, []⟩, s.releaseHolder p l h.claim.res)
  | .grace h _ => (⟨.done, []⟩, s.releaseHolder p l h.claim.res)
  | .ended _ c => s.answerEnded p l c
  | _ => (.refuse .staleId, s)

/-- RELEASE after the checks of R129. -/
def releaseOwner : Owner := withLease releaseLease

/-- RELEASE (R41, R42). -/
def execRelease (p : Port) (s : State) : Next := .next (s.serve .release releaseOwner p)

/-- QUERY_LEASE reports the lease and changes no record (R44). -/
def queryLeaseOwner : Owner := withLease fun l _ _ s => (⟨.done, (s.lease l).report l⟩, s)

/-- QUERY_LEASE (R44). -/
def execQueryLease (p : Port) (s : State) : Next := .next (s.serve .queryLease queryLeaseOwner p)

/-! ### PROMOTE and DEMOTE -/

/-- The immediate promotion of a sole holder (R73). -/
def State.promoteNow (s : State) (l : LeaseNo) (h : Holding) (a : ActivePart) : Reply × State :=
  let x := s.res h.claim.res
  let e := x.epoch + 1
  (⟨.done, bytes4 e⟩,
    (s.setRes h.claim.res { x with st := .exclusive, epoch := e }).setLease l
      { s.lease l with st := promotedState h a e })

/-- A promotion that becomes pending (R74): the slot is filled and the other holders have contention notices. -/
def State.promotePending (s : State) (l : LeaseNo) (h : Holding) (a : ActivePart) (patience : Half) : Reply × State :=
  let x := s.res h.claim.res
  let others := x.holders.filter (· ≠ l)
  let s1 := s.setRes h.claim.res { x with slot := some l }
  let s2 := s1.setLease l { s.lease l with st := .active h { a with promo := some patience } }
  (⟨.pending, [byteOf others.length]⟩, s2.contend others)

/-- PROMOTE of the lease its id names, from step 5 of Table 4-1 on (R72). -/
def promoteLease (l : LeaseNo) : Owner := fun p body s =>
  match (s.lease l).st with
  | .ended _ c => s.answerEnded p l c
  | .grace _ _ => (.refuse .revoking, s)
  | .active h a =>
    let x := s.res h.claim.res
    if h.claim.mode = .exclusive then (.refuse .wrongMode, s)
    else if x.slot.isSome then (.refuse .conflict, s)
    else if x.holders = [l] then
      if x.epoch = maxEpoch then (.refuse .epochExhausted, s) else s.promoteNow l h a
    else if halfAt body 2 = 0 then (.refuse .held, s)
    else s.promotePending l h a (halfAt body 2)
  | _ => (.refuse .staleId, s)

/-- PROMOTE after the checks of R129. -/
def promoteOwner : Owner := withLease promoteLease

/-- PROMOTE (R72 to R74). -/
def execPromote (p : Port) (s : State) : Next := .next (s.serve .promote promoteOwner p)

/-- The demotion of an exclusive holder (R83): a new epoch, the resource SHARED, and a grant pass. -/
def State.demoteNow (s : State) (l : LeaseNo) (h : Holding) (a : ActivePart) : Reply × State :=
  let x := s.res h.claim.res
  let e := x.epoch + 1
  let s1 := s.setRes h.claim.res { x with st := .shared, epoch := e }
  let s2 := s1.setLease l
    { s.lease l with st := .active { h with claim := { h.claim with mode := .shared }, epoch := e } a }
  (⟨.done, bytes4 e⟩, s2.grantPass h.claim.res)

/-- DEMOTE of the lease its id names, from step 5 on (R82). -/
def demoteLease (l : LeaseNo) : Owner := fun p _ s =>
  match (s.lease l).st with
  | .ended _ c => s.answerEnded p l c
  | .active h a =>
    let x := s.res h.claim.res
    if h.claim.mode = .shared ∨ x.attrs.shareLimit = 0 then (.refuse .wrongMode, s)
    else if x.epoch = maxEpoch then (.refuse .epochExhausted, s)
    else s.demoteNow l h a
  | .grace _ _ => (.refuse .wrongMode, s)
  | _ => (.refuse .staleId, s)

/-- DEMOTE after the checks of R129. -/
def demoteOwner : Owner := withLease demoteLease

/-- DEMOTE (R82, R83). -/
def execDemote (p : Port) (s : State) : Next := .next (s.serve .demote demoteOwner p)

/-! ### CANCEL_WAIT (R62, R63) -/

/-- CANCEL_WAIT of the wait its id names. -/
def cancelNamed (p : Port) (w : WaitNo) (s : State) : Reply × State :=
  match (s.wait w).st with
  | .waiting c _ l =>
    (⟨.done, []⟩, ((s.setWait w (s.wait w).freed).setLease l (s.lease l).freed).dropWait c.res w)
  | .ended _ e => (⟨.ended, [e.value]⟩, (s.setWait w (s.wait w).freed).withdraw p (.wait w))
  | .free => (.refuse .staleId, s)

/-- CANCEL_WAIT after the checks of R129. -/
def cancelWaitOwner : Owner := fun p body s =>
  match s.resolveWait p (byteAt body 0) (byteAt body 1) with
  | .stale => (.refuse .staleId, s)
  | .notOwner => (.refuse .notOwner, s)
  | .names w => cancelNamed p w s

/-- CANCEL_WAIT (R62, R63). -/
def execCancelWait (p : Port) (s : State) : Next := .next (s.serve .cancelWait cancelWaitOwner p)

end Sys2Proof.Machine
end

