-- ==== Sys2Proof/Machine/TableReq.lean ====
section
/-! DEFINITION. The requests of the resource table: DEFINE, RETIRE, REVOKE, QUERY_RESOURCE, CHECK_EPOCH and SCAN; and
FETCH_NOTICE of the notice unit. -/

namespace Sys2Proof.Machine

/-! ### DEFINE (R4, R5) -/

/-- The attributes of a DEFINE body (R4, Table 11-3). -/
def defineAttrs (body : List Byte) : Attrs where
  cls := byteAt body 1
  shareLimit := byteAt body 2
  defaultTerm := halfAt body 3
  maxTerm := halfAt body 5
  grace := byteAt body 7
  settle := byteAt body 8
  queueLimit := byteAt body 9

/-- The ranges of Table 1-2 (R4, step 4 of Table 1-5). -/
def Attrs.inRange (a : Attrs) : Bool :=
  decide (a.cls.toNat ≤ 15 ∧ a.shareLimit.toNat ≤ 4 ∧ a.defaultTerm ≠ 0 ∧ a.defaultTerm.toNat ≤ a.maxTerm.toNat
    ∧ a.queueLimit.toNat ≤ 16)

/-- DEFINE from step 4 of Table 1-5 on. -/
def defineOwner : Owner := fun _ body s =>
  match resArg body 0 with
  | none => (.refuse .badArgument, s)
  | some r =>
    let a := defineAttrs body
    let x := s.res r
    if a.inRange = false then (.refuse .badArgument, s)
    else if x.st ≠ .undefined then (.refuse .state, s)
    else (⟨.done, [byteOf r.val] ++ bytes4 x.epoch⟩, s.setRes r { x with st := .free, attrs := a })

/-- DEFINE (R4, R5). -/
def execDefine (p : Port) (s : State) : Next := .next (s.serve .define defineOwner p)

/-! ### REVOKE (R90 to R92) -/

/-- REVOKE of a defined resource with grace `g` (R91, R92). -/
def State.revoke (s : State) (r : ResNo) (g : Byte) : State :=
  let x := s.res r
  if x.holders = [] then s
  else
    let s1 := x.holders.foldl (State.applyRevocation .supervisor g) s
    if g = 0 then (s1.endHolders r).lastHolderLeft r
    else if x.slot.isSome then s1.grantPass r
    else s1

/-- REVOKE from step 4 of Table 5-4 on; an argument of 255 asks for the resource's grace attribute (R90). -/
def revokeOwner : Owner := fun _ body s =>
  match resArg body 0 with
  | none => (.refuse .badArgument, s)
  | some r =>
    let x := s.res r
    let g := if byteAt body 1 = 255 then x.attrs.grace else byteAt body 1
    if x.st = .undefined then (.refuse .noResource, s)
    else (⟨.done, [byteOf x.holders.length]⟩, s.revoke r g)

/-- REVOKE (R90 to R92). -/
def execRevoke (p : Port) (s : State) : Next := .next (s.serve .revoke revokeOwner p)

/-! ### RETIRE (R95 to R98) -/

/-- The withdrawal of every wait of a queue, from the head (R96). -/
def State.withdrawWaits (s : State) (r : ResNo) : State :=
  let s1 := (s.res r).queue.foldl (fun t w => t.endWait w .withdrawn .withdrawn) s
  s1.setRes r { s1.res r with queue := [] }

/-- A resource returned to UNDEFINED without a notice (R97, R98): attributes cleared, epoch kept. -/
def State.undefine (s : State) (r : ResNo) : State :=
  s.setRes r { s.res r with st := .undefined, attrs := .cleared }

/-- RETIRE of a defined resource that is not RETIRING (R96 to R98). -/
def State.retire (s : State) (r : ResNo) : Reply × State :=
  let x := s.res r
  let counts := [byteOf x.queue.length, byteOf x.holders.length]
  let s1 := s.withdrawWaits r
  if x.holders = [] then (⟨.done, counts⟩, s1.undefine r)
  else
    let s2 := x.holders.foldl (State.applyRevocation .retire x.attrs.grace) s1
    if x.attrs.grace = 0 then (⟨.done, counts⟩, (s2.endHolders r).undefine r)
    else (⟨.pending, counts⟩, s2.setRes r { s2.res r with st := .retiring, retireNotice := true })

/-- RETIRE from step 4 of Table 5-5 on. -/
def retireOwner : Owner := fun _ body s =>
  match resArg body 0 with
  | none => (.refuse .badArgument, s)
  | some r =>
    let x := s.res r
    if x.st = .undefined then (.refuse .noResource, s)
    else if x.st = .retiring then (.refuse .retiring, s)
    else s.retire r

/-- RETIRE (R95 to R98). -/
def execRetire (p : Port) (s : State) : Next := .next (s.serve .retire retireOwner p)

/-! ### QUERY_RESOURCE, CHECK_EPOCH, SCAN (R14 to R18) -/

/-- QUERY_RESOURCE (R15). -/
def queryResourceOwner : Owner := fun _ body s =>
  match resArg body 0 with
  | none => (.refuse .badArgument, s)
  | some r => (⟨.done, s.resourceReport r⟩, s)

/-- QUERY_RESOURCE (R15). -/
def execQueryResource (p : Port) (s : State) : Next := .next (s.serve .queryResource queryResourceOwner p)

/-- The verdict of CHECK_EPOCH (R16, Table 11-6): 0 CURRENT, 1 STALE, 2 NO_HOLDER. -/
def Resource.verdict (x : Resource) (e : Quad) : Byte :=
  if x.holders = [] then 2 else if e = x.epoch then 0 else 1

/-- CHECK_EPOCH (R16). -/
def checkEpochOwner : Owner := fun _ body s =>
  match resArg body 0 with
  | none => (.refuse .badArgument, s)
  | some r => (⟨.done, [(s.res r).verdict (quadAt body 1)] ++ bytes4 (s.res r).epoch⟩, s)

/-- CHECK_EPOCH (R16). -/
def execCheckEpoch (p : Port) (s : State) : Next := .next (s.serve .checkEpoch checkEpochOwner p)

/-- The bit of a state in a SCAN state set (R173). -/
def ResState.scanBit : ResState → Nat
  | .undefined => 0
  | .free => 1
  | .exclusive => 2
  | .shared => 3
  | .settling _ => 4
  | .retiring => 5

/-- A resource matches every criterion the selector names (Table 1-7, R18). -/
def State.scanMatch (s : State) (a : ScanArgs) (r : ResNo) : Bool :=
  let x := s.res r
  (match a.cls with
    | some c => decide (x.st ≠ .undefined ∧ x.attrs.cls = c)
    | none => true)
  && (match a.states with
    | some m => m.getLsbD x.st.scanBit
    | none => true)
  && (match a.holder with
    | some q => x.holders.any fun l => (s.lease l).ownedBy q
    | none => true)
  && (match a.waiters with
    | some present => present != x.queue.isEmpty
    | none => true)

/-- The first matching resource from the start resource up to Rs63 (R18). -/
def State.scanFirst (s : State) (a : ScanArgs) : Option ResNo :=
  (List.finRange 64).find? fun r => decide (a.start ≤ r) && s.scanMatch a r

/-- The body of a SCAN answer (Table 11-4). -/
def State.scanReport (s : State) : Option ResNo → List Byte
  | some r =>
    let x := s.res r
    [1, byteOf r.val, x.st.value, x.attrs.cls] ++ bytes4 x.epoch ++ [byteOf x.holders.length, byteOf x.queue.length]
  | none => [0]

/-- SCAN (R17, R18). -/
def scanOwner : Owner := fun _ body s =>
  match scanArgs body with
  | none => (.refuse .badArgument, s)
  | some a => (⟨.done, s.scanReport (s.scanFirst a)⟩, s)

/-- SCAN (R17, R18). -/
def execScan (p : Port) (s : State) : Next := .next (s.serve .scan scanOwner p)

/-! ### FETCH_NOTICE (R149 to R151) -/

/-- A tombstone fetched returns to FREE; any other record is unchanged (R151). -/
def State.freeFetched (s : State) : Ref → State
  | .lease l => if (s.lease l).isEnded then s.setLease l (s.lease l).freed else s
  | .wait w => if (s.wait w).isEnded then s.setWait w (s.wait w).freed else s
  | .resource _ => s

/-- FETCH_NOTICE (R149): the head entry is removed and reported with a snapshot of its record. -/
def fetchNoticeOwner : Owner := fun p _ s =>
  match s.attn p with
  | [] => (⟨.done, [0]⟩, s)
  | e :: es =>
    (⟨.done, [e.ref.kind, e.ref.index, e.causes, byteOf es.length] ++ s.snapshot e.ref⟩,
      (s.setAttn p es).freeFetched e.ref)

/-- FETCH_NOTICE (R149 to R151). -/
def execFetchNotice (p : Port) (s : State) : Next := .next (s.serve .fetchNotice fetchNoticeOwner p)

end Sys2Proof.Machine
end

