-- ==== Sys2Proof/Machine/GateReq.lean ====
section
/-! DEFINITION. The requests of the gate unit (BIND_GATE, UNBIND_GATE) and of the timebase (SET_TIMEBASE,
START_TIMEBASE, HALT_TIMEBASE). -/

namespace Sys2Proof.Machine

/-- The fields of a BIND_GATE (R120). -/
structure BindArgs where
  gate : GateNo
  binding : Binding
  polarity : Polarity
  deriving DecidableEq, Repr

/-- The fields of a BIND_GATE body, or none for BAD_ARGUMENT (step 4 of Table 7-4). -/
def bindArgs (body : List Byte) : Option BindArgs :=
  match gateArg body 0, resArg body 1, portArg body 2, polarityArg (byteAt body 3) with
  | some g, some r, some q, some pol => some ⟨g, ⟨r, q⟩, pol⟩
  | _, _, _, _ => none

/-- BIND_GATE from step 4 of Table 7-4 on (R120, R121): before, after, and whether the gate is asserted after. -/
def bindGateOwner : Owner := fun _ body s =>
  match bindArgs body with
  | none => (.refuse .badArgument, s)
  | some a =>
    if s.asserted a.gate then (.refuse .state, s)
    else
      let after : Gate := ⟨some a.binding, a.polarity⟩
      let s1 := s.setGate a.gate after
      (⟨.done, (s.gate a.gate).report ++ after.report ++ [flagByte (s1.asserted a.gate)]⟩, s1)

/-- BIND_GATE (R120, R121). -/
def execBindGate (p : Port) (s : State) : Next := .next (s.serve .bindGate bindGateOwner p)

/-- UNBIND_GATE from its argument check on (R122): the polarity is kept. -/
def unbindGateOwner : Owner := fun _ body s =>
  match gateArg body 0 with
  | none => (.refuse .badArgument, s)
  | some g =>
    if s.asserted g then (.refuse .state, s)
    else
      let after : Gate := ⟨none, (s.gate g).polarity⟩
      (⟨.done, (s.gate g).report ++ after.report ++ [flagByte false]⟩, s.setGate g after)

/-- UNBIND_GATE (R122). -/
def execUnbindGate (p : Port) (s : State) : Next := .next (s.serve .unbindGate unbindGateOwner p)

/-- The body of a timebase response (Table 11-4): the state before, the state after, the divider in force minus 1. -/
def timebaseBody (before after : Timebase) : List Byte :=
  [before.mode.value, after.mode.value] ++ bytes2 (BitVec.ofNat 16 (after.divider - 1))

/-- SET_TIMEBASE from step 4 of R110 on: refused STATE while RUNNING; the prescaler count is not touched. -/
def setTimebaseOwner : Owner := fun _ body s =>
  let x := s.timebase
  if x.mode = .running then (.refuse .state, s)
  else
    let y : Timebase := { x with divider := (halfAt body 0).toNat + 1 }
    (⟨.done, timebaseBody x y⟩, { s with timebase := y })

/-- SET_TIMEBASE (R110). -/
def execSetTimebase (p : Port) (s : State) : Next := .next (s.serve .setTimebase setTimebaseOwner p)

/-- START_TIMEBASE (R111): from HALTED the prescaler count restarts at 0; when RUNNING nothing changes. -/
def startTimebaseOwner : Owner := fun _ _ s =>
  let x := s.timebase
  let y : Timebase := if x.mode = .halted then { x with mode := .running, prescaler := 0 } else x
  (⟨.done, timebaseBody x y⟩, { s with timebase := y })

/-- START_TIMEBASE (R111). -/
def execStartTimebase (p : Port) (s : State) : Next := .next (s.serve .startTimebase startTimebaseOwner p)

/-- HALT_TIMEBASE (R112): the prescaler stops counting. -/
def haltTimebaseOwner : Owner := fun _ _ s =>
  let x := s.timebase
  let y : Timebase := { x with mode := .halted }
  (⟨.done, timebaseBody x y⟩, { s with timebase := y })

/-- HALT_TIMEBASE (R112). A tick taken before it reaches every counting record before the timebase halts. -/
def execHaltTimebase (p : Port) (s : State) : Next :=
  .next ((s.tickEnded .haltTimebase p).serve .haltTimebase haltTimebaseOwner p)

end Sys2Proof.Machine
end

