-- ==== Sys2Proof/Machine/Events.lean ====
section
/-! DEFINITION. The commands that are no requests: transactions on the SPI ports, REFCLK periods and ticks, the
expiries, and the pins RST_N, GATE_OE_N and CS_N. -/

namespace Sys2Proof.Machine

/-! ### Transactions (R157 to R167) -/

/-- CS_N_FALL (R157). -/
def execCsNFall (p : Port) (s : State) : Next := .next (s.csFall p)

/-- FIRST_BYTE_COMPLETION (R157, R158): no byte is taken while RST_N is low (R171). -/
def execFirstByteCompletion (p : Port) (t : Byte) (s : State) : Next :=
  .next (if s.rstN then s.firstByte p t else s)

/-- SUBMIT (R160, R161). -/
def execSubmit (p : Port) (bytes : List Byte) (e : CsEnd) (s : State) : Next :=
  .next (s.transact p TxnKind.submit.toByte bytes e)

/-- COLLECT (R165, R166); the bytes on MOSI are ignored. -/
def execCollect (p : Port) (n : Nat) (e : CsEnd) (s : State) : Next :=
  .next (s.transact p TxnKind.collect.toByte (List.replicate n 0) e)

/-- STATUS (R167); the bytes on MOSI are ignored. -/
def execStatus (p : Port) (n : Nat) (e : CsEnd) (s : State) : Next :=
  .next (s.transact p TxnKind.status.toByte (List.replicate n 0) e)

/-- UNKNOWN_TYPE_BYTE (R159). A known type byte is no such command, and nothing happens (WellFormed, log entry 2). -/
def execUnknownTypeByte (p : Port) (t : Byte) (n : Nat) (e : CsEnd) (s : State) : Next :=
  .next (if TxnKind.ofByte t = none then s.transact p t (List.replicate n 0) e else s)

/-! ### Ticks (R105, R106, R108) -/

/-- What is left of a running countdown; none while it does not run (Table 6-2). -/
def State.countdown (s : State) : TickRef → Option Nat
  | .settle r => match (s.res r).st with
    | .settling n => some n.toNat
    | _ => none
  | .lease l => match (s.lease l).st with
    | .active _ a => some a.termLeft.toNat
    | .grace _ g => some g.graceLeft.toNat
    | _ => none
  | .promo l => match (s.lease l).st with
    | .active _ a => a.promo.map BitVec.toNat
    | _ => none
  | .wait w => match (s.wait w).st with
    | .waiting _ n _ => some n.toNat
    | _ => none
  | .live p => match (s.session p).st with
    | .attached n => n.map BitVec.toNat
    | _ => none

/-- Every countdown of Table 6-2. -/
def allCountdowns : List TickRef :=
  (List.finRange 64).map .settle ++ (List.finRange 96).map .lease ++ (List.finRange 96).map .promo
    ++ (List.finRange 48).map .wait ++ (List.finRange 4).map .live

/-- The countdowns a tick has still to reach after its own event: those running that it reaches later, and those that
stand at 1, whose expiry is an event of its own (log entry 5). DESIGN CHOICE, unsafe in that one case (log entry 23): a
promotion patience that begins after this, where none ran, is not counted by the tick, though the tick may still reach
the term of its lease. -/
def State.toReach (s : State) (late : List TickRef) : List TickRef :=
  allCountdowns.filter fun x => match s.countdown x with
    | some n => decide (n ≤ 1) || late.contains x
    | none => false

/-- A half-word count lowered by one unless it expires at this tick. -/
def lowered (n : Half) : Half := if n.toNat ≤ 1 then n else n - 1

/-- A byte count lowered by one unless it expires at this tick. -/
def loweredByte (n : Byte) : Byte := if n.toNat ≤ 1 then n else n - 1

/-- A resource record whose settle the tick lowers (R9). -/
def Resource.ticked (x : Resource) : Resource :=
  match x.st with
  | .settling n => { x with st := .settling (loweredByte n) }
  | _ => x

/-- A lease record whose term or grace the tick lowers (R34, R85). -/
def Lease.ticked (x : Lease) : Lease :=
  match x.st with
  | .active h a => { x with st := .active h { a with termLeft := lowered a.termLeft } }
  | .grace h g => { x with st := .grace h { g with graceLeft := loweredByte g.graceLeft } }
  | _ => x

/-- A lease record whose promotion patience the tick lowers (R78). -/
def Lease.promoTicked (x : Lease) : Lease :=
  match x.st with
  | .active h a => { x with st := .active h { a with promo := a.promo.map lowered } }
  | _ => x

/-- A wait record whose patience the tick lowers (R59). -/
def Wait.ticked (x : Wait) : Wait :=
  match x.st with
  | .waiting c n l => { x with st := .waiting c (lowered n) l }
  | _ => x

/-- A session record whose liveness the tick lowers (R132). -/
def Session.ticked (x : Session) : Session :=
  match x.st with
  | .attached n => { x with st := .attached (n.map lowered) }
  | _ => x

/-- A record changed unless the tick reaches it later. -/
def unlessLate {α : Type} (late : List TickRef) (x : TickRef) (f : α → α) (a : α) : α :=
  if late.contains x then a else f a

/-- Every running countdown above 1 lowered by one (R106), but those the tick reaches later. -/
def State.lower (s : State) (late : List TickRef) : State :=
  { s with
    resources := Vector.ofFn fun r => unlessLate late (.settle r) Resource.ticked (s.res r)
    leases := Vector.ofFn fun l =>
      unlessLate late (.promo l) Lease.promoTicked (unlessLate late (.lease l) Lease.ticked (s.lease l))
    waits := Vector.ofFn fun w => unlessLate late (.wait w) Wait.ticked (s.wait w)
    sessions := Vector.ofFn fun p => unlessLate late (.live p) Session.ticked (s.session p) }

/-- A tick (R105, R106): the prescaler count returns to 0, each running countdown above 1 falls by one or is reached
later, as the head of `late` says, and each at 1 is due: its expiry is an event of its own. No order holds among them
(R108, log entry 5). -/
def State.tick (s : State) : State :=
  let late := s.late.headD []
  { s.lower late with
    due := s.toReach late
    late := s.late.tail
    timebase := { s.timebase with prescaler := 0 } }

/-- TICK (R105): the REFCLK periods that are left to the next tick, and that tick (log entry 4). The tick before has
ended by then. -/
def execTick (s : State) : Next := .next (if s.counting then s.finishTick.tick else s)

/-- REFCLK_PERIOD (R105): the tick in progress, if any, has ended by then; the prescaler count rises by one, and the period
that reaches the divider produces the tick. -/
def execRefclkPeriod (s : State) : Next :=
  .next (if s.counting then
      let s1 := s.finishTick
      if s1.timebase.prescaler + 1 < s1.timebase.divider then
        { s1 with timebase := { s1.timebase with prescaler := s1.timebase.prescaler + 1 } }
      else s1.tick
    else s)

/-! ### Expiries -/

/-- The tick in progress reaches the countdown `x`, if it has still to and the event is the one of that countdown. A
record that no longer counts is reached without effect (R106). No tick is in progress while the timebase does not count
(R109). -/
def State.takeDue (s : State) (x : TickRef) (mine : Bool) : State :=
  if s.counting && s.due.contains x && mine then ({ s with due := s.due.erase x }).tickAt x else s

/-- The lease is ACTIVE. -/
def Lease.isActive (x : Lease) : Bool :=
  match x.st with
  | .active _ _ => true
  | _ => false

/-- The lease is in GRACE. -/
def Lease.inGrace (x : Lease) : Bool :=
  match x.st with
  | .grace _ _ => true
  | _ => false

/-- The wait is WAITING. -/
def Wait.isWaiting (x : Wait) : Bool :=
  match x.st with
  | .waiting _ _ _ => true
  | _ => false

/-- The lease is ACTIVE with a promotion part: it occupies its resource's promotion slot (R71). -/
def Lease.isPromoting (x : Lease) : Bool :=
  match x.st with
  | .active _ a => a.promo.isSome
  | _ => false

/-- SETTLE_EXPIRY (R9). -/
def execSettleExpiry (r : ResNo) (s : State) : Next := .next (s.takeDue (.settle r) true)

/-- TERM_EXPIRY (R35). A lease that has entered GRACE since the tick is reached by GRACE_EXPIRY. -/
def execTermExpiry (l : LeaseNo) (s : State) : Next := .next (s.takeDue (.lease l) !(s.lease l).inGrace)

/-- GRACE_EXPIRY (R85, R86). A lease that is ACTIVE is reached by TERM_EXPIRY. -/
def execGraceExpiry (l : LeaseNo) (s : State) : Next := .next (s.takeDue (.lease l) !(s.lease l).isActive)

/-- PATIENCE_EXPIRY (R60). -/
def execPatienceExpiry (w : WaitNo) (s : State) : Next := .next (s.takeDue (.wait w) true)

/-- PROMOTION_PATIENCE_EXPIRY (R78). -/
def execPromotionPatienceExpiry (l : LeaseNo) (s : State) : Next := .next (s.takeDue (.promo l) true)

/-- LIVENESS_EXPIRY (R132). -/
def execLivenessExpiry (p : Port) (s : State) : Next := .next (s.takeDue (.live p) true)

/-! ### Pins -/

/-- A link port while RST_N is low (R171); its CS_N pin keeps the level the board gives it. -/
def Link.cold (k : Link) : Link := { Link.initial with csLow := k.csLow }

/-- COLD_RESET: RST_N is low and every record is at its initial value (R19, R46, R69, R103, R113, R125, R143, R155,
R171); the input pins GATE_OE_N and CS_N keep the levels the board gives them. -/
def execColdReset (s : State) : Next :=
  .next { State.reset with
    pending := s.pending
    late := s.late
    rstN := false
    gateOeN := s.gateOeN
    links := Vector.ofFn fun p => (s.link p).cold
    freeCount := s.freeCount }

/-- RST_N_RISE: cold reset ends (R125, R171). -/
def execRstNRise (s : State) : Next := .next { s with rstN := true }

/-- GATE_OE_N_CHANGE: the pin takes its new level; nothing else changes (R119). -/
def execGateOeNChange (high : Bool) (s : State) : Next := .next { s with gateOeN := high }

end Sys2Proof.Machine
end

