-- ==== Sys2Proof/Machine/Dispatch.lean ====
section
/-! DEFINITION. One arm per command of the opcode table, in the table's order: each calls its meaning. -/

namespace Sys2Proof.Machine

def exec (i : Instr) (s : State) : Host.Outcome State Fault Refusal :=
  match i with
  | .attach p => Sys2Proof.Machine.execAttach p s
  | .detach p => Sys2Proof.Machine.execDetach p s
  | .keepalive p => Sys2Proof.Machine.execKeepalive p s
  | .portStatus p => Sys2Proof.Machine.execPortStatus p s
  | .acquire p => Sys2Proof.Machine.execAcquire p s
  | .renew p => Sys2Proof.Machine.execRenew p s
  | .release p => Sys2Proof.Machine.execRelease p s
  | .queryLease p => Sys2Proof.Machine.execQueryLease p s
  | .promote p => Sys2Proof.Machine.execPromote p s
  | .demote p => Sys2Proof.Machine.execDemote p s
  | .cancelWait p => Sys2Proof.Machine.execCancelWait p s
  | .queryResource p => Sys2Proof.Machine.execQueryResource p s
  | .checkEpoch p => Sys2Proof.Machine.execCheckEpoch p s
  | .scan p => Sys2Proof.Machine.execScan p s
  | .fetchNotice p => Sys2Proof.Machine.execFetchNotice p s
  | .define p => Sys2Proof.Machine.execDefine p s
  | .retire p => Sys2Proof.Machine.execRetire p s
  | .revoke p => Sys2Proof.Machine.execRevoke p s
  | .setQuota p => Sys2Proof.Machine.execSetQuota p s
  | .bindGate p => Sys2Proof.Machine.execBindGate p s
  | .unbindGate p => Sys2Proof.Machine.execUnbindGate p s
  | .setTimebase p => Sys2Proof.Machine.execSetTimebase p s
  | .startTimebase p => Sys2Proof.Machine.execStartTimebase p s
  | .haltTimebase p => Sys2Proof.Machine.execHaltTimebase p s
  | .evict p => Sys2Proof.Machine.execEvict p s
  | .warmReset p => Sys2Proof.Machine.execWarmReset p s
  | .unknownRequest p => Sys2Proof.Machine.execUnknownRequest p s
  | .submit p bytes e => Sys2Proof.Machine.execSubmit p bytes e s
  | .collect p n e => Sys2Proof.Machine.execCollect p n e s
  | .status p n e => Sys2Proof.Machine.execStatus p n e s
  | .unknownTypeByte p t n e => Sys2Proof.Machine.execUnknownTypeByte p t n e s
  | .tick => Sys2Proof.Machine.execTick s
  | .settleExpiry r => Sys2Proof.Machine.execSettleExpiry r s
  | .termExpiry l => Sys2Proof.Machine.execTermExpiry l s
  | .graceExpiry l => Sys2Proof.Machine.execGraceExpiry l s
  | .patienceExpiry w => Sys2Proof.Machine.execPatienceExpiry w s
  | .promotionPatienceExpiry l => Sys2Proof.Machine.execPromotionPatienceExpiry l s
  | .livenessExpiry p => Sys2Proof.Machine.execLivenessExpiry p s
  | .coldReset => Sys2Proof.Machine.execColdReset s
  | .gateOeNChange high => Sys2Proof.Machine.execGateOeNChange high s
  | .csNFall p => Sys2Proof.Machine.execCsNFall p s
  | .firstByteCompletion p t => Sys2Proof.Machine.execFirstByteCompletion p t s
  | .refclkPeriod => Sys2Proof.Machine.execRefclkPeriod s
  | .rstNRise => Sys2Proof.Machine.execRstNRise s

end Sys2Proof.Machine
end

