-- ==== Sys2Proof/Safety.lean ====
section
/-! DEFINITION. What a safe state of the part is: the laws the spec states, each as a decidable property of a state; and
the terms in which statements about commands are made. -/

namespace Sys2Proof

/-- The command that takes a request of a kind. -/
def Req.command : Req → Port → Instr
  | .attach => .attach
  | .detach => .detach
  | .keepalive => .keepalive
  | .portStatus => .portStatus
  | .acquire => .acquire
  | .renew => .renew
  | .release => .release
  | .queryLease => .queryLease
  | .promote => .promote
  | .demote => .demote
  | .cancelWait => .cancelWait
  | .queryResource => .queryResource
  | .checkEpoch => .checkEpoch
  | .scan => .scan
  | .fetchNotice => .fetchNotice
  | .define => .define
  | .retire => .retire
  | .revoke => .revoke
  | .setQuota => .setQuota
  | .bindGate => .bindGate
  | .unbindGate => .unbindGate
  | .setTimebase => .setTimebase
  | .startTimebase => .startTimebase
  | .haltTimebase => .haltTimebase
  | .evict => .evict
  | .warmReset => .warmReset

end Sys2Proof

namespace Sys2Proof.Machine

/-- The commands by which the tick in progress reaches a countdown: of a lease, the one of its state. -/
def TickRef.events : TickRef → List Instr
  | .settle r => [.settleExpiry r]
  | .lease l => [.termExpiry l, .graceExpiry l]
  | .promo l => [.promotionPatienceExpiry l]
  | .wait w => [.patienceExpiry w]
  | .live p => [.livenessExpiry p]

/-- R24: the holder list of a resource holds, each once, exactly the ACTIVE and GRACE leases that name it. -/
abbrev State.HolderLaw (s : State) : Prop :=
  ∀ r : ResNo, (s.res r).holders.Nodup ∧
    ∀ l : LeaseNo, l ∈ (s.res r).holders ↔
      ((s.lease l).isHolder = true ∧ (s.lease l).claim?.map (·.res) = some r)

/-- R53: a wait queue holds, each once, exactly the WAITING waits on its resource, and never more than its limit. -/
abbrev State.QueueLaw (s : State) : Prop :=
  ∀ r : ResNo, (s.res r).queue.Nodup
    ∧ (s.res r).queue.length ≤ (s.res r).attrs.queueLimit.toNat
    ∧ ∀ w : WaitNo, w ∈ (s.res r).queue ↔
      ((s.wait w).isWaiting = true ∧ (s.wait w).claim?.map (·.res) = some r)

/-- The reserved lease of a WAITING wait. -/
def Wait.reserved? (x : Wait) : Option LeaseNo :=
  match x.st with
  | .waiting _ _ l => some l
  | _ => none

/-- The record is RESERVED. -/
def Lease.isReserved (x : Lease) : Bool :=
  match x.st with
  | .reserved _ => true
  | _ => false

/-- The claim of the lease record set aside for a wait (R52). -/
def WaitClaim.leaseClaim (c : WaitClaim) : Claim := ⟨c.port, c.res, c.mode, c.contend⟩

/-- R50: every WAITING wait has exactly one RESERVED lease of the same port and resource, and every RESERVED lease
belongs to exactly one WAITING wait. -/
abbrev State.ReserveLaw (s : State) : Prop :=
  (∀ w : WaitNo, ∀ l ∈ (s.wait w).reserved?, (s.lease l).isReserved = true
      ∧ (s.lease l).claim? = (s.wait w).claim?.map (·.leaseClaim))
    ∧ ∀ l : LeaseNo, (s.lease l).isReserved = true →
      ((List.finRange 48).filter fun w => (s.wait w).reserved? = some l).length = 1

/-- R27: for any port and resource there is at most one live claim (a RESERVED lease and its wait are one). -/
abbrev State.ClaimLaw (s : State) : Prop :=
  ∀ p : Port, ∀ r : ResNo, ((List.finRange 96).filter fun l => (s.lease l).liveClaim p r).length ≤ 1

/-- The revoke cause of a lease in GRACE. -/
def Lease.graceCause? (x : Lease) : Option RevokeCause :=
  match x.st with
  | .grace _ g => some g.cause
  | _ => none

/-- R3, R99: the state of a resource agrees with its holder list, its attributes and its queue. -/
def State.agrees (s : State) (x : Resource) : Bool :=
  match x.st with
  | .undefined => x.holders = [] ∧ x.queue = [] ∧ x.slot = none ∧ x.attrs = .cleared ∧ x.retireNotice = false
  | .free => x.holders = [] ∧ x.slot = none ∧ (x.queue = [] ∨ x.epoch = maxEpoch) ∧ x.retireNotice = false
  | .settling n => x.holders = [] ∧ x.slot = none ∧ n ≠ 0 ∧ x.retireNotice = false
  | .exclusive => x.holders.length = 1 ∧ x.slot = none ∧ x.retireNotice = false ∧
      ∀ l ∈ x.holders, (s.lease l).claim?.map (·.mode) = some .exclusive
  | .shared => 1 ≤ x.holders.length ∧ x.holders.length ≤ x.attrs.shareLimit.toNat ∧ x.retireNotice = false ∧
      ∀ l ∈ x.holders, (s.lease l).claim?.map (·.mode) = some .shared
  | .retiring => 1 ≤ x.holders.length ∧ x.queue = [] ∧ x.slot = none ∧ x.retireNotice = true ∧
      ∀ l ∈ x.holders, (s.lease l).graceCause? = some .retire

/-- R3, R99, at every resource. -/
abbrev State.AgreementLaw (s : State) : Prop := ∀ r : ResNo, s.agrees (s.res r) = true

/-- The epoch at grant of a lease in ACTIVE, GRACE or ENDED. -/
def Lease.epoch? (x : Lease) : Option Quad :=
  match x.st with
  | .active h _ => some h.epoch
  | .grace h _ => some h.epoch
  | .ended h _ => some h.epoch
  | _ => none

/-- R12: every lease in a holder list carries the resource's current epoch. -/
abbrev State.EpochLaw (s : State) : Prop :=
  ∀ r : ResNo, ∀ l ∈ (s.res r).holders, (s.lease l).epoch? = some (s.res r).epoch

/-- R71: the promotion slot and the promotion part are full or empty together, and the lease in the slot is an ACTIVE
holder of that resource. -/
abbrev State.SlotLaw (s : State) : Prop :=
  (∀ r : ResNo, ∀ l ∈ (s.res r).slot, (s.lease l).isPromoting = true ∧ l ∈ (s.res r).holders)
    ∧ ∀ l : LeaseNo, (s.lease l).isPromoting = true → ∃ c ∈ (s.lease l).claim?, (s.res c.res).slot = some l

/-- R144: a port's list holds each record at most once, lease and wait entries name that port's own records, and
resource entries stand in P0's list alone. -/
abbrev State.ListLaw (s : State) : Prop :=
  ∀ p : Port, ((s.attn p).map (·.ref)).Nodup ∧ ∀ e ∈ s.attn p,
    (match e.ref with
      | .lease l => (s.lease l).ownedBy p && ((s.lease l).isHolder || (s.lease l).isEnded)
      | .wait w => (s.wait w).ownedBy p && (s.wait w).isEnded
      | .resource _ => decide (p = 0)) = true

/-- R147: every tombstone has an entry in its port's list that carries its end cause: REVOKED of a lease, EXPIRED or
WITHDRAWN of a wait. -/
abbrev State.TombstoneLaw (s : State) : Prop :=
  (∀ l : LeaseNo, (s.lease l).isEnded = true → ∃ c ∈ (s.lease l).claim?,
      ∃ e ∈ s.attn c.port, e.ref = .lease l ∧ e.causes.getLsbD 4 = true)
    ∧ ∀ w : WaitNo, ∀ c x, (s.wait w).st = .ended c x →
      ∃ e ∈ s.attn c.port, e.ref = .wait w ∧ e.causes.getLsbD (if x = .expired then 0 else 1) = true

/-- R128: a port that is not ATTACHED owns no record out of FREE, and its list is empty. -/
abbrev State.SessionLaw (s : State) : Prop :=
  ∀ p : Port, s.attached p = false →
    s.attn p = [] ∧ (∀ l : LeaseNo, (s.lease l).ownedBy p = false) ∧ ∀ w : WaitNo, (s.wait w).ownedBy p = false

/-- R156, R161: queues of at most four entries, requests of at most 24 body bytes and responses of at most 42
(Tables 11-1 and 11-2). -/
abbrev State.LinkLaw (s : State) : Prop :=
  ∀ p : Port, (s.link p).requests.length ≤ Config.queueDepth ∧ (s.link p).responses.length ≤ Config.queueDepth
    ∧ (∀ rq ∈ (s.link p).requests, rq.body.length ≤ Config.maxBody)
    ∧ ∀ rp ∈ (s.link p).responses, rp.body.length ≤ 42

/-- R104: the divider is 1 to 65536, and while the timebase runs the prescaler count is below it; that the range need not
hold while HALTED is log entry 21. -/
abbrev State.TimebaseLaw (s : State) : Prop :=
  1 ≤ s.timebase.divider ∧ s.timebase.divider ≤ 65536
    ∧ (s.timebase.mode = .running → s.timebase.prescaler < s.timebase.divider)

/-- Table 8-1: lease quotas of at most 96 and wait quotas of at most 48. -/
abbrev State.QuotaLaw (s : State) : Prop :=
  ∀ p : Port, (s.session p).leaseQuota.toNat ≤ 96 ∧ (s.session p).waitQuota.toNat ≤ 48

/-- R4, Table 1-2: the attributes of a defined resource are in range; a holder list has at most four leases (Table
1-1); and a wait for mode SHARED stands only at a resource that may be shared (step 6 of Table 2-4). -/
abbrev State.RangeLaw (s : State) : Prop :=
  ∀ r : ResNo, ((s.res r).st ≠ .undefined → (s.res r).attrs.inRange = true) ∧ (s.res r).holders.length ≤ 4
    ∧ ∀ w ∈ (s.res r).queue, (s.wait w).mode? = some .shared → (s.res r).attrs.shareLimit ≠ 0

/-- R22, R49: a record out of FREE has a generation from 1 to 255. -/
abbrev State.GenerationLaw (s : State) : Prop :=
  (∀ l : LeaseNo, (s.lease l).isFree = false → (s.lease l).gen ≠ 0)
    ∧ ∀ w : WaitNo, (s.wait w).isFree = false → (s.wait w).gen ≠ 0

/-- No countdown of the record stands at 0. -/
def Lease.counts (x : Lease) : Bool :=
  match x.st with
  | .active _ a => a.termLeft ≠ 0 ∧ a.promo ≠ some 0
  | .grace _ g => g.graceLeft ≠ 0
  | _ => true

/-- No patience of the record stands at 0. -/
def Wait.counts (x : Wait) : Bool :=
  match x.st with
  | .waiting _ n _ => n ≠ 0
  | _ => true

/-- Liveness remaining is present exactly with a window above 0, and does not stand at 0 (R130, R132). -/
def Session.counts (x : Session) : Bool :=
  match x.st with
  | .attached none => x.window = 0
  | .attached (some n) => x.window ≠ 0 ∧ n ≠ 0
  | _ => true

/-- R106: a countdown holds a whole number of ticks from 1 upwards while it runs. -/
abbrev State.CountLaw (s : State) : Prop :=
  (∀ l : LeaseNo, (s.lease l).counts = true) ∧ (∀ w : WaitNo, (s.wait w).counts = true)
    ∧ ∀ p : Port, (s.session p).counts = true

/-- R109: no tick is in progress while the timebase does not count, and a tick reaches each countdown once (log entry
5). -/
abbrev State.DueLaw (s : State) : Prop := s.due.Nodup ∧ (s.rstN = true ∧ s.timebase.mode = .running ∨ s.due = [])

/-- The laws of the record stores, of the timebase and of the link ports together. -/
structure State.Inv (s : State) : Prop where
  holders : s.HolderLaw
  queues : s.QueueLaw
  reserves : s.ReserveLaw
  claims : s.ClaimLaw
  agreement : s.AgreementLaw
  epochs : s.EpochLaw
  slots : s.SlotLaw
  lists : s.ListLaw
  tombstones : s.TombstoneLaw
  sessions : s.SessionLaw
  links : s.LinkLaw
  timebase : s.TimebaseLaw
  quotas : s.QuotaLaw
  ranges : s.RangeLaw
  generations : s.GenerationLaw
  counts : s.CountLaw
  due : s.DueLaw

/-! ### Taking a request, in the terms of statements -/

/-- Port `p` takes the request `rq`, and its code names the kind `k` (R163). -/
abbrev State.Taking (s : State) (k : Req) (p : Port) (rq : Request) : Prop :=
  s.rstN = true ∧ (s.link p).responses.length < Config.queueDepth ∧ (s.link p).requests.head? = some rq
    ∧ rq.code = k.code

/-- The request taken passes the checks of R129: authority, session, body length. -/
abbrev State.Passing (s : State) (k : Req) (p : Port) (rq : Request) : Prop :=
  s.Taking k p rq ∧ (k.supervisor = true → p = 0) ∧ (k.needsSession = true → s.attached p = true)
    ∧ rq.body.length = k.bodyLen

/-- The request has left the head of the request queue of port `p` and its response, echoing SEQ and CODE, stands at
the tail of the response queue (R163, R164); everything else is as in `s`. -/
def State.replied (s : State) (p : Port) (rq : Request) (result : Result) (body : List Byte) : State :=
  s.setLink p { s.link p with
    requests := (s.link p).requests.tail
    responses := (s.link p).responses ++ [⟨rq.seq, rq.code, result, body⟩] }

/-- The FREE lease record with the lowest index is `l` (R25). -/
abbrev State.LowestFreeLease (s : State) (l : LeaseNo) : Prop :=
  (s.lease l).isFree = true ∧ ∀ l' < l, (s.lease l').isFree = false

/-- The FREE wait record with the lowest index is `w` (R51). -/
abbrev State.LowestFreeWait (s : State) (w : WaitNo) : Prop :=
  (s.wait w).isFree = true ∧ ∀ w' < w, (s.wait w').isFree = false

/-- The session of port `p` has ended (R136): its records are FREE with their generations unchanged, its list is empty,
its session has the given state and last end cause and keeps everything else; no other session, no gate and no timebase
field has changed, and no resource where the port had no live claim. -/
structure State.PortEnded (s t : State) (p : Port) (st : SessState) (cause : EndCause) : Prop where
  session : t.session p = { s.session p with st := st, lastEnd := cause }
  leases : ∀ l, (s.lease l).ownedBy p = true → t.lease l = (s.lease l).freed
  waits : ∀ w, (s.wait w).ownedBy p = true → t.wait w = (s.wait w).freed
  list : t.attn p = []
  otherSessions : ∀ q, q ≠ p → t.session q = s.session q
  gates : t.gates = s.gates
  timebase : t.timebase = s.timebase
  resources : ∀ r, s.claimAt p r = none → t.res r = s.res r

/-- The causes in the entry of a record in the list of port `p`; 0 for a record without an entry (R144, R175). -/
def State.causesOf (s : State) (p : Port) (x : Ref) : Byte :=
  match (s.attn p).find? (fun e => e.ref = x) with
  | some e => e.causes
  | none => 0

/-- `t` is what the forced end of lease `l` of port `p` leaves of `s`, where `l` is ENDED already and still in the holder
list of resource `r` (R86): REVOKED is flagged, and the lease leaves the list. The last holder's leaving completes a
retirement (R100), begins a settle or frees the resource with a grant pass (R8); a pending promotion whose lease is left
alone completes (R76); with others left a grant pass runs (R7). The order of P0's two entries when P0's own lease
completes a retirement is a free value (log entry 7). -/
def State.EndedAt (s t : State) (r : ResNo) (l : LeaseNo) (p : Port) : Prop :=
  let y : Resource := { s.res r with
    holders := (s.res r).holders.filter (· ≠ l)
    slot := if (s.res r).slot = some l then none else (s.res r).slot }
  let revoked (u : State) : State := u.flag p (.lease l) .revoked
  let retired (u : State) : State :=
    let v := u.setRes r { y with st := .undefined, attrs := ⟨0, 0, 0, 0, 0, 0, 0⟩, retireNotice := false }
    if s.attached 0 then v.flag 0 (.resource r) .retired else v
  let counted (u : State) : State := { u with freeCount := u.freeCount + 1 }
  (y.holders = [] → y.st = .retiring → p ≠ 0 → t = retired (revoked s))
    ∧ (y.holders = [] → y.st = .retiring → p = 0 →
      t = counted (retired (revoked s)) ∨ t = counted (revoked (retired s)))
    ∧ (y.holders = [] → y.st = .exclusive ∨ y.st = .shared → y.attrs.settle ≠ 0 →
      t = (revoked s).setRes r { y with st := .settling y.attrs.settle })
    ∧ (y.holders = [] → y.st = .exclusive ∨ y.st = .shared → y.attrs.settle = 0 →
      t = ((revoked s).setRes r { y with st := .free }).grantPass r)
    ∧ (∀ q, y.holders = [q] → y.slot = some q → t = ((revoked s).setRes r y).promotionCompletes r q)
    ∧ (y.holders ≠ [] → (∀ q, y.holders = [q] → y.slot ≠ some q) → t = ((revoked s).setRes r y).grantPass r)

/-- Every record of the part is at its value after cold reset (R19, R46, R69, R113, R125, R143, R155, R171). -/
structure State.AtReset (s : State) : Prop where
  resources : ∀ r, s.res r = ⟨.undefined, ⟨0, 0, 0, 0, 0, 0, 0⟩, 0, [], [], none, false⟩
  leases : ∀ l, s.lease l = ⟨0, .free⟩
  waits : ∀ w, s.wait w = ⟨0, .free⟩
  timebase : s.timebase = ⟨.halted, 10000, 0⟩
  gates : ∀ g, s.gate g = ⟨none, .activeHigh⟩
  sessions : ∀ p, s.session p = ⟨.detached, 0, 0, 24, 12, .none⟩
  lists : ∀ p, s.attn p = []
  requests : ∀ p, (s.link p).requests = []
  responses : ∀ p, (s.link p).responses = []
  refused : ∀ p, (s.link p).refused = false
  badFrame : ∀ p, (s.link p).badFrame = false
  idle : ∀ p, (s.link p).txn = .idle

/-- The commands of the list one after the other, each on the state the one before it leaves. -/
def execAll : List Instr → State → Host.Outcome State Fault Refusal
  | [], s => .next s
  | c :: cs, s =>
    match exec c s with
    | .next t => execAll cs t
    | .fault e => .fault e
    | .refused e => .refused e

end Sys2Proof.Machine
end

