-- ==== Sys2Proof/Certificates/Slice0/Obligations.lean ====
section
/-! DEFINITION. The statements for the provers. -/

open Sys2Proof Sys2Proof.Machine

/-! ### The machine as a whole -/

/-- A step takes the command at the front of the queue and has its effect on the state with the queue's rest; with no
command waiting the part idles (the model's choice, log entry 1). -/
def Obligations.StepTakesFront : Prop :=
  (∀ (c : Instr) (rest : List Instr) (s : State), s.pending = c :: rest → step s = exec c { s with pending := rest })
    ∧ ∀ s : State, s.pending = [] → step s = .next s

/-- Every command on every state leaves a next state, and touches no waiting command: the part has no fault. That a command
whose event can not occur in the state it meets still answers next is the model's choice (log entry 2), and so is that no
command touches the waiting commands (log entry 1). -/
def Obligations.EveryCommandCompletes : Prop :=
  ∀ (c : Instr) (s : State), ∃ t : State, exec c s = .next t ∧ t.pending = s.pending

/-- The part right after reset: every record at its cold reset value (R19, R46, R69, R113, R125, R143, R155, R171), no
ATTN_N or MISO driven, every gate driving low, and the status byte 0x04. That RST_N, GATE_OE_N and CS_N stand as they
do is the model's choice (log entry 10). -/
def Obligations.ResetState : Prop :=
  State.reset.AtReset ∧ State.reset.rstN = true ∧ State.reset.gateOeN = false ∧ State.reset.pending = []
    ∧ (∀ p, (State.reset.link p).csLow = false ∧ State.reset.statusByte p = 0x04)
    ∧ (∀ p, State.reset.attnLow p = false ∧ (State.reset.link p).misoDriven = false)
    ∧ ∀ g, State.reset.gateLevel g = .low

/-- COLD_RESET sets every record to its cold reset value while RST_N is low, with every output floating or released; the
input pins keep their levels and RST_N stays low until RST_N_RISE, which changes nothing else (log entry 10). What is placed
from outside for ticks to come is kept (log entry 5). -/
def Obligations.ColdResetAndRise : Prop :=
  (∀ s : State, ∃ t : State, exec .coldReset s = .next t ∧ t.AtReset ∧ t.rstN = false ∧ t.gateOeN = s.gateOeN
      ∧ t.pending = s.pending ∧ t.due = [] ∧ t.late = s.late
      ∧ (∀ p, (t.link p).csLow = (s.link p).csLow ∧ t.attnLow p = false ∧ (t.link p).misoDriven = false)
      ∧ (∀ g, t.gateLevel g = .highZ)
      ∧ (s.gateOeN = false → ∀ g, State.gateLevel { t with rstN := true } g = .low))
    ∧ ∀ s : State, exec .rstNRise s = .next { s with rstN := true }

/-- GATE_OE_N_CHANGE moves the pin alone (R119): no gate's assertion changes; while it is high every output floats, and
when it falls each output takes the level of its assertion and polarity at that moment. -/
def Obligations.GateEnableOverrides : Prop :=
  ∀ (high : Bool) (s : State), exec (.gateOeNChange high) s = .next { s with gateOeN := high }
    ∧ ∀ t, exec (.gateOeNChange high) s = .next t → ∀ g, t.asserted g = s.asserted g
      ∧ (high = true → t.gateLevel g = .highZ)
      ∧ (high = false → s.rstN = true → t.gateLevel g =
          if s.asserted g then (s.gate g).polarity.active else (s.gate g).polarity.inactive)

/-- Table 7-3 of R118: what each gate output drives in the state as it stands; that a level changes within the event that
changes one of its conditions follows, since each command is one event (log entry 15). -/
def Obligations.GateDrive : Prop :=
  ∀ (s : State) (g : GateNo),
    (s.rstN = false → s.gateLevel g = .highZ)
    ∧ (s.rstN = true → s.gateOeN = true → s.gateLevel g = .highZ)
    ∧ (s.rstN = true → s.gateOeN = false → s.asserted g = true →
        s.gateLevel g = if (s.gate g).polarity = .activeHigh then .high else .low)
    ∧ (s.rstN = true → s.gateOeN = false → s.asserted g = false →
        s.gateLevel g = if (s.gate g).polarity = .activeHigh then .low else .high)
    ∧ ((s.gate g).binding = none → s.asserted g = false)

/-- R116 and its laws, in every state that keeps the laws of the records: a gate is asserted exactly while its bound port
has a lease in the holder list of its bound resource; gates at a resource without holder and gates of a port without
session are not asserted; two ports' gates at an EXCLUSIVE resource are never asserted at once. -/
def Obligations.GatesFollowHolders : Prop :=
  ∀ s : State, s.Inv →
    (∀ g, s.asserted g = true ↔
      ∃ b, (s.gate g).binding = some b ∧ ∃ l ∈ (s.res b.res).holders, (s.lease l).ownedBy b.port = true)
    ∧ (∀ g b, (s.gate g).binding = some b → (s.res b.res).holders = [] → s.asserted g = false)
    ∧ (∀ g b, (s.gate g).binding = some b → s.attached b.port = false → s.asserted g = false)
    ∧ ∀ g g' b b', (s.gate g).binding = some b → (s.gate g').binding = some b' → b.res = b'.res →
        (s.res b.res).st = .exclusive → s.asserted g = true → s.asserted g' = true → b.port = b'.port

/-! ### The link ports -/

/-- R157, R158, Table 10-3: the falling edge of CS_N takes the port to OPENING with a status byte that reports the port
as it stands, and begins to drive MISO; ATTN_N is driven low while the port's list holds an entry, the condition that the
ATTN bit reports (R153), and MISO from the falling edge that opens a transaction until its end. That the pin alone follows
with RST_N low is the model's choice (log entry 10), and so is that a fall with CS_N already low changes nothing (log entry
2); the outputs are functions of the state (log entry 15), and a port IDLE with CS_N low does not drive MISO (log entry 17,
DEDUCED). -/
def Obligations.StatusByteFormed : Prop :=
  ∀ (p : Port) (s : State), (s.link p).requests.length ≤ 4 →
    (s.rstN = true → (s.link p).csLow = false → ∃ b : Byte,
      exec (.csNFall p) s = .next (s.setLink p { s.link p with csLow := true, txn := .opening b, shifted := [] })
      ∧ b.getLsbD 7 = s.attached p ∧ b.getLsbD 6 = !(s.attn p).isEmpty
      ∧ b.getLsbD 5 = !(s.link p).responses.isEmpty ∧ b.getLsbD 4 = (s.link p).refused
      ∧ b.getLsbD 3 = (s.link p).badFrame ∧ (b &&& 7).toNat = 4 - (s.link p).requests.length
      ∧ ∀ t, exec (.csNFall p) s = .next t → (t.link p).misoDriven = true ∧ t.attnLow p = b.getLsbD 6)
    ∧ (s.rstN = false → (s.link p).csLow = false →
      exec (.csNFall p) s = .next (s.setLink p { s.link p with csLow := true }))
    ∧ ((s.link p).csLow = true → exec (.csNFall p) s = .next s)
    ∧ (s.attnLow p = true ↔ s.rstN = true ∧ s.attn p ≠ [])
    ∧ (s.rstN = true → ((s.link p).misoDriven = true ↔ (s.link p).txn ≠ .idle))

/-- R157, R158, R159, R165, R166: the completion of the first byte clears the sticky flags that the status byte carried
and decodes the type byte; COLLECT takes the frame of the head response, or the empty frame. A port that is not OPENING
is left as it is (log entry 2). -/
def Obligations.FirstByteDecides : Prop :=
  ∀ (p : Port) (t : Byte) (s : State),
    (∀ b, s.rstN = true → (s.link p).txn = .opening b →
      let k : Link := { s.link p with
        refused := (s.link p).refused && !b.getLsbD 4
        badFrame := (s.link p).badFrame && !b.getLsbD 3
        shifted := [b] }
      (t = 0xA1 → exec (.firstByteCompletion p t) s = .next (s.setLink p { k with txn := .receiving [] 0 }))
      ∧ (t = 0xA2 → ∀ r rest, (s.link p).responses = r :: rest →
          let head := [r.seq, r.code, r.result.value, byteOf r.body.length] ++ r.body
          exec (.firstByteCompletion p t) s =
            .next (s.setLink p { k with txn := .sending (.response (head ++ [crc8 head])) 0 }))
      ∧ (t = 0xA2 → (s.link p).responses = [] →
          exec (.firstByteCompletion p t) s =
            .next (s.setLink p { k with txn := .sending (.empty [0, 0, 0xFF, 0, crc8 [0, 0, 0xFF, 0]]) 0 }))
      ∧ (t = 0xA3 → exec (.firstByteCompletion p t) s = .next (s.setLink p { k with txn := .sending .nothing 0 }))
      ∧ (t ≠ 0xA1 → t ≠ 0xA2 → t ≠ 0xA3 →
          exec (.firstByteCompletion p t) s = .next (s.setLink p { k with txn := .ignoring, badFrame := true })))
    ∧ ((∀ b, (s.link p).txn ≠ .opening b) → exec (.firstByteCompletion p t) s = .next s)

/-- Table 11-1, R160, R161: a request frame as a host sends it, in a whole SUBMIT transaction, is received as exactly
that request. It joins the tail of the request queue while the queue holds fewer than 4, sets REFUSED otherwise, and
renews the port's liveness either way (R132). -/
def Obligations.SubmittedFrameReceived : Prop :=
  ∀ (p : Port) (rq : Request) (s : State), s.rstN = true → (s.link p).txn = .idle → (s.link p).csLow = false →
    rq.body.length ≤ 24 →
    let head := [rq.seq, rq.code, byteOf rq.body.length] ++ rq.body
    let k := s.link p
    let room := decide (k.requests.length < 4)
    exec (.submit p (head ++ [crc8 head]) (.rise false)) s = .next
      ((s.setLink p { k with
          requests := if room then k.requests ++ [rq] else k.requests
          refused := !room
          badFrame := false
          shifted := s.statusByte p :: List.replicate (rq.body.length + 4) 0xFF }).setSession p
        (if s.attached p then
          { s.session p with st := .attached (if (s.session p).window = 0 then none else some (s.session p).window) }
        else s.session p))

/-- R161, Table 10-4: the judgement of whatever bytes a SUBMIT transaction received, at the rising edge of CS_N. -/
def Obligations.SubmitJudged : Prop :=
  ∀ (p : Port) (bytes : List Byte) (cut : Bool) (s : State), s.rstN = true → (s.link p).txn = .receiving [] 0 →
    let len := (bytes.getD 2 0).toNat
    let malformed := bytes.length < 3 ∨ 24 < len ∨ cut = true ∨ bytes.length ≠ len + 4
    let badCheck := bytes.getD (len + 3) 0 ≠ crc8 (bytes.take (len + 3))
    let k : Link := { s.link p with
      txn := .idle
      csLow := false
      shifted := (s.link p).shifted ++ List.replicate bytes.length 0xFF }
    let renewed : Session := if s.attached p then
        { s.session p with st := .attached (if (s.session p).window = 0 then none else some (s.session p).window) }
      else s.session p
    (malformed → exec (.submit p bytes (.rise cut)) s = .next (s.setLink p { k with badFrame := true }))
    ∧ (¬ malformed → badCheck → exec (.submit p bytes (.rise cut)) s = .next (s.setLink p { k with badFrame := true }))
    ∧ (¬ malformed → ¬ badCheck → 4 ≤ k.requests.length →
        exec (.submit p bytes (.rise cut)) s =
          .next ((s.setLink p { k with refused := true }).setSession p renewed))
    ∧ (¬ malformed → ¬ badCheck → k.requests.length < 4 →
        exec (.submit p bytes (.rise cut)) s =
          .next ((s.setLink p { k with
            requests := k.requests ++ [⟨bytes.getD 0 0, bytes.getD 1 0, (bytes.drop 3).take len⟩] }).setSession p
              renewed))

/-- R165, R166: a whole COLLECT transaction shifts out the status byte, then the frame of the head response, or the empty
frame, then 0xFF; the response leaves the queue exactly when every byte of its frame has been shifted out whole. R169,
R170: a COLLECT whose response is gone goes on with 0xFF, and its end removes nothing. The RESULT byte is that of Table
11-5. -/
def Obligations.CollectDelivers : Prop :=
  (∀ (p : Port) (n : Nat) (cut : Bool) (s : State), s.rstN = true → (s.link p).txn = .idle → (s.link p).csLow = false →
    let k : Link := { s.link p with refused := false, badFrame := false }
    (∀ r rest, (s.link p).responses = r :: rest →
      let head := [r.seq, r.code, r.result.value, byteOf r.body.length] ++ r.body
      let frame := head ++ [crc8 head]
      exec (.collect p n (.rise cut)) s = .next (s.setLink p { k with
        responses := if r.body.length + 5 ≤ n then rest else r :: rest
        shifted := s.statusByte p :: (frame ++ List.replicate n 0xFF).take n }))
    ∧ ((s.link p).responses = [] →
      exec (.collect p n (.rise cut)) s = .next (s.setLink p { k with
        shifted := s.statusByte p ::
          ([0, 0, 0xFF, 0, crc8 [0, 0, 0xFF, 0]] ++ List.replicate n 0xFF).take n })))
  ∧ (∀ (p : Port) (n sent : Nat) (cut : Bool) (s : State), s.rstN = true → (s.link p).txn = .sending .gone sent →
    let k : Link := { s.link p with shifted := (s.link p).shifted ++ List.replicate n 0xFF }
    exec (.collect p n .held) s = .next (s.setLink p { k with txn := .sending .gone (sent + n) })
    ∧ exec (.collect p n (.rise cut)) s = .next (s.setLink p { k with txn := .idle, csLow := false }))
  ∧ ∀ r : Result, (r, r.value) ∈ ([(.done, 0x00), (.queued, 0x01), (.pending, 0x02), (.ended, 0x03),
      (.notAttached, 0x10), (.notPermitted, 0x11), (.unknownRequest, 0x12), (.badLength, 0x13), (.badArgument, 0x14),
      (.noResource, 0x15), (.retiring, 0x16), (.held, 0x17), (.queueFull, 0x18), (.duplicate, 0x19), (.quota, 0x1A),
      (.poolEmpty, 0x1B), (.staleId, 0x1C), (.notOwner, 0x1D), (.wrongMode, 0x1E), (.conflict, 0x1F),
      (.revoking, 0x20), (.state, 0x21), (.epochExhausted, 0x22), (.none, 0xFF)] : List (Result × Byte))

/-- R167: a STATUS transaction is the status byte and 0xFF after it; it clears the sticky flags carried, changes no queue
and renews no liveness, and neither does a COLLECT. -/
def Obligations.StatusIsItsByte : Prop :=
  ∀ (p : Port) (n : Nat) (cut : Bool) (s : State), s.rstN = true → (s.link p).txn = .idle → (s.link p).csLow = false →
    exec (.status p n (.rise cut)) s = .next (s.setLink p { s.link p with
      refused := false
      badFrame := false
      shifted := s.statusByte p :: List.replicate n 0xFF })
    ∧ ∀ e t, exec (.collect p n e) s = .next t → t.sessions = s.sessions

/-- R159: an unknown type byte sets BADFRAME after the clearing of the flags carried, and the port ignores the rest. -/
def Obligations.UnknownTypeSetsBadFrame : Prop :=
  ∀ (p : Port) (t : Byte) (n : Nat) (cut : Bool) (s : State), s.rstN = true → (s.link p).txn = .idle →
    (s.link p).csLow = false → t ≠ 0xA1 → t ≠ 0xA2 → t ≠ 0xA3 →
    exec (.unknownTypeByte p t n (.rise cut)) s = .next (s.setLink p { s.link p with
      refused := false
      badFrame := true
      shifted := s.statusByte p :: List.replicate n 0xFF })

/-- A transaction taken in pieces is the transaction taken whole (log entry 9): the falling edge, the first byte, some
bytes with CS_N held low, and the rest. A transaction that ends before its first byte is complete sets no flag, clears no
flag and changes nothing (R158, R159); only the model's record of the bytes shifted out starts afresh (log entry 15). R160:
of a frame being received the bytes up to LEN + 4 are stored, never more than 28 (Table 10-1), and all are counted. -/
def Obligations.TransactionsCompose : Prop :=
  ∀ (p : Port) (s : State), s.rstN = true → (s.link p).txn = .idle → (s.link p).csLow = false →
    (∀ e : CsEnd, e ≠ .early →
      (∀ a b : List Byte, exec (.submit p (a ++ b) e) s =
        execAll [.csNFall p, .firstByteCompletion p 0xA1, .submit p a .held, .submit p b e] s)
      ∧ (∀ m n : Nat, exec (.collect p (m + n) e) s =
        execAll [.csNFall p, .firstByteCompletion p 0xA2, .collect p m .held, .collect p n e] s)
      ∧ (∀ m n : Nat, exec (.status p (m + n) e) s =
        execAll [.csNFall p, .firstByteCompletion p 0xA3, .status p m .held, .status p n e] s)
      ∧ ∀ (t : Byte) (m n : Nat), t ≠ 0xA1 → t ≠ 0xA2 → t ≠ 0xA3 → exec (.unknownTypeByte p t (m + n) e) s =
        execAll [.csNFall p, .firstByteCompletion p t, .unknownTypeByte p t m .held, .unknownTypeByte p t n e] s)
    ∧ (∀ bytes : List Byte, exec (.submit p bytes .held) s = .next (s.setLink p { s.link p with
        csLow := true
        refused := false
        badFrame := false
        txn := .receiving (bytes.take (min 28 ((bytes.getD 2 0).toNat + 4))) bytes.length
        shifted := s.statusByte p :: List.replicate bytes.length 0xFF }))
    ∧ ∀ c ∈ [Instr.submit p [] .early, .collect p 0 .early, .status p 0 .early, .unknownTypeByte p 0x00 0 .early],
      exec c s = .next (s.setLink p { s.link p with shifted := [] })
      ∧ execAll [.csNFall p, c] s = .next (s.setLink p { s.link p with shifted := [] })

/-- R162: the check byte is computed as the rule says: the register starts at 0xFF, takes each byte by exclusive-or and is
shifted eight times, with 0x07 combined where the bit shifted out is 1. It changes whenever any one byte before it does,
so no frame with one wrong byte passes step 2 of Table 10-4. -/
def Obligations.CheckByteDetects : Prop :=
  let shift (reg : Byte) : Byte := if reg.getLsbD 7 then (reg <<< 1) ^^^ 0x07 else reg <<< 1
  crc8 [] = 0xFF
    ∧ (∀ (bs : List Byte) (b : Byte), crc8 (bs ++ [b]) =
        shift (shift (shift (shift (shift (shift (shift (shift (crc8 bs ^^^ b)))))))))
    ∧ ∀ (pre post : List Byte) (b b' : Byte), b ≠ b' → crc8 (pre ++ [b] ++ post) ≠ crc8 (pre ++ [b'] ++ post)

/-! ### Taking requests -/

/-- R163, R168, R171: with RST_N low, a full response queue or no request, no request is taken; a port whose head request
is of another kind is left as it is by the command of this kind (the model's choice, log entry 2). R163, R172: a code that
names no request is answered UNKNOWN_REQUEST before any check, and nothing else changes. The codes and body lengths are
those of Table 11-3. -/
def Obligations.TakingNeedsItsRequest : Prop :=
  (∀ (k : Req) (p : Port) (s : State),
    (s.rstN = false ∨ 4 ≤ (s.link p).responses.length ∨ (s.link p).requests = [] →
      exec (k.command p) s = .next s ∧ exec (.unknownRequest p) s = .next s)
    ∧ ∀ rq, (s.link p).requests.head? = some rq → rq.code ≠ k.code → exec (k.command p) s = .next s)
  ∧ (∀ (p : Port) (rq : Request) (s : State), s.rstN = true → (s.link p).responses.length < 4 →
    (s.link p).requests.head? = some rq → (∀ k : Req, rq.code ≠ k.code) →
    exec (.unknownRequest p) s = .next (s.replied p rq .unknownRequest []))
  ∧ ∀ k : Req, (k, k.code, k.bodyLen) ∈ ([(.attach, 0x01, 2), (.detach, 0x02, 0), (.keepalive, 0x03, 0),
      (.portStatus, 0x04, 1), (.acquire, 0x10, 7), (.renew, 0x11, 4), (.release, 0x12, 2), (.queryLease, 0x13, 2),
      (.promote, 0x14, 4), (.demote, 0x15, 2), (.cancelWait, 0x18, 2), (.queryResource, 0x20, 1), (.checkEpoch, 0x21, 5),
      (.scan, 0x22, 6), (.fetchNotice, 0x28, 0), (.define, 0x40, 10), (.retire, 0x41, 1), (.revoke, 0x42, 2),
      (.setQuota, 0x43, 3), (.bindGate, 0x44, 4), (.unbindGate, 0x45, 1), (.setTimebase, 0x46, 2),
      (.startTimebase, 0x47, 0), (.haltTimebase, 0x48, 0), (.evict, 0x49, 1), (.warmReset, 0x4A, 0)]
      : List (Req × Byte × Nat))

/-- R129, Table 8-3: authority before session before body length, and a request refused here leaves its response and
nothing else. -/
def Obligations.AuthoritySessionLength : Prop :=
  ∀ (k : Req) (p : Port) (rq : Request) (s : State), s.Taking k p rq →
    let supervisor : Prop := k ∈ [Req.define, .retire, .revoke, .setQuota, .bindGate, .unbindGate, .setTimebase,
      .startTimebase, .haltTimebase, .evict, .warmReset]
    let free : Prop := k ∈ [Req.attach, .queryResource, .checkEpoch, .scan, .portStatus]
    (supervisor → p ≠ 0 → exec (k.command p) s = .next (s.replied p rq .notPermitted []))
    ∧ (¬ (supervisor ∧ p ≠ 0) → ¬ free → s.attached p = false →
        exec (k.command p) s = .next (s.replied p rq .notAttached []))
    ∧ (¬ (supervisor ∧ p ≠ 0) → (free ∨ s.attached p = true) → rq.body.length ≠ k.bodyLen →
        exec (k.command p) s = .next (s.replied p rq .badLength []))

/-- R163, R164: a taken request leaves the head of the request queue, exactly one response joins the tail of the response
queue with its SEQ and CODE, a refusal has an empty body, no other port's link changes, and neither do the pins or the
countdowns still due. EVICT and WARM_RESET, which empty queues, and a HALT_TIMEBASE taken while a tick has countdowns still
to reach (R112) have statements of their own. -/
def Obligations.OneResponseEach : Prop :=
  ∀ (k : Req) (p : Port) (rq : Request) (s t : State), s.Taking k p rq → k ≠ .evict → k ≠ .warmReset →
    (k = .haltTimebase → s.due = [] ∨ s.timebase.mode = .halted) →
    exec (k.command p) s = .next t →
    (∃ result body, (t.link p) = { s.link p with
        requests := (s.link p).requests.tail
        responses := (s.link p).responses ++ [⟨rq.seq, rq.code, result, body⟩] }
      ∧ (result ∉ [Result.done, .queued, .pending, .ended] → body = []))
    ∧ (∀ q, q ≠ p → t.link q = s.link q) ∧ t.rstN = s.rstN ∧ t.gateOeN = s.gateOeN ∧ t.due = s.due
      ∧ t.late = s.late

/-- R173: a field outside its stated range is refused BAD_ARGUMENT, and nothing but the response changes. -/
def Obligations.FieldRanges : Prop :=
  ∀ (k : Req) (p : Port) (rq : Request) (s : State), s.Passing k p rq →
    let b := rq.body
    let bad : Prop :=
      (k ∈ [Req.acquire, .queryResource, .checkEpoch, .scan, .define, .retire, .revoke] ∧ 63 < (byteAt b 0).toNat)
      ∨ (k ∈ [Req.portStatus, .setQuota, .evict] ∧ 3 < (byteAt b 0).toNat)
      ∨ (k ∈ [Req.bindGate, .unbindGate] ∧ 15 < (byteAt b 0).toNat)
      ∨ (k = .acquire ∧ (byteAt b 1 ≠ 1 ∧ byteAt b 1 ≠ 2 ∨ byteAt b 6 ≠ 0 ∧ byteAt b 6 ≠ 1))
      ∨ (k = .bindGate ∧ (63 < (byteAt b 1).toNat ∨ 3 < (byteAt b 2).toNat ∨ byteAt b 3 ≠ 0 ∧ byteAt b 3 ≠ 1))
      ∨ (k = .setQuota ∧ (96 < (byteAt b 1).toNat ∨ 48 < (byteAt b 2).toNat))
      ∨ (k = .evict ∧ byteAt b 0 = 0)
      ∨ (k = .define ∧ (15 < (byteAt b 1).toNat ∨ 4 < (byteAt b 2).toNat ∨ halfAt b 3 = 0
          ∨ (halfAt b 5).toNat < (halfAt b 3).toNat ∨ 16 < (byteAt b 9).toNat))
      ∨ (k = .scan ∧ (15 < (byteAt b 1).toNat ∨ (byteAt b 1).getLsbD 0 = true ∧ 15 < (byteAt b 2).toNat
          ∨ (byteAt b 1).getLsbD 1 = true ∧ (byteAt b 3 = 0 ∨ 63 < (byteAt b 3).toNat)
          ∨ (byteAt b 1).getLsbD 2 = true ∧ 3 < (byteAt b 4).toNat
          ∨ (byteAt b 1).getLsbD 3 = true ∧ 1 < (byteAt b 5).toNat))
    bad → exec (k.command p) s = .next (s.replied p rq .badArgument [])

/-- R23, R49, R174: an id that names no listed record is refused STALE_ID, whichever port sends it; an id of another
port's record is refused NOT_OWNER; nothing but the response changes. -/
def Obligations.StaleIds : Prop :=
  ∀ (k : Req) (p : Port) (rq : Request) (s : State), s.Passing k p rq →
    let i := byteAt rq.body 0
    let g := byteAt rq.body 1
    (k ∈ [Req.renew, .release, .queryLease, .promote, .demote] →
      (95 < i.toNat ∨ g = 0 → exec (k.command p) s = .next (s.replied p rq .staleId []))
      ∧ ∀ l : LeaseNo, i.toNat = l.val →
        (g ≠ (s.lease l).gen ∨ (s.lease l).isHolder = false ∧ (s.lease l).isEnded = false →
          exec (k.command p) s = .next (s.replied p rq .staleId []))
        ∧ (g ≠ 0 → g = (s.lease l).gen → (s.lease l).isHolder = true ∨ (s.lease l).isEnded = true →
            (s.lease l).ownedBy p = false → exec (k.command p) s = .next (s.replied p rq .notOwner [])))
    ∧ (k = .cancelWait →
      (47 < i.toNat ∨ g = 0 → exec (k.command p) s = .next (s.replied p rq .staleId []))
      ∧ ∀ w : WaitNo, i.toNat = w.val →
        (g ≠ (s.wait w).gen ∨ (s.wait w).isFree = true →
          exec (k.command p) s = .next (s.replied p rq .staleId []))
        ∧ (g ≠ 0 → g = (s.wait w).gen → (s.wait w).isFree = false → (s.wait w).ownedBy p = false →
            exec (k.command p) s = .next (s.replied p rq .notOwner [])))

/-! ### Sessions -/

/-- R130, R131: ATTACH opens a session; on a port with an open session that session is ended first with last end cause
REATTACH, as SessionEndTreatsEachResource says for the resources and the other ports, and the queues are left as they stand.
Where P0 attaches again and its own lease was the last of a RETIRING resource, no RETIRED is flagged to it: the model
deduces that (log entry 13). -/
def Obligations.AttachOpensSession : Prop :=
  ∀ (p : Port) (rq : Request) (window : Half) (s : State), s.Passing .attach p rq → rq.body = bytes2 window →
    let x := s.session p
    let n : Half := if x.number = 65535 then 1 else x.number + 1
    let live : SessState := .attached (if window = 0 then none else some window)
    (s.attached p = false → exec (.attach p) s = .next
      ((s.setSession p { x with st := live, number := n, window := window }).replied p rq .done
        (bytes2 n ++ bytes2 window ++ [x.leaseQuota, x.waitQuota, 0, x.lastEnd.value])))
    ∧ (s.attached p = true →
      let u := s.endSession p .detached .reattach
      s.PortEnded u p .detached .reattach ∧ u.links = s.links ∧ exec (.attach p) s = .next
        ((u.setSession p { x with st := live, number := n, window := window, lastEnd := .reattach }).replied p rq .done
          (bytes2 n ++ bytes2 window ++ [x.leaseQuota, x.waitQuota, 1, EndCause.reattach.value])))

/-- R134, R136: DETACH ends the session and leaves the port's queues as they stand; what becomes of the resources and of the
other ports is SessionEndTreatsEachResource. That P0, detaching as the last holder of a RETIRING resource, has no RETIRED
flagged is the model's deduction (log entry 13). -/
def Obligations.DetachEndsSession : Prop :=
  ∀ (p : Port) (rq : Request) (s : State), s.Passing .detach p rq →
    let u := s.endSession p .detached .detach
    s.PortEnded u p .detached .detach ∧ u.links = s.links ∧ exec (.detach p) s = .next (u.replied p rq .done [])

/-- R135, R136, R138: EVICT ends the session of a member port as LOST and empties its queues, keeping its sticky flags; a
response it was collecting is marked gone. P0 is answered with the session number and the counts of records freed. A port
that is not ATTACHED is answered STATE. What becomes of the resources and of the other ports is
SessionEndTreatsEachResource. -/
def Obligations.EvictEndsSession : Prop :=
  ∀ (p q : Port) (rq : Request) (s : State), s.Passing .evict p rq → rq.body = [byteOf q.val] → q ≠ 0 →
    (s.attached q = true →
      let u := s.endSession q .lost .evicted
      s.PortEnded u q .lost .evicted ∧ u.links = s.links ∧ exec (.evict p) s = .next
        ((u.setLink q { s.link q with
            requests := []
            responses := []
            txn := match (s.link q).txn with
              | .sending (.response _) n => .sending .gone n
              | x => x }).replied p rq .done
          (bytes2 (s.session q).number ++ [byteOf (s.leaseUse q), byteOf (s.waitUse q)])))
    ∧ (s.attached q = false → exec (.evict p) s = .next (s.replied p rq .state []))

/-- R132, R136, R138: when the tick reaches a liveness countdown at 1, the session is lost for silence and the port's
queues are emptied; a countdown above 1 is only lowered (R107, R108); a session in which none runs any more is reached
without effect (R106). What becomes of the resources and of the other ports is SessionEndTreatsEachResource. That P0, lost
as the last holder of a RETIRING resource, has no RETIRED flagged is the model's deduction (log entry 13); that an expiry
which is not due changes nothing is its choice (log entry 2), and the list of what is due is its own field (log entry 5). -/
def Obligations.LivenessExpiryLosesSession : Prop :=
  ∀ (p : Port) (s : State), s.rstN = true → s.timebase.mode = .running →
    let d : State := { s with due := s.due.erase (.live p) }
    (TickRef.live p ∉ s.due → exec (.livenessExpiry p) s = .next s)
    ∧ (TickRef.live p ∈ s.due → (∀ n, (s.session p).st ≠ .attached (some n)) → exec (.livenessExpiry p) s = .next d)
    ∧ ∀ n : Half, TickRef.live p ∈ s.due → (s.session p).st = .attached (some n) →
      (n = 1 →
        let u := d.endSession p .lost .silent
        s.PortEnded u p .lost .silent ∧ u.links = s.links ∧ u.due = d.due
        ∧ exec (.livenessExpiry p) s = .next (u.setLink p { s.link p with
            requests := []
            responses := []
            txn := match (s.link p).txn with
              | .sending (.response _) n => .sending .gone n
              | x => x }))
      ∧ (1 < n.toNat → exec (.livenessExpiry p) s = .next
        (d.setSession p { s.session p with st := .attached (some (n - 1)) }))

/-- R136, R137: a session end frees the port's records and treats each resource where it had a live claim once: its lease
leaves, or its wait leaves. What becomes of the resource, of the leases and waits on it and of the entries on them in every
port's list does not depend on the order among the resources, which is a free value (log entry 6); every other record, and
everything else but the count of free values used, is as the freeing of the port's records leaves it. -/
def Obligations.SessionEndTreatsEachResource : Prop :=
  ∀ (s : State) (p : Port) (st : SessState) (cause : EndCause), s.Inv →
    let u := s.endSession p st cause
    let d := s.dropPort p st cause
    let resOf : Ref → Option ResNo
      | .lease l => (d.lease l).claim?.map (·.res)
      | .wait w => (d.wait w).claim?.map (·.res)
      | .resource r => some r
    (∀ r : ResNo,
      let v := match s.claimAt p r with
        | none => d
        | some (.holder l) => d.leave r l
        | some (.waiter w) => d.dropWait r w
      u.res r = v.res r
      ∧ (∀ l, s.claimAt p r = some (.holder l) → l ∉ (u.res r).holders)
      ∧ (∀ w, s.claimAt p r = some (.waiter w) → w ∉ (u.res r).queue)
      ∧ (s.claimAt p r = none → u.res r = s.res r)
      ∧ (∀ l, resOf (.lease l) = some r → u.lease l = v.lease l)
      ∧ (∀ w, resOf (.wait w) = some r → u.wait w = v.wait w)
      ∧ ∀ q, (u.attn q).filter (fun e => resOf e.ref = some r) = (v.attn q).filter fun e => resOf e.ref = some r)
    ∧ (∀ l, resOf (.lease l) = none → u.lease l = d.lease l) ∧ (∀ w, resOf (.wait w) = none → u.wait w = d.wait w)
    ∧ (∀ q, ∀ e ∈ u.attn q, resOf e.ref ≠ none)
    ∧ u = { d with
        resources := u.resources
        leases := u.leases
        waits := u.waits
        attention := u.attention
        freeCount := s.freeCount + 1 }

/-- R139: SET_QUOTA replaces both quotas of the named port and takes nothing away. -/
def Obligations.SetQuotaReplaces : Prop :=
  ∀ (p q : Port) (lq wq : Byte) (rq : Request) (s : State), s.Passing .setQuota p rq → rq.body = [byteOf q.val, lq, wq] →
    lq.toNat ≤ 96 → wq.toNat ≤ 48 →
    let x := s.session q
    exec (.setQuota p) s = .next ((s.setSession q { x with leaseQuota := lq, waitQuota := wq }).replied p rq .done
      [x.leaseQuota, x.waitQuota, lq, wq, byteOf (s.leaseUse q), byteOf (s.waitUse q)])

/-- R20, R47, R70, R114, R126, R141, R142, R155, R170: warm reset as one event across the part. A tick that has countdowns
still to reach reaches them before the warm reset is taken (log entry 5; where P0's own liveness is among them, log entry
22). That a COLLECT of the empty frame goes on as 0xFF is the model's deduction (log entry 16), and that a transaction still
in its first byte goes on as it was is its choice where it is a COLLECT (log entry 24). -/
def Obligations.WarmResetClears : Prop :=
  ∀ (p : Port) (rq : Request) (s : State), s.Passing .warmReset p rq →
    exec (.warmReset p) s = exec (.warmReset p) s.finishTick
    ∧ (s.due = [] ∨ s.timebase.mode = .halted → ∃ t : State, exec (.warmReset p) s = .next t
    ∧ (∀ r, t.res r = { s.res r with
        st := match (s.res r).st with
          | .undefined => .undefined
          | .free => .free
          | .retiring => .undefined
          | _ => if (s.res r).attrs.settle = 0 then .free else .settling (s.res r).attrs.settle
        attrs := if (s.res r).st = .retiring then ⟨0, 0, 0, 0, 0, 0, 0⟩ else (s.res r).attrs
        holders := []
        queue := []
        slot := none
        retireNotice := false })
    ∧ (∀ l, t.lease l = ⟨(s.lease l).gen, .free⟩) ∧ (∀ w, t.wait w = ⟨(s.wait w).gen, .free⟩)
    ∧ t.timebase = { s.timebase with prescaler := 0 } ∧ t.gates = s.gates
    ∧ (∀ q, t.session q = { s.session q with
        st := .detached
        lastEnd := if s.attached q then .warmReset else (s.session q).lastEnd })
    ∧ (∀ q, t.attn q = [])
    ∧ (∀ q, t.link q = { s.link q with
        requests := []
        responses := if q = p then [⟨rq.seq, rq.code, .done, []⟩] else []
        refused := false
        badFrame := false
        txn := match (s.link q).txn with
          | .sending (.response _) n => .sending .gone n
          | .sending (.empty _) n => .sending .gone n
          | x => x })
    ∧ t.rstN = s.rstN ∧ t.gateOeN = s.gateOeN ∧ t.due = s.due ∧ t.late = s.late ∧ t.freeCount = s.freeCount)

/-- R133, R140, Table 8-4: what KEEPALIVE and PORT_STATUS answer; they change nothing. -/
def Obligations.SessionReports : Prop :=
  ∀ (p : Port) (rq : Request) (s : State),
    (s.Passing .keepalive p rq → exec (.keepalive p) s = .next (s.replied p rq .done
      ([(s.session p).number.extractLsb' 0 8] ++ bytes2 (s.session p).window)))
    ∧ ∀ q : Port, s.Passing .portStatus p rq → rq.body = [byteOf q.val] →
      let x := s.session q
      let live : Half := match x.st with
        | .attached (some n) => n
        | _ => 0
      exec (.portStatus p) s = .next (s.replied p rq .done
        ([byteOf q.val, x.st.value] ++ bytes2 x.number ++ bytes2 x.window ++ bytes2 live
          ++ [x.leaseQuota, x.waitQuota, byteOf (s.leaseUse q), byteOf (s.leasesHeld q), byteOf (s.leaseTombstones q),
              byteOf (s.waitUse q), byteOf (s.waitTombstones q), byteOf (s.attn q).length, x.lastEnd.value]))

/-! ### Reading the records -/

/-- R15, R44, Tables 1-6 and 2-8: what QUERY_RESOURCE and QUERY_LEASE answer, byte by byte; they change nothing. A listed
lease is always ACTIVE or GRACE, a queued wait always WAITING and a lease in the slot always out of FREE (ResetKeepsLaws and
StepKeepsLaws); the last rows of the three matches speak of states that no run reaches. The values of enumerated fields are
those of Table 11-6, and those of the causes are R175's. -/
def Obligations.RecordReports : Prop :=
  (∀ (p : Port) (r : ResNo) (rq : Request) (s : State), s.Passing .queryResource p rq → rq.body = [byteOf r.val] →
    let x := s.res r
    let holder (l : LeaseNo) : List Byte := match (s.lease l).st with
      | .active h _ => [byteOf h.claim.port.val, h.claim.mode.value, 1, 0]
      | .grace h y => [byteOf h.claim.port.val, h.claim.mode.value, 2, y.cause.value]
      | _ => [0, 0, 0, 0]
    let head : List Byte := match x.queue with
      | w :: _ => match (s.wait w).st with
        | .waiting c _ _ => [byteOf c.port.val, c.mode.value]
        | .ended c _ => [byteOf c.port.val, c.mode.value]
        | .free => [0xFF, 0]
      | [] => [0xFF, 0]
    let settle : Byte := match x.st with
      | .settling n => n
      | _ => 0
    let slotPort : Byte := match x.slot with
      | some l => match (s.lease l).claim? with
        | some c => byteOf c.port.val
        | none => 0xFF
      | none => 0xFF
    exec (.queryResource p) s = .next (s.replied p rq .done
      ([byteOf r.val, x.st.value, x.attrs.cls, x.attrs.shareLimit] ++ bytes2 x.attrs.defaultTerm
        ++ bytes2 x.attrs.maxTerm ++ [x.attrs.grace, x.attrs.settle, x.attrs.queueLimit] ++ bytes4 x.epoch
        ++ [byteOf x.holders.length] ++ x.holders.flatMap holder ++ [byteOf x.queue.length] ++ head
        ++ [settle, slotPort, if x.retireNotice then 1 else 0])))
  ∧ (∀ (p : Port) (l : LeaseNo) (g : Byte) (rq : Request) (s : State), s.Passing .queryLease p rq →
    rq.body = [byteOf l.val, g] → g ≠ 0 → g = (s.lease l).gen → (s.lease l).ownedBy p = true →
    (∀ h a, (s.lease l).st = .active h a → exec (.queryLease p) s = .next (s.replied p rq .done
      ([byteOf l.val, g, 1, byteOf h.claim.res.val, h.claim.mode.value] ++ bytes4 h.epoch ++ bytes2 h.grantedTerm
        ++ bytes2 a.termLeft ++ [0, 0, 0] ++ bytes2 h.renews ++ [flagByte h.claim.contend, flagByte a.sent]
        ++ bytes2 (a.promo.getD 0))))
    ∧ (∀ h x, (s.lease l).st = .grace h x → exec (.queryLease p) s = .next (s.replied p rq .done
      ([byteOf l.val, g, 2, byteOf h.claim.res.val, h.claim.mode.value] ++ bytes4 h.epoch ++ bytes2 h.grantedTerm
        ++ [0, 0, x.graceLeft, x.cause.value, 0] ++ bytes2 h.renews ++ [flagByte h.claim.contend, flagByte x.sent, 0, 0])))
    ∧ ∀ h c, (s.lease l).st = .ended h c → exec (.queryLease p) s = .next (s.replied p rq .done
      ([byteOf l.val, g, 3, byteOf h.claim.res.val, h.claim.mode.value] ++ bytes4 h.epoch ++ bytes2 h.grantedTerm
        ++ [0, 0, 0, c.value, 1] ++ bytes2 h.renews ++ [flagByte h.claim.contend, 0, 0, 0])))
  ∧ (∀ n, [ResState.undefined, .free, .exclusive, .shared, .settling n, .retiring].map ResState.value = [0, 1, 2, 3, 4, 5])
  ∧ [Mode.exclusive, .shared].map Mode.value = [1, 2]
  ∧ [RevokeCause.term, .supervisor, .retire].map RevokeCause.value = [1, 2, 3]
  ∧ [WaitEnd.expired, .withdrawn].map WaitEnd.value = [2, 3]
  ∧ (∀ n, [SessState.detached, .attached n, .lost].map SessState.value = [0, 1, 2])
  ∧ [EndCause.none, .detach, .silent, .evicted, .reattach, .warmReset].map EndCause.value = [0, 1, 2, 3, 4, 5]
  ∧ [TbMode.halted, .running].map TbMode.value = [0, 1]
  ∧ [Polarity.activeHigh, .activeLow].map Polarity.value = [0, 1]
  ∧ [Cause.granted, .contended, .revokePending, .rescued, .revoked, .promoted, .promoteEnded].map Cause.value =
      [1, 2, 4, 8, 16, 32, 64]
  ∧ [Cause.expired, .withdrawn, .retired].map Cause.value = [1, 2, 1]
  ∧ (∀ b, flagByte b = if b then 1 else 0)
  ∧ (∀ x : Half, bytes2 x = [BitVec.ofNat 8 (x.toNat / 256), BitVec.ofNat 8 (x.toNat % 256)])
  ∧ ∀ x : Quad, bytes4 x = [BitVec.ofNat 8 (x.toNat / 16777216), BitVec.ofNat 8 (x.toNat / 65536 % 256),
      BitVec.ofNat 8 (x.toNat / 256 % 256), BitVec.ofNat 8 (x.toNat % 256)]

/-- R16: the verdict of CHECK_EPOCH on every epoch value, with the current epoch; a resource number above 63 is refused
BAD_ARGUMENT; it changes nothing either way. -/
def Obligations.EpochVerdict : Prop :=
  ∀ (p : Port) (rq : Request) (s : State), s.Passing .checkEpoch p rq →
    (63 < (byteAt rq.body 0).toNat → exec (.checkEpoch p) s = .next (s.replied p rq .badArgument []))
    ∧ ∀ (r : ResNo) (e : Quad), rq.body = [byteOf r.val] ++ bytes4 e →
      ((s.res r).holders = [] →
        exec (.checkEpoch p) s = .next (s.replied p rq .done ([2] ++ bytes4 (s.res r).epoch)))
      ∧ ((s.res r).holders ≠ [] → e = (s.res r).epoch →
        exec (.checkEpoch p) s = .next (s.replied p rq .done ([0] ++ bytes4 (s.res r).epoch)))
      ∧ ((s.res r).holders ≠ [] → e ≠ (s.res r).epoch →
        exec (.checkEpoch p) s = .next (s.replied p rq .done ([1] ++ bytes4 (s.res r).epoch)))

/-- R17, R18, Table 1-7: SCAN answers the first resource from the start on that matches every criterion named, and no
match when there is none. -/
def Obligations.ScanFindsFirst : Prop :=
  ∀ (p : Port) (r0 : ResNo) (sel c m h w : Byte) (rq : Request) (s : State), s.Passing .scan p rq →
    rq.body = [byteOf r0.val, sel, c, m, h, w] → sel.toNat ≤ 15 →
    (sel.getLsbD 0 = true → c.toNat ≤ 15) → (sel.getLsbD 1 = true → 1 ≤ m.toNat ∧ m.toNat ≤ 63) →
    (sel.getLsbD 2 = true → h.toNat ≤ 3) → (sel.getLsbD 3 = true → w.toNat ≤ 1) →
    let fits : ResNo → Prop := fun r =>
      (sel.getLsbD 0 = true → (s.res r).st ≠ .undefined ∧ (s.res r).attrs.cls = c)
      ∧ (sel.getLsbD 1 = true → m.getLsbD (s.res r).st.value.toNat = true)
      ∧ (sel.getLsbD 2 = true → ∃ q : Port, q.val = h.toNat ∧ ∃ l ∈ (s.res r).holders, (s.lease l).ownedBy q = true)
      ∧ (sel.getLsbD 3 = true → (w = 1 ↔ (s.res r).queue ≠ []))
    (∀ r, r0 ≤ r → fits r → (∀ r', r0 ≤ r' → r' < r → ¬ fits r') →
      exec (.scan p) s = .next (s.replied p rq .done
        ([1, byteOf r.val, (s.res r).st.value, (s.res r).attrs.cls] ++ bytes4 (s.res r).epoch
          ++ [byteOf (s.res r).holders.length, byteOf (s.res r).queue.length])))
    ∧ ((∀ r, r0 ≤ r → ¬ fits r) → exec (.scan p) s = .next (s.replied p rq .done [0]))

/-- R14, R15, R16, R18, R44, R133, R140: the six requests that only read change nothing but the queues of the port that
sends them, whatever they answer. -/
def Obligations.QueriesChangeNothing : Prop :=
  ∀ (k : Req) (p : Port) (s t : State),
    k ∈ [Req.keepalive, .portStatus, .queryLease, .queryResource, .checkEpoch, .scan] →
    exec (k.command p) s = .next t → t = s.setLink p (t.link p)

/-! ### ACQUIRE -/

/-- R28, R29, R30, R11, R12: an ACQUIRE that is grantable now is granted at once: from FREE it begins a holding period
under the next epoch, at a SHARED resource with room and an empty slot it joins the period that stands. -/
def Obligations.AcquireGrants : Prop :=
  ∀ (p : Port) (r : ResNo) (m : Mode) (term patience : Half) (c : Bool) (l : LeaseNo) (rq : Request) (s : State),
    s.Passing .acquire p rq →
    rq.body = [byteOf r.val, m.value] ++ bytes2 term ++ bytes2 patience ++ [flagByte c] →
    s.hasLiveClaim p r = false → s.leaseUse p < (s.session p).leaseQuota.toNat → s.LowestFreeLease l →
    let x := s.res r
    let given : Half := if term = 0 then x.attrs.defaultTerm else if x.attrs.maxTerm < term then x.attrs.maxTerm else term
    let gen : Byte := if (s.lease l).gen = 255 then 1 else (s.lease l).gen + 1
    let granted (e : Quad) : Lease := ⟨gen, .active ⟨⟨p, r, m, c⟩, e, given, 0⟩ ⟨given, false, none⟩⟩
    x.queue = [] → (m = .shared → x.attrs.shareLimit ≠ 0) →
    (x.st = .free → x.epoch ≠ 0xFFFFFFFF → exec (.acquire p) s = .next
      (((s.setRes r { x with
          st := if m = .exclusive then .exclusive else .shared
          epoch := x.epoch + 1
          holders := x.holders ++ [l] }).setLease l (granted (x.epoch + 1))).replied p rq .done
        ([byteOf l.val, gen] ++ bytes4 (x.epoch + 1) ++ bytes2 given)))
    ∧ (x.st = .shared → m = .shared → x.holders.length < x.attrs.shareLimit.toNat → x.slot = none →
      exec (.acquire p) s = .next
        (((s.setRes r { x with holders := x.holders ++ [l] }).setLease l (granted x.epoch)).replied p rq .done
          ([byteOf l.val, gen] ++ bytes4 x.epoch ++ bytes2 given)))

/-- R32, R52, R66: an ACQUIRE that is not grantable now and passes Table 2-5 is queued at the tail with a RESERVED lease;
the holders that asked for it have contention notices. -/
def Obligations.AcquireQueues : Prop :=
  ∀ (p : Port) (r : ResNo) (m : Mode) (term patience : Half) (c : Bool) (l : LeaseNo) (w : WaitNo) (rq : Request)
    (s : State), s.Passing .acquire p rq →
    rq.body = [byteOf r.val, m.value] ++ bytes2 term ++ bytes2 patience ++ [flagByte c] →
    s.hasLiveClaim p r = false → s.leaseUse p < (s.session p).leaseQuota.toNat → s.LowestFreeLease l →
    s.waitUse p < (s.session p).waitQuota.toNat → s.LowestFreeWait w →
    let x := s.res r
    let genL : Byte := if (s.lease l).gen = 255 then 1 else (s.lease l).gen + 1
    let genW : Byte := if (s.wait w).gen = 255 then 1 else (s.wait w).gen + 1
    x.st ≠ .undefined → x.st ≠ .retiring → (m = .shared → x.attrs.shareLimit ≠ 0) → patience ≠ 0 →
    x.queue.length < x.attrs.queueLimit.toNat →
    ¬ (x.queue = [] ∧ (x.st = .free ∨ x.st = .shared ∧ m = .shared ∧ x.slot = none
        ∧ x.holders.length < x.attrs.shareLimit.toNat)) →
    exec (.acquire p) s = .next
      (((((s.setLease l ⟨genL, .reserved ⟨p, r, m, c⟩⟩).setWait w
            ⟨genW, .waiting ⟨p, r, m, term, c⟩ patience l⟩).setRes r { x with queue := x.queue ++ [w] }).contend
          x.holders).replied p rq .queued [byteOf w.val, genW, byteOf (x.queue.length + 1)])

/-- R27, R28, R31, R32: the refusals of ACQUIRE in their order; a refused ACQUIRE changes nothing but the response. -/
def Obligations.AcquireRefusalOrder : Prop :=
  ∀ (p : Port) (r : ResNo) (m : Mode) (term patience : Half) (c : Bool) (rq : Request) (s : State) (result : Result),
    s.Passing .acquire p rq →
    rq.body = [byteOf r.val, m.value] ++ bytes2 term ++ bytes2 patience ++ [flagByte c] →
    let x := s.res r
    let grantable : Bool := decide (x.queue = [] ∧ (x.st = .free ∨ x.st = .shared ∧ m = .shared ∧ x.slot = none
      ∧ x.holders.length < x.attrs.shareLimit.toNat))
    (if x.st = .undefined then some Result.noResource
      else if x.st = .retiring then some .retiring
      else if m = .shared ∧ x.attrs.shareLimit = 0 then some .wrongMode
      else if s.hasLiveClaim p r then some .duplicate
      else if (s.session p).leaseQuota.toNat ≤ s.leaseUse p then some .quota
      else if ∀ l, (s.lease l).isFree = false then some .poolEmpty
      else if grantable then if x.st = .free ∧ x.epoch = 0xFFFFFFFF then some .epochExhausted else none
      else if patience = 0 then some .held
      else if x.attrs.queueLimit.toNat ≤ x.queue.length then some .queueFull
      else if (s.session p).waitQuota.toNat ≤ s.waitUse p then some .quota
      else if ∀ w, (s.wait w).isFree = false then some .poolEmpty
      else none) = some result →
    exec (.acquire p) s = .next (s.replied p rq result [])

/-- R66: a contention notice reaches each of the given holders that asked for it and has not been told since its lease was
granted or renewed: its sent flag is set, and CONTENDED joins its entry, which keeps its place, or a new entry at the tail.
A holder already told or not asking is neither flagged nor changed, and every other entry and list stands. -/
def Obligations.ContentionNotices : Prop :=
  ∀ (s : State) (ls : List LeaseNo), ls.Nodup →
    let t := s.contend ls
    let told (l : LeaseNo) : Bool := match (s.lease l).st with
      | .active h a => h.claim.contend && !a.sent
      | .grace h g => h.claim.contend && !g.sent
      | _ => false
    t = { s with leases := t.leases, attention := t.attention }
    ∧ (∀ l, l ∈ ls → told l = true →
        (∀ h a, (s.lease l).st = .active h a → t.lease l = ⟨(s.lease l).gen, .active h { a with sent := true }⟩)
        ∧ ∀ h g, (s.lease l).st = .grace h g → t.lease l = ⟨(s.lease l).gen, .grace h { g with sent := true }⟩)
    ∧ (∀ l, l ∉ ls ∨ told l = false → t.lease l = s.lease l)
    ∧ ∀ p, ((s.attn p).map (·.ref)).Nodup →
      let flagged (l : LeaseNo) : Bool := told l && (s.lease l).ownedBy p
      t.attn p = ((s.attn p).map fun e => match e.ref with
          | .lease l => if l ∈ ls ∧ flagged l = true then ⟨.lease l, e.causes ||| 2⟩ else e
          | _ => e)
        ++ (ls.filter fun l => flagged l && !((s.attn p).any fun e => e.ref = .lease l)).map fun l => ⟨.lease l, 2⟩

/-! ### RENEW, RELEASE and the end of a wait -/

/-- R29, R36 to R39: RENEW of the port's own lease: an ACTIVE lease is renewed, a lease in TERM grace is rescued, any
other grace is answered REVOKING. -/
def Obligations.RenewOutcomes : Prop :=
  ∀ (p : Port) (l : LeaseNo) (g : Byte) (term : Half) (rq : Request) (s : State), s.Passing .renew p rq →
    rq.body = [byteOf l.val, g] ++ bytes2 term → g ≠ 0 → g = (s.lease l).gen → (s.lease l).ownedBy p = true →
    let given (h : Holding) : Half :=
      if term = 0 then (s.res h.claim.res).attrs.defaultTerm
      else if (s.res h.claim.res).attrs.maxTerm < term then (s.res h.claim.res).attrs.maxTerm else term
    let again (h : Holding) : Holding :=
      { h with grantedTerm := given h, renews := if h.renews = 65535 then 65535 else h.renews + 1 }
    (∀ h a, (s.lease l).st = .active h a → exec (.renew p) s = .next
      ((s.setLease l ⟨g, .active (again h) { a with termLeft := given h, sent := false }⟩).replied p rq .done
        (bytes2 (given h) ++ [0])))
    ∧ (∀ h x, (s.lease l).st = .grace h x → x.cause = .term → exec (.renew p) s = .next
      (((s.setLease l ⟨g, .active (again h) ⟨given h, false, none⟩⟩).flag p (.lease l) .rescued).replied p rq .done
        (bytes2 (given h) ++ [1])))
    ∧ (∀ h x, (s.lease l).st = .grace h x → x.cause ≠ .term →
      exec (.renew p) s = .next (s.replied p rq .revoking []))

/-- R41, R7, R8, R80: RELEASE of a holder frees its record and withdraws its entry; its resource completes a retirement,
settles, becomes FREE with a grant pass, completes another lease's promotion, or has a grant pass. -/
def Obligations.ReleaseOutcomes : Prop :=
  ∀ (p : Port) (l : LeaseNo) (g : Byte) (h : Holding) (rq : Request) (s : State), s.Passing .release p rq →
    rq.body = [byteOf l.val, g] → g ≠ 0 → g = (s.lease l).gen → h.claim.port = p →
    ((∃ a, (s.lease l).st = .active h a) ∨ ∃ x, (s.lease l).st = .grace h x) →
    let r := h.claim.res
    let x := s.res r
    let y : Resource := { x with
      holders := x.holders.filter (· ≠ l)
      slot := if x.slot = some l then none else x.slot }
    let u := (s.setLease l ⟨g, .free⟩).setAttn p ((s.attn p).filter fun e => e.ref ≠ .lease l)
    let undefined := u.setRes r { y with st := .undefined, attrs := ⟨0, 0, 0, 0, 0, 0, 0⟩, retireNotice := false }
    (y.holders = [] → x.st = .retiring → exec (.release p) s = .next
      ((if s.attached 0 then undefined.flag 0 (.resource r) .retired else undefined).replied p rq .done []))
    ∧ (y.holders = [] → (x.st = .exclusive ∨ x.st = .shared) → x.attrs.settle ≠ 0 → exec (.release p) s = .next
      ((u.setRes r { y with st := .settling x.attrs.settle }).replied p rq .done []))
    ∧ (y.holders = [] → (x.st = .exclusive ∨ x.st = .shared) → x.attrs.settle = 0 → exec (.release p) s = .next
      (((u.setRes r { y with st := .free }).grantPass r).replied p rq .done []))
    ∧ (∀ q, y.holders = [q] → y.slot = some q → exec (.release p) s = .next
      (((u.setRes r y).promotionCompletes r q).replied p rq .done []))
    ∧ (y.holders ≠ [] → (∀ q, y.holders = [q] → y.slot ≠ some q) → exec (.release p) s = .next
      (((u.setRes r y).grantPass r).replied p rq .done []))

/-- R39, R42, R72, R82, R148: RENEW, RELEASE, PROMOTE and DEMOTE of the port's own ENDED lease are answered ENDED with its
causes; the tombstone returns to FREE, its generation unchanged, and its entry is withdrawn. -/
def Obligations.EndedAnswered : Prop :=
  ∀ (k : Req) (p : Port) (l : LeaseNo) (h : Holding) (c : RevokeCause) (rq : Request) (s : State),
    k ∈ [Req.renew, .release, .promote, .demote] → s.Passing k p rq →
    byteAt rq.body 0 = byteOf l.val → byteAt rq.body 1 = (s.lease l).gen → (s.lease l).gen ≠ 0 →
    (s.lease l).st = .ended h c → h.claim.port = p →
    exec (k.command p) s = .next
      (((s.setLease l ⟨(s.lease l).gen, .free⟩).setAttn p ((s.attn p).filter fun e => e.ref ≠ .lease l)).replied p rq
        .ended [1, c.value])

/-- R63: CANCEL_WAIT of an ENDED wait. -/
def Obligations.CancelEndedWait : Prop :=
  ∀ (p : Port) (w : WaitNo) (g : Byte) (c : WaitClaim) (e : WaitEnd) (rq : Request) (s : State),
    s.Passing .cancelWait p rq → rq.body = [byteOf w.val, g] → g ≠ 0 → g = (s.wait w).gen →
    (s.wait w).st = .ended c e → c.port = p →
    ∃ t : State, exec (.cancelWait p) s = .next (t.replied p rq .ended [e.value])
      ∧ t = (s.setWait w ⟨g, .free⟩).setAttn p ((s.attn p).filter fun x => x.ref ≠ .wait w)
      ∧ t.waitUse p + 1 = s.waitUse p ∧ t.resolveWait p (byteOf w.val) g = .stale

/-- R62: CANCEL_WAIT of a WAITING wait frees it and its reserved lease and takes it out of the queue; a grant pass runs
when it was the head. -/
def Obligations.CancelWaitingWait : Prop :=
  ∀ (p : Port) (w : WaitNo) (g : Byte) (c : WaitClaim) (n : Half) (l : LeaseNo) (rq : Request) (s : State),
    s.Passing .cancelWait p rq → rq.body = [byteOf w.val, g] → g ≠ 0 → g = (s.wait w).gen →
    (s.wait w).st = .waiting c n l → c.port = p →
    let x := s.res c.res
    let u := ((s.setWait w ⟨g, .free⟩).setLease l ⟨(s.lease l).gen, .free⟩).setRes c.res
      { x with queue := x.queue.filter (· ≠ w) }
    (x.queue.head? = some w → exec (.cancelWait p) s = .next ((u.grantPass c.res).replied p rq .done []))
    ∧ (x.queue.head? ≠ some w → exec (.cancelWait p) s = .next (u.replied p rq .done []))

/-! ### Promotion, demotion and the grant pass -/

/-- R72 to R74: PROMOTE of the port's own lease in ACTIVE or GRACE, in the order of Table 4-1 from step 6 on. -/
def Obligations.PromoteOutcomes : Prop :=
  ∀ (p : Port) (l : LeaseNo) (g : Byte) (patience : Half) (h : Holding) (rq : Request) (s : State),
    s.Passing .promote p rq → rq.body = [byteOf l.val, g] ++ bytes2 patience → g ≠ 0 → g = (s.lease l).gen →
    h.claim.port = p →
    let r := h.claim.res
    let x := s.res r
    (∀ y, (s.lease l).st = .grace h y → exec (.promote p) s = .next (s.replied p rq .revoking []))
    ∧ ∀ a, (s.lease l).st = .active h a →
      (h.claim.mode = .exclusive → exec (.promote p) s = .next (s.replied p rq .wrongMode []))
      ∧ (h.claim.mode = .shared → x.slot ≠ none → exec (.promote p) s = .next (s.replied p rq .conflict []))
      ∧ (h.claim.mode = .shared → x.slot = none → x.holders = [l] → x.epoch = 0xFFFFFFFF →
          exec (.promote p) s = .next (s.replied p rq .epochExhausted []))
      ∧ (h.claim.mode = .shared → x.slot = none → x.holders = [l] → x.epoch ≠ 0xFFFFFFFF →
          exec (.promote p) s = .next
            (((s.setRes r { x with st := .exclusive, epoch := x.epoch + 1 }).setLease l
              ⟨g, .active { h with claim := { h.claim with mode := .exclusive }, epoch := x.epoch + 1 }
                { a with promo := none }⟩).replied p rq .done (bytes4 (x.epoch + 1))))
      ∧ (h.claim.mode = .shared → x.slot = none → x.holders ≠ [l] → patience = 0 →
          exec (.promote p) s = .next (s.replied p rq .held []))
      ∧ (h.claim.mode = .shared → x.slot = none → x.holders ≠ [l] → patience ≠ 0 →
          let others := x.holders.filter (· ≠ l)
          exec (.promote p) s = .next
            ((((s.setRes r { x with slot := some l }).setLease l
              ⟨g, .active h { a with promo := some patience }⟩).contend others).replied p rq .pending
                [byteOf others.length]))

/-- R76, R77: a pending promotion whose lease is left the only holder completes under a new epoch with PROMOTED, or, at an
exhausted epoch, ends with PROMOTE_ENDED and a grant pass. -/
def Obligations.PromotionCompletion : Prop :=
  ∀ (s : State) (r : ResNo) (l : LeaseNo) (h : Holding) (a : ActivePart), (s.lease l).st = .active h a →
    let x := s.res r
    let gen := (s.lease l).gen
    (x.epoch ≠ 0xFFFFFFFF → s.promotionCompletes r l =
      ((s.setRes r { x with slot := none, epoch := x.epoch + 1, st := .exclusive }).setLease l
        ⟨gen, .active { h with claim := { h.claim with mode := .exclusive }, epoch := x.epoch + 1 }
          { a with promo := none }⟩).flag h.claim.port (.lease l) .promoted)
    ∧ (x.epoch = 0xFFFFFFFF → s.promotionCompletes r l =
      (((s.setRes r { x with slot := none }).setLease l ⟨gen, .active h { a with promo := none }⟩).flag h.claim.port
        (.lease l) .promoteEnded).grantPass r)

/-- R82, R83: DEMOTE of the port's own lease: a new epoch, the resource SHARED, and a grant pass in the same event; a
lease in GRACE or SHARED is answered WRONG_MODE. -/
def Obligations.DemoteOutcomes : Prop :=
  ∀ (p : Port) (l : LeaseNo) (g : Byte) (h : Holding) (rq : Request) (s : State), s.Passing .demote p rq →
    rq.body = [byteOf l.val, g] → g ≠ 0 → g = (s.lease l).gen → h.claim.port = p →
    let r := h.claim.res
    let x := s.res r
    (∀ y, (s.lease l).st = .grace h y → exec (.demote p) s = .next (s.replied p rq .wrongMode []))
    ∧ ∀ a, (s.lease l).st = .active h a →
      (h.claim.mode = .shared ∨ x.attrs.shareLimit = 0 →
        exec (.demote p) s = .next (s.replied p rq .wrongMode []))
      ∧ (h.claim.mode = .exclusive → x.attrs.shareLimit ≠ 0 → x.epoch = 0xFFFFFFFF →
        exec (.demote p) s = .next (s.replied p rq .epochExhausted []))
      ∧ (h.claim.mode = .exclusive → x.attrs.shareLimit ≠ 0 → x.epoch ≠ 0xFFFFFFFF →
        exec (.demote p) s = .next
          ((((s.setRes r { x with st := .shared, epoch := x.epoch + 1 }).setLease l
            ⟨g, .active { h with claim := { h.claim with mode := .shared }, epoch := x.epoch + 1 } a⟩).grantPass
              r).replied p rq .done (bytes4 (x.epoch + 1))))

/-- R54 to R57, R11: a grant pass serves a queue from its head, in order, and stops only when the head can not be granted. A
FREE resource below the last epoch begins a holding period under the next epoch, in the mode of the head: EXCLUSIVE with
the head alone, or SHARED with every SHARED wait that follows up to the share limit; a SHARED resource with an empty slot
takes SHARED waits up to the share limit under the epoch that stands; any other resource is served nothing. The served
waits are FREE; their leases are ACTIVE with the term given, stand at the tail of the holder list in queue order, and have
GRANTED flagged; everything else is as before. -/
def Obligations.GrantPassServes : Prop :=
  ∀ (s : State) (r : ResNo), s.QueueLaw → s.ReserveLaw → ((s.res r).st = .free → (s.res r).holders = []) →
    let x := s.res r
    let t := s.grantPass r
    let allShared (ws : List WaitNo) : Prop := ∀ w ∈ ws, (s.wait w).mode? = some .shared
    let leases (ws : List WaitNo) : List LeaseNo := ws.filterMap fun w => (s.wait w).reserved?
    ∃ served rest, x.queue = served ++ rest
      ∧ (served = [] → t = s)
      ∧ (x.st ≠ .free → x.st ≠ .shared → served = [])
      ∧ (x.st = .free → x.epoch = 0xFFFFFFFF → served = [])
      ∧ (x.st = .free → x.epoch ≠ 0xFFFFFFFF → x.queue ≠ [] →
          let period (st : ResState) : Resource :=
            { x with st := st, epoch := x.epoch + 1, holders := x.holders ++ leases served, queue := rest }
          (∃ w, served = [w] ∧ (s.wait w).mode? = some .exclusive ∧ t.res r = period .exclusive)
          ∨ served ≠ [] ∧ allShared served ∧ (served.length = 1 ∨ served.length ≤ x.attrs.shareLimit.toNat)
            ∧ t.res r = period .shared)
      ∧ (x.st = .shared → x.slot ≠ none → served = [])
      ∧ (x.st = .shared → allShared served ∧ (served = [] ∨ x.holders.length + served.length ≤ x.attrs.shareLimit.toNat)
          ∧ t.res r = { x with holders := x.holders ++ leases served, queue := rest })
      ∧ ((t.res r).st = .shared → (t.res r).slot = none →
          (t.res r).holders.length < (t.res r).attrs.shareLimit.toNat →
          ∀ w ∈ rest.head?, (s.wait w).mode? = some .exclusive)
      ∧ (∀ w ∈ served, ∀ c n l, (s.wait w).st = .waiting c n l →
          let given : Half := if c.term = 0 then x.attrs.defaultTerm
            else if x.attrs.maxTerm < c.term then x.attrs.maxTerm else c.term
          t.wait w = ⟨(s.wait w).gen, .free⟩
          ∧ t.lease l = ⟨(s.lease l).gen,
              .active ⟨⟨c.port, c.res, c.mode, c.contend⟩, (t.res r).epoch, given, 0⟩ ⟨given, false, none⟩⟩)
      ∧ (∀ w, w ∉ served → t.wait w = s.wait w) ∧ (∀ l, l ∉ leases served → t.lease l = s.lease l)
      ∧ (s.ListLaw → ∀ p, t.attn p = s.attn p ++ served.filterMap fun w => match (s.wait w).st with
          | .waiting c _ l => if c.port = p then some ⟨.lease l, 1⟩ else none
          | _ => none)
      ∧ (∀ r', r' ≠ r → t.res r' = s.res r')
      ∧ t = { s with resources := t.resources, leases := t.leases, waits := t.waits, attention := t.attention }

/-! ### The resource table -/

/-- R4, R5: DEFINE of an UNDEFINED resource with attributes in range makes it FREE with them and keeps its epoch; DEFINE
of a defined resource is answered STATE. -/
def Obligations.DefineOutcomes : Prop :=
  ∀ (p : Port) (r : ResNo) (a : Attrs) (rq : Request) (s : State), s.Passing .define p rq →
    rq.body = [byteOf r.val, a.cls, a.shareLimit] ++ bytes2 a.defaultTerm ++ bytes2 a.maxTerm
      ++ [a.grace, a.settle, a.queueLimit] →
    a.cls.toNat ≤ 15 → a.shareLimit.toNat ≤ 4 → 1 ≤ a.defaultTerm.toNat → a.defaultTerm.toNat ≤ a.maxTerm.toNat →
    a.queueLimit.toNat ≤ 16 →
    ((s.res r).st = .undefined → exec (.define p) s = .next
      ((s.setRes r { s.res r with st := .free, attrs := a }).replied p rq .done
        ([byteOf r.val] ++ bytes4 (s.res r).epoch)))
    ∧ ((s.res r).st ≠ .undefined → exec (.define p) s = .next (s.replied p rq .state []))

/-- R95 to R98, R84, R87, R79: RETIRE withdraws every wait and ends or drains every holder, in every state that keeps the
laws of the records; the resource becomes UNDEFINED, or RETIRING while its holders are in grace. The entries say so:
WITHDRAWN for each wait; REVOKE_PENDING for each holder placed in grace, or escalated with a change, and PROMOTE_ENDED for
the one in the slot; REVOKED as well for each holder ended. Every other entry and record stands. -/
def Obligations.RetireOutcomes : Prop :=
  ∀ (p : Port) (r : ResNo) (rq : Request) (s : State), s.Inv → s.Passing .retire p rq → rq.body = [byteOf r.val] →
    let x := s.res r
    let counts := [byteOf x.queue.length, byteOf x.holders.length]
    let slotBit (l : LeaseNo) : Byte := if x.slot = some l then 64 else 0
    let mine (y : Ref) : Prop := (∃ l ∈ x.holders, y = .lease l) ∨ ∃ w ∈ x.queue, y = .wait w
    (x.st = .undefined → exec (.retire p) s = .next (s.replied p rq .noResource []))
    ∧ (x.st = .retiring → exec (.retire p) s = .next (s.replied p rq .retiring []))
    ∧ (x.st ≠ .undefined → x.st ≠ .retiring → ∃ t : State,
      (if x.holders ≠ [] ∧ x.attrs.grace ≠ 0
        then exec (.retire p) s = .next (t.replied p rq .pending counts)
          ∧ t.res r = { x with st := .retiring, queue := [], slot := none, retireNotice := true }
          ∧ (∀ l ∈ x.holders, ∀ h a, (s.lease l).st = .active h a →
              t.lease l = ⟨(s.lease l).gen, .grace h ⟨x.attrs.grace, .retire, a.sent⟩⟩
              ∧ t.causesOf h.claim.port (.lease l) = s.causesOf h.claim.port (.lease l) ||| (4 ||| slotBit l))
          ∧ ∀ l ∈ x.holders, ∀ h y, (s.lease l).st = .grace h y →
              let left := if x.attrs.grace < y.graceLeft then x.attrs.grace else y.graceLeft
              t.lease l = ⟨(s.lease l).gen, .grace h { y with cause := .retire, graceLeft := left }⟩
              ∧ t.causesOf h.claim.port (.lease l) = s.causesOf h.claim.port (.lease l)
                ||| if y.cause ≠ .retire ∨ y.graceLeft ≠ left then 4 else 0
        else exec (.retire p) s = .next (t.replied p rq .done counts)
          ∧ t.res r = ⟨.undefined, ⟨0, 0, 0, 0, 0, 0, 0⟩, x.epoch, [], [], none, false⟩
          ∧ ∀ l ∈ x.holders, ∀ h, ((∃ a, (s.lease l).st = .active h a) ∨ ∃ y, (s.lease l).st = .grace h y) →
              t.lease l = ⟨(s.lease l).gen, .ended h .retire⟩
              ∧ t.causesOf h.claim.port (.lease l) = s.causesOf h.claim.port (.lease l) ||| (20 ||| slotBit l))
      ∧ (∀ w ∈ x.queue, ∀ c n l, (s.wait w).st = .waiting c n l → t.wait w = ⟨(s.wait w).gen, .ended c .withdrawn⟩
          ∧ t.lease l = ⟨(s.lease l).gen, .free⟩ ∧ t.causesOf c.port (.wait w) = 2)
      ∧ (∀ q y, ¬ mine y → t.causesOf q y = s.causesOf q y)
      ∧ (∀ q, (s.attn q).map (·.ref) <+: (t.attn q).map (·.ref))
      ∧ (∀ r', r' ≠ r → t.res r' = s.res r') ∧ (∀ w, w ∉ x.queue → t.wait w = s.wait w)
      ∧ (∀ l, l ∉ x.holders → (∀ w ∈ x.queue, (s.wait w).reserved? ≠ some l) → t.lease l = s.lease l)
      ∧ t = { s with resources := t.resources, leases := t.leases, waits := t.waits, attention := t.attention })

/-- R90 to R92, R84, R86, R87, R79, R8, R100: REVOKE places or escalates every holder in grace, or, with a grace of 0, ends
every one of them in the one event; the argument 255 asks for the resource's grace attribute. `v` is what becomes of the
holders, and the list, the slot and the entries with them: REVOKE_PENDING for each placed in grace or escalated with a
change, PROMOTE_ENDED for the one in the slot, and REVOKED as well for each ended, whose revoke cause is the higher of its
own and SUPERVISOR. What becomes of the resource follows: a grant pass where a slot has been emptied; without a holder
left, UNDEFINED with RETIRED to P0, SETTLING, or FREE with a grant pass. That P0's RETIRED entry comes after P0's own lease
entry, where a grace of 0 completes a retirement, is the model's deduction from R91 and R92 (log entry 14, DEDUCED): R146
gives no order. -/
def Obligations.RevokeOutcomes : Prop :=
  ∀ (p : Port) (r : ResNo) (arg : Byte) (rq : Request) (s : State), s.Inv → s.Passing .revoke p rq →
    rq.body = [byteOf r.val, arg] →
    let x := s.res r
    let g := if arg = 255 then x.attrs.grace else arg
    let slotBit (l : LeaseNo) : Byte := if x.slot = some l then 64 else 0
    let cause (c : RevokeCause) : RevokeCause := if c = .retire then .retire else .supervisor
    let rest (v : State) : Prop :=
      (∀ l, l ∉ x.holders → v.lease l = s.lease l) ∧ (∀ r', r' ≠ r → v.res r' = s.res r')
      ∧ (∀ q y, (∀ l ∈ x.holders, y ≠ .lease l) → v.causesOf q y = s.causesOf q y)
      ∧ (∀ q, (s.attn q).map (·.ref) <+: (v.attn q).map (·.ref))
      ∧ v = { s with resources := v.resources, leases := v.leases, attention := v.attention }
    (x.st = .undefined → exec (.revoke p) s = .next (s.replied p rq .noResource []))
    ∧ (x.st ≠ .undefined → x.holders = [] → exec (.revoke p) s = .next (s.replied p rq .done [0]))
    ∧ (x.holders ≠ [] → g ≠ 0 → ∃ v : State, rest v
      ∧ exec (.revoke p) s = .next
        ((if x.slot = none then v else v.grantPass r).replied p rq .done [byteOf x.holders.length])
      ∧ v.res r = { x with slot := none }
      ∧ (∀ l ∈ x.holders, ∀ h a, (s.lease l).st = .active h a →
          v.lease l = ⟨(s.lease l).gen, .grace h ⟨g, .supervisor, a.sent⟩⟩
          ∧ v.causesOf h.claim.port (.lease l) = s.causesOf h.claim.port (.lease l) ||| (4 ||| slotBit l))
      ∧ ∀ l ∈ x.holders, ∀ h y, (s.lease l).st = .grace h y →
          let left := if g < y.graceLeft then g else y.graceLeft
          v.lease l = ⟨(s.lease l).gen, .grace h { y with cause := cause y.cause, graceLeft := left }⟩
          ∧ v.causesOf h.claim.port (.lease l) = s.causesOf h.claim.port (.lease l)
            ||| if y.cause ≠ cause y.cause ∨ y.graceLeft ≠ left then 4 else 0)
    ∧ (x.holders ≠ [] → g = 0 → ∃ v : State, rest v
      ∧ v.res r = { x with holders := [], slot := none }
      ∧ (∀ l ∈ x.holders, ∀ h a, (s.lease l).st = .active h a →
          v.lease l = ⟨(s.lease l).gen, .ended h .supervisor⟩
          ∧ v.causesOf h.claim.port (.lease l) = s.causesOf h.claim.port (.lease l) ||| (20 ||| slotBit l))
      ∧ (∀ l ∈ x.holders, ∀ h y, (s.lease l).st = .grace h y →
          v.lease l = ⟨(s.lease l).gen, .ended h (cause y.cause)⟩
          ∧ v.causesOf h.claim.port (.lease l) = s.causesOf h.claim.port (.lease l) ||| 20)
      ∧ ∃ t : State, exec (.revoke p) s = .next (t.replied p rq .done [byteOf x.holders.length])
      ∧ (x.st = .retiring →
          t = (v.setRes r ⟨.undefined, ⟨0, 0, 0, 0, 0, 0, 0⟩, x.epoch, [], [], none, false⟩).flag 0 (.resource r) .retired)
      ∧ (x.st ≠ .retiring → x.attrs.settle ≠ 0 →
          t = v.setRes r { x with st := .settling x.attrs.settle, holders := [], slot := none })
      ∧ (x.st ≠ .retiring → x.attrs.settle = 0 →
          t = (v.setRes r { x with st := .free, holders := [], slot := none }).grantPass r))

/-! ### Gates, timebase, notices -/

/-- R120 to R122: BIND_GATE and UNBIND_GATE of a gate that is not asserted replace and remove its binding; of an asserted
gate they are answered STATE. The resource and port of an unbound gate are reported as 0 (log entry 12). -/
def Obligations.GateBindings : Prop :=
  ∀ (p : Port) (g : GateNo) (rq : Request) (s : State),
    let report (x : Gate) : List Byte := match x.binding with
      | some b => [1, byteOf b.res.val, byteOf b.port.val, x.polarity.value]
      | none => [0, 0, 0, x.polarity.value]
    (∀ (r : ResNo) (q : Port) (pol : Polarity), s.Passing .bindGate p rq →
      rq.body = [byteOf g.val, byteOf r.val, byteOf q.val, pol.value] →
      (s.asserted g = true → exec (.bindGate p) s = .next (s.replied p rq .state []))
      ∧ (s.asserted g = false → exec (.bindGate p) s = .next
        ((s.setGate g ⟨some ⟨r, q⟩, pol⟩).replied p rq .done
          (report (s.gate g) ++ report ⟨some ⟨r, q⟩, pol⟩ ++ [if s.holds q r then 1 else 0]))))
    ∧ (s.Passing .unbindGate p rq → rq.body = [byteOf g.val] →
      (s.asserted g = true → exec (.unbindGate p) s = .next (s.replied p rq .state []))
      ∧ (s.asserted g = false → exec (.unbindGate p) s = .next
        ((s.setGate g ⟨none, (s.gate g).polarity⟩).replied p rq .done
          (report (s.gate g) ++ report ⟨none, (s.gate g).polarity⟩ ++ [0]))))

/-- R110 to R112: the three timebase requests; each answers the state before, the state after and the divider in force
less 1, and changes nothing but the timebase. A HALT_TIMEBASE taken while a tick has countdowns still to reach is taken
after the tick has reached them (R112, log entry 5; where P0's own liveness is among them, log entry 22). -/
def Obligations.TimebaseRequests : Prop :=
  ∀ (p : Port) (rq : Request) (s : State),
    let x := s.timebase
    let body (y : Timebase) : List Byte :=
      [x.mode.value, y.mode.value] ++ bytes2 (BitVec.ofNat 16 (y.divider - 1))
    let answered (y : Timebase) : State := ({ s with timebase := y } : State).replied p rq .done (body y)
    (∀ d : Half, s.Passing .setTimebase p rq → rq.body = bytes2 d →
      (x.mode = .running → exec (.setTimebase p) s = .next (s.replied p rq .state []))
      ∧ (x.mode = .halted → exec (.setTimebase p) s = .next (answered { x with divider := d.toNat + 1 })))
    ∧ (s.Passing .startTimebase p rq →
      (x.mode = .halted → exec (.startTimebase p) s = .next (answered { x with mode := .running, prescaler := 0 }))
      ∧ (x.mode = .running → exec (.startTimebase p) s = .next (answered x)))
    ∧ (s.Passing .haltTimebase p rq →
      (s.due = [] ∨ x.mode = .halted → exec (.haltTimebase p) s = .next (answered { x with mode := .halted }))
      ∧ exec (.haltTimebase p) s = exec (.haltTimebase p) s.finishTick)

/-- R149 to R151: FETCH_NOTICE removes and reports the head entry with a snapshot of its record; a tombstone fetched
returns to FREE with its generation unchanged, and any other record is unchanged; an empty list is answered so. -/
def Obligations.FetchNoticeOutcomes : Prop :=
  ∀ (p : Port) (rq : Request) (s : State), s.Passing .fetchNotice p rq →
    (s.attn p = [] → exec (.fetchNotice p) s = .next (s.replied p rq .done [0]))
    ∧ ∀ e es, s.attn p = e :: es →
      let u := s.setAttn p es
      (∀ l, e.ref = .lease l →
        let body := [1, byteOf l.val, e.causes, byteOf es.length] ++ (s.lease l).report l
        ((s.lease l).isEnded = true → exec (.fetchNotice p) s = .next
          ((u.setLease l ⟨(s.lease l).gen, .free⟩).replied p rq .done body))
        ∧ ((s.lease l).isEnded = false → exec (.fetchNotice p) s = .next (u.replied p rq .done body)))
      ∧ (∀ w c x, e.ref = .wait w → (s.wait w).st = .ended c x → exec (.fetchNotice p) s = .next
          ((u.setWait w ⟨(s.wait w).gen, .free⟩).replied p rq .done
            ([2, byteOf w.val, e.causes, byteOf es.length]
              ++ [byteOf w.val, (s.wait w).gen, 3, byteOf c.res.val, c.mode.value] ++ bytes2 c.term
              ++ [flagByte c.contend, x.value])))
      ∧ (∀ r, e.ref = .resource r → exec (.fetchNotice p) s = .next
          (u.replied p rq .done ([3, byteOf r.val, e.causes, byteOf es.length] ++ s.resourceReport r)))

/-! ### Ticks and expiries -/

/-- R105, R106, R108: a tick brings the prescaler back to 0 and is an event of its own at each running countdown. Of those
above 1, the ones that the head of `late` names are reached later and the others fall by one; those that stand at 1 are
reached later too (log entry 5); what is reached later stands and is due, and nothing else changes. A tick that finds
countdowns still due ends the tick before: they are reached by the events of each, in some order. That a promotion patience
is due only where one ran at the tick is the model's choice (log entry 23). A timebase that is HALTED, or a part with RST_N
low, has no tick (R109). -/
def Obligations.TickLowersCountdowns : Prop :=
  ∀ s : State,
    (¬ (s.rstN = true ∧ s.timebase.mode = .running) → exec .tick s = .next s ∧ exec .refclkPeriod s = .next s)
    ∧ (s.rstN = true → s.timebase.mode = .running →
      exec .tick s = exec .tick s.finishTick ∧ s.finishTick.due = []
      ∧ (s.due = [] → s.finishTick = s)
      ∧ (s.due ≠ [] → s.due.Nodup → ∃ xs : List TickRef, xs.Perm s.due
          ∧ execAll (xs.flatMap TickRef.events) { s with freeCount := s.freeCount + 1 } = .next s.finishTick))
    ∧ (s.rstN = true → s.timebase.mode = .running → s.due = [] → ∃ t : State, exec .tick s = .next t
      ∧ let late := s.late.headD []
        let halfTick (x : TickRef) (n : Half) : Half := if 1 < n.toNat ∧ x ∉ late then n - 1 else n
        let byteTick (x : TickRef) (n : Byte) : Byte := if 1 < n.toNat ∧ x ∉ late then n - 1 else n
        let due (x : TickRef) (n : Nat) : Prop := n ≤ 1 ∨ x ∈ late
        (∀ r n, (s.res r).st = .settling n → t.res r = { s.res r with st := .settling (byteTick (.settle r) n) })
      ∧ (∀ r, (∀ n, (s.res r).st ≠ .settling n) → t.res r = s.res r)
      ∧ (∀ l h a, (s.lease l).st = .active h a →
          t.lease l = ⟨(s.lease l).gen, .active h { a with
            termLeft := halfTick (.lease l) a.termLeft
            promo := a.promo.map (halfTick (.promo l)) }⟩)
      ∧ (∀ l h g, (s.lease l).st = .grace h g →
          t.lease l = ⟨(s.lease l).gen, .grace h { g with graceLeft := byteTick (.lease l) g.graceLeft }⟩)
      ∧ (∀ l, (s.lease l).isHolder = false → t.lease l = s.lease l)
      ∧ (∀ w c n l, (s.wait w).st = .waiting c n l →
          t.wait w = ⟨(s.wait w).gen, .waiting c (halfTick (.wait w) n) l⟩)
      ∧ (∀ w, (s.wait w).isWaiting = false → t.wait w = s.wait w)
      ∧ (∀ p n, (s.session p).st = .attached (some n) →
          t.session p = { s.session p with st := .attached (some (halfTick (.live p) n)) })
      ∧ (∀ p, (∀ n, (s.session p).st ≠ .attached (some n)) → t.session p = s.session p)
      ∧ t.due.Nodup
      ∧ (∀ r, .settle r ∈ t.due ↔ ∃ n, (s.res r).st = .settling n ∧ due (.settle r) n.toNat)
      ∧ (∀ l, .lease l ∈ t.due ↔ (∃ h a, (s.lease l).st = .active h a ∧ due (.lease l) a.termLeft.toNat)
          ∨ ∃ h g, (s.lease l).st = .grace h g ∧ due (.lease l) g.graceLeft.toNat)
      ∧ (∀ l, .promo l ∈ t.due ↔ ∃ h a n, (s.lease l).st = .active h a ∧ a.promo = some n ∧ due (.promo l) n.toNat)
      ∧ (∀ w, .wait w ∈ t.due ↔ ∃ c n l, (s.wait w).st = .waiting c n l ∧ due (.wait w) n.toNat)
      ∧ (∀ p, .live p ∈ t.due ↔ ∃ n, (s.session p).st = .attached (some n) ∧ due (.live p) n.toNat)
      ∧ t = { s with
          resources := t.resources
          leases := t.leases
          waits := t.waits
          sessions := t.sessions
          timebase := { s.timebase with prescaler := 0 }
          due := t.due
          late := s.late.tail })

/-- R105: while the timebase runs, a REFCLK period raises the prescaler count by one, and one tick follows every divider
periods: the periods left to the next tick, taken one by one, are the tick (log entry 4). A tick in progress has ended when
the next period is counted (log entry 5). -/
def Obligations.TickFollowsDividerPeriods : Prop :=
  ∀ s : State, s.rstN = true → s.timebase.mode = .running → s.timebase.prescaler < s.timebase.divider →
    exec .refclkPeriod s = exec .refclkPeriod s.finishTick
    ∧ (s.due = [] → s.timebase.prescaler + 1 < s.timebase.divider → exec .refclkPeriod s = .next
      { s with timebase := { s.timebase with prescaler := s.timebase.prescaler + 1 } })
    ∧ execAll (List.replicate (s.timebase.divider - s.timebase.prescaler) .refclkPeriod) s = exec .tick s

/-- R9, R60, R78: the tick at a settle, a patience or a promotion patience of 1; a countdown above 1 is only lowered (R107,
R108), and a record whose countdown no longer runs is reached without effect: no expiry follows (R106, R61). While the
timebase does not count, no countdown falls and none expires (R109). An expiry that is not due changes nothing (log entry
2); the list of what is due is the model's own field (log entry 5). -/
def Obligations.QueueExpiries : Prop :=
  ∀ s : State,
    (¬ (s.rstN = true ∧ s.timebase.mode = .running) → ∀ x : TickRef, ∀ c ∈ x.events, exec c s = .next s)
    ∧ (s.rstN = true → s.timebase.mode = .running →
    (∀ r : ResNo,
      let u : State := { s with due := s.due.erase (.settle r) }
      (.settle r ∈ s.due → (s.res r).st = .settling 1 →
        exec (.settleExpiry r) s = .next ((u.setRes r { s.res r with st := .free }).grantPass r))
      ∧ (∀ n : Byte, .settle r ∈ s.due → (s.res r).st = .settling n → 1 < n.toNat →
        exec (.settleExpiry r) s = .next (u.setRes r { s.res r with st := .settling (n - 1) }))
      ∧ (.settle r ∈ s.due → (∀ n, (s.res r).st ≠ .settling n) → exec (.settleExpiry r) s = .next u)
      ∧ (.settle r ∉ s.due → exec (.settleExpiry r) s = .next s))
    ∧ (∀ w : WaitNo, .wait w ∈ s.due → (∀ c n l, (s.wait w).st ≠ .waiting c n l) →
      exec (.patienceExpiry w) s = .next { s with due := s.due.erase (.wait w) })
    ∧ (∀ (w : WaitNo) (c : WaitClaim) (l : LeaseNo),
      let u : State := { s with due := s.due.erase (.wait w) }
      let x := s.res c.res
      let v := (((u.setWait w ⟨(s.wait w).gen, .ended c .expired⟩).setLease l ⟨(s.lease l).gen, .free⟩).flag c.port
        (.wait w) .expired).setRes c.res { x with queue := x.queue.filter (· ≠ w) }
      (.wait w ∈ s.due → (s.wait w).st = .waiting c 1 l → x.queue.head? = some w →
        exec (.patienceExpiry w) s = .next (v.grantPass c.res))
      ∧ (.wait w ∈ s.due → (s.wait w).st = .waiting c 1 l → x.queue.head? ≠ some w →
        exec (.patienceExpiry w) s = .next v)
      ∧ (∀ n : Half, .wait w ∈ s.due → (s.wait w).st = .waiting c n l → 1 < n.toNat →
        exec (.patienceExpiry w) s = .next (u.setWait w ⟨(s.wait w).gen, .waiting c (n - 1) l⟩))
      ∧ (.wait w ∉ s.due → exec (.patienceExpiry w) s = .next s))
    ∧ (∀ l : LeaseNo, .promo l ∈ s.due → (∀ h a n, (s.lease l).st = .active h a → a.promo ≠ some n) →
      exec (.promotionPatienceExpiry l) s = .next { s with due := s.due.erase (.promo l) })
    ∧ ∀ (l : LeaseNo) (h : Holding) (a : ActivePart),
      let u : State := { s with due := s.due.erase (.promo l) }
      (.promo l ∈ s.due → (s.lease l).st = .active h { a with promo := some 1 } →
        exec (.promotionPatienceExpiry l) s = .next
          ((((u.setLease l ⟨(s.lease l).gen, .active h { a with promo := none }⟩).setRes h.claim.res
            { s.res h.claim.res with slot := none }).flag h.claim.port (.lease l) .promoteEnded).grantPass h.claim.res))
      ∧ (∀ n : Half, .promo l ∈ s.due → (s.lease l).st = .active h { a with promo := some n } → 1 < n.toNat →
        exec (.promotionPatienceExpiry l) s = .next
          (u.setLease l ⟨(s.lease l).gen, .active h { a with promo := some (n - 1) }⟩))
      ∧ (.promo l ∉ s.due → exec (.promotionPatienceExpiry l) s = .next s))

/-- R35, R85, R86, R79: the tick at a term of 1 places the lease in TERM grace with REVOKE_PENDING, or ends it at once
where the grace attribute is 0; the tick at a grace of 1 ends it; a countdown above 1 is only lowered (R107, R108). An ended
lease keeps its fields and its revoke cause, has REVOKED flagged and leaves the holder list, and its resource follows (R7,
R8, R76, R100). A promotion of a lease whose term expires ends with PROMOTE_ENDED and a grant pass. A lease that has left
ACTIVE and GRACE since the tick is reached without effect: no expiry follows (R42, R89, R106). An expiry that is not due, and
one that meets a lease in the other of the two states, changes nothing (log entry 2); the list of what is due is the model's
own field (log entry 5). -/
def Obligations.TermAndGraceExpiries : Prop :=
  ∀ (s : State) (l : LeaseNo), s.rstN = true → s.timebase.mode = .running →
    let u : State := { s with due := s.due.erase (.lease l) }
    (.lease l ∉ s.due → exec (.termExpiry l) s = .next s ∧ exec (.graceExpiry l) s = .next s)
    ∧ (∀ h a, (s.lease l).st = .active h a → exec (.graceExpiry l) s = .next s)
    ∧ (∀ h y, (s.lease l).st = .grace h y → exec (.termExpiry l) s = .next s)
    ∧ (.lease l ∈ s.due → (∀ h a, (s.lease l).st ≠ .active h a) → (∀ h y, (s.lease l).st ≠ .grace h y) →
      exec (.termExpiry l) s = .next u ∧ exec (.graceExpiry l) s = .next u)
    ∧ ∀ h : Holding, .lease l ∈ s.due →
      let r := h.claim.res
      let x := s.res r
      let gen := (s.lease l).gen
      let graced (a : ActivePart) : State :=
        let v := (u.setLease l ⟨gen, .grace h ⟨x.attrs.grace, .term, a.sent⟩⟩).flag h.claim.port (.lease l) .revokePending
        if x.slot = some l then (v.setRes r { x with slot := none }).flag h.claim.port (.lease l) .promoteEnded else v
      let passed (t : State) : State := if x.slot = some l then t.grantPass r else t
      (∀ a, (s.lease l).st = .active h a → 1 < a.termLeft.toNat → exec (.termExpiry l) s = .next
        (u.setLease l ⟨gen, .active h { a with termLeft := a.termLeft - 1 }⟩))
      ∧ (∀ y, (s.lease l).st = .grace h y → 1 < y.graceLeft.toNat → exec (.graceExpiry l) s = .next
        (u.setLease l ⟨gen, .grace h { y with graceLeft := y.graceLeft - 1 }⟩))
      ∧ (∀ a, (s.lease l).st = .active h a → a.termLeft = 1 → x.attrs.grace ≠ 0 →
        exec (.termExpiry l) s = .next (passed (graced a)))
      ∧ (∀ a, (s.lease l).st = .active h a → a.termLeft = 1 → x.attrs.grace = 0 → ∃ t : State,
        exec (.termExpiry l) s = .next (passed t)
        ∧ ((graced a).setLease l ⟨gen, .ended h .term⟩).EndedAt t r l h.claim.port
        ∧ (passed t).lease l = ⟨gen, .ended h .term⟩ ∧ l ∉ ((passed t).res r).holders)
      ∧ (∀ y, (s.lease l).st = .grace h y → y.graceLeft = 1 → ∃ t : State,
        exec (.graceExpiry l) s = .next t
        ∧ (u.setLease l ⟨gen, .ended h y.cause⟩).EndedAt t r l h.claim.port
        ∧ t.lease l = ⟨gen, .ended h y.cause⟩ ∧ l ∉ (t.res r).holders)

/-! ### Invariants -/

/-- The state after reset keeps every law of the records, of the timebase and of the link ports. -/
def Obligations.ResetKeepsLaws : Prop := State.reset.Inv

/-- Every step from a state that keeps the laws of the records, of the timebase and of the link ports leaves a state that
keeps them: the laws of R3, R12, R22, R24, R27, R49, R50, R53, R71, R99, R104, R106, R109, R128, R144, R147 and R156
together. TimebaseLaw asks for the range of the prescaler count only while the timebase runs, which is the model's reading
of R104 (log entry 21); DueLaw speaks of the model's own field (log entry 5). -/
def Obligations.StepKeepsLaws : Prop := ∀ s t : State, s.Inv → step s = .next t → t.Inv

/-- R11: an epoch never falls but by cold reset, so an epoch once fenced off is never current again. -/
def Obligations.EpochsNeverFall : Prop :=
  ∀ (c : Instr) (s t : State), c ≠ .coldReset → exec c s = .next t →
    ∀ r, (s.res r).epoch.toNat ≤ (t.res r).epoch.toNat

/-- R22, R49, R45, R68: a record's generation changes only when the record leaves FREE, and then to the next one; and no
command takes a port's lease or wait use up but to within its quota. Cold reset apart. -/
def Obligations.AllocationDiscipline : Prop :=
  ∀ (c : Instr) (s t : State), c ≠ .coldReset → exec c s = .next t →
    (∀ l, (t.lease l).gen = (s.lease l).gen ∨ (s.lease l).isFree = true ∧ (t.lease l).isFree = false
      ∧ (t.lease l).gen = nextGen (s.lease l).gen)
    ∧ (∀ w, (t.wait w).gen = (s.wait w).gen ∨ (s.wait w).isFree = true ∧ (t.wait w).isFree = false
      ∧ (t.wait w).gen = nextGen (s.wait w).gen)
    ∧ ∀ p, (t.leaseUse p ≤ s.leaseUse p ∨ t.leaseUse p ≤ (s.session p).leaseQuota.toNat)
      ∧ (t.waitUse p ≤ s.waitUse p ∨ t.waitUse p ≤ (s.session p).waitQuota.toNat)
end

