-- ==== Sys2Proof/Laws/State.lean ====
section
/-! SUPPORT. The small lemmas of the state: one for each field under each replacement of a record, and what an accessor
reads after each replacement, so that no proof unfolds a record update. -/

namespace Sys2Proof.Machine

variable (s : State)

/-! ### `setRes` -/

@[simp] theorem pending_setRes (i : ResNo) (x : Resource) : (s.setRes i x).pending = s.pending := rfl
@[simp] theorem rstN_setRes (i : ResNo) (x : Resource) : (s.setRes i x).rstN = s.rstN := rfl
@[simp] theorem gateOeN_setRes (i : ResNo) (x : Resource) : (s.setRes i x).gateOeN = s.gateOeN := rfl
@[simp] theorem leases_setRes (i : ResNo) (x : Resource) : (s.setRes i x).leases = s.leases := rfl
@[simp] theorem waits_setRes (i : ResNo) (x : Resource) : (s.setRes i x).waits = s.waits := rfl
@[simp] theorem timebase_setRes (i : ResNo) (x : Resource) : (s.setRes i x).timebase = s.timebase := rfl
@[simp] theorem gates_setRes (i : ResNo) (x : Resource) : (s.setRes i x).gates = s.gates := rfl
@[simp] theorem sessions_setRes (i : ResNo) (x : Resource) : (s.setRes i x).sessions = s.sessions := rfl
@[simp] theorem attention_setRes (i : ResNo) (x : Resource) : (s.setRes i x).attention = s.attention := rfl
@[simp] theorem links_setRes (i : ResNo) (x : Resource) : (s.setRes i x).links = s.links := rfl
@[simp] theorem due_setRes (i : ResNo) (x : Resource) : (s.setRes i x).due = s.due := rfl
@[simp] theorem late_setRes (i : ResNo) (x : Resource) : (s.setRes i x).late = s.late := rfl
@[simp] theorem freeCount_setRes (i : ResNo) (x : Resource) : (s.setRes i x).freeCount = s.freeCount := rfl
@[simp] theorem lease_setRes (i : ResNo) (x : Resource) (j : LeaseNo) : (s.setRes i x).lease j = s.lease j := rfl
@[simp] theorem wait_setRes (i : ResNo) (x : Resource) (j : WaitNo) : (s.setRes i x).wait j = s.wait j := rfl
@[simp] theorem gate_setRes (i : ResNo) (x : Resource) (j : GateNo) : (s.setRes i x).gate j = s.gate j := rfl
@[simp] theorem session_setRes (i : ResNo) (x : Resource) (j : Port) : (s.setRes i x).session j = s.session j := rfl
@[simp] theorem attn_setRes (i : ResNo) (x : Resource) (j : Port) : (s.setRes i x).attn j = s.attn j := rfl
@[simp] theorem link_setRes (i : ResNo) (x : Resource) (j : Port) : (s.setRes i x).link j = s.link j := rfl

/-- What `res` reads after `setRes`: the new record at its index, and every other record as before. -/
theorem res_setRes (i : ResNo) (x : Resource) (j : ResNo) : (s.setRes i x).res j = if j = i then x else s.res j := by
  simp only [State.setRes, State.res, Fin.getElem_fin, Vector.getElem_set, Fin.ext_iff, eq_comm]

@[simp] theorem res_setRes_self (i : ResNo) (x : Resource) : (s.setRes i x).res i = x := by simp [res_setRes]

@[simp] theorem res_setRes_ne (i : ResNo) (x : Resource) {j : ResNo} (h : j ≠ i) : (s.setRes i x).res j = s.res j := by
  simp [res_setRes, h]

/-- A record replaced by itself leaves the state as it is. -/
@[simp] theorem setRes_res (i : ResNo) : s.setRes i (s.res i) = s := by
  simp [State.setRes, State.res]

@[simp] theorem setRes_setRes (i : ResNo) (x y : Resource) : (s.setRes i x).setRes i y = s.setRes i y := by
  simp [State.setRes]

/-! ### `setLease` -/

@[simp] theorem pending_setLease (i : LeaseNo) (x : Lease) : (s.setLease i x).pending = s.pending := rfl
@[simp] theorem rstN_setLease (i : LeaseNo) (x : Lease) : (s.setLease i x).rstN = s.rstN := rfl
@[simp] theorem gateOeN_setLease (i : LeaseNo) (x : Lease) : (s.setLease i x).gateOeN = s.gateOeN := rfl
@[simp] theorem resources_setLease (i : LeaseNo) (x : Lease) : (s.setLease i x).resources = s.resources := rfl
@[simp] theorem waits_setLease (i : LeaseNo) (x : Lease) : (s.setLease i x).waits = s.waits := rfl
@[simp] theorem timebase_setLease (i : LeaseNo) (x : Lease) : (s.setLease i x).timebase = s.timebase := rfl
@[simp] theorem gates_setLease (i : LeaseNo) (x : Lease) : (s.setLease i x).gates = s.gates := rfl
@[simp] theorem sessions_setLease (i : LeaseNo) (x : Lease) : (s.setLease i x).sessions = s.sessions := rfl
@[simp] theorem attention_setLease (i : LeaseNo) (x : Lease) : (s.setLease i x).attention = s.attention := rfl
@[simp] theorem links_setLease (i : LeaseNo) (x : Lease) : (s.setLease i x).links = s.links := rfl
@[simp] theorem due_setLease (i : LeaseNo) (x : Lease) : (s.setLease i x).due = s.due := rfl
@[simp] theorem late_setLease (i : LeaseNo) (x : Lease) : (s.setLease i x).late = s.late := rfl
@[simp] theorem freeCount_setLease (i : LeaseNo) (x : Lease) : (s.setLease i x).freeCount = s.freeCount := rfl
@[simp] theorem res_setLease (i : LeaseNo) (x : Lease) (j : ResNo) : (s.setLease i x).res j = s.res j := rfl
@[simp] theorem wait_setLease (i : LeaseNo) (x : Lease) (j : WaitNo) : (s.setLease i x).wait j = s.wait j := rfl
@[simp] theorem gate_setLease (i : LeaseNo) (x : Lease) (j : GateNo) : (s.setLease i x).gate j = s.gate j := rfl
@[simp] theorem session_setLease (i : LeaseNo) (x : Lease) (j : Port) : (s.setLease i x).session j = s.session j := rfl
@[simp] theorem attn_setLease (i : LeaseNo) (x : Lease) (j : Port) : (s.setLease i x).attn j = s.attn j := rfl
@[simp] theorem link_setLease (i : LeaseNo) (x : Lease) (j : Port) : (s.setLease i x).link j = s.link j := rfl

/-- What `lease` reads after `setLease`: the new record at its index, and every other record as before. -/
theorem lease_setLease (i : LeaseNo) (x : Lease) (j : LeaseNo) : (s.setLease i x).lease j = if j = i then x else s.lease j := by
  simp only [State.setLease, State.lease, Fin.getElem_fin, Vector.getElem_set, Fin.ext_iff, eq_comm]

@[simp] theorem lease_setLease_self (i : LeaseNo) (x : Lease) : (s.setLease i x).lease i = x := by simp [lease_setLease]

@[simp] theorem lease_setLease_ne (i : LeaseNo) (x : Lease) {j : LeaseNo} (h : j ≠ i) : (s.setLease i x).lease j = s.lease j := by
  simp [lease_setLease, h]

/-- A record replaced by itself leaves the state as it is. -/
@[simp] theorem setLease_lease (i : LeaseNo) : s.setLease i (s.lease i) = s := by
  simp [State.setLease, State.lease]

@[simp] theorem setLease_setLease (i : LeaseNo) (x y : Lease) : (s.setLease i x).setLease i y = s.setLease i y := by
  simp [State.setLease]

/-! ### `setWait` -/

@[simp] theorem pending_setWait (i : WaitNo) (x : Wait) : (s.setWait i x).pending = s.pending := rfl
@[simp] theorem rstN_setWait (i : WaitNo) (x : Wait) : (s.setWait i x).rstN = s.rstN := rfl
@[simp] theorem gateOeN_setWait (i : WaitNo) (x : Wait) : (s.setWait i x).gateOeN = s.gateOeN := rfl
@[simp] theorem resources_setWait (i : WaitNo) (x : Wait) : (s.setWait i x).resources = s.resources := rfl
@[simp] theorem leases_setWait (i : WaitNo) (x : Wait) : (s.setWait i x).leases = s.leases := rfl
@[simp] theorem timebase_setWait (i : WaitNo) (x : Wait) : (s.setWait i x).timebase = s.timebase := rfl
@[simp] theorem gates_setWait (i : WaitNo) (x : Wait) : (s.setWait i x).gates = s.gates := rfl
@[simp] theorem sessions_setWait (i : WaitNo) (x : Wait) : (s.setWait i x).sessions = s.sessions := rfl
@[simp] theorem attention_setWait (i : WaitNo) (x : Wait) : (s.setWait i x).attention = s.attention := rfl
@[simp] theorem links_setWait (i : WaitNo) (x : Wait) : (s.setWait i x).links = s.links := rfl
@[simp] theorem due_setWait (i : WaitNo) (x : Wait) : (s.setWait i x).due = s.due := rfl
@[simp] theorem late_setWait (i : WaitNo) (x : Wait) : (s.setWait i x).late = s.late := rfl
@[simp] theorem freeCount_setWait (i : WaitNo) (x : Wait) : (s.setWait i x).freeCount = s.freeCount := rfl
@[simp] theorem res_setWait (i : WaitNo) (x : Wait) (j : ResNo) : (s.setWait i x).res j = s.res j := rfl
@[simp] theorem lease_setWait (i : WaitNo) (x : Wait) (j : LeaseNo) : (s.setWait i x).lease j = s.lease j := rfl
@[simp] theorem gate_setWait (i : WaitNo) (x : Wait) (j : GateNo) : (s.setWait i x).gate j = s.gate j := rfl
@[simp] theorem session_setWait (i : WaitNo) (x : Wait) (j : Port) : (s.setWait i x).session j = s.session j := rfl
@[simp] theorem attn_setWait (i : WaitNo) (x : Wait) (j : Port) : (s.setWait i x).attn j = s.attn j := rfl
@[simp] theorem link_setWait (i : WaitNo) (x : Wait) (j : Port) : (s.setWait i x).link j = s.link j := rfl

/-- What `wait` reads after `setWait`: the new record at its index, and every other record as before. -/
theorem wait_setWait (i : WaitNo) (x : Wait) (j : WaitNo) : (s.setWait i x).wait j = if j = i then x else s.wait j := by
  simp only [State.setWait, State.wait, Fin.getElem_fin, Vector.getElem_set, Fin.ext_iff, eq_comm]

@[simp] theorem wait_setWait_self (i : WaitNo) (x : Wait) : (s.setWait i x).wait i = x := by simp [wait_setWait]

@[simp] theorem wait_setWait_ne (i : WaitNo) (x : Wait) {j : WaitNo} (h : j ≠ i) : (s.setWait i x).wait j = s.wait j := by
  simp [wait_setWait, h]

/-- A record replaced by itself leaves the state as it is. -/
@[simp] theorem setWait_wait (i : WaitNo) : s.setWait i (s.wait i) = s := by
  simp [State.setWait, State.wait]

@[simp] theorem setWait_setWait (i : WaitNo) (x y : Wait) : (s.setWait i x).setWait i y = s.setWait i y := by
  simp [State.setWait]

/-! ### `setGate` -/

@[simp] theorem pending_setGate (i : GateNo) (x : Gate) : (s.setGate i x).pending = s.pending := rfl
@[simp] theorem rstN_setGate (i : GateNo) (x : Gate) : (s.setGate i x).rstN = s.rstN := rfl
@[simp] theorem gateOeN_setGate (i : GateNo) (x : Gate) : (s.setGate i x).gateOeN = s.gateOeN := rfl
@[simp] theorem resources_setGate (i : GateNo) (x : Gate) : (s.setGate i x).resources = s.resources := rfl
@[simp] theorem leases_setGate (i : GateNo) (x : Gate) : (s.setGate i x).leases = s.leases := rfl
@[simp] theorem waits_setGate (i : GateNo) (x : Gate) : (s.setGate i x).waits = s.waits := rfl
@[simp] theorem timebase_setGate (i : GateNo) (x : Gate) : (s.setGate i x).timebase = s.timebase := rfl
@[simp] theorem sessions_setGate (i : GateNo) (x : Gate) : (s.setGate i x).sessions = s.sessions := rfl
@[simp] theorem attention_setGate (i : GateNo) (x : Gate) : (s.setGate i x).attention = s.attention := rfl
@[simp] theorem links_setGate (i : GateNo) (x : Gate) : (s.setGate i x).links = s.links := rfl
@[simp] theorem due_setGate (i : GateNo) (x : Gate) : (s.setGate i x).due = s.due := rfl
@[simp] theorem late_setGate (i : GateNo) (x : Gate) : (s.setGate i x).late = s.late := rfl
@[simp] theorem freeCount_setGate (i : GateNo) (x : Gate) : (s.setGate i x).freeCount = s.freeCount := rfl
@[simp] theorem res_setGate (i : GateNo) (x : Gate) (j : ResNo) : (s.setGate i x).res j = s.res j := rfl
@[simp] theorem lease_setGate (i : GateNo) (x : Gate) (j : LeaseNo) : (s.setGate i x).lease j = s.lease j := rfl
@[simp] theorem wait_setGate (i : GateNo) (x : Gate) (j : WaitNo) : (s.setGate i x).wait j = s.wait j := rfl
@[simp] theorem session_setGate (i : GateNo) (x : Gate) (j : Port) : (s.setGate i x).session j = s.session j := rfl
@[simp] theorem attn_setGate (i : GateNo) (x : Gate) (j : Port) : (s.setGate i x).attn j = s.attn j := rfl
@[simp] theorem link_setGate (i : GateNo) (x : Gate) (j : Port) : (s.setGate i x).link j = s.link j := rfl

/-- What `gate` reads after `setGate`: the new record at its index, and every other record as before. -/
theorem gate_setGate (i : GateNo) (x : Gate) (j : GateNo) : (s.setGate i x).gate j = if j = i then x else s.gate j := by
  simp only [State.setGate, State.gate, Fin.getElem_fin, Vector.getElem_set, Fin.ext_iff, eq_comm]

@[simp] theorem gate_setGate_self (i : GateNo) (x : Gate) : (s.setGate i x).gate i = x := by simp [gate_setGate]

@[simp] theorem gate_setGate_ne (i : GateNo) (x : Gate) {j : GateNo} (h : j ≠ i) : (s.setGate i x).gate j = s.gate j := by
  simp [gate_setGate, h]

/-- A record replaced by itself leaves the state as it is. -/
@[simp] theorem setGate_gate (i : GateNo) : s.setGate i (s.gate i) = s := by
  simp [State.setGate, State.gate]

@[simp] theorem setGate_setGate (i : GateNo) (x y : Gate) : (s.setGate i x).setGate i y = s.setGate i y := by
  simp [State.setGate]

/-! ### `setSession` -/

@[simp] theorem pending_setSession (i : Port) (x : Session) : (s.setSession i x).pending = s.pending := rfl
@[simp] theorem rstN_setSession (i : Port) (x : Session) : (s.setSession i x).rstN = s.rstN := rfl
@[simp] theorem gateOeN_setSession (i : Port) (x : Session) : (s.setSession i x).gateOeN = s.gateOeN := rfl
@[simp] theorem resources_setSession (i : Port) (x : Session) : (s.setSession i x).resources = s.resources := rfl
@[simp] theorem leases_setSession (i : Port) (x : Session) : (s.setSession i x).leases = s.leases := rfl
@[simp] theorem waits_setSession (i : Port) (x : Session) : (s.setSession i x).waits = s.waits := rfl
@[simp] theorem timebase_setSession (i : Port) (x : Session) : (s.setSession i x).timebase = s.timebase := rfl
@[simp] theorem gates_setSession (i : Port) (x : Session) : (s.setSession i x).gates = s.gates := rfl
@[simp] theorem attention_setSession (i : Port) (x : Session) : (s.setSession i x).attention = s.attention := rfl
@[simp] theorem links_setSession (i : Port) (x : Session) : (s.setSession i x).links = s.links := rfl
@[simp] theorem due_setSession (i : Port) (x : Session) : (s.setSession i x).due = s.due := rfl
@[simp] theorem late_setSession (i : Port) (x : Session) : (s.setSession i x).late = s.late := rfl
@[simp] theorem freeCount_setSession (i : Port) (x : Session) : (s.setSession i x).freeCount = s.freeCount := rfl
@[simp] theorem res_setSession (i : Port) (x : Session) (j : ResNo) : (s.setSession i x).res j = s.res j := rfl
@[simp] theorem lease_setSession (i : Port) (x : Session) (j : LeaseNo) : (s.setSession i x).lease j = s.lease j := rfl
@[simp] theorem wait_setSession (i : Port) (x : Session) (j : WaitNo) : (s.setSession i x).wait j = s.wait j := rfl
@[simp] theorem gate_setSession (i : Port) (x : Session) (j : GateNo) : (s.setSession i x).gate j = s.gate j := rfl
@[simp] theorem attn_setSession (i : Port) (x : Session) (j : Port) : (s.setSession i x).attn j = s.attn j := rfl
@[simp] theorem link_setSession (i : Port) (x : Session) (j : Port) : (s.setSession i x).link j = s.link j := rfl

/-- What `session` reads after `setSession`: the new record at its index, and every other record as before. -/
theorem session_setSession (i : Port) (x : Session) (j : Port) : (s.setSession i x).session j = if j = i then x else s.session j := by
  simp only [State.setSession, State.session, Fin.getElem_fin, Vector.getElem_set, Fin.ext_iff, eq_comm]

@[simp] theorem session_setSession_self (i : Port) (x : Session) : (s.setSession i x).session i = x := by simp [session_setSession]

@[simp] theorem session_setSession_ne (i : Port) (x : Session) {j : Port} (h : j ≠ i) : (s.setSession i x).session j = s.session j := by
  simp [session_setSession, h]

/-- A record replaced by itself leaves the state as it is. -/
@[simp] theorem setSession_session (i : Port) : s.setSession i (s.session i) = s := by
  simp [State.setSession, State.session]

@[simp] theorem setSession_setSession (i : Port) (x y : Session) : (s.setSession i x).setSession i y = s.setSession i y := by
  simp [State.setSession]

/-! ### `setAttn` -/

@[simp] theorem pending_setAttn (i : Port) (x : List Entry) : (s.setAttn i x).pending = s.pending := rfl
@[simp] theorem rstN_setAttn (i : Port) (x : List Entry) : (s.setAttn i x).rstN = s.rstN := rfl
@[simp] theorem gateOeN_setAttn (i : Port) (x : List Entry) : (s.setAttn i x).gateOeN = s.gateOeN := rfl
@[simp] theorem resources_setAttn (i : Port) (x : List Entry) : (s.setAttn i x).resources = s.resources := rfl
@[simp] theorem leases_setAttn (i : Port) (x : List Entry) : (s.setAttn i x).leases = s.leases := rfl
@[simp] theorem waits_setAttn (i : Port) (x : List Entry) : (s.setAttn i x).waits = s.waits := rfl
@[simp] theorem timebase_setAttn (i : Port) (x : List Entry) : (s.setAttn i x).timebase = s.timebase := rfl
@[simp] theorem gates_setAttn (i : Port) (x : List Entry) : (s.setAttn i x).gates = s.gates := rfl
@[simp] theorem sessions_setAttn (i : Port) (x : List Entry) : (s.setAttn i x).sessions = s.sessions := rfl
@[simp] theorem links_setAttn (i : Port) (x : List Entry) : (s.setAttn i x).links = s.links := rfl
@[simp] theorem due_setAttn (i : Port) (x : List Entry) : (s.setAttn i x).due = s.due := rfl
@[simp] theorem late_setAttn (i : Port) (x : List Entry) : (s.setAttn i x).late = s.late := rfl
@[simp] theorem freeCount_setAttn (i : Port) (x : List Entry) : (s.setAttn i x).freeCount = s.freeCount := rfl
@[simp] theorem res_setAttn (i : Port) (x : List Entry) (j : ResNo) : (s.setAttn i x).res j = s.res j := rfl
@[simp] theorem lease_setAttn (i : Port) (x : List Entry) (j : LeaseNo) : (s.setAttn i x).lease j = s.lease j := rfl
@[simp] theorem wait_setAttn (i : Port) (x : List Entry) (j : WaitNo) : (s.setAttn i x).wait j = s.wait j := rfl
@[simp] theorem gate_setAttn (i : Port) (x : List Entry) (j : GateNo) : (s.setAttn i x).gate j = s.gate j := rfl
@[simp] theorem session_setAttn (i : Port) (x : List Entry) (j : Port) : (s.setAttn i x).session j = s.session j := rfl
@[simp] theorem link_setAttn (i : Port) (x : List Entry) (j : Port) : (s.setAttn i x).link j = s.link j := rfl

/-- What `attn` reads after `setAttn`: the new record at its index, and every other record as before. -/
theorem attn_setAttn (i : Port) (x : List Entry) (j : Port) : (s.setAttn i x).attn j = if j = i then x else s.attn j := by
  simp only [State.setAttn, State.attn, Fin.getElem_fin, Vector.getElem_set, Fin.ext_iff, eq_comm]

@[simp] theorem attn_setAttn_self (i : Port) (x : List Entry) : (s.setAttn i x).attn i = x := by simp [attn_setAttn]

@[simp] theorem attn_setAttn_ne (i : Port) (x : List Entry) {j : Port} (h : j ≠ i) : (s.setAttn i x).attn j = s.attn j := by
  simp [attn_setAttn, h]

/-- A record replaced by itself leaves the state as it is. -/
@[simp] theorem setAttn_attn (i : Port) : s.setAttn i (s.attn i) = s := by
  simp [State.setAttn, State.attn]

@[simp] theorem setAttn_setAttn (i : Port) (x y : List Entry) : (s.setAttn i x).setAttn i y = s.setAttn i y := by
  simp [State.setAttn]

/-! ### `setLink` -/

@[simp] theorem pending_setLink (i : Port) (x : Link) : (s.setLink i x).pending = s.pending := rfl
@[simp] theorem rstN_setLink (i : Port) (x : Link) : (s.setLink i x).rstN = s.rstN := rfl
@[simp] theorem gateOeN_setLink (i : Port) (x : Link) : (s.setLink i x).gateOeN = s.gateOeN := rfl
@[simp] theorem resources_setLink (i : Port) (x : Link) : (s.setLink i x).resources = s.resources := rfl
@[simp] theorem leases_setLink (i : Port) (x : Link) : (s.setLink i x).leases = s.leases := rfl
@[simp] theorem waits_setLink (i : Port) (x : Link) : (s.setLink i x).waits = s.waits := rfl
@[simp] theorem timebase_setLink (i : Port) (x : Link) : (s.setLink i x).timebase = s.timebase := rfl
@[simp] theorem gates_setLink (i : Port) (x : Link) : (s.setLink i x).gates = s.gates := rfl
@[simp] theorem sessions_setLink (i : Port) (x : Link) : (s.setLink i x).sessions = s.sessions := rfl
@[simp] theorem attention_setLink (i : Port) (x : Link) : (s.setLink i x).attention = s.attention := rfl
@[simp] theorem due_setLink (i : Port) (x : Link) : (s.setLink i x).due = s.due := rfl
@[simp] theorem late_setLink (i : Port) (x : Link) : (s.setLink i x).late = s.late := rfl
@[simp] theorem freeCount_setLink (i : Port) (x : Link) : (s.setLink i x).freeCount = s.freeCount := rfl
@[simp] theorem res_setLink (i : Port) (x : Link) (j : ResNo) : (s.setLink i x).res j = s.res j := rfl
@[simp] theorem lease_setLink (i : Port) (x : Link) (j : LeaseNo) : (s.setLink i x).lease j = s.lease j := rfl
@[simp] theorem wait_setLink (i : Port) (x : Link) (j : WaitNo) : (s.setLink i x).wait j = s.wait j := rfl
@[simp] theorem gate_setLink (i : Port) (x : Link) (j : GateNo) : (s.setLink i x).gate j = s.gate j := rfl
@[simp] theorem session_setLink (i : Port) (x : Link) (j : Port) : (s.setLink i x).session j = s.session j := rfl
@[simp] theorem attn_setLink (i : Port) (x : Link) (j : Port) : (s.setLink i x).attn j = s.attn j := rfl

/-- What `link` reads after `setLink`: the new record at its index, and every other record as before. -/
theorem link_setLink (i : Port) (x : Link) (j : Port) : (s.setLink i x).link j = if j = i then x else s.link j := by
  simp only [State.setLink, State.link, Fin.getElem_fin, Vector.getElem_set, Fin.ext_iff, eq_comm]

@[simp] theorem link_setLink_self (i : Port) (x : Link) : (s.setLink i x).link i = x := by simp [link_setLink]

@[simp] theorem link_setLink_ne (i : Port) (x : Link) {j : Port} (h : j ≠ i) : (s.setLink i x).link j = s.link j := by
  simp [link_setLink, h]

/-- A record replaced by itself leaves the state as it is. -/
@[simp] theorem setLink_link (i : Port) : s.setLink i (s.link i) = s := by
  simp [State.setLink, State.link]

@[simp] theorem setLink_setLink (i : Port) (x y : Link) : (s.setLink i x).setLink i y = s.setLink i y := by
  simp [State.setLink]

/-! ### Replacing a field that is no record of a store -/

@[simp] theorem res_with_pending (v : List Instr) (j : ResNo) : State.res { s with pending := v } j = s.res j := rfl
@[simp] theorem lease_with_pending (v : List Instr) (j : LeaseNo) : State.lease { s with pending := v } j = s.lease j := rfl
@[simp] theorem wait_with_pending (v : List Instr) (j : WaitNo) : State.wait { s with pending := v } j = s.wait j := rfl
@[simp] theorem gate_with_pending (v : List Instr) (j : GateNo) : State.gate { s with pending := v } j = s.gate j := rfl
@[simp] theorem session_with_pending (v : List Instr) (j : Port) : State.session { s with pending := v } j = s.session j := rfl
@[simp] theorem attn_with_pending (v : List Instr) (j : Port) : State.attn { s with pending := v } j = s.attn j := rfl
@[simp] theorem link_with_pending (v : List Instr) (j : Port) : State.link { s with pending := v } j = s.link j := rfl
@[simp] theorem res_with_rstN (v : Bool) (j : ResNo) : State.res { s with rstN := v } j = s.res j := rfl
@[simp] theorem lease_with_rstN (v : Bool) (j : LeaseNo) : State.lease { s with rstN := v } j = s.lease j := rfl
@[simp] theorem wait_with_rstN (v : Bool) (j : WaitNo) : State.wait { s with rstN := v } j = s.wait j := rfl
@[simp] theorem gate_with_rstN (v : Bool) (j : GateNo) : State.gate { s with rstN := v } j = s.gate j := rfl
@[simp] theorem session_with_rstN (v : Bool) (j : Port) : State.session { s with rstN := v } j = s.session j := rfl
@[simp] theorem attn_with_rstN (v : Bool) (j : Port) : State.attn { s with rstN := v } j = s.attn j := rfl
@[simp] theorem link_with_rstN (v : Bool) (j : Port) : State.link { s with rstN := v } j = s.link j := rfl
@[simp] theorem res_with_gateOeN (v : Bool) (j : ResNo) : State.res { s with gateOeN := v } j = s.res j := rfl
@[simp] theorem lease_with_gateOeN (v : Bool) (j : LeaseNo) : State.lease { s with gateOeN := v } j = s.lease j := rfl
@[simp] theorem wait_with_gateOeN (v : Bool) (j : WaitNo) : State.wait { s with gateOeN := v } j = s.wait j := rfl
@[simp] theorem gate_with_gateOeN (v : Bool) (j : GateNo) : State.gate { s with gateOeN := v } j = s.gate j := rfl
@[simp] theorem session_with_gateOeN (v : Bool) (j : Port) : State.session { s with gateOeN := v } j = s.session j := rfl
@[simp] theorem attn_with_gateOeN (v : Bool) (j : Port) : State.attn { s with gateOeN := v } j = s.attn j := rfl
@[simp] theorem link_with_gateOeN (v : Bool) (j : Port) : State.link { s with gateOeN := v } j = s.link j := rfl
@[simp] theorem res_with_timebase (v : Timebase) (j : ResNo) : State.res { s with timebase := v } j = s.res j := rfl
@[simp] theorem lease_with_timebase (v : Timebase) (j : LeaseNo) : State.lease { s with timebase := v } j = s.lease j := rfl
@[simp] theorem wait_with_timebase (v : Timebase) (j : WaitNo) : State.wait { s with timebase := v } j = s.wait j := rfl
@[simp] theorem gate_with_timebase (v : Timebase) (j : GateNo) : State.gate { s with timebase := v } j = s.gate j := rfl
@[simp] theorem session_with_timebase (v : Timebase) (j : Port) : State.session { s with timebase := v } j = s.session j := rfl
@[simp] theorem attn_with_timebase (v : Timebase) (j : Port) : State.attn { s with timebase := v } j = s.attn j := rfl
@[simp] theorem link_with_timebase (v : Timebase) (j : Port) : State.link { s with timebase := v } j = s.link j := rfl
@[simp] theorem res_with_due (v : List TickRef) (j : ResNo) : State.res { s with due := v } j = s.res j := rfl
@[simp] theorem lease_with_due (v : List TickRef) (j : LeaseNo) : State.lease { s with due := v } j = s.lease j := rfl
@[simp] theorem wait_with_due (v : List TickRef) (j : WaitNo) : State.wait { s with due := v } j = s.wait j := rfl
@[simp] theorem gate_with_due (v : List TickRef) (j : GateNo) : State.gate { s with due := v } j = s.gate j := rfl
@[simp] theorem session_with_due (v : List TickRef) (j : Port) : State.session { s with due := v } j = s.session j := rfl
@[simp] theorem attn_with_due (v : List TickRef) (j : Port) : State.attn { s with due := v } j = s.attn j := rfl
@[simp] theorem link_with_due (v : List TickRef) (j : Port) : State.link { s with due := v } j = s.link j := rfl
@[simp] theorem res_with_late (v : List (List TickRef)) (j : ResNo) : State.res { s with late := v } j = s.res j := rfl
@[simp] theorem lease_with_late (v : List (List TickRef)) (j : LeaseNo) : State.lease { s with late := v } j = s.lease j := rfl
@[simp] theorem wait_with_late (v : List (List TickRef)) (j : WaitNo) : State.wait { s with late := v } j = s.wait j := rfl
@[simp] theorem gate_with_late (v : List (List TickRef)) (j : GateNo) : State.gate { s with late := v } j = s.gate j := rfl
@[simp] theorem session_with_late (v : List (List TickRef)) (j : Port) : State.session { s with late := v } j = s.session j := rfl
@[simp] theorem attn_with_late (v : List (List TickRef)) (j : Port) : State.attn { s with late := v } j = s.attn j := rfl
@[simp] theorem link_with_late (v : List (List TickRef)) (j : Port) : State.link { s with late := v } j = s.link j := rfl
@[simp] theorem res_with_freeCount (v : Nat) (j : ResNo) : State.res { s with freeCount := v } j = s.res j := rfl
@[simp] theorem lease_with_freeCount (v : Nat) (j : LeaseNo) : State.lease { s with freeCount := v } j = s.lease j := rfl
@[simp] theorem wait_with_freeCount (v : Nat) (j : WaitNo) : State.wait { s with freeCount := v } j = s.wait j := rfl
@[simp] theorem gate_with_freeCount (v : Nat) (j : GateNo) : State.gate { s with freeCount := v } j = s.gate j := rfl
@[simp] theorem session_with_freeCount (v : Nat) (j : Port) : State.session { s with freeCount := v } j = s.session j := rfl
@[simp] theorem attn_with_freeCount (v : Nat) (j : Port) : State.attn { s with freeCount := v } j = s.attn j := rfl
@[simp] theorem link_with_freeCount (v : Nat) (j : Port) : State.link { s with freeCount := v } j = s.link j := rfl

/-! ### Whole stores -/

@[simp] theorem res_with_resources (f : ResNo → Resource) (j : ResNo) :
    State.res { s with resources := Vector.ofFn f } j = f j := by simp [State.res]

/-- Two states with the same `resources` read through `res` have the same store. -/
theorem resources_ext {s t : State} (h : ∀ j : ResNo, s.res j = t.res j) : s.resources = t.resources := by
  apply Vector.ext
  intro i hi
  exact h ⟨i, hi⟩

@[simp] theorem lease_with_leases (f : LeaseNo → Lease) (j : LeaseNo) :
    State.lease { s with leases := Vector.ofFn f } j = f j := by simp [State.lease]

/-- Two states with the same `leases` read through `lease` have the same store. -/
theorem leases_ext {s t : State} (h : ∀ j : LeaseNo, s.lease j = t.lease j) : s.leases = t.leases := by
  apply Vector.ext
  intro i hi
  exact h ⟨i, hi⟩

@[simp] theorem wait_with_waits (f : WaitNo → Wait) (j : WaitNo) :
    State.wait { s with waits := Vector.ofFn f } j = f j := by simp [State.wait]

/-- Two states with the same `waits` read through `wait` have the same store. -/
theorem waits_ext {s t : State} (h : ∀ j : WaitNo, s.wait j = t.wait j) : s.waits = t.waits := by
  apply Vector.ext
  intro i hi
  exact h ⟨i, hi⟩

@[simp] theorem gate_with_gates (f : GateNo → Gate) (j : GateNo) :
    State.gate { s with gates := Vector.ofFn f } j = f j := by simp [State.gate]

/-- Two states with the same `gates` read through `gate` have the same store. -/
theorem gates_ext {s t : State} (h : ∀ j : GateNo, s.gate j = t.gate j) : s.gates = t.gates := by
  apply Vector.ext
  intro i hi
  exact h ⟨i, hi⟩

@[simp] theorem session_with_sessions (f : Port → Session) (j : Port) :
    State.session { s with sessions := Vector.ofFn f } j = f j := by simp [State.session]

/-- Two states with the same `sessions` read through `session` have the same store. -/
theorem sessions_ext {s t : State} (h : ∀ j : Port, s.session j = t.session j) : s.sessions = t.sessions := by
  apply Vector.ext
  intro i hi
  exact h ⟨i, hi⟩

@[simp] theorem attn_with_attention (f : Port → List Entry) (j : Port) :
    State.attn { s with attention := Vector.ofFn f } j = f j := by simp [State.attn]

/-- Two states with the same `attention` read through `attn` have the same store. -/
theorem attention_ext {s t : State} (h : ∀ j : Port, s.attn j = t.attn j) : s.attention = t.attention := by
  apply Vector.ext
  intro i hi
  exact h ⟨i, hi⟩

@[simp] theorem link_with_links (f : Port → Link) (j : Port) :
    State.link { s with links := Vector.ofFn f } j = f j := by simp [State.link]

/-- Two states with the same `links` read through `link` have the same store. -/
theorem links_ext {s t : State} (h : ∀ j : Port, s.link j = t.link j) : s.links = t.links := by
  apply Vector.ext
  intro i hi
  exact h ⟨i, hi⟩

/-- Two states are equal when every field and every record of every store is. -/
theorem State.ext_records {s t : State} (pending : s.pending = t.pending) (rstN : s.rstN = t.rstN)
    (gateOeN : s.gateOeN = t.gateOeN) (res : ∀ r, s.res r = t.res r) (lease : ∀ l, s.lease l = t.lease l)
    (wait : ∀ w, s.wait w = t.wait w) (timebase : s.timebase = t.timebase) (gate : ∀ g, s.gate g = t.gate g)
    (session : ∀ p, s.session p = t.session p) (attn : ∀ p, s.attn p = t.attn p) (link : ∀ p, s.link p = t.link p)
    (due : s.due = t.due) (late : s.late = t.late) (freeCount : s.freeCount = t.freeCount) : s = t := by
  have h1 := resources_ext res
  have h2 := leases_ext lease
  have h3 := waits_ext wait
  have h4 := gates_ext gate
  have h5 := sessions_ext session
  have h6 := attention_ext attn
  have h7 := links_ext link
  cases s
  cases t
  simp_all

/-! ### The state after reset -/

@[simp] theorem res_reset (j : ResNo) : State.reset.res j = Resource.initial := by simp [State.res, State.reset]
@[simp] theorem lease_reset (j : LeaseNo) : State.reset.lease j = Lease.initial := by simp [State.lease, State.reset]
@[simp] theorem wait_reset (j : WaitNo) : State.reset.wait j = Wait.initial := by simp [State.wait, State.reset]
@[simp] theorem gate_reset (j : GateNo) : State.reset.gate j = Gate.initial := by simp [State.gate, State.reset]
@[simp] theorem session_reset (j : Port) : State.reset.session j = Session.initial := by simp [State.session, State.reset]
@[simp] theorem attn_reset (j : Port) : State.reset.attn j = [] := by simp [State.attn, State.reset]
@[simp] theorem link_reset (j : Port) : State.reset.link j = Link.initial := by simp [State.link, State.reset]

end Sys2Proof.Machine
end

