-- ==== Sys2Proof/Laws/Commute.lean ====
section
/-! SUPPORT. The record stores and the link ports do not meet: each shared operation of Ops.lean gives the same result
whatever a link port holds, and leaves the link port as it is. A request's owner may therefore be run on the state as it
was before the request left its queue. -/

namespace Sys2Proof.Machine

variable (s : State) (p : Port) (k : Link)

/-! ### Reads -/

@[simp] theorem leaseUse_setLink (q : Port) : (s.setLink p k).leaseUse q = s.leaseUse q := rfl
@[simp] theorem leasesHeld_setLink (q : Port) : (s.setLink p k).leasesHeld q = s.leasesHeld q := rfl
@[simp] theorem leaseTombstones_setLink (q : Port) : (s.setLink p k).leaseTombstones q = s.leaseTombstones q := rfl
@[simp] theorem waitUse_setLink (q : Port) : (s.setLink p k).waitUse q = s.waitUse q := rfl
@[simp] theorem waitTombstones_setLink (q : Port) : (s.setLink p k).waitTombstones q = s.waitTombstones q := rfl
@[simp] theorem freeLease_setLink : (s.setLink p k).freeLease? = s.freeLease? := rfl
@[simp] theorem freeWait_setLink : (s.setLink p k).freeWait? = s.freeWait? := rfl
@[simp] theorem hasLiveClaim_setLink (q : Port) (r : ResNo) : (s.setLink p k).hasLiveClaim q r = s.hasLiveClaim q r := rfl
@[simp] theorem holds_setLink (q : Port) (r : ResNo) : (s.setLink p k).holds q r = s.holds q r := rfl
@[simp] theorem attached_setLink (q : Port) : (s.setLink p k).attached q = s.attached q := rfl
@[simp] theorem asserted_setLink (g : GateNo) : (s.setLink p k).asserted g = s.asserted g := rfl
@[simp] theorem resourceReport_setLink (r : ResNo) : (s.setLink p k).resourceReport r = s.resourceReport r := rfl
@[simp] theorem portReport_setLink (q : Port) : (s.setLink p k).portReport q = s.portReport q := rfl
@[simp] theorem snapshot_setLink (x : Ref) : (s.setLink p k).snapshot x = s.snapshot x := by cases x <;> rfl
@[simp] theorem resolveLease_setLink (q : Port) (i g : Byte) :
    (s.setLink p k).resolveLease q i g = s.resolveLease q i g := rfl
@[simp] theorem resolveWait_setLink (q : Port) (i g : Byte) :
    (s.setLink p k).resolveWait q i g = s.resolveWait q i g := rfl
@[simp] theorem scanFirst_setLink (a : ScanArgs) : (s.setLink p k).scanFirst a = s.scanFirst a := rfl
@[simp] theorem scanReport_setLink (r : Option ResNo) : (s.setLink p k).scanReport r = s.scanReport r := by
  cases r <;> rfl
@[simp] theorem claimAt_setLink (q : Port) (r : ResNo) : (s.setLink p k).claimAt q r = s.claimAt q r := rfl
@[simp] theorem claims_setLink (q : Port) : (s.setLink p k).claims q = s.claims q := rfl
@[simp] theorem precheck_setLink (q : Req) (o : Port) (b : List Byte) :
    (s.setLink p k).precheck q o b = s.precheck q o b := rfl

/-! ### Single replacements -/

theorem setRes_setLink (r : ResNo) (x : Resource) : (s.setLink p k).setRes r x = (s.setRes r x).setLink p k := rfl
theorem setLease_setLink (l : LeaseNo) (x : Lease) : (s.setLink p k).setLease l x = (s.setLease l x).setLink p k := rfl
theorem setWait_setLink (w : WaitNo) (x : Wait) : (s.setLink p k).setWait w x = (s.setWait w x).setLink p k := rfl
theorem setGate_setLink (g : GateNo) (x : Gate) : (s.setLink p k).setGate g x = (s.setGate g x).setLink p k := rfl
theorem setSession_setLink (q : Port) (x : Session) :
    (s.setLink p k).setSession q x = (s.setSession q x).setLink p k := rfl
theorem setAttn_setLink (q : Port) (x : List Entry) : (s.setLink p k).setAttn q x = (s.setAttn q x).setLink p k := rfl
theorem flag_setLink (q : Port) (x : Ref) (c : Cause) : (s.setLink p k).flag q x c = (s.flag q x c).setLink p k := rfl
theorem withdraw_setLink (q : Port) (x : Ref) : (s.setLink p k).withdraw q x = (s.withdraw q x).setLink p k := rfl

/-- A flagging on a lease. -/
theorem flagLease_setLink (l : LeaseNo) (c : Cause) :
    (s.setLink p k).flagLease l c = (s.flagLease l c).setLink p k := by
  simp only [State.flagLease, lease_setLink]
  split <;> rfl

/-! ### The grant pass -/

theorem grantWait_setLink (r : ResNo) (w : WaitNo) : (s.setLink p k).grantWait r w = (s.grantWait r w).setLink p k := by
  simp only [State.grantWait, wait_setLink, lease_setLink, res_setLink]
  split
  · split <;> rfl
  · rfl

theorem grantShared_setLink (r : ResNo) (ws : List WaitNo) (s : State) :
    (s.setLink p k).grantShared r ws = (s.grantShared r ws).setLink p k := by
  induction ws generalizing s with
  | nil => rfl
  | cons w ws ih =>
    simp only [State.grantShared, wait_setLink, res_setLink, grantWait_setLink, ih]
    split <;> rfl

theorem grantPass_setLink (r : ResNo) : (s.setLink p k).grantPass r = (s.grantPass r).setLink p k := by
  simp only [State.grantPass, wait_setLink, res_setLink, grantWait_setLink, grantShared_setLink]
  split
  · split
    · rfl
    · split
      · rfl
      · split <;> rfl
  · split <;> rfl
  · rfl

/-! ### Holders leaving -/

theorem promotionCompletes_setLink (r : ResNo) (l : LeaseNo) :
    (s.setLink p k).promotionCompletes r l = (s.promotionCompletes r l).setLink p k := by
  simp only [State.promotionCompletes, lease_setLink, res_setLink, setRes_setLink, setLease_setLink, flag_setLink,
    grantPass_setLink]
  split
  · split <;> rfl
  · rfl

theorem completeRetirement_setLink (r : ResNo) :
    (s.setLink p k).completeRetirement r = (s.completeRetirement r).setLink p k := by
  simp only [State.completeRetirement, res_setLink, setRes_setLink, flag_setLink, attached_setLink]
  split <;> simp_all

theorem lastHolderLeft_setLink (r : ResNo) : (s.setLink p k).lastHolderLeft r = (s.lastHolderLeft r).setLink p k := by
  simp only [State.lastHolderLeft, res_setLink, setRes_setLink, completeRetirement_setLink, grantPass_setLink]
  split
  · rfl
  · split <;> rfl
  · split <;> rfl
  · rfl

theorem leave_setLink (r : ResNo) (l : LeaseNo) : (s.setLink p k).leave r l = (s.leave r l).setLink p k := by
  simp only [State.leave, res_setLink, setRes_setLink, lastHolderLeft_setLink, promotionCompletes_setLink,
    grantPass_setLink]
  split
  · rfl
  · split <;> rfl
  · rfl

/-! ### Grace and the forced end -/

theorem enterGrace_setLink (l : LeaseNo) (c : RevokeCause) (g : Byte) :
    (s.setLink p k).enterGrace l c g = (s.enterGrace l c g).setLink p k := by
  simp only [State.enterGrace, lease_setLink, res_setLink, setRes_setLink, setLease_setLink, flag_setLink]
  split
  · split <;> simp_all
  · rfl

theorem escalate_setLink (l : LeaseNo) (c : RevokeCause) (g : Byte) :
    (s.setLink p k).escalate l c g = (s.escalate l c g).setLink p k := by
  simp only [State.escalate, lease_setLink, setLease_setLink, flag_setLink]
  split
  · split <;> split <;> simp_all
  · rfl

theorem applyRevocation_setLink (c : RevokeCause) (g : Byte) (s : State) (l : LeaseNo) :
    State.applyRevocation c g (s.setLink p k) l = (State.applyRevocation c g s l).setLink p k := by
  simp only [State.applyRevocation, lease_setLink, enterGrace_setLink, escalate_setLink]
  split <;> rfl

theorem endLease_setLink (l : LeaseNo) : (s.setLink p k).endLease l = (s.endLease l).setLink p k := by
  simp only [State.endLease, lease_setLink, setLease_setLink]
  split <;> rfl

/-- A fold of an operation that commutes with a link port commutes with it. -/
theorem foldl_setLink {α : Type} (f : State → α → State)
    (h : ∀ s x, f (s.setLink p k) x = (f s x).setLink p k) (xs : List α) (s : State) :
    xs.foldl f (s.setLink p k) = (xs.foldl f s).setLink p k := by
  induction xs generalizing s with
  | nil => rfl
  | cons x xs ih => simp only [List.foldl_cons, h, ih]

theorem endHolders_setLink (r : ResNo) : (s.setLink p k).endHolders r = (s.endHolders r).setLink p k := by
  simp only [State.endHolders, res_setLink]
  rw [foldl_setLink p k _ fun s l => by rw [endLease_setLink, flagLease_setLink]]
  rfl

/-! ### Waits and contention -/

theorem dropWait_setLink (r : ResNo) (w : WaitNo) : (s.setLink p k).dropWait r w = (s.dropWait r w).setLink p k := by
  simp only [State.dropWait, res_setLink, setRes_setLink, grantPass_setLink]
  split <;> rfl

theorem endWait_setLink (w : WaitNo) (e : WaitEnd) (c : Cause) :
    (s.setLink p k).endWait w e c = (s.endWait w e c).setLink p k := by
  simp only [State.endWait, wait_setLink, lease_setLink, setWait_setLink, setLease_setLink, flag_setLink]
  split <;> rfl

theorem contendHolder_setLink (s : State) (l : LeaseNo) :
    (s.setLink p k).contendHolder l = (s.contendHolder l).setLink p k := by
  simp only [State.contendHolder, lease_setLink, setLease_setLink, flag_setLink]
  split
  · split <;> rfl
  · split <;> rfl
  · rfl

theorem contend_setLink (ls : List LeaseNo) : (s.setLink p k).contend ls = (s.contend ls).setLink p k :=
  foldl_setLink p k _ (contendHolder_setLink p k) ls s

/-! ### Session end -/

theorem treatClaim_setLink (s : State) (c : ResNo × PortClaim) :
    (s.setLink p k).treatClaim c = (s.treatClaim c).setLink p k := by
  obtain ⟨r, c⟩ := c
  cases c with
  | holder l => exact leave_setLink s p k r l
  | waiter w => exact dropWait_setLink s p k r w

theorem endSession_setLink (q : Port) (st : SessState) (e : EndCause) :
    (s.setLink p k).endSession q st e = (s.endSession q st e).setLink p k := by
  simp only [State.endSession, claims_setLink]
  exact foldl_setLink p k _ (treatClaim_setLink p k) _ (s.dropPort q st e).spendFree

end Sys2Proof.Machine
end

