-- ==== Sys2Proof/Laws/Ops.lean ====
section
/-! SUPPORT. What each shared operation can do: its equation in the record state it speaks of, and the frame it keeps at
one resource. -/

namespace Sys2Proof.Machine

variable {s t u : State} {r : ResNo} {l : LeaseNo} {w : WaitNo}

/-- What every shared operation at resource `r` keeps: the pins, the queues and links, the timebase, the gates, the
sessions, the countdowns still due and those to be late, every other resource, and every generation; and no epoch falls
(R11, R22, R49). -/
structure State.OpAt (r : ResNo) (s t : State) : Prop where
  pending : t.pending = s.pending
  rstN : t.rstN = s.rstN
  gateOeN : t.gateOeN = s.gateOeN
  timebase : t.timebase = s.timebase
  gates : t.gates = s.gates
  sessions : t.sessions = s.sessions
  links : t.links = s.links
  due : t.due = s.due
  late : t.late = s.late
  other : ∀ r', r' ≠ r → t.res r' = s.res r'
  leaseGen : ∀ l, (t.lease l).gen = (s.lease l).gen
  waitGen : ∀ w, (t.wait w).gen = (s.wait w).gen
  epoch : (s.res r).epoch.toNat ≤ (t.res r).epoch.toNat

namespace State.OpAt

theorem refl (r : ResNo) (s : State) : s.OpAt r s :=
  ⟨rfl, rfl, rfl, rfl, rfl, rfl, rfl, rfl, rfl, fun _ _ => rfl, fun _ => rfl, fun _ => rfl, Nat.le_refl _⟩

theorem trans (h : s.OpAt r t) (h' : t.OpAt r u) : s.OpAt r u where
  pending := h'.pending.trans h.pending
  rstN := h'.rstN.trans h.rstN
  gateOeN := h'.gateOeN.trans h.gateOeN
  timebase := h'.timebase.trans h.timebase
  gates := h'.gates.trans h.gates
  sessions := h'.sessions.trans h.sessions
  links := h'.links.trans h.links
  due := h'.due.trans h.due
  late := h'.late.trans h.late
  other := fun r' hr => (h'.other r' hr).trans (h.other r' hr)
  leaseGen := fun l => (h'.leaseGen l).trans (h.leaseGen l)
  waitGen := fun w => (h'.waitGen w).trans (h.waitGen w)
  epoch := Nat.le_trans h.epoch h'.epoch

/-- Two operations, the later one given first. -/
theorem after (h' : t.OpAt r u) (h : s.OpAt r t) : s.OpAt r u := h.trans h'

/-- A replacement of the resource record whose epoch does not fall. -/
theorem setRes {x : Resource} (hx : (s.res r).epoch.toNat ≤ x.epoch.toNat) : s.OpAt r (s.setRes r x) where
  pending := rfl
  rstN := rfl
  gateOeN := rfl
  timebase := rfl
  gates := rfl
  sessions := rfl
  links := rfl
  due := rfl
  late := rfl
  other := fun r' hr => by simp [hr]
  leaseGen := fun _ => rfl
  waitGen := fun _ => rfl
  epoch := by simpa using hx

/-- A replacement of a lease record that keeps its generation. -/
theorem setLease {x : Lease} (hx : x.gen = (s.lease l).gen) : s.OpAt r (s.setLease l x) where
  pending := rfl
  rstN := rfl
  gateOeN := rfl
  timebase := rfl
  gates := rfl
  sessions := rfl
  links := rfl
  due := rfl
  late := rfl
  other := fun _ _ => rfl
  leaseGen := fun l' => by rw [lease_setLease]; split <;> simp_all
  waitGen := fun _ => rfl
  epoch := Nat.le_refl _

/-- A replacement of a wait record that keeps its generation. -/
theorem setWait {x : Wait} (hx : x.gen = (s.wait w).gen) : s.OpAt r (s.setWait w x) where
  pending := rfl
  rstN := rfl
  gateOeN := rfl
  timebase := rfl
  gates := rfl
  sessions := rfl
  links := rfl
  due := rfl
  late := rfl
  other := fun _ _ => rfl
  leaseGen := fun _ => rfl
  waitGen := fun w' => by rw [wait_setWait]; split <;> simp_all
  epoch := Nat.le_refl _

/-- A replacement of an attention list. -/
theorem setAttn {p : Port} {x : List Entry} : s.OpAt r (s.setAttn p x) :=
  ⟨rfl, rfl, rfl, rfl, rfl, rfl, rfl, rfl, rfl, fun _ _ => rfl, fun _ => rfl, fun _ => rfl, Nat.le_refl _⟩

theorem flag {p : Port} {x : Ref} {c : Cause} : s.OpAt r (s.flag p x c) := setAttn

theorem flagLease {c : Cause} : s.OpAt r (s.flagLease l c) := by
  unfold State.flagLease
  split
  · exact flag
  · exact refl r s

theorem spendFree : s.OpAt r s.spendFree :=
  ⟨rfl, rfl, rfl, rfl, rfl, rfl, rfl, rfl, rfl, fun _ _ => rfl, fun _ => rfl, fun _ => rfl, Nat.le_refl _⟩

/-- A list of operations, each keeping the frame. -/
theorem foldl {α : Type} {f : State → α → State} (hf : ∀ (t : State) (x : α), t.OpAt r (f t x)) (xs : List α) (s : State) :
    s.OpAt r (xs.foldl f s) := by
  induction xs generalizing s with
  | nil => exact refl r s
  | cons x xs ih => exact (hf s x).trans (ih _)

end State.OpAt

/-! ### Flaggings (R145) -/

/-- After a flagging the record has an entry that carries the cause. -/
theorem exists_mem_addCause (x : Ref) (c : Cause) (es : List Entry) :
    ∃ e ∈ addCause x c es, e.ref = x ∧ e.causes &&& c.value = c.value := by
  induction es with
  | nil => exact ⟨_, List.mem_singleton_self _, rfl, by simp⟩
  | cons e es ih =>
    unfold addCause
    split
    · refine ⟨_, List.mem_cons_self, ‹_›, ?_⟩
      ext i
      simp
      tauto
    · obtain ⟨f, hf, h⟩ := ih
      exact ⟨f, List.mem_cons_of_mem _ hf, h⟩

/-- A flagging keeps the references in their order, and appends the record only if it was not listed. -/
theorem map_ref_addCause (x : Ref) (c : Cause) (es : List Entry) :
    (addCause x c es).map (·.ref) = if x ∈ es.map (·.ref) then es.map (·.ref) else es.map (·.ref) ++ [x] := by
  induction es with
  | nil => rfl
  | cons e es ih =>
    unfold addCause
    by_cases h : e.ref = x
    · simp [h]
    · simp only [h, if_false, List.map_cons, ih, List.mem_cons, Ne.symm h, false_or]
      split <;> rfl

/-- A flagging leaves every other record's entry as it is. -/
theorem mem_addCause_ne {x : Ref} {c : Cause} {e : Entry} {es : List Entry} (h : e.ref ≠ x) :
    e ∈ addCause x c es ↔ e ∈ es := by
  induction es with
  | nil => simp only [addCause, List.mem_singleton, List.not_mem_nil, iff_false]; rintro rfl; exact h rfl
  | cons f es ih =>
    unfold addCause
    split
    · have h1 : e ≠ { f with causes := f.causes ||| c.value } := by rintro rfl; exact h ‹_›
      have h2 : e ≠ f := by rintro rfl; exact h ‹_›
      simp [h1, h2]
    · simp [ih]

/-! ### The grant pass (R54 to R57) -/

/-- The grant of a WAITING wait with its RESERVED lease (R57). -/
theorem grantWait_eq {c : WaitClaim} {n : Half} {k : Claim} (hw : (s.wait w).st = .waiting c n l)
    (hl : (s.lease l).st = .reserved k) :
    s.grantWait r w = (((s.setRes r { (s.res r).join l k.mode with queue := (s.res r).queue.filter (· ≠ w) }).setWait w
      (s.wait w).freed).setLease l ⟨(s.lease l).gen, grantedState k ((s.res r).join l k.mode).epoch
        ((s.res r).attrs.givenTerm c.term)⟩).flag k.port (.lease l) .granted := by
  have hq : ((s.res r).join l k.mode).queue = (s.res r).queue := by unfold Resource.join; split <;> rfl
  simp only [State.grantWait, hw, hl, hq]

/-- A holder joins a resource that is not FREE without a new epoch, and a FREE one under the next epoch (R11, R12). -/
theorem epoch_join (x : Resource) (l : LeaseNo) (m : Mode) :
    (x.join l m).epoch = if x.st = .free then x.epoch + 1 else x.epoch := by
  unfold Resource.join
  split
  · simp [*]
  · rename_i h; rw [if_neg (fun e => h e)]

/-- The next epoch is above an epoch that is not the last. -/
theorem toNat_lt_succ_epoch {e : Quad} (h : e ≠ maxEpoch) : e.toNat < (e + 1).toNat := by
  simp only [maxEpoch] at h
  bv_omega

/-- A grant keeps the frame, unless the resource is FREE with its epoch exhausted. -/
theorem grantWait_opAt (h : (s.res r).st = .free → (s.res r).epoch ≠ maxEpoch) : s.OpAt r (s.grantWait r w) := by
  unfold State.grantWait
  split
  · split
    · refine (State.OpAt.setRes ?_).trans (.trans (.setWait ?_) (.trans (.setLease ?_) .flag))
      · simp only [epoch_join]
        split
        · exact (toNat_lt_succ_epoch (h ‹_›)).le
        · exact Nat.le_refl _
      · rfl
      · rfl
    · exact .refl r s
  · exact .refl r s

/-- A grant keeps the attributes and the slot. -/
theorem grantWait_kept : ((s.grantWait r w).res r).attrs = (s.res r).attrs ∧
    ((s.grantWait r w).res r).slot = (s.res r).slot := by
  unfold State.grantWait
  split
  · split
    · simp only [State.flag, res_setAttn, res_setLease, res_setWait, res_setRes_self]
      unfold Resource.join
      split <;> exact ⟨rfl, rfl⟩
    · exact ⟨rfl, rfl⟩
  · exact ⟨rfl, rfl⟩

/-- A FREE resource stays FREE through a grant only if nothing was granted. -/
theorem grantWait_free (h : ((s.grantWait r w).res r).st = .free) : s.grantWait r w = s := by
  unfold State.grantWait at h ⊢
  split
  · split
    · exfalso
      simp_all only [State.flag, res_setAttn, res_setLease, res_setWait, res_setRes_self]
      revert h
      unfold Resource.join
      split
      · rename_i k _ _ _ _
        cases k.mode <;> simp [Mode.resState]
      · simp_all
    · rfl
  · rfl

theorem grantShared_opAt (ws : List WaitNo) (s : State) (h : (s.res r).st = .free → (s.res r).epoch ≠ maxEpoch) :
    s.OpAt r (s.grantShared r ws) := by
  induction ws generalizing s with
  | nil => exact .refl r s
  | cons w ws ih =>
    unfold State.grantShared
    split
    · refine (grantWait_opAt h).trans (ih _ fun hf => ?_)
      have hs := grantWait_free hf
      rw [hs] at hf ⊢
      exact h hf
    · exact .refl r s

/-- A grant pass keeps the frame. -/
theorem grantPass_opAt : s.OpAt r (s.grantPass r) := by
  unfold State.grantPass
  split
  · split
    · exact .refl r s
    · split
      · exact .refl r s
      · split
        · refine (grantWait_opAt fun _ => ‹_›).trans (grantShared_opAt _ _ fun hf => ?_)
          rw [grantWait_free hf]
          assumption
        · exact grantWait_opAt fun _ => ‹_›
  · split
    · exact grantShared_opAt _ _ (by simp_all)
    · exact .refl r s
  · exact .refl r s

/-- A grant pass at a resource that is neither FREE nor SHARED changes nothing (R54). -/
theorem grantPass_idle (h : (s.res r).st ≠ .free) (h' : (s.res r).st ≠ .shared) : s.grantPass r = s := by
  unfold State.grantPass
  split <;> simp_all

/-! ### Promotion, and holders leaving (R7, R8, R76, R77, R100) -/

theorem promotionCompletes_opAt : s.OpAt r (s.promotionCompletes r l) := by
  unfold State.promotionCompletes
  split
  · dsimp only
    split
    · exact .after grantPass_opAt (.after .flag (.after (.setLease rfl) (.setRes (Nat.le_refl _))))
    · exact .after grantPass_opAt (.after .flag (.after (.setLease rfl) (.setRes (toNat_lt_succ_epoch ‹_›).le)))
  · exact .refl r s

theorem completeRetirement_opAt : s.OpAt r (s.completeRetirement r) := by
  unfold State.completeRetirement
  dsimp only
  split
  · exact .after .flag (.setRes (Nat.le_refl _))
  · exact .setRes (Nat.le_refl _)

theorem lastHolderLeft_opAt : s.OpAt r (s.lastHolderLeft r) := by
  unfold State.lastHolderLeft
  dsimp only
  split
  · exact completeRetirement_opAt
  · split
    · exact .after grantPass_opAt (.setRes (Nat.le_refl _))
    · exact .setRes (Nat.le_refl _)
  · split
    · exact .after grantPass_opAt (.setRes (Nat.le_refl _))
    · exact .setRes (Nat.le_refl _)
  · exact .refl r s

theorem leave_opAt : s.OpAt r (s.leave r l) := by
  unfold State.leave
  dsimp only
  refine (State.OpAt.setRes (x := (s.res r).without l) (Nat.le_refl _)).trans ?_
  split
  · exact lastHolderLeft_opAt
  · split
    · exact promotionCompletes_opAt
    · exact grantPass_opAt
  · exact grantPass_opAt

/-! ### Grace and the forced end (R84 to R87) -/

/-- An ACTIVE lease outside the promotion slot enters grace with REVOKE_PENDING (R84). -/
theorem enterGrace_eq {h : Holding} {a : ActivePart} {c : RevokeCause} {g : Byte} (hl : (s.lease l).st = .active h a)
    (hs : (s.res h.claim.res).slot ≠ some l) :
    s.enterGrace l c g =
      (s.setLease l ⟨(s.lease l).gen, .grace h ⟨g, c, a.sent⟩⟩).flag h.claim.port (.lease l) .revokePending := by
  simp only [State.enterGrace, hl, hs, if_false]

/-- An ACTIVE lease in the promotion slot enters grace, and its promotion ends (R79). -/
theorem enterGrace_slot {h : Holding} {a : ActivePart} {c : RevokeCause} {g : Byte} (hl : (s.lease l).st = .active h a)
    (hs : (s.res h.claim.res).slot = some l) :
    s.enterGrace l c g =
      (((s.setLease l ⟨(s.lease l).gen, .grace h ⟨g, c, a.sent⟩⟩).flag h.claim.port (.lease l) .revokePending).setRes
        h.claim.res { s.res h.claim.res with slot := none }).flag h.claim.port (.lease l) .promoteEnded := by
  simp only [State.enterGrace, hl, hs, if_true]

theorem enterGrace_opAt {c : RevokeCause} {g : Byte} (hr : ∀ k ∈ (s.lease l).claim?, k.res = r) :
    s.OpAt r (s.enterGrace l c g) := by
  unfold State.enterGrace
  split
  · rename_i h a hl
    have hr : h.claim.res = r := hr _ (by simp [Lease.claim?, hl])
    subst hr
    dsimp only
    split
    · exact .after .flag (.after (.setRes (Nat.le_refl _)) (.after .flag (.setLease rfl)))
    · exact .after .flag (.setLease rfl)
  · exact .refl r s

theorem escalate_opAt {c : RevokeCause} {g : Byte} : s.OpAt r (s.escalate l c g) := by
  unfold State.escalate
  split
  · dsimp only
    split_ifs
    all_goals first | exact .after .flag (.setLease rfl) | exact .setLease rfl
  · exact .refl r s

theorem endLease_opAt : s.OpAt r (s.endLease l) := by
  unfold State.endLease
  split
  · exact .setLease rfl
  · exact .refl r s

theorem forcedEnd_opAt (hr : ∀ k ∈ (s.lease l).claim?, k.res = r) : s.OpAt r (s.forcedEnd l) := by
  unfold State.forcedEnd
  split
  · rename_i h g hl
    have hr : h.claim.res = r := hr _ (by simp [Lease.claim?, hl])
    subst hr
    dsimp only
    split
    · split
      · exact .after .flag (.after leave_opAt (.after .spendFree endLease_opAt))
      · exact .after leave_opAt (.after .flag (.after .spendFree endLease_opAt))
    · exact .after leave_opAt (.after .flag endLease_opAt)
  · exact .refl r s

theorem endHolders_opAt : s.OpAt r (s.endHolders r) := by
  unfold State.endHolders
  exact .after (.setRes (Nat.le_refl _)) (.foldl (fun _ _ => .after .flagLease endLease_opAt) _ s)

/-! ### Waits leaving and contention notices (R60, R62, R66, R96) -/

theorem dropWait_opAt : s.OpAt r (s.dropWait r w) := by
  unfold State.dropWait
  dsimp only
  split
  · exact .after grantPass_opAt (.setRes (Nat.le_refl _))
  · exact .setRes (Nat.le_refl _)

/-- A WAITING wait ends: a tombstone with its cause flagged, its reserved lease FREE (R60, R96). -/
theorem endWait_eq {k : WaitClaim} {n : Half} {e : WaitEnd} {c : Cause} (hw : (s.wait w).st = .waiting k n l) :
    s.endWait w e c = ((s.setWait w ⟨(s.wait w).gen, .ended k e⟩).setLease l (s.lease l).freed).flag k.port (.wait w) c := by
  simp only [State.endWait, hw]

theorem endWait_opAt {e : WaitEnd} {c : Cause} : s.OpAt r (s.endWait w e c) := by
  unfold State.endWait
  split
  · exact .after .flag (.after (.setLease rfl) (.setWait rfl))
  · exact .refl r s

theorem contendHolder_opAt : s.OpAt r (s.contendHolder l) := by
  unfold State.contendHolder
  split
  · split
    · exact .after .flag (.setLease rfl)
    · exact .refl r s
  · split
    · exact .after .flag (.setLease rfl)
    · exact .refl r s
  · exact .refl r s

theorem contend_opAt (ls : List LeaseNo) : s.OpAt r (s.contend ls) :=
  State.OpAt.foldl (fun _ _ => contendHolder_opAt) ls s

end Sys2Proof.Machine
end

