-- ==== Sys2Proof/Laws/Tick.lean ====
section
/-! SUPPORT. What the tick at one record keeps, what the end of a tick in progress is, and when a request or an expiry
command brings it about. -/

namespace Sys2Proof.Machine

variable {s t u : State} {r : ResNo} {l : LeaseNo} {w : WaitNo} {p : Port} {x : TickRef}

/-- What the tick at any record keeps: the waiting commands, the pins, the timebase, the gates, the countdowns still due and
those to be late, and every generation; and no epoch falls. -/
structure State.TickFrame (s t : State) : Prop where
  pending : t.pending = s.pending
  rstN : t.rstN = s.rstN
  gateOeN : t.gateOeN = s.gateOeN
  timebase : t.timebase = s.timebase
  gates : t.gates = s.gates
  due : t.due = s.due
  late : t.late = s.late
  leaseGen : ∀ l, (t.lease l).gen = (s.lease l).gen
  waitGen : ∀ w, (t.wait w).gen = (s.wait w).gen
  epoch : ∀ r, (s.res r).epoch.toNat ≤ (t.res r).epoch.toNat

namespace State.TickFrame

theorem refl (s : State) : s.TickFrame s :=
  ⟨rfl, rfl, rfl, rfl, rfl, rfl, rfl, fun _ => rfl, fun _ => rfl, fun _ => Nat.le_refl _⟩

theorem trans (h : s.TickFrame t) (h' : t.TickFrame u) : s.TickFrame u where
  pending := h'.pending.trans h.pending
  rstN := h'.rstN.trans h.rstN
  gateOeN := h'.gateOeN.trans h.gateOeN
  timebase := h'.timebase.trans h.timebase
  gates := h'.gates.trans h.gates
  due := h'.due.trans h.due
  late := h'.late.trans h.late
  leaseGen := fun l => (h'.leaseGen l).trans (h.leaseGen l)
  waitGen := fun w => (h'.waitGen w).trans (h.waitGen w)
  epoch := fun r => Nat.le_trans (h.epoch r) (h'.epoch r)

/-- A shared operation at one resource keeps it. -/
theorem ofOpAt (h : s.OpAt r t) : s.TickFrame t where
  pending := h.pending
  rstN := h.rstN
  gateOeN := h.gateOeN
  timebase := h.timebase
  gates := h.gates
  due := h.due
  late := h.late
  leaseGen := h.leaseGen
  waitGen := h.waitGen
  epoch := fun r' => if e : r' = r then e ▸ h.epoch else by rw [h.other r' e]

/-- A list of operations, each keeping it. -/
theorem foldl {α : Type} {f : State → α → State} (hf : ∀ (t : State) (x : α), t.TickFrame (f t x)) (xs : List α)
    (s : State) : s.TickFrame (xs.foldl f s) := by
  induction xs generalizing s with
  | nil => exact refl s
  | cons x xs ih => exact (hf s x).trans (ih _)

end State.TickFrame

/-! ### Session end -/

/-- Lease and wait records replaced by records of the same generations. -/
theorem records_frame {f : Vector Lease 96} {g : Vector Wait 48} (hf : ∀ l : LeaseNo, f[l].gen = (s.lease l).gen)
    (hg : ∀ w : WaitNo, g[w].gen = (s.wait w).gen) : s.TickFrame { s with leases := f, waits := g } where
  pending := rfl
  rstN := rfl
  gateOeN := rfl
  timebase := rfl
  gates := rfl
  due := rfl
  late := rfl
  leaseGen := hf
  waitGen := hg
  epoch := fun _ => Nat.le_refl _

theorem setSession_frame {y : Session} : s.TickFrame (s.setSession p y) :=
  ⟨rfl, rfl, rfl, rfl, rfl, rfl, rfl, fun _ => rfl, fun _ => rfl, fun _ => Nat.le_refl _⟩

theorem setLink_frame {y : Link} : s.TickFrame (s.setLink p y) :=
  ⟨rfl, rfl, rfl, rfl, rfl, rfl, rfl, fun _ => rfl, fun _ => rfl, fun _ => Nat.le_refl _⟩

/-- The freeing of a port's records keeps the frame. -/
theorem dropPort_frame {st : SessState} {e : EndCause} : s.TickFrame (s.dropPort p st e) :=
  (records_frame (fun l => by simp only [Fin.getElem_fin, Vector.getElem_ofFn]; split <;> rfl)
    (fun w => by simp only [Fin.getElem_fin, Vector.getElem_ofFn]; split <;> rfl)).trans (.trans (.ofOpAt (r := 0) .setAttn) setSession_frame)

theorem treatClaim_frame (s : State) (c : ResNo × PortClaim) : s.TickFrame (s.treatClaim c) := by
  obtain ⟨r, c⟩ := c
  cases c with
  | holder l => exact .ofOpAt leave_opAt
  | waiter w => exact .ofOpAt dropWait_opAt

theorem endSession_frame {st : SessState} {e : EndCause} : s.TickFrame (s.endSession p st e) :=
  dropPort_frame.trans (.trans (.ofOpAt (r := 0) .spendFree) (.foldl treatClaim_frame _ _))

/-! ### The tick at one record -/

theorem tickSettle_opAt : s.OpAt r (s.tickSettle r) := by
  unfold State.tickSettle
  dsimp only
  split
  · split
    · exact .after grantPass_opAt (.setRes (Nat.le_refl _))
    · exact .setRes (Nat.le_refl _)
  · exact .refl r s

theorem tickWait_frame : s.TickFrame (s.tickWait w) := by
  unfold State.tickWait
  split
  · rename_i c n l _
    split
    · exact .ofOpAt (r := c.res) (.after dropWait_opAt endWait_opAt)
    · exact .ofOpAt (r := c.res) (.setWait rfl)
  · exact .refl s

theorem tickPromo_frame : s.TickFrame (s.tickPromo l) := by
  unfold State.tickPromo
  split
  · rename_i h a _
    split
    · split
      · exact .ofOpAt (r := h.claim.res)
          (.after grantPass_opAt (.after .flag (.after (.setRes (Nat.le_refl _)) (.setLease rfl))))
      · exact .ofOpAt (r := h.claim.res) (.setLease rfl)
    · exact .refl s
  · exact .refl s

/-- A lease that enters grace keeps its claim. -/
theorem enterGrace_claim {c : RevokeCause} {g : Byte} : ((s.enterGrace l c g).lease l).claim? = (s.lease l).claim? := by
  unfold State.enterGrace
  split
  · rename_i h a hl
    dsimp only
    split <;> simp [State.flag, Lease.claim?, hl]
  · rfl

theorem tickLease_frame : s.TickFrame (s.tickLease l) := by
  unfold State.tickLease
  split
  · rename_i h a hl
    have hr : ∀ k ∈ (s.lease l).claim?, k.res = h.claim.res := by simp [Lease.claim?, hl]
    split
    · refine .ofOpAt (r := h.claim.res) ?_
      simp only [State.termExpires, hl]
      have h1 : s.OpAt h.claim.res (s.enterGrace l .term (s.res h.claim.res).attrs.grace) := enterGrace_opAt hr
      have h2 : s.OpAt h.claim.res ((s.enterGrace l .term (s.res h.claim.res).attrs.grace).forcedEnd l) :=
        h1.trans (forcedEnd_opAt fun k hk => hr k (by rwa [enterGrace_claim] at hk))
      split_ifs
      · exact h2.trans grantPass_opAt
      · exact h1.trans grantPass_opAt
      · exact h2
      · exact h1
    · exact .ofOpAt (r := h.claim.res) (.setLease rfl)
  · rename_i h g hl
    split
    · exact .ofOpAt (r := h.claim.res) (forcedEnd_opAt (by simp [Lease.claim?, hl]))
    · exact .ofOpAt (r := h.claim.res) (.setLease rfl)
  · exact .refl s

theorem tickLive_frame : s.TickFrame (s.tickLive p) := by
  unfold State.tickLive
  split
  · split
    · exact endSession_frame.trans setLink_frame
    · exact setSession_frame
  · exact .refl s

/-- The tick at any record. -/
theorem tickAt_frame (s : State) (x : TickRef) : s.TickFrame (s.tickAt x) := by
  cases x with
  | settle r => exact .ofOpAt tickSettle_opAt
  | lease l => exact tickLease_frame
  | promo l => exact tickPromo_frame
  | wait w => exact tickWait_frame
  | live p => exact tickLive_frame

/-! ### The end of the tick in progress -/

theorem counting_iff : s.counting = true ↔ s.rstN = true ∧ s.timebase.mode = .running := by
  simp [State.counting]

/-- No countdown is still due. -/
theorem finishTick_of_none_due (h : s.due = []) : s.finishTick = s := by
  simp [State.finishTick, h]

/-- While the timebase does not count, no tick is in progress (R109). -/
theorem finishTick_of_not_counting (h : s.counting = false) : s.finishTick = s := by
  simp [State.finishTick, h]

/-- The end of a tick in progress: the countdowns still due are reached one after the other. -/
theorem finishTick_eq (h : s.counting = true) (hd : s.due ≠ []) : s.finishTick =
    (sortByRank (fun x => Config.expiryRank s.freeCount (tickCode x)) s.due).foldl State.tickAt
      { s.spendFree with due := [] } := by
  unfold State.finishTick
  rw [if_pos h]
  split
  · exact absurd ‹_› hd
  · rfl

/-- The end of a tick in progress keeps the frame, and leaves no countdown due. -/
theorem finishTick_frame : ({ s with due := s.finishTick.due } : State).TickFrame s.finishTick := by
  by_cases h : s.counting = true
  · by_cases hd : s.due = []
    · rw [finishTick_of_none_due hd]; exact .refl s
    · rw [finishTick_eq h hd]
      have hf := State.TickFrame.foldl tickAt_frame
        (sortByRank (fun x => Config.expiryRank s.freeCount (tickCode x)) s.due) { s.spendFree with due := [] }
      exact { hf with due := rfl }
  · rw [finishTick_of_not_counting (by simpa using h)]; exact .refl s

theorem finishTick_due (h : s.counting = true) : s.finishTick.due = [] := by
  by_cases hd : s.due = []
  · rw [finishTick_of_none_due hd, hd]
  · rw [finishTick_eq h hd]
    exact (State.TickFrame.foldl tickAt_frame _ _).due

/-- A tick that has ended does not end again. -/
theorem finishTick_finishTick : s.finishTick.finishTick = s.finishTick := by
  by_cases h : s.counting = true
  · exact finishTick_of_none_due (finishTick_due h)
  · simp only [finishTick_of_not_counting (by simpa using h : s.counting = false)]

/-- A REFCLK period, a tick or a request that ends the tick in progress finds the timebase as it was. -/
theorem counting_finishTick : s.finishTick.counting = s.counting := by
  have h := finishTick_frame (s := s)
  simp only [State.counting, h.rstN, h.timebase]

/-! ### The commands that reach a countdown -/

/-- The tick in progress reaches a countdown it has still to reach. -/
theorem takeDue_eq (h : s.counting = true) (hx : x ∈ s.due) :
    s.takeDue x true = ({ s with due := s.due.erase x } : State).tickAt x := by
  simp [State.takeDue, h, hx]

/-- A countdown that is not due is not reached (log entry 2). -/
theorem takeDue_of_not_due (b : Bool) (hx : x ∉ s.due) : s.takeDue x b = s := by
  simp [State.takeDue, hx]

/-- While the timebase does not count, no countdown is reached (R109). -/
theorem takeDue_of_not_counting (b : Bool) (h : s.counting = false) : s.takeDue x b = s := by
  simp [State.takeDue, h]

end Sys2Proof.Machine
end

