-- ==== Sys2Proof/Laws/Due.lean ====
section
/-! SUPPORT. No shared operation reads or writes the countdowns still due, so the tick at one record gives the same result
whatever is still due; and the events of a countdown that is due are the tick at its record. -/

namespace Sys2Proof.Machine

/-- The state with other countdowns due. -/
def State.withDue (s : State) (d : List TickRef) : State := { s with due := d }

variable (s : State) (d : List TickRef)

/-! ### Reads and single replacements -/

@[simp] theorem res_withDue (r : ResNo) : (s.withDue d).res r = s.res r := rfl
@[simp] theorem lease_withDue (l : LeaseNo) : (s.withDue d).lease l = s.lease l := rfl
@[simp] theorem wait_withDue (w : WaitNo) : (s.withDue d).wait w = s.wait w := rfl
@[simp] theorem session_withDue (p : Port) : (s.withDue d).session p = s.session p := rfl
@[simp] theorem attn_withDue (p : Port) : (s.withDue d).attn p = s.attn p := rfl
@[simp] theorem link_withDue (p : Port) : (s.withDue d).link p = s.link p := rfl
@[simp] theorem attached_withDue (p : Port) : (s.withDue d).attached p = s.attached p := rfl
@[simp] theorem freeCount_withDue : (s.withDue d).freeCount = s.freeCount := rfl
@[simp] theorem counting_withDue : (s.withDue d).counting = s.counting := rfl
@[simp] theorem due_withDue : (s.withDue d).due = d := rfl
@[simp] theorem claims_withDue (p : Port) : (s.withDue d).claims p = s.claims p := rfl
@[simp] theorem withDue_withDue (e : List TickRef) : (s.withDue d).withDue e = s.withDue e := rfl
@[simp] theorem withDue_due : s.withDue s.due = s := rfl

theorem setRes_withDue (r : ResNo) (x : Resource) : (s.withDue d).setRes r x = (s.setRes r x).withDue d := rfl
theorem setLease_withDue (l : LeaseNo) (x : Lease) : (s.withDue d).setLease l x = (s.setLease l x).withDue d := rfl
theorem setWait_withDue (w : WaitNo) (x : Wait) : (s.withDue d).setWait w x = (s.setWait w x).withDue d := rfl
theorem setSession_withDue (p : Port) (x : Session) : (s.withDue d).setSession p x = (s.setSession p x).withDue d := rfl
theorem setLink_withDue (p : Port) (x : Link) : (s.withDue d).setLink p x = (s.setLink p x).withDue d := rfl
theorem flag_withDue (p : Port) (x : Ref) (c : Cause) : (s.withDue d).flag p x c = (s.flag p x c).withDue d := rfl
theorem spendFree_withDue : (s.withDue d).spendFree = s.spendFree.withDue d := rfl

/-! ### Shared operations -/

theorem grantWait_withDue (r : ResNo) (w : WaitNo) : (s.withDue d).grantWait r w = (s.grantWait r w).withDue d := by
  simp only [State.grantWait, wait_withDue, lease_withDue, res_withDue]
  split
  · split <;> rfl
  · rfl

theorem grantShared_withDue (r : ResNo) (ws : List WaitNo) (s : State) :
    (s.withDue d).grantShared r ws = (s.grantShared r ws).withDue d := by
  induction ws generalizing s with
  | nil => rfl
  | cons w ws ih =>
    simp only [State.grantShared, wait_withDue, res_withDue, grantWait_withDue, ih]
    split <;> rfl

theorem grantPass_withDue (r : ResNo) : (s.withDue d).grantPass r = (s.grantPass r).withDue d := by
  simp only [State.grantPass, wait_withDue, res_withDue, grantWait_withDue, grantShared_withDue]
  split
  · split
    · rfl
    · split
      · rfl
      · split <;> rfl
  · split <;> rfl
  · rfl

theorem promotionCompletes_withDue (r : ResNo) (l : LeaseNo) :
    (s.withDue d).promotionCompletes r l = (s.promotionCompletes r l).withDue d := by
  simp only [State.promotionCompletes, lease_withDue, res_withDue, setRes_withDue, setLease_withDue, flag_withDue,
    grantPass_withDue]
  split
  · split <;> rfl
  · rfl

theorem completeRetirement_withDue (r : ResNo) :
    (s.withDue d).completeRetirement r = (s.completeRetirement r).withDue d := by
  simp only [State.completeRetirement, res_withDue, setRes_withDue, flag_withDue, attached_withDue]
  split <;> simp_all

theorem lastHolderLeft_withDue (r : ResNo) : (s.withDue d).lastHolderLeft r = (s.lastHolderLeft r).withDue d := by
  simp only [State.lastHolderLeft, res_withDue, setRes_withDue, completeRetirement_withDue, grantPass_withDue]
  split
  · rfl
  · split <;> rfl
  · split <;> rfl
  · rfl

theorem leave_withDue (r : ResNo) (l : LeaseNo) : (s.withDue d).leave r l = (s.leave r l).withDue d := by
  simp only [State.leave, res_withDue, setRes_withDue, lastHolderLeft_withDue, promotionCompletes_withDue,
    grantPass_withDue]
  split
  · rfl
  · split <;> rfl
  · rfl

theorem enterGrace_withDue (l : LeaseNo) (c : RevokeCause) (g : Byte) :
    (s.withDue d).enterGrace l c g = (s.enterGrace l c g).withDue d := by
  simp only [State.enterGrace, lease_withDue, res_withDue, setRes_withDue, setLease_withDue, flag_withDue]
  split
  · split <;> simp_all
  · rfl

theorem endLease_withDue (l : LeaseNo) : (s.withDue d).endLease l = (s.endLease l).withDue d := by
  simp only [State.endLease, lease_withDue, setLease_withDue]
  split <;> rfl

theorem forcedEnd_withDue (l : LeaseNo) : (s.withDue d).forcedEnd l = (s.forcedEnd l).withDue d := by
  simp only [State.forcedEnd, lease_withDue, res_withDue, endLease_withDue, spendFree_withDue, leave_withDue,
    flag_withDue, freeCount_withDue]
  split
  · split
    · split <;> rfl
    · rfl
  · rfl

theorem dropWait_withDue (r : ResNo) (w : WaitNo) : (s.withDue d).dropWait r w = (s.dropWait r w).withDue d := by
  simp only [State.dropWait, res_withDue, setRes_withDue, grantPass_withDue]
  split <;> rfl

theorem endWait_withDue (w : WaitNo) (e : WaitEnd) (c : Cause) :
    (s.withDue d).endWait w e c = (s.endWait w e c).withDue d := by
  simp only [State.endWait, wait_withDue, lease_withDue, setWait_withDue, setLease_withDue, flag_withDue]
  split <;> rfl

theorem treatClaim_withDue (s : State) (c : ResNo × PortClaim) :
    (s.withDue d).treatClaim c = (s.treatClaim c).withDue d := by
  obtain ⟨r, c⟩ := c
  cases c with
  | holder l => exact leave_withDue s d r l
  | waiter w => exact dropWait_withDue s d r w

/-- A fold of an operation that does not read what is due. -/
theorem foldl_withDue {α : Type} (f : State → α → State) (h : ∀ s x, f (s.withDue d) x = (f s x).withDue d)
    (xs : List α) (s : State) : xs.foldl f (s.withDue d) = (xs.foldl f s).withDue d := by
  induction xs generalizing s with
  | nil => rfl
  | cons x xs ih => simp only [List.foldl_cons, h, ih]

theorem endSession_withDue (p : Port) (st : SessState) (e : EndCause) :
    (s.withDue d).endSession p st e = (s.endSession p st e).withDue d := by
  simp only [State.endSession, claims_withDue, freeCount_withDue]
  exact foldl_withDue d _ (treatClaim_withDue d) _ (s.dropPort p st e).spendFree

theorem loseSession_withDue (p : Port) (e : EndCause) :
    (s.withDue d).loseSession p e = (s.loseSession p e).withDue d := by
  simp only [State.loseSession, endSession_withDue]
  rfl

theorem termExpires_withDue (l : LeaseNo) : (s.withDue d).termExpires l = (s.termExpires l).withDue d := by
  simp only [State.termExpires, lease_withDue, res_withDue, enterGrace_withDue, forcedEnd_withDue]
  split
  · split_ifs <;> simp only [grantPass_withDue]
  · rfl

/-! ### The tick at one record -/

/-- The tick at one record does not read what is still due. -/
theorem tickAt_withDue (s : State) (x : TickRef) : (s.withDue d).tickAt x = (s.tickAt x).withDue d := by
  cases x with
  | settle r =>
    simp only [State.tickAt, State.tickSettle, res_withDue, setRes_withDue, grantPass_withDue]
    split
    · split <;> rfl
    · rfl
  | lease l =>
    simp only [State.tickAt, State.tickLease, lease_withDue, setLease_withDue, termExpires_withDue, forcedEnd_withDue]
    split
    · split <;> rfl
    · split <;> rfl
    · rfl
  | promo l =>
    simp only [State.tickAt, State.tickPromo, lease_withDue, res_withDue, setLease_withDue, setRes_withDue,
      flag_withDue, grantPass_withDue]
    split
    · split
      · split <;> rfl
      · rfl
    · rfl
  | wait w =>
    simp only [State.tickAt, State.tickWait, wait_withDue, setWait_withDue, endWait_withDue, dropWait_withDue]
    split
    · split <;> rfl
    · rfl
  | live p =>
    simp only [State.tickAt, State.tickLive, session_withDue, setSession_withDue, loseSession_withDue]
    split
    · split <;> rfl
    · rfl

/-! ### The events of a countdown -/

/-- Where the lease is ACTIVE or in GRACE one of its two expiry commands reaches it, and the other finds nothing due; where
it is neither, both find a record that does not count. -/
theorem execAll_events {s : State} {x : TickRef} (hc : s.counting = true) (hx : x ∈ s.due) (hn : s.due.Nodup) :
    execAll x.events s = .next ((s.tickAt x).withDue (s.due.erase x)) := by
  have ht : s.takeDue x true = (s.tickAt x).withDue (s.due.erase x) := by
    rw [takeDue_eq hc hx]; exact tickAt_withDue _ s x
  cases x with
  | lease l =>
    have hno : ∀ b, ((s.tickAt (.lease l)).withDue (s.due.erase (.lease l))).takeDue (.lease l) b =
        (s.tickAt (.lease l)).withDue (s.due.erase (.lease l)) :=
      fun b => takeDue_of_not_due b (by simpa using hn.not_mem_erase)
    simp only [TickRef.events, execAll, exec, execTermExpiry, execGraceExpiry]
    by_cases hg : (s.lease l).inGrace = true
    · have h1 : s.takeDue (.lease l) (!(s.lease l).inGrace) = s := by simp [State.takeDue, hg]
      have h2 : (s.lease l).isActive = false := by
        cases h : (s.lease l).st <;> simp_all [Lease.inGrace, Lease.isActive]
      rw [h1, h2]
      simpa using ht
    · have h1 : (!(s.lease l).inGrace) = true := by simpa using hg
      rw [h1, ht, hno]
  | settle r => simp only [TickRef.events, execAll, exec, execSettleExpiry, ht]
  | promo l => simp only [TickRef.events, execAll, exec, execPromotionPatienceExpiry, ht]
  | wait w => simp only [TickRef.events, execAll, exec, execPatienceExpiry, ht]
  | live p => simp only [TickRef.events, execAll, exec, execLivenessExpiry, ht]

end Sys2Proof.Machine
end

