-- ==== Sys2Proof/Laws/Serve.lean ====
section
/-! SUPPORT. What the taking of a request does, said once: nothing without a request of its kind, the refusals of R129,
and otherwise the owner's effect with its response. -/

namespace Sys2Proof.Machine

/-- The owner reads and writes no link port. -/
def Owner.Local (own : Owner) : Prop :=
  ∀ (q : Port) (body : List Byte) (s : State) (p : Port) (k : Link),
    own q body (s.setLink p k) = ((own q body s).1, (own q body s).2.setLink p k)

variable {s : State} {k : Req} {own : Owner} {p : Port} {rq : Request}

theorem takeable_eq_some : s.takeable p = some rq ↔
    s.rstN = true ∧ (s.link p).responses.length < Config.queueDepth ∧ (s.link p).requests.head? = some rq := by
  simp only [State.takeable]
  split <;> simp_all

/-- A port that can take no request of the kind is left as it is. -/
theorem serve_none (h : ∀ rq, ¬ s.Taking k p rq) : s.serve k own p = s := by
  simp only [State.serve]
  split
  · rename_i rq hrq
    split
    · rename_i hc
      exact absurd ⟨(takeable_eq_some.mp hrq).1, (takeable_eq_some.mp hrq).2.1, (takeable_eq_some.mp hrq).2.2, hc⟩ (h rq)
    · rfl
  · rfl

/-- The taking of a request: its reply and the state its owner leaves, without the request and with the response. -/
theorem serve_taking (h : s.Taking k p rq) : s.serve k own p =
    (((s.popRequest p).answer k own p rq.body).2).place p rq ((s.popRequest p).answer k own p rq.body).1 := by
  have h1 : s.takeable p = some rq := takeable_eq_some.mpr ⟨h.1, h.2.1, h.2.2.1⟩
  simp only [State.serve, h1, if_pos h.2.2.2]

theorem answer_refused {r : Result} (h : s.precheck k p rq.body = some r) :
    s.answer k own p rq.body = (.refuse r, s) := by simp only [State.answer, h]

theorem answer_passed (h : s.precheck k p rq.body = none) : s.answer k own p rq.body = own p rq.body s := by
  simp only [State.answer, h]

theorem precheck_none : s.precheck k p rq.body = none ↔
    (k.supervisor = true → p = 0) ∧ (k.needsSession = true → s.attached p = true) ∧ rq.body.length = k.bodyLen := by
  simp only [State.precheck]
  constructor
  · intro h
    split at h <;> try split at h <;> try split at h
    all_goals simp_all
  · rintro ⟨h1, h2, h3⟩
    split
    · simp_all
    · split <;> simp_all

/-- A request refused by R129 leaves its response and nothing else. -/
theorem serve_refused {r : Result} (h : s.Taking k p rq) (hr : s.precheck k p rq.body = some r) :
    s.serve k own p = s.replied p rq r [] := by
  rw [serve_taking h, State.popRequest, answer_refused (by rw [precheck_setLink]; exact hr)]
  simp [State.place, State.replied, Reply.refuse, List.drop_one]

/-- A request that passes R129: its owner's effect, and the response at the tail of the response queue. -/
theorem serve_passing (h : s.Passing k p rq) (hl : own.Local) : s.serve k own p =
    (own p rq.body s).2.setLink p { s.link p with
      requests := (s.link p).requests.tail
      responses := (s.link p).responses ++
        [⟨rq.seq, rq.code, (own p rq.body s).1.result, (own p rq.body s).1.body⟩] } := by
  rw [serve_taking h.1, State.popRequest, answer_passed (by rw [precheck_setLink, precheck_none]; exact h.2), hl]
  simp [State.place, List.drop_one]

/-- The same, where the owner's effect leaves the port's link as it was. -/
theorem serve_replied (h : s.Passing k p rq) (hl : own.Local) (hk : (own p rq.body s).2.link p = s.link p) :
    s.serve k own p =
      (own p rq.body s).2.replied p rq (own p rq.body s).1.result (own p rq.body s).1.body := by
  rw [serve_passing h hl, State.replied, hk]

end Sys2Proof.Machine
end

