-- ==== Sys2Proof/Laws/Owners.lean ====
section
/-! SUPPORT. The owners that read and write no link port: all but those of EVICT and WARM_RESET. -/

namespace Sys2Proof.Machine

theorem attachOwner_local : attachOwner.Local := by
  intro q body s p k
  simp only [attachOwner, attached_setLink, endSession_setLink, State.openSession]
  split <;> rfl

theorem detachOwner_local : detachOwner.Local := by
  intro q body s p k
  simp only [detachOwner, endSession_setLink]

theorem keepaliveOwner_local : keepaliveOwner.Local := fun _ _ _ _ _ => rfl

theorem portStatusOwner_local : portStatusOwner.Local := by
  intro q body s p k
  simp only [portStatusOwner, portReport_setLink]
  split <;> rfl

theorem setQuotaOwner_local : setQuotaOwner.Local := by
  intro q body s p k
  simp only [setQuotaOwner, session_setLink, leaseUse_setLink, waitUse_setLink, setSession_setLink]
  split
  · rfl
  · split <;> rfl

theorem grantNow_setLink (s : State) (p : Port) (k : Link) (q : Port) (a : AcquireArgs) (l : LeaseNo) :
    (s.setLink p k).grantNow q a l = ((s.grantNow q a l).1, (s.grantNow q a l).2.setLink p k) := rfl

theorem enqueue_setLink (s : State) (p : Port) (k : Link) (q : Port) (a : AcquireArgs) (l : LeaseNo) (w : WaitNo) :
    (s.setLink p k).enqueue q a l w = ((s.enqueue q a l w).1, (s.enqueue q a l w).2.setLink p k) := by
  simp only [State.enqueue, res_setLink, lease_setLink, wait_setLink, setLease_setLink, setWait_setLink, setRes_setLink,
    contend_setLink]

theorem acquireWait_setLink (s : State) (p : Port) (k : Link) (q : Port) (a : AcquireArgs) (l : LeaseNo) :
    (s.setLink p k).acquireWait q a l = ((s.acquireWait q a l).1, (s.acquireWait q a l).2.setLink p k) := by
  simp only [State.acquireWait, res_setLink, session_setLink, waitUse_setLink, freeWait_setLink, enqueue_setLink]
  split
  · rfl
  · split
    · rfl
    · split
      · rfl
      · split <;> rfl

theorem acquireOwner_local : acquireOwner.Local := by
  intro q body s p k
  simp only [acquireOwner]
  split
  · rfl
  · simp only [State.acquireChecked, res_setLink, session_setLink, leaseUse_setLink, hasLiveClaim_setLink,
      freeLease_setLink, grantNow_setLink, acquireWait_setLink]
    split
    · rfl
    · split
      · rfl
      · split
        · rfl
        · split
          · rfl
          · split
            · rfl
            · split
              · rfl
              · split
                · split <;> rename_i h <;> first | exact if_pos h | exact if_neg h
                · rfl

/-- A request on a lease id is local when what it does with the lease is. -/
theorem withLease_local {own : LeaseNo → Owner} (h : ∀ l, (own l).Local) : (withLease own).Local := by
  intro q body s p k
  simp only [withLease, resolveLease_setLink]
  split
  · rfl
  · rfl
  · exact h _ q body s p k

theorem answerEnded_setLink (s : State) (p : Port) (k : Link) (q : Port) (l : LeaseNo) (c : RevokeCause) :
    (s.setLink p k).answerEnded q l c = ((s.answerEnded q l c).1, (s.answerEnded q l c).2.setLink p k) := rfl

theorem renewOwner_local : renewOwner.Local := by
  refine withLease_local fun l q body s p k => ?_
  simp only [renewLease, lease_setLink, res_setLink, answerEnded_setLink, setLease_setLink, flag_setLink]
  split
  · rfl
  · split <;> rfl
  · rfl
  · rfl

theorem releaseHolder_setLink (s : State) (p : Port) (k : Link) (q : Port) (l : LeaseNo) (r : ResNo) :
    (s.setLink p k).releaseHolder q l r = (s.releaseHolder q l r).setLink p k := by
  simp only [State.releaseHolder, lease_setLink, setLease_setLink, withdraw_setLink, leave_setLink]

theorem releaseOwner_local : releaseOwner.Local := by
  refine withLease_local fun l q body s p k => ?_
  simp only [releaseLease, lease_setLink, answerEnded_setLink, releaseHolder_setLink]
  split <;> rfl

theorem queryLeaseOwner_local : queryLeaseOwner.Local := withLease_local fun _ _ _ _ _ _ => rfl

theorem promoteNow_setLink (s : State) (p : Port) (k : Link) (l : LeaseNo) (h : Holding) (a : ActivePart) :
    (s.setLink p k).promoteNow l h a = ((s.promoteNow l h a).1, (s.promoteNow l h a).2.setLink p k) := rfl

theorem promotePending_setLink (s : State) (p : Port) (k : Link) (l : LeaseNo) (h : Holding) (a : ActivePart) (n : Half) :
    (s.setLink p k).promotePending l h a n =
      ((s.promotePending l h a n).1, (s.promotePending l h a n).2.setLink p k) := by
  simp only [State.promotePending, res_setLink, lease_setLink, setRes_setLink, setLease_setLink, contend_setLink]

theorem promoteOwner_local : promoteOwner.Local := by
  refine withLease_local fun l q body s p k => ?_
  simp only [promoteLease, lease_setLink, res_setLink, answerEnded_setLink, promoteNow_setLink, promotePending_setLink]
  split
  · rfl
  · rfl
  · split
    · rfl
    · split
      · rfl
      · split
        · split <;> simp_all
        · split <;> simp_all
  · rfl

theorem demoteNow_setLink (s : State) (p : Port) (k : Link) (l : LeaseNo) (h : Holding) (a : ActivePart) :
    (s.setLink p k).demoteNow l h a = ((s.demoteNow l h a).1, (s.demoteNow l h a).2.setLink p k) := by
  simp only [State.demoteNow, res_setLink, lease_setLink, setRes_setLink, setLease_setLink, grantPass_setLink]

theorem demoteOwner_local : demoteOwner.Local := by
  refine withLease_local fun l q body s p k => ?_
  simp only [demoteLease, lease_setLink, res_setLink, answerEnded_setLink, demoteNow_setLink]
  split
  · rfl
  · split
    · rfl
    · split <;> rfl
  · rfl
  · rfl

theorem cancelWaitOwner_local : cancelWaitOwner.Local := by
  intro q body s p k
  simp only [cancelWaitOwner, resolveWait_setLink]
  split
  · rfl
  · rfl
  · simp only [cancelNamed, wait_setLink, lease_setLink, setWait_setLink, setLease_setLink, withdraw_setLink,
      dropWait_setLink]
    split <;> rfl

theorem defineOwner_local : defineOwner.Local := by
  intro q body s p k
  simp only [defineOwner, res_setLink, setRes_setLink]
  split
  · rfl
  · split
    · rfl
    · split <;> rename_i h <;> first | exact if_pos h | exact if_neg h

theorem revoke_setLink (s : State) (p : Port) (k : Link) (r : ResNo) (g : Byte) :
    (s.setLink p k).revoke r g = (s.revoke r g).setLink p k := by
  by_cases h1 : (s.res r).holders = []
  · simp [State.revoke, h1]
  · simp only [State.revoke, res_setLink, h1, if_false]
    rw [foldl_setLink p k _ (applyRevocation_setLink p k _ _)]
    simp only [endHolders_setLink, lastHolderLeft_setLink, grantPass_setLink]
    by_cases h2 : g = 0#8 <;> by_cases h3 : (s.res r).slot.isSome = true <;> simp [h2, h3]

theorem revokeOwner_local : revokeOwner.Local := by
  intro q body s p k
  cases hr : resArg body 0 with
  | none => simp [revokeOwner, hr]
  | some r =>
    by_cases h : (s.res r).st = .undefined <;> simp [revokeOwner, hr, h, revoke_setLink]

theorem withdrawWaits_setLink (s : State) (p : Port) (k : Link) (r : ResNo) :
    (s.setLink p k).withdrawWaits r = (s.withdrawWaits r).setLink p k := by
  simp only [State.withdrawWaits, res_setLink]
  rw [foldl_setLink p k _ fun s w => endWait_setLink s p k w _ _]
  rfl

theorem retire_setLink (s : State) (p : Port) (k : Link) (r : ResNo) :
    (s.setLink p k).retire r = ((s.retire r).1, (s.retire r).2.setLink p k) := by
  simp only [State.retire, res_setLink, withdrawWaits_setLink, State.undefine]
  rw [foldl_setLink p k _ (applyRevocation_setLink p k _ _)]
  simp only [endHolders_setLink, res_setLink, setRes_setLink]
  split
  · rfl
  · split <;> rfl

theorem retireOwner_local : retireOwner.Local := by
  intro q body s p k
  simp only [retireOwner, res_setLink, retire_setLink]
  split
  · rfl
  · split
    · rfl
    · split <;> rfl

theorem queryResourceOwner_local : queryResourceOwner.Local := by
  intro q body s p k
  simp only [queryResourceOwner, resourceReport_setLink]
  split <;> rfl

theorem checkEpochOwner_local : checkEpochOwner.Local := by
  intro q body s p k
  simp only [checkEpochOwner, res_setLink]
  split <;> rfl

theorem scanOwner_local : scanOwner.Local := by
  intro q body s p k
  simp only [scanOwner, scanFirst_setLink, scanReport_setLink]
  split <;> rfl

theorem freeFetched_setLink (s : State) (p : Port) (k : Link) (x : Ref) :
    (s.setLink p k).freeFetched x = (s.freeFetched x).setLink p k := by
  cases x with
  | lease l => by_cases h : (s.lease l).isEnded = true <;> simp [State.freeFetched, h, setLease_setLink]
  | wait w => by_cases h : (s.wait w).isEnded = true <;> simp [State.freeFetched, h, setWait_setLink]
  | resource r => rfl

theorem fetchNoticeOwner_local : fetchNoticeOwner.Local := by
  intro q body s p k
  cases h : s.attn q with
  | nil => simp [fetchNoticeOwner, h]
  | cons e es => simp [fetchNoticeOwner, h, setAttn_setLink, freeFetched_setLink]

theorem bindGateOwner_local : bindGateOwner.Local := by
  intro q body s p k
  cases ha : bindArgs body with
  | none => simp [bindGateOwner, ha]
  | some a => by_cases h : s.asserted a.gate = true <;> simp [bindGateOwner, ha, h, setGate_setLink]

theorem unbindGateOwner_local : unbindGateOwner.Local := by
  intro q body s p k
  cases ha : gateArg body 0 with
  | none => simp [unbindGateOwner, ha]
  | some g => by_cases h : s.asserted g = true <;> simp [unbindGateOwner, ha, h, setGate_setLink]

theorem setTimebaseOwner_local : setTimebaseOwner.Local := by
  intro q body s p k
  by_cases h : s.timebase.mode = .running
  · simp [setTimebaseOwner, h]
  · simp only [setTimebaseOwner, timebase_setLink, h, if_false]
    rfl

theorem startTimebaseOwner_local : startTimebaseOwner.Local := fun _ _ _ _ _ => rfl

theorem haltTimebaseOwner_local : haltTimebaseOwner.Local := fun _ _ _ _ _ => rfl

end Sys2Proof.Machine
end

