-- ==== Sys2Proof/Laws/Wire.lean ====
section
/-! SUPPORT. The fields of a body: a field read from the bytes it was written as is the field, and a number written in one
byte is that number. -/

namespace Sys2Proof.Machine

theorem bytes2_join (x : Half) : (x.extractLsb' 8 8 ++ x.extractLsb' 0 8 : BitVec 16) = x := by
  ext i hi
  simp only [BitVec.getElem_append, BitVec.getElem_extractLsb']
  split
  · simp [BitVec.getLsbD_eq_getElem hi]
  · rw [show 8 + (i - 8) = i by omega, BitVec.getLsbD_eq_getElem hi]

theorem bytes4_join (x : Quad) : ((x.extractLsb' 24 8 ++ x.extractLsb' 16 8 : BitVec 16) ++
    (x.extractLsb' 8 8 ++ x.extractLsb' 0 8 : BitVec 16) : BitVec 32) = x := by
  ext i hi
  simp only [BitVec.getElem_append, BitVec.getElem_extractLsb']
  split
  · split
    · simp [BitVec.getLsbD_eq_getElem hi]
    · rw [show 8 + (i - 8) = i by omega, BitVec.getLsbD_eq_getElem hi]
  · split
    · rw [show 16 + (i - 16) = i by omega, BitVec.getLsbD_eq_getElem hi]
    · rw [show 24 + (i - 16 - 8) = i by omega, BitVec.getLsbD_eq_getElem hi]

@[simp] theorem bytes2_length (x : Half) : (bytes2 x).length = 2 := rfl
@[simp] theorem bytes4_length (x : Quad) : (bytes4 x).length = 4 := rfl

@[simp] theorem byteAt_zero (b : Byte) (bs : List Byte) : byteAt (b :: bs) 0 = b := rfl
@[simp] theorem byteAt_succ (b : Byte) (bs : List Byte) (i : Nat) : byteAt (b :: bs) (i + 1) = byteAt bs i := rfl
@[simp] theorem halfAt_succ (b : Byte) (bs : List Byte) (i : Nat) : halfAt (b :: bs) (i + 1) = halfAt bs i := rfl
@[simp] theorem quadAt_succ (b : Byte) (bs : List Byte) (i : Nat) : quadAt (b :: bs) (i + 1) = quadAt bs i := rfl

@[simp] theorem halfAt_bytes2 (x : Half) : halfAt (bytes2 x) 0 = x := bytes2_join x
@[simp] theorem halfAt_bytes2_append (x : Half) (bs : List Byte) : halfAt (bytes2 x ++ bs) 0 = x := bytes2_join x
@[simp] theorem quadAt_bytes4 (x : Quad) : quadAt (bytes4 x) 0 = x := bytes4_join x

/-- The fields after a two-byte field. -/
@[simp] theorem byteAt_bytes2_append (x : Half) (bs : List Byte) (i : Nat) :
    byteAt (bytes2 x ++ bs) (i + 2) = byteAt bs i := rfl
@[simp] theorem halfAt_bytes2_append_add (x : Half) (bs : List Byte) (i : Nat) :
    halfAt (bytes2 x ++ bs) (i + 2) = halfAt bs i := rfl

/-- A number below a bound of at most 256, written in one byte, is read back as itself. -/
theorem below_byteOf {n : Nat} (hn : n ≤ 256) (i : Fin n) : below n (byteOf i.val) = some i := by
  have h : (byteOf i.val).toNat = i.val := by
    have := i.isLt
    simp only [byteOf, BitVec.toNat_ofNat]
    omega
  simp [below, h]

@[simp] theorem below_resource (r : ResNo) : below 64 (byteOf r.val) = some r := below_byteOf (by decide) r
@[simp] theorem below_port (p : Port) : below 4 (byteOf p.val) = some p := below_byteOf (by decide) p
@[simp] theorem below_gate (g : GateNo) : below 16 (byteOf g.val) = some g := below_byteOf (by decide) g
@[simp] theorem below_lease (l : LeaseNo) : below 96 (byteOf l.val) = some l := below_byteOf (by decide) l
@[simp] theorem below_wait (w : WaitNo) : below 48 (byteOf w.val) = some w := below_byteOf (by decide) w

@[simp] theorem modeArg_value (m : Mode) : modeArg m.value = some m := by cases m <;> rfl
@[simp] theorem contendArg_flagByte (c : Bool) : contendArg (flagByte c) = some c := by cases c <;> rfl
@[simp] theorem polarityArg_value (x : Polarity) : polarityArg x.value = some x := by cases x <;> rfl

/-- The code of a request names it, and nothing else. -/
theorem ofCode_code (k : Req) : Req.ofCode k.code = some k := by cases k <;> rfl

theorem ofCode_eq_none {c : Byte} : Req.ofCode c = none ↔ ∀ k : Req, c ≠ k.code := by
  simp only [Req.ofCode, List.find?_eq_none]
  constructor
  · intro h k hk
    exact h k (by cases k <;> decide) (by simp [hk])
  · intro h k _ hk
    exact h k (by simpa using Eq.symm (by simpa using hk))

end Sys2Proof.Machine
end

