-- ==== Sys2Proof/WellFormed.lean ====
section
/-! DEFINITION. Which command terms spell a command. The bounds of ports and record numbers are in their types; two
checks remain, both about transactions. -/

namespace Sys2Proof

/-- A transaction that ends before its first byte is complete has no whole byte after its type byte (R159). -/
def CsEnd.admits (e : CsEnd) (n : Nat) : Bool := e ≠ .early ∨ n = 0

/-- The command term spells a command of the table. -/
def Instr.wellFormed : Instr → Bool
  | .submit _ bytes e => e.admits bytes.length
  | .collect _ n e => e.admits n
  | .status _ n e => e.admits n
  | .unknownTypeByte _ t n e => (TxnKind.ofByte t).isNone && e.admits n
  | _ => true

end Sys2Proof
end

