-- ==== Sys2Proof/Tests/Slice0.lean ====
section
/-! SUPPORT. Tests: ill-formed command terms, one or two single steps for each command with results read from the
spec's worked examples and tables, and a witness for the hypotheses of each obligation. -/

namespace Sys2Proof.Tests

set_option Elab.async false

open Sys2Proof Sys2Proof.Machine

/-! ### Small states -/

/-- The state a command leaves has the property. -/
def leaves (o : Next) (f : State → Bool) : Bool :=
  match o with
  | .next t => f t
  | _ => false

/-- The one response of port `p` has this result and body. -/
def answered (p : Port) (r : Result) (body : List Byte) (t : State) : Bool :=
  (t.link p).responses.map (fun x => (x.seq, x.result, x.body)) = [(7, r, body)]

/-- The list of port `p` as references and cause sets. -/
def listed (p : Port) (t : State) : List (Ref × Byte) := (t.attn p).map fun e => (e.ref, e.causes)

/-- A request of one kind with SEQ 7. -/
def sent (k : Req) (body : List Byte) : Request := ⟨7, k.code, body⟩

/-- The request stands alone in the request queue of port `p`. -/
def ask (k : Req) (p : Port) (body : List Byte) (s : State) : State :=
  s.setLink p { s.link p with requests := [sent k body] }

/-- The four ports ATTACHED in session 1 without a liveness window; the timebase RUNNING. -/
def open4 : State := { State.reset with
  sessions := Vector.replicate 4 { Session.initial with st := .attached none, number := 1 }
  timebase := ⟨.running, 10000, 0⟩ }

/-- A resource with the given share limit, grace, settle and queue limit, default term 500 and max term 2000. -/
def resource (st : ResState) (epoch : Quad) (share grace settle qlimit : Byte) (hs : List LeaseNo) (ws : List WaitNo) :
    Resource := ⟨st, ⟨3, share, 500, 2000, grace, settle, qlimit⟩, epoch, hs, ws, none, st = .retiring⟩

/-- An ACTIVE lease. -/
def active (gen : Byte) (p : Port) (r : ResNo) (m : Mode) (epoch : Quad) (left : Half) (contend : Bool := false) :
    Lease := ⟨gen, .active ⟨⟨p, r, m, contend⟩, epoch, 500, 0⟩ ⟨left, false, none⟩⟩

/-- A lease in GRACE. -/
def grace (gen : Byte) (p : Port) (r : ResNo) (m : Mode) (epoch : Quad) (left : Byte) (c : RevokeCause) : Lease :=
  ⟨gen, .grace ⟨⟨p, r, m, false⟩, epoch, 500, 0⟩ ⟨left, c, false⟩⟩

/-- An ENDED lease of mode EXCLUSIVE. -/
def ended (gen : Byte) (p : Port) (r : ResNo) (epoch : Quad) (c : RevokeCause) : Lease :=
  ⟨gen, .ended ⟨⟨p, r, .exclusive, false⟩, epoch, 500, 0⟩ c⟩

/-- A WAITING wait with its RESERVED lease, both of generation 1. -/
def waits (p : Port) (r : ResNo) (m : Mode) (patience : Half) (w : WaitNo) (l : LeaseNo) (s : State) : State :=
  (s.setWait w ⟨1, .waiting ⟨p, r, m, 0, false⟩ patience l⟩).setLease l ⟨1, .reserved ⟨p, r, m, false⟩⟩

/-- A state with a record in each situation: Rs1 FREE; Rs2 EXCLUSIVE, held by P1's L0, with P2's W0 in its queue; Rs3
SHARED, held by P1's L1 and by P2's L2 in TERM grace; Rs4 SETTLING; Rs5 RETIRING, held by P3's L5; the tombstones L4 of
P1 and W1 of P3; G0 bound to Rs2 and P1, G1 to Rs1 and P2. -/
def busy : State :=
  let s := ((((open4.setRes 1 (resource .free 7 2 20 3 2 [] [])).setRes 2 (resource .exclusive 1 0 4 0 1 [0] [0])).setRes 3
    (resource .shared 60 3 4 2 4 [1, 2] [])).setRes 4 (resource (.settling 1) 9 0 4 1 2 [] [])).setRes 5
    (resource .retiring 3 1 4 2 4 [5] [])
  let s := ((((s.setLease 0 (active 1 1 2 .exclusive 1 5 true)).setLease 1 (active 1 1 3 .shared 60 250)).setLease 2
    (grace 1 2 3 .shared 60 3 .term)).setLease 4 (ended 4 1 7 41 .term)).setLease 5 (grace 1 3 5 .exclusive 3 1 .retire)
  let s := (waits 2 2 .exclusive 1 0 3 s).setWait 1 ⟨2, .ended ⟨3, 7, .exclusive, 0, false⟩ .expired⟩
  let s := (s.setAttn 1 [⟨.lease 4, 16⟩]).setAttn 3 [⟨.wait 1, 1⟩]
  (s.setGate 0 ⟨some ⟨2, 1⟩, .activeLow⟩).setGate 1 ⟨some ⟨1, 2⟩, .activeHigh⟩

/-- `TombstoneLaw` at the waits, as a check that can be evaluated. -/
def waitTombstonesListed (s : State) : Bool :=
  (List.finRange 48).all fun w => match (s.wait w).st with
    | .ended c x => (s.attn c.port).any fun e =>
      e.ref = .wait w ∧ e.causes.getLsbD (if x = .expired then 0 else 1) = true
    | _ => true

theorem waitTombstones_law {s : State} (h : waitTombstonesListed s = true) (w : WaitNo) (c : WaitClaim)
    (x : WaitEnd) (hw : (s.wait w).st = .ended c x) :
    ∃ e ∈ s.attn c.port, e.ref = .wait w ∧ e.causes.getLsbD (if x = .expired then 0 else 1) = true := by
  have h := List.all_eq_true.mp h w (List.mem_finRange w)
  rw [hw] at h
  simpa using h

theorem busy_inv : busy.Inv where
  holders := by decide +kernel
  queues := by decide +kernel
  reserves := by decide +kernel
  claims := by decide +kernel
  agreement := by decide +kernel
  epochs := by decide +kernel
  slots := by decide +kernel
  lists := by decide +kernel
  tombstones := ⟨by decide +kernel, waitTombstones_law (by decide +kernel)⟩
  sessions := by decide +kernel
  links := by decide +kernel
  timebase := by decide +kernel
  quotas := by decide +kernel
  ranges := by decide +kernel
  generations := by decide +kernel
  counts := by decide +kernel
  due := by decide +kernel

/-! ### Ill-formed command terms -/

theorem test_wf_submit_early : (Instr.submit 0 [1] .early).wellFormed = false := by decide
theorem test_wf_collect_early : (Instr.collect 0 1 .early).wellFormed = false := by decide
theorem test_wf_status_early : (Instr.status 0 1 .early).wellFormed = false := by decide
theorem test_wf_unknown_early : (Instr.unknownTypeByte 0 0x00 1 .early).wellFormed = false := by decide
theorem test_wf_unknown_known :
    [0xA1, 0xA2, 0xA3].all (fun t => !(Instr.unknownTypeByte 0 t 0 .held).wellFormed) = true := by decide
theorem test_wf_accepts : (Instr.submit 0 [] .early).wellFormed = true
    ∧ (Instr.unknownTypeByte 0 0xA4 3 (.rise true)).wellFormed = true := by decide

/-! ### The session unit -/

/-- Section 8.10, step 6. -/
theorem test_attach : leaves (execAttach 2 (ask .attach 2 [0, 3]
      (open4.setSession 2 ⟨.lost, 7, 3, 24, 12, .silent⟩)))
    (fun t => answered 2 .done [0, 8, 0, 3, 24, 12, 0, 2] t && t.attached 2) = true := by decide +kernel

/-- R131: prior-session flag set, last end cause REATTACH (value 4), queues left as they stand. -/
theorem test_attach_again : leaves (execAttach 1 (ask .attach 1 [0, 0] open4))
    (answered 1 .done [0, 2, 0, 0, 24, 12, 1, 4]) = true := by decide +kernel

/-- R134, R137 at Rs2: the last holder leaves with settle 0, so Rs2 becomes FREE and P2's wait is granted, epoch 2. -/
theorem test_detach : leaves (execDetach 1 (ask .detach 1 []
      ((busy.setRes 3 (resource .shared 60 3 4 2 4 [2] [])).setLease 1 ⟨1, .free⟩))) (fun t =>
    answered 1 .done [] t && (t.res 2).holders = [3] && (t.res 2).epoch = 2 && (t.lease 4).isFree) = true := by
  decide +kernel

/-- R133: the low byte of the session number and the window. -/
theorem test_keepalive : leaves (execKeepalive 3 (ask .keepalive 3 []
      (open4.setSession 3 ⟨.attached (some 40), 0x0107, 100, 24, 12, .none⟩)))
    (answered 3 .done [7, 0, 100]) = true := by decide +kernel

/-- Table 8-4 with R143: a port after cold reset, asked by a port that is not ATTACHED. -/
theorem test_portStatus : leaves (execPortStatus 1 (ask .portStatus 1 [3] State.reset))
    (answered 1 .done [3, 0, 0, 0, 0, 0, 0, 0, 24, 12, 0, 0, 0, 0, 0, 0, 0]) = true := by decide +kernel

/-- R139: both quotas before and after, lease use and wait use of the named port. -/
theorem test_setQuota : leaves (execSetQuota 0 (ask .setQuota 0 [2, 0, 48] busy)) (fun t =>
    answered 0 .done [24, 12, 0, 48, 2, 1] t && (t.lease 2).ownedBy 2) = true := by decide +kernel

/-- Section 8.10: the session number and the counts of P3's freed records; the state and the end cause of R135. -/
theorem test_evict : leaves (execEvict 0 (ask .evict 0 [3] busy)) (fun t =>
    answered 0 .done [0, 1, 1, 1] t && (t.session 3).st = .lost && (t.session 3).lastEnd = .evicted) = true := by
  decide +kernel

/-- R20, R141, R142: Rs2 with settle 0 becomes FREE, Rs3 SETTLING, Rs5 UNDEFINED; P0 has the one DONE. -/
theorem test_warmReset : leaves (execWarmReset 0 (ask .warmReset 0 [] busy)) (fun t =>
    answered 0 .done [] t && (t.res 2).st = .free && (t.res 3).st = .settling 2 && (t.res 5).st = .undefined
      && (t.session 0).lastEnd = .warmReset) = true := by decide +kernel

/-- R163: code 0x00 names no request and is answered before any check. -/
theorem test_unknownRequest : leaves (execUnknownRequest 3 (State.reset.setLink 3 { State.reset.link 3 with
      requests := [⟨7, 0, [1, 2]⟩] })) (answered 3 .unknownRequest []) = true := by decide +kernel

/-! ### The lease pool and the wait queues -/

/-- Section 2.10, step 1: epoch 40 rises to 41, generation 3 to 4. -/
theorem test_acquire_granted : leaves (execAcquire 2 (ask .acquire 2 [5, 1, 0, 3, 0, 0, 0]
      ((open4.setRes 5 (resource .free 40 0 2 1 0 [] [])).setLease 0 ⟨3, .free⟩)))
    (fun t => answered 2 .done [0, 4, 0, 0, 0, 41, 0, 3] t && (t.res 5).st = .exclusive) = true := by decide +kernel

/-- Section 3.11, step 1: QUEUED at position 1, and CONTENDED on the holder that asked for it. -/
theorem test_acquire_queued : leaves (execAcquire 1 (ask .acquire 1 [20, 2, 0, 0, 0, 100, 0]
      ((open4.setRes 20 (resource .exclusive 15 3 10 2 6 [3] [])).setLease 3 (active 5 3 20 .exclusive 15 9 true))))
    (fun t => answered 1 .queued [0, 1, 1] t && listed 3 t = [(.lease 3, 2)] && (t.lease 0).isReserved) = true := by
  decide +kernel

/-- Section 2.10, step 5: the rescue of a lease in TERM grace, with LATE. -/
theorem test_renew_rescues : leaves (execRenew 2 (ask .renew 2 [6, 4, 0, 3]
      (((open4.setRes 5 (resource .exclusive 41 0 2 1 0 [6] [])).setLease 6 (grace 4 2 5 .exclusive 41 2 .term)).setAttn
        2 [⟨.lease 6, 4⟩])))
    (fun t => answered 2 .done [0, 3, 1] t && listed 2 t = [(.lease 6, 12)]) = true := by decide +kernel

/-- Section 5.7, step 2: SUPERVISOR grace is not rescued. -/
theorem test_renew_revoking : leaves (execRenew 2 (ask .renew 2 [2, 1, 0, 0]
      (busy.setLease 2 (grace 1 2 3 .shared 60 3 .supervisor)))) (answered 2 .revoking []) = true := by decide +kernel

/-- Section 1.9, step 6: the last holder leaves, and Rs12 settles for 3. -/
theorem test_release : leaves (execRelease 2 (ask .release 2 [9, 1]
      ((open4.setRes 12 (resource .shared 8 2 20 3 2 [9] [])).setLease 9 (active 1 2 12 .shared 8 100))))
    (fun t => answered 2 .done [] t && (t.res 12).st = .settling 3 && (t.lease 9).isFree) = true := by decide +kernel

/-- Section 2.10, step 12: a tombstone is answered ENDED, freed, and its entry withdrawn. -/
theorem test_release_ended : leaves (execRelease 1 (ask .release 1 [4, 4] busy))
    (fun t => answered 1 .ended [1, 1] t && t.attn 1 = [] && t.lease 4 = ⟨4, .free⟩) = true := by decide +kernel

/-- Table 11-4: id, state, resource, mode, epoch, terms, grace, causes, renews, flags, promotion patience. -/
theorem test_queryLease : leaves (execQueryLease 1 (ask .queryLease 1 [0, 1] busy))
    (answered 1 .done [0, 1, 1, 2, 1, 0, 0, 0, 1, 1, 244, 0, 5, 0, 0, 0, 0, 0, 1, 0, 0, 0]) = true := by decide +kernel

/-- Section 4.5, step 1: PENDING with one other holder, which is flagged CONTENDED. -/
theorem test_promote : leaves (execPromote 1 (ask .promote 1 [10, 1, 0, 30]
      (((open4.setRes 30 (resource .shared 100 3 5 2 4 [10, 11] [])).setLease 10 (active 1 1 30 .shared 100 9)).setLease
        11 (active 1 2 30 .shared 100 9 true))))
    (fun t => answered 1 .pending [1] t && (t.res 30).slot = some 10 && listed 2 t = [(.lease 11, 2)]
      && listed 1 t = []) = true := by decide +kernel

/-- Section 4.5, step 6: epoch 102, and the grant pass grants the SHARED head. -/
theorem test_demote : leaves (execDemote 1 (ask .demote 1 [10, 1]
      (waits 3 30 .shared 49 4 12 ((open4.setRes 30 (resource .exclusive 101 3 5 2 4 [10] [4])).setLease 10
        (active 1 1 30 .exclusive 101 9)))))
    (fun t => answered 1 .done [0, 0, 0, 102] t && (t.res 30).holders = [10, 12] && listed 3 t = [(.lease 12, 1)]) =
      true := by decide +kernel

/-- Section 3.11: CANCEL_WAIT of the head while Rs20 settles. -/
theorem test_cancelWait : leaves (execCancelWait 1 (ask .cancelWait 1 [0, 1]
      (waits 1 20 .shared 99 0 0 (waits 2 20 .shared 99 1 1 (open4.setRes 20
        (resource (.settling 1) 15 3 10 2 6 [] [0, 1]))))))
    (fun t => answered 1 .done [] t && (t.wait 0).isFree && (t.lease 0).isFree && (t.res 20).queue = [1]) = true := by
  decide +kernel

/-! ### The resource table and the notices -/

/-- Table 1-6: Rs3 with its two holders, read by a port. -/
theorem test_queryResource : leaves (execQueryResource 0 (ask .queryResource 0 [3] busy))
    (answered 0 .done [3, 3, 3, 3, 1, 244, 7, 208, 4, 2, 4, 0, 0, 0, 60, 2, 1, 2, 1, 0, 2, 2, 2, 1, 0, 255, 0, 0, 255, 0])
    = true := by decide +kernel

/-- Section 1.9: CHECK_EPOCH of the epoch that stands is CURRENT. -/
theorem test_checkEpoch : leaves (execCheckEpoch 3 (ask .checkEpoch 3 [3, 0, 0, 0, 60] busy))
    (answered 3 .done [0, 0, 0, 0, 60]) = true := by decide +kernel

/-- R18: the first resource from Rs2 on that P2 holds is Rs3. -/
theorem test_scan : leaves (execScan 0 (ask .scan 0 [2, 4, 0, 0, 2, 0] busy))
    (answered 0 .done [1, 3, 3, 3, 0, 0, 0, 60, 2, 0]) = true := by decide +kernel

/-- Section 1.9, step 1: the epoch of the earlier life is kept. -/
theorem test_define : leaves (execDefine 0 (ask .define 0 [12, 3, 2, 1, 244, 7, 208, 20, 3, 2]
      (open4.setRes 12 ⟨.undefined, .cleared, 7, [], [], none, false⟩)))
    (fun t => answered 0 .done [12, 0, 0, 0, 7] t && (t.res 12).st = .free) = true := by decide +kernel

/-- Section 5.7, step 4 at a resource of its shape: 1 wait withdrawn, 2 leases draining. -/
theorem test_retire : leaves (execRetire 0 (ask .retire 0 [3] (waits 3 3 .exclusive 89 6 22
      (busy.setRes 3 (resource .shared 60 3 4 2 4 [1, 2] [6])))))
    (fun t => answered 0 .pending [1, 2] t && (t.res 3).st = .retiring && listed 3 t = [(.wait 1, 1), (.wait 6, 2)]) =
      true := by decide +kernel

/-- Section 5.7, step 1: the grace of the resource, 4; the remaining 3 of the lease in grace is the lesser. -/
theorem test_revoke : leaves (execRevoke 0 (ask .revoke 0 [3, 255] busy)) (fun t => answered 0 .done [2] t
    && t.lease 1 = grace 1 1 3 .shared 60 4 .supervisor && t.lease 2 = grace 1 2 3 .shared 60 3 .supervisor) = true := by
  decide +kernel

/-- Section 9.7, step 7: the fetch of a tombstone frees it. -/
theorem test_fetchNotice : leaves (execFetchNotice 1 (ask .fetchNotice 1 [] busy))
    (fun t => answered 1 .done ([1, 4, 16, 0]
      ++ [4, 4, 3, 7, 1, 0, 0, 0, 41, 1, 244, 0, 0, 0, 1, 1, 0, 0, 0, 0, 0, 0]) t && t.lease 4 = ⟨4, .free⟩
      && !t.attnLow 1) = true := by decide +kernel

/-! ### The gate unit and the timebase -/

/-- Section 7.7, step 1: the output rises to the inactive level of ACTIVE_LOW. -/
theorem test_bindGate : leaves (execBindGate 0 (ask .bindGate 0 [4, 3, 1, 1] open4))
    (fun t => answered 0 .done [0, 0, 0, 0, 1, 3, 1, 1, 0] t && t.gateLevel 4 = .high) = true := by decide +kernel

/-- Section 7.7, step 5: an asserted gate keeps its binding. -/
theorem test_unbindGate : leaves (execUnbindGate 0 (ask .unbindGate 0 [0] busy))
    (fun t => answered 0 .state [] t && t.gateLevel 0 = .low) = true := by decide +kernel

/-- Section 6.7, step 6: field 19,999, divider 20,000. -/
theorem test_setTimebase : leaves (execSetTimebase 0 (ask .setTimebase 0 [0x4E, 0x1F]
      { open4 with timebase := ⟨.halted, 10000, 77⟩ }))
    (fun t => answered 0 .done [0, 0, 0x4E, 0x1F] t && t.timebase.divider = 20000) = true := by decide +kernel

/-- Section 6.7, step 7: the prescaler count restarts at 0. -/
theorem test_startTimebase : leaves (execStartTimebase 0 (ask .startTimebase 0 []
      { open4 with timebase := ⟨.halted, 20000, 77⟩ }))
    (fun t => answered 0 .done [0, 1, 0x4E, 0x1F] t && t.timebase = ⟨.running, 20000, 0⟩) = true := by decide +kernel

/-- Section 6.7, step 2: RUNNING before, HALTED after, divider 10,000 reported as 9,999. -/
theorem test_haltTimebase : leaves (execHaltTimebase 0 (ask .haltTimebase 0 [] open4))
    (fun t => answered 0 .done [1, 0, 0x27, 0x0F] t && t.timebase.mode = .halted) = true := by decide +kernel

/-- R112: the tick taken before the halt reaches the settle of 1, and Rs4 is FREE when the timebase halts. -/
theorem test_haltTimebase_ends_tick :
    leaves (execHaltTimebase 0 (ask .haltTimebase 0 [] { busy with due := [.settle 4] }))
      (fun t => (t.res 4).st = .free && t.due = [] && t.timebase.mode = .halted) = true := by decide +kernel

/-- R109: while the timebase is HALTED a settle of 1 stands, whatever is commanded. -/
theorem test_settleExpiry_halted :
    leaves (execSettleExpiry 4 { busy with due := [.settle 4], timebase := ⟨.halted, 10000, 0⟩ })
      (fun t => (t.res 4).st = .settling 1) = true := by decide +kernel

/-- R105: the period that reaches the divider produces the tick and returns the count to 0. -/
theorem test_refclkPeriod : leaves (execRefclkPeriod { busy with timebase := ⟨.running, 3, 2⟩ })
    (fun t => t.timebase.prescaler = 0 && t.lease 1 = active 1 1 3 .shared 60 249) = true := by decide +kernel

/-- Section 6.7, step 1: the counts fall at one tick; the settle of 1 is due. -/
theorem test_tick : leaves (execTick busy) (fun t => t.lease 0 = active 1 1 2 .exclusive 1 4 true
    && t.lease 2 = grace 1 2 3 .shared 60 2 .term && t.due = [.settle 4, .lease 5, .wait 0]) = true := by decide +kernel

/-- R108: a tick that reaches L2 later leaves its grace of 3 for an event of its own, which lowers it to 2. -/
theorem test_tick_late :
    leaves (execTick { busy with late := [[.lease 2]] }) (fun t => t.lease 2 = grace 1 2 3 .shared 60 3 .term
        && t.due = [.settle 4, .lease 2, .lease 5, .wait 0] && t.late = []) = true
    ∧ leaves (execGraceExpiry 2 { busy with due := [.lease 2] })
        (fun t => t.lease 2 = grace 1 2 3 .shared 60 2 .term && t.due = []) = true := by decide +kernel

/-- Section 1.9, step 9: settle expires, and the grant pass grants the head with epoch 9. -/
theorem test_settleExpiry : leaves (execSettleExpiry 12 { waits 3 12 .exclusive 47 2 15 (open4.setRes 12
      (resource (.settling 1) 8 2 20 3 2 [] [2])) with due := [.settle 12] })
    (fun t => (t.res 12).st = .exclusive && (t.res 12).epoch = 9 && (t.res 12).holders = [15]
      && listed 3 t = [(.lease 15, 1)]) = true := by decide +kernel

/-- Section 2.10, step 4: TERM grace of 2 with REVOKE_PENDING. -/
theorem test_termExpiry : leaves (execTermExpiry 6 { (open4.setRes 5 (resource .exclusive 41 0 2 1 0 [6] [])).setLease 6
      (active 4 2 5 .exclusive 41 1) with due := [.lease 6] })
    (fun t => t.lease 6 = grace 4 2 5 .exclusive 41 2 .term && listed 2 t = [(.lease 6, 4)]) = true := by decide +kernel

/-- Section 2.10, step 11: the forced end, REVOKED, and Rs5 SETTLING. -/
theorem test_graceExpiry : leaves (execGraceExpiry 6 { ((open4.setRes 5 (resource .exclusive 41 0 2 1 0 [6] [])).setLease
      6 (grace 4 2 5 .exclusive 41 1 .term)).setAttn 2 [⟨.lease 6, 4⟩] with due := [.lease 6] })
    (fun t => t.lease 6 = ended 4 2 5 41 .term && listed 2 t = [(.lease 6, 20)] && (t.res 5).st = .settling 1) =
      true := by decide +kernel

/-- Section 3.11, step 7: the wait is a tombstone, its reserved lease FREE. -/
theorem test_patienceExpiry : leaves (execPatienceExpiry 0 { busy with due := [.wait 0] })
    (fun t => (t.wait 0).isEnded && (t.lease 3).isFree && (t.res 2).queue = [] && listed 2 t = [(.wait 0, 1)]) =
      true := by decide +kernel

/-- Section 4.5: the slot empties with PROMOTE_ENDED, and the head is granted as a third reader under epoch 100. -/
theorem test_promotionPatienceExpiry : leaves (execPromotionPatienceExpiry 10 { waits 3 30 .shared 20 4 12
      (((open4.setRes 30 { resource .shared 100 3 5 2 4 [10, 11] [4] with slot := some 10 }).setLease 10
        ⟨1, .active ⟨⟨1, 30, .shared, false⟩, 100, 500, 0⟩ ⟨9, false, some 1⟩⟩).setLease 11
          (active 1 2 30 .shared 100 9 true)) with due := [.promo 10] })
    (fun t => (t.res 30).slot = none && (t.res 30).holders = [10, 11, 12] && (t.res 30).epoch = 100
      && listed 1 t = [(.lease 10, 64)]) = true := by decide +kernel

/-- Section 8.10, step 3: LOST with last end cause SILENT, the queues empty. -/
theorem test_livenessExpiry : leaves (execLivenessExpiry 3 { (ask .keepalive 3 [] busy).setSession 3
      ⟨.attached (some 1), 7, 3, 24, 12, .none⟩ with due := [.live 3] })
    (fun t => (t.session 3).st = .lost && (t.session 3).lastEnd = .silent && (t.link 3).requests = []
      && t.leaseUse 3 = 0) = true := by decide +kernel

/-! ### The link ports and the pins -/

/-- R162 by hand for one byte: 0xFF exclusive-or 0xFF is 0 and stays 0; 0xFF exclusive-or 0xFE is 1, which seven shifts
bring to 0x80 and the eighth to 0x07. -/
theorem test_crc8 : crc8 [0xFF] = 0x00 ∧ crc8 [0xFE] = 0x07 := by decide +kernel

/-- R161: at step 4 the request joins the queue; at step 1 there are no bytes after the type byte. -/
theorem test_submit : leaves (execSubmit 3 ([7, 0x03, 0] ++ [crc8 [7, 0x03, 0]]) (.rise false) open4)
      (fun t => (t.link 3).requests = [sent .keepalive []] && !(t.link 3).badFrame) = true
    ∧ leaves (execSubmit 3 [] (.rise false) open4) (fun t => (t.link 3).requests = [] && (t.link 3).badFrame) = true := by
  decide +kernel

/-- R160: with LEN 0 the fifth byte is counted and not stored. -/
theorem test_submit_stores : leaves (execSubmit 3 [7, 3, 0, 1, 2] .held open4)
    (fun t => (t.link 3).txn = .receiving [7, 3, 0, 1] 5) = true := by decide +kernel

/-- A port with one KEEPALIVE response waiting. -/
def replying : State := open4.setLink 3 { open4.link 3 with responses := [⟨7, 0x03, .done, [1, 0, 100]⟩] }

/-- Section 10.8, step 7: CS_N raised after 3 bytes leaves the response at the head. -/
theorem test_collect_short : leaves (execCollect 3 3 (.rise false) replying)
    (fun t => (t.link 3).responses.length = 1 && (t.link 3).shifted = [0xA4, 7, 0x03, 0x00]) = true := by decide +kernel

/-- Section 10.8, step 8: all 8 bytes remove it. -/
theorem test_collect_whole : leaves (execCollect 3 8 (.rise false) replying)
    (fun t => (t.link 3).responses = [] && (t.link 3).shifted.length = 9) = true := by decide +kernel

/-- Section 10.8, step 6: ATTACHED, RSP_READY, REFUSED and 0 slots read 0xB0; REFUSED is cleared. -/
theorem test_status : leaves (execStatus 3 0 (.rise false) (replying.setLink 3 { replying.link 3 with
      refused := true, requests := List.replicate 4 (sent .keepalive []) }))
    (fun t => (t.link 3).shifted = [0xB0] && !(t.link 3).refused) = true := by decide +kernel

/-- R159: BADFRAME is set at the completion of the type byte. -/
theorem test_unknownTypeByte : leaves (execUnknownTypeByte 1 0x00 2 (.rise false) open4)
    (fun t => (t.link 1).badFrame && (t.link 1).shifted = [0x84, 0xFF, 0xFF]) = true := by decide +kernel

/-- R157, R158: the status byte of a fresh port is 0x04; it stands in OPENING. -/
theorem test_csNFall : leaves (execCsNFall 0 State.reset)
    (fun t => (t.link 0).txn = .opening 0x04 && (t.link 0).misoDriven) = true := by decide +kernel

/-- R166: COLLECT with no response sends the empty frame, RESULT 0xFF. -/
theorem test_firstByte : leaves (execFirstByteCompletion 0 0xA2 (State.reset.setLink 0
      { State.reset.link 0 with txn := .opening 0x04, csLow := true }))
    (fun t => (t.link 0).txn = .sending (.empty ([0, 0, 0xFF, 0] ++ [crc8 [0, 0, 0xFF, 0]])) 0) = true := by
  decide +kernel

/-- Section 7.7: with GATE_OE_N high the outputs float, the gate stays asserted. -/
theorem test_gateOeN : leaves (execGateOeNChange true busy)
    (fun t => t.gateLevel 0 = .highZ && t.asserted 0) = true := by decide +kernel

/-- R19, R143, R118: records at their initial values, outputs floating while RST_N is low. -/
theorem test_coldReset : leaves (execColdReset busy)
    (fun t => (t.res 3).epoch = 0 && t.session 1 = Session.initial && t.gateLevel 0 = .highZ) = true := by decide +kernel

/-- R125: from the rise of RST_N on the unbound gates drive low. -/
theorem test_rstNRise : leaves (execRstNRise { State.reset with rstN := false })
    (fun t => t.gateLevel 15 = .low && t.statusByte 0 = 0x04) = true := by decide +kernel


/-! ### Witnesses: the hypotheses of the obligations are met -/

/-! #### The machine as a whole -/

theorem witness_StepTakesFront : ({ State.reset with pending := [.tick] } : State).pending = [.tick]
    ∧ State.reset.pending = [] := ⟨rfl, rfl⟩

theorem witness_ColdResetAndRise : busy.gateOeN = false ∧ { busy with gateOeN := true }.gateOeN = true := ⟨rfl, rfl⟩

theorem witness_GateEnableOverrides : busy.rstN = true ∧ busy.asserted 0 = true ∧ busy.asserted 1 = false := by
  decide +kernel

theorem witness_GateDrive : ({ busy with rstN := false } : State).rstN = false
    ∧ ({ busy with gateOeN := true } : State).gateOeN = true
    ∧ (busy.rstN = true ∧ busy.gateOeN = false ∧ busy.asserted 0 = true)
    ∧ (busy.rstN = true ∧ busy.gateOeN = false ∧ busy.asserted 15 = false ∧ (busy.gate 15).binding = none) := by
  decide +kernel

/-- `busy` with G15 bound to Rs2 and P1 as well, and P0 without a session, G14 bound to Rs2 and P0. -/
def gated : State :=
  ((busy.setGate 15 ⟨some ⟨2, 1⟩, .activeHigh⟩).setGate 14 ⟨some ⟨2, 0⟩, .activeLow⟩).setSession 0 .initial

theorem gated_inv : gated.Inv where
  holders := busy_inv.holders
  queues := busy_inv.queues
  reserves := busy_inv.reserves
  claims := busy_inv.claims
  agreement := busy_inv.agreement
  epochs := busy_inv.epochs
  slots := busy_inv.slots
  lists := busy_inv.lists
  tombstones := busy_inv.tombstones
  sessions := by decide +kernel
  links := busy_inv.links
  timebase := busy_inv.timebase
  quotas := by decide +kernel
  ranges := busy_inv.ranges
  generations := busy_inv.generations
  counts := ⟨busy_inv.counts.1, busy_inv.counts.2.1, by decide +kernel⟩
  due := busy_inv.due

/-- One clause each: two ports' gates asserted at an EXCLUSIVE resource; a gate at a resource without holder; a gate of a
port without session. -/
theorem witness_GatesFollowHolders : gated.Inv
    ∧ ((gated.gate 0).binding = some ⟨2, 1⟩ ∧ (gated.gate 15).binding = some ⟨2, 1⟩ ∧ (gated.res 2).st = .exclusive
      ∧ gated.asserted 0 = true ∧ gated.asserted 15 = true)
    ∧ ((gated.gate 1).binding = some ⟨1, 2⟩ ∧ (gated.res 1).holders = [])
    ∧ ((gated.gate 14).binding = some ⟨2, 0⟩ ∧ gated.attached 0 = false) :=
  ⟨gated_inv, by decide +kernel, by decide +kernel, by decide +kernel⟩

/-! #### The link ports -/

/-- `open4` with port `p` in the given transaction, CS_N low. -/
def within (p : Port) (x : Txn) (s : State) : State := s.setLink p { s.link p with txn := x, csLow := true }

/-- `open4` with port `p` holding `n` requests. -/
def stocked (p : Port) (n : Nat) (s : State) : State :=
  s.setLink p { s.link p with requests := List.replicate n (sent .keepalive []) }

theorem witness_StatusByteFormed :
    (((stocked 1 4 open4).link 1).requests.length ≤ 4 ∧ open4.rstN = true ∧ ((stocked 1 4 open4).link 1).csLow = false)
    ∧ (({ open4 with rstN := false } : State).link 1).csLow = false
    ∧ ((within 1 .idle open4).link 1).csLow = true
    ∧ (busy.attn 3 ≠ [] ∧ ((within 1 (.opening 0x84) open4).link 1).txn ≠ .idle) := by decide +kernel

theorem witness_FirstByteDecides : open4.rstN = true ∧ ((within 1 (.opening 0x84) open4).link 1).txn = .opening 0x84
    ∧ ((within 3 (.opening 0xA4) replying).link 3).responses = [⟨7, 0x03, .done, [1, 0, 100]⟩]
    ∧ ((within 1 (.opening 0x84) open4).link 1).responses = [] ∧ ((0xA4 : Byte) ≠ 0xA1 ∧ (0xA4 : Byte) ≠ 0xA2
      ∧ (0xA4 : Byte) ≠ 0xA3) := by decide +kernel

theorem witness_FirstByteDecides_not_opening (b : Byte) : (open4.link 1).txn ≠ .opening b := nofun

/-- Body lengths 0 and 24. -/
theorem witness_SubmittedFrameReceived : open4.rstN = true ∧ (open4.link 1).txn = .idle ∧ (open4.link 1).csLow = false
    ∧ (⟨0, 0xFF, []⟩ : Request).body.length ≤ 24 ∧ (⟨0, 0xFF, List.replicate 24 9⟩ : Request).body.length ≤ 24 := by
  decide +kernel

/-- Malformed: two bytes, LEN 25, a cut byte, a byte too many. Well formed: LEN 24 with a wrong and with a right check
byte, before a full queue and before a queue of 3. -/
theorem witness_SubmitJudged :
    ((within 1 (.receiving [] 0) open4).rstN = true ∧ ((within 1 (.receiving [] 0) open4).link 1).txn = .receiving [] 0)
    ∧ ([7, 3] : List Byte).length < 3 ∧ 24 < (([7, 3, 25] : List Byte).getD 2 0).toNat
    ∧ ([7, 3, 0, 1, 2] : List Byte).length ≠ (([7, 3, 0, 1, 2] : List Byte).getD 2 0).toNat + 4
    ∧ (let bytes : List Byte := [7, 3, 24] ++ List.replicate 25 1
      bytes.length = (bytes.getD 2 0).toNat + 4 ∧ bytes.getD 27 0 ≠ crc8 (bytes.take 27))
    ∧ (let bytes : List Byte := [7, 3, 0, crc8 [7, 3, 0]]
      bytes.length = (bytes.getD 2 0).toNat + 4 ∧ bytes.getD 3 0 = crc8 (bytes.take 3))
    ∧ 4 ≤ ((within 1 (.receiving [] 0) (stocked 1 4 open4)).link 1).requests.length
    ∧ ((within 1 (.receiving [] 0) (stocked 1 3 open4)).link 1).requests.length < 4 := by decide +kernel

theorem witness_CollectDelivers : replying.rstN = true ∧ (replying.link 3).txn = .idle
    ∧ (replying.link 3).csLow = false ∧ (replying.link 3).responses = [⟨7, 0x03, .done, [1, 0, 100]⟩]
    ∧ (open4.link 3).responses = [] ∧ ([1, 0, 100] : List Byte).length + 5 ≤ 8
    ∧ ¬ ([1, 0, 100] : List Byte).length + 5 ≤ 7
    ∧ ((within 3 (.sending .gone 2) replying).link 3).txn = .sending .gone 2 := by decide +kernel

theorem witness_StatusIsItsByte : open4.rstN = true ∧ (open4.link 3).txn = .idle ∧ (open4.link 3).csLow = false := by
  decide +kernel

theorem witness_UnknownTypeSetsBadFrame : open4.rstN = true ∧ (open4.link 0).txn = .idle
    ∧ (open4.link 0).csLow = false ∧ ((0xA0 : Byte) ≠ 0xA1 ∧ (0xA0 : Byte) ≠ 0xA2 ∧ (0xA0 : Byte) ≠ 0xA3) := by
  decide +kernel

theorem witness_TransactionsCompose : open4.rstN = true ∧ (open4.link 2).txn = .idle ∧ (open4.link 2).csLow = false
    ∧ CsEnd.held ≠ .early ∧ CsEnd.rise true ≠ .early ∧ ((0xFF : Byte) ≠ 0xA1 ∧ (0xFF : Byte) ≠ 0xA2
      ∧ (0xFF : Byte) ≠ 0xA3) := by decide +kernel

theorem witness_CheckByteDetects : (0 : Byte) ≠ 1 := by decide

/-! #### Taking requests -/

/-- Port `p` has 4 responses to be collected. -/
def stalled (p : Port) (s : State) : State :=
  s.setLink p { s.link p with responses := List.replicate 4 ⟨7, 0x03, .done, []⟩ }

theorem witness_TakingNeedsItsRequest :
    (({ open4 with rstN := false } : State).rstN = false ∧ 4 ≤ ((stalled 1 open4).link 1).responses.length
      ∧ (open4.link 1).requests = [])
    ∧ ((((ask .attach 1 [0, 0] open4).link 1).requests.head? = some (sent .attach [0, 0])
      ∧ (sent .attach [0, 0]).code ≠ Req.detach.code))
    ∧ (open4.rstN = true ∧ (open4.link 1).responses.length < 4 ∧ ∀ k ∈ Req.all, (0x4B : Byte) ≠ k.code) := by
  decide +kernel

/-- Each step of R129 with the steps before it passed. -/
theorem witness_AuthoritySessionLength :
    ((ask .define 3 [] State.reset).Taking .define 3 (sent .define [])
      ∧ Req.define ∈ [Req.define, .retire, .revoke, .setQuota, .bindGate, .unbindGate, .setTimebase, .startTimebase,
        .haltTimebase, .evict, .warmReset])
    ∧ ((ask .define 0 [] State.reset).Taking .define 0 (sent .define []) ∧ State.reset.attached 0 = false)
    ∧ ((ask .attach 3 [0] State.reset).Taking .attach 3 (sent .attach [0]) ∧ [(0 : Byte)].length ≠ Req.attach.bodyLen
      ∧ Req.attach ∈ [Req.attach, .queryResource, .checkEpoch, .scan, .portStatus])
    ∧ ((ask .detach 3 [0] open4).Taking .detach 3 (sent .detach [0]) ∧ open4.attached 3 = true
      ∧ [(0 : Byte)].length ≠ Req.detach.bodyLen) := by decide +kernel

theorem witness_OneResponseEach :
    ((ask .detach 3 [] open4).Taking .detach 3 (sent .detach []) ∧ Req.detach ≠ .evict ∧ Req.detach ≠ .warmReset)
    ∧ ((ask .haltTimebase 0 [] busy).Taking .haltTimebase 0 (sent .haltTimebase []) ∧ busy.due = []) := by
  decide +kernel

/-- For each range of R173 a body just outside it, of the right length. -/
theorem witness_FieldRanges :
    ([(Req.acquire, [64, 1, 0, 0, 0, 0, 0]), (.queryResource, [64]), (.checkEpoch, [64, 0, 0, 0, 0]),
      (.scan, [64, 0, 0, 0, 0, 0]), (.define, [64, 0, 0, 0, 1, 0, 1, 0, 0, 0]), (.retire, [64]), (.revoke, [64, 0]),
      (.portStatus, [4]), (.setQuota, [4, 0, 0]), (.evict, [4]), (.bindGate, [16, 0, 0, 0]), (.unbindGate, [16]),
      (.acquire, [0, 3, 0, 0, 0, 0, 0]), (.acquire, [0, 0, 0, 0, 0, 0, 0]), (.acquire, [0, 1, 0, 0, 0, 0, 2]),
      (.bindGate, [0, 64, 0, 0]), (.bindGate, [0, 0, 4, 0]), (.bindGate, [0, 0, 0, 2]), (.setQuota, [0, 97, 0]),
      (.setQuota, [0, 0, 49]), (.evict, [0]), (.define, [0, 16, 0, 0, 1, 0, 1, 0, 0, 0]),
      (.define, [0, 0, 5, 0, 1, 0, 1, 0, 0, 0]), (.define, [0, 0, 0, 0, 0, 0, 1, 0, 0, 0]),
      (.define, [0, 0, 0, 1, 0, 0, 255, 0, 0, 0]), (.define, [0, 0, 0, 0, 1, 0, 1, 0, 0, 17]),
      (.scan, [0, 16, 0, 0, 0, 0]), (.scan, [0, 1, 16, 0, 0, 0]), (.scan, [0, 2, 0, 0, 0, 0]),
      (.scan, [0, 2, 0, 64, 0, 0]), (.scan, [0, 4, 0, 0, 4, 0]), (.scan, [0, 8, 0, 0, 0, 2])]
        : List (Req × List Byte)).all
      (fun x => decide ((ask x.1 0 x.2 open4).Passing x.1 0 (sent x.1 x.2))
        && leaves (exec (x.1.command 0) (ask x.1 0 x.2 open4)) (answered 0 .badArgument [])) = true := by
  decide +kernel

/-- Index 96 and generation 0; a generation not the record's; a record of another port. -/
theorem witness_StaleIds_leases :
    ((ask .release 1 [96, 1] busy).Passing .release 1 (sent .release [96, 1]) ∧ 95 < (byteAt [96, 1] 0).toNat)
    ∧ ((ask .release 1 [95, 0] busy).Passing .release 1 (sent .release [95, 0]) ∧ byteAt [95, 0] 1 = 0)
    ∧ ((ask .renew 1 [0, 2, 0, 0] busy).Passing .renew 1 (sent .renew [0, 2, 0, 0]) ∧ (2 : Byte) ≠ (busy.lease 0).gen)
    ∧ ((ask .renew 2 [3, 1, 0, 0] busy).Passing .renew 2 (sent .renew [3, 1, 0, 0])
      ∧ (busy.lease 3).isHolder = false ∧ (busy.lease 3).isEnded = false)
    ∧ ((ask .demote 2 [0, 1] busy).Passing .demote 2 (sent .demote [0, 1]) ∧ (1 : Byte) = (busy.lease 0).gen
      ∧ (busy.lease 0).isHolder = true ∧ (busy.lease 0).ownedBy 2 = false) := by decide +kernel

theorem witness_StaleIds_waits :
    ((ask .cancelWait 2 [48, 1] busy).Passing .cancelWait 2 (sent .cancelWait [48, 1])
      ∧ 47 < (byteAt [48, 1] 0).toNat)
    ∧ ((ask .cancelWait 2 [47, 1] busy).Passing .cancelWait 2 (sent .cancelWait [47, 1])
      ∧ (busy.wait 47).isFree = true)
    ∧ ((ask .cancelWait 1 [0, 1] busy).Passing .cancelWait 1 (sent .cancelWait [0, 1]) ∧ (1 : Byte) = (busy.wait 0).gen
      ∧ (busy.wait 0).isFree = false ∧ (busy.wait 0).ownedBy 1 = false) := by decide +kernel

/-! #### Sessions -/

theorem witness_AttachOpensSession :
    ((ask .attach 1 [0, 3] State.reset).Passing .attach 1 (sent .attach [0, 3]) ∧ [0, 3] = bytes2 3
      ∧ State.reset.attached 1 = false)
    ∧ ((ask .attach 1 [0, 0] busy).Passing .attach 1 (sent .attach [0, 0]) ∧ [0, 0] = bytes2 0
      ∧ (ask .attach 1 [0, 0] busy).attached 1 = true) := by decide +kernel

theorem witness_DetachEndsSession : (ask .detach 1 [] busy).Passing .detach 1 (sent .detach []) := by decide +kernel

theorem witness_EvictEndsSession :
    ((ask .evict 0 [3] busy).Passing .evict 0 (sent .evict [3]) ∧ [3] = [byteOf (3 : Port).val]
      ∧ (ask .evict 0 [3] busy).attached 3 = true)
    ∧ ((ask .evict 0 [3] (open4.setSession 3 .initial)).Passing .evict 0 (sent .evict [3])
      ∧ (ask .evict 0 [3] (open4.setSession 3 .initial)).attached 3 = false) := by decide +kernel

/-- Port P3 with a liveness window of 3 and the given remaining ticks, due. -/
def silent (n : Half) : State :=
  { busy.setSession 3 ⟨.attached (some n), 7, 3, 24, 12, .none⟩ with due := [.live 3] }

theorem witness_LivenessExpiryLosesSession :
    ((silent 1).rstN = true ∧ (silent 1).timebase.mode = .running ∧ TickRef.live 3 ∈ (silent 1).due ∧ ((silent 1).session 3).st = .attached (some 1))
    ∧ (((silent 2).session 3).st = .attached (some 2) ∧ 1 < (2 : Half).toNat)
    ∧ (TickRef.live 2 ∉ (silent 1).due ∧ (((silent 1).setSession 3 .initial).session 3).st = .detached) := by
  decide +kernel

theorem witness_SessionEndTreatsEachResource : busy.Inv ∧ busy.claimAt 1 4 = none
    ∧ busy.claimAt 1 2 = some (.holder 0) ∧ busy.claimAt 2 2 = some (.waiter 0) :=
  ⟨busy_inv, by decide +kernel, by decide +kernel, by decide +kernel⟩

theorem witness_SetQuotaReplaces : (ask .setQuota 0 [3, 96, 48] busy).Passing .setQuota 0 (sent .setQuota [3, 96, 48])
    ∧ [3, 96, 48] = [byteOf (3 : Port).val, 96, 48] ∧ (96 : Byte).toNat ≤ 96 ∧ (48 : Byte).toNat ≤ 48 := by
  decide +kernel

theorem witness_WarmResetClears : (ask .warmReset 0 [] busy).Passing .warmReset 0 (sent .warmReset []) ∧ busy.due = []
    ∧ (ask .warmReset 0 [] { busy with due := [.settle 4] }).Passing .warmReset 0 (sent .warmReset []) := by
  decide +kernel

theorem witness_SessionReports : (ask .keepalive 3 [] busy).Passing .keepalive 3 (sent .keepalive [])
    ∧ (ask .portStatus 3 [0] busy).Passing .portStatus 3 (sent .portStatus [0]) ∧ [0] = [byteOf (0 : Port).val] := by
  decide +kernel

/-! #### Reading the records -/

theorem witness_RecordReports :
    ((ask .queryResource 2 [63] busy).Passing .queryResource 2 (sent .queryResource [63])
      ∧ [63] = [byteOf (63 : ResNo).val])
    ∧ ((ask .queryLease 1 [0, 1] busy).Passing .queryLease 1 (sent .queryLease [0, 1]) ∧ (1 : Byte) = (busy.lease 0).gen
      ∧ (busy.lease 0).ownedBy 1 = true
      ∧ (busy.lease 0).st = .active ⟨⟨1, 2, .exclusive, true⟩, 1, 500, 0⟩ ⟨5, false, none⟩)
    ∧ ((ask .queryLease 2 [2, 1] busy).Passing .queryLease 2 (sent .queryLease [2, 1]) ∧ (1 : Byte) = (busy.lease 2).gen
      ∧ (busy.lease 2).ownedBy 2 = true
      ∧ (busy.lease 2).st = .grace ⟨⟨2, 3, .shared, false⟩, 60, 500, 0⟩ ⟨3, .term, false⟩)
    ∧ ((ask .queryLease 1 [4, 4] busy).Passing .queryLease 1 (sent .queryLease [4, 4]) ∧ (4 : Byte) = (busy.lease 4).gen
      ∧ (busy.lease 4).ownedBy 1 = true
      ∧ (busy.lease 4).st = .ended ⟨⟨1, 7, .exclusive, false⟩, 41, 500, 0⟩ .term) := by decide +kernel

/-- A resource number of 64; no holder; the current epoch; the epochs on either side of it. -/
theorem witness_EpochVerdict :
    ((ask .checkEpoch 2 [64, 0, 0, 0, 9] busy).Passing .checkEpoch 2 (sent .checkEpoch [64, 0, 0, 0, 9])
      ∧ 63 < (byteAt [64, 0, 0, 0, 9] 0).toNat) ∧
    ((ask .checkEpoch 2 [4, 0, 0, 0, 9] busy).Passing .checkEpoch 2 (sent .checkEpoch [4, 0, 0, 0, 9])
      ∧ [4, 0, 0, 0, 9] = [byteOf (4 : ResNo).val] ++ bytes4 9 ∧ (busy.res 4).holders = [])
    ∧ ((ask .checkEpoch 2 [3, 0, 0, 0, 60] busy).Passing .checkEpoch 2 (sent .checkEpoch [3, 0, 0, 0, 60])
      ∧ (busy.res 3).holders ≠ [] ∧ 60 = (busy.res 3).epoch ∧ 59 ≠ (busy.res 3).epoch ∧ 61 ≠ (busy.res 3).epoch) := by
  decide +kernel

/-- All four criteria at the edge of their ranges: one start at the match itself, one past every match. -/
theorem witness_ScanFindsFirst :
    ((ask .scan 1 [3, 15, 3, 63, 2, 0] busy).Passing .scan 1 (sent .scan [3, 15, 3, 63, 2, 0])
      ∧ [3, 15, 3, 63, 2, 0] = [byteOf (3 : ResNo).val, 15, 3, 63, 2, 0] ∧ (15 : Byte).toNat ≤ 15 ∧ (3 : Byte).toNat ≤ 15
      ∧ (1 ≤ (63 : Byte).toNat ∧ (63 : Byte).toNat ≤ 63) ∧ (2 : Byte).toNat ≤ 3 ∧ (0 : Byte).toNat ≤ 1
      ∧ leaves (execScan 1 (ask .scan 1 [3, 15, 3, 63, 2, 0] busy))
          (answered 1 .done [1, 3, 3, 3, 0, 0, 0, 60, 2, 0]) = true)
    ∧ ((ask .scan 1 [63, 15, 15, 1, 3, 1] busy).Passing .scan 1 (sent .scan [63, 15, 15, 1, 3, 1])
      ∧ leaves (execScan 1 (ask .scan 1 [63, 15, 15, 1, 3, 1] busy)) (answered 1 .done [0]) = true) := by
  decide +kernel

theorem witness_QueriesChangeNothing :
    Req.scan ∈ [Req.keepalive, .portStatus, .queryLease, .queryResource, .checkEpoch, .scan]
      ∧ leaves (exec (Req.scan.command 1) (ask .scan 1 [63, 0, 0, 0, 0, 0] busy))
          (answered 1 .done [1, 63, 0, 0, 0, 0, 0, 0, 0, 0]) = true := by decide +kernel


/-! #### ACQUIRE -/

/-- From FREE with the last epoch that can be followed, mode EXCLUSIVE, term 0 (the default); and joining Rs3, whose
holder count 2 is below the share limit 3, with a term above the max term 2000. -/
theorem witness_AcquireGrants :
    ((ask .acquire 3 [1, 1, 0, 0, 0, 0, 0] (busy.setRes 1 (resource .free 0xFFFFFFFE 0 20 3 2 [] []))).Passing .acquire 3
        (sent .acquire [1, 1, 0, 0, 0, 0, 0])
      ∧ [1, 1, 0, 0, 0, 0, 0] = [byteOf (1 : ResNo).val, Mode.exclusive.value] ++ bytes2 0 ++ bytes2 0 ++ [flagByte false]
      ∧ busy.hasLiveClaim 3 1 = false ∧ busy.leaseUse 3 < (busy.session 3).leaseQuota.toNat ∧ busy.LowestFreeLease 6
      ∧ (resource .free 0xFFFFFFFE 0 20 3 2 [] []).epoch ≠ 0xFFFFFFFF)
    ∧ ((ask .acquire 3 [3, 2, 7, 209, 0, 0, 1] busy).Passing .acquire 3 (sent .acquire [3, 2, 7, 209, 0, 0, 1])
      ∧ [3, 2, 7, 209, 0, 0, 1] = [byteOf (3 : ResNo).val, Mode.shared.value] ++ bytes2 2001 ++ bytes2 0 ++ [flagByte true]
      ∧ busy.hasLiveClaim 3 3 = false ∧ (busy.res 3).queue = [] ∧ (busy.res 3).attrs.shareLimit ≠ 0
      ∧ (busy.res 3).st = .shared ∧ (busy.res 3).holders.length < (busy.res 3).attrs.shareLimit.toNat
      ∧ (busy.res 3).slot = none) := by decide +kernel

/-- One place is left in the queue of Rs4; lease use and wait use are each one below their quota. -/
theorem witness_AcquireQueues :
    let s := (ask .acquire 3 [4, 1, 0, 0, 0, 1, 0] (busy.setRes 4 (resource (.settling 1) 9 0 4 1 1 [] []))).setSession 3
      ⟨.attached none, 1, 0, 2, 2, .none⟩
    s.Passing .acquire 3 (sent .acquire [4, 1, 0, 0, 0, 1, 0])
      ∧ [4, 1, 0, 0, 0, 1, 0] = [byteOf (4 : ResNo).val, Mode.exclusive.value] ++ bytes2 0 ++ bytes2 1 ++ [flagByte false]
      ∧ s.hasLiveClaim 3 4 = false ∧ s.leaseUse 3 < (s.session 3).leaseQuota.toNat ∧ s.LowestFreeLease 6
      ∧ s.waitUse 3 < (s.session 3).waitQuota.toNat ∧ s.LowestFreeWait 2 ∧ (s.res 4).st ≠ .undefined
      ∧ (s.res 4).st ≠ .retiring ∧ (s.res 4).queue.length < (s.res 4).attrs.queueLimit.toNat
      ∧ (s.res 4).st ≠ .free ∧ (s.res 4).st ≠ .shared := by decide +kernel

/-- Each refusal of Tables 2-4 and 2-5 but the two of an empty pool: the request, the result, and the resource put in
place for it. -/
theorem witness_AcquireRefusalOrder :
    ([([0, 1, 0, 0, 0, 9, 0], Result.noResource, Resource.initial),
      ([5, 1, 0, 0, 0, 9, 0], .retiring, Resource.initial),
      ([1, 2, 0, 0, 0, 9, 0], .wrongMode, resource .free 7 0 20 3 2 [] []),
      ([2, 1, 0, 0, 0, 9, 0], .duplicate, Resource.initial),
      ([1, 1, 0, 0, 0, 9, 0], .epochExhausted, resource .free 0xFFFFFFFF 0 20 3 2 [] []),
      ([4, 1, 0, 0, 0, 0, 0], .held, Resource.initial),
      ([1, 1, 0, 0, 0, 9, 0], .queueFull, resource (.settling 1) 7 0 20 3 0 [] [])]
        : List (List Byte × Result × Resource)).all (fun x =>
      let s := ask .acquire 1 x.1 (busy.setRes 1 x.2.2)
      decide (s.Passing .acquire 1 (sent .acquire x.1)) && leaves (execAcquire 1 s) (answered 1 x.2.1 [])) = true := by
  decide +kernel

/-- The quota refusals, with lease use and wait use each at its quota; the pool refusals, with every record in use. -/
theorem witness_AcquireRefusalOrder_full :
    leaves (execAcquire 3 (ask .acquire 3 [1, 1, 0, 0, 0, 9, 0] (busy.setSession 3
      ⟨.attached none, 1, 0, 1, 12, .none⟩))) (answered 3 .quota []) = true
    ∧ leaves (execAcquire 3 (ask .acquire 3 [4, 1, 0, 0, 0, 9, 0] (busy.setSession 3
      ⟨.attached none, 1, 0, 24, 1, .none⟩))) (answered 3 .quota []) = true
    ∧ leaves (execAcquire 3 (ask .acquire 3 [1, 1, 0, 0, 0, 9, 0] { busy with
      leases := Vector.replicate 96 (ended 1 1 9 0 .term) })) (answered 3 .poolEmpty []) = true
    ∧ leaves (execAcquire 3 (ask .acquire 3 [4, 1, 0, 0, 0, 9, 0] { busy with
      waits := Vector.replicate 48 ⟨1, .ended ⟨1, 9, .exclusive, 0, false⟩ .expired⟩ })) (answered 3 .poolEmpty []) =
        true := by decide +kernel

/-- An ACTIVE holder that asked for notices and one in GRACE that did not, and one in GRACE that did; a list with an entry. -/
theorem witness_ContentionNotices : ([0, 2] : List LeaseNo).Nodup
    ∧ (busy.lease 0).st = .active ⟨⟨1, 2, .exclusive, true⟩, 1, 500, 0⟩ ⟨5, false, none⟩
    ∧ (busy.lease 2).st = .grace ⟨⟨2, 3, .shared, false⟩, 60, 500, 0⟩ ⟨3, .term, false⟩
    ∧ ((busy.setLease 2 ⟨1, .grace ⟨⟨2, 3, .shared, true⟩, 60, 500, 0⟩ ⟨3, .term, false⟩⟩).lease 2).st =
      .grace ⟨⟨2, 3, .shared, true⟩, 60, 500, 0⟩ ⟨3, .term, false⟩
    ∧ (busy.attn 1).map (·.ref) = [.lease 4] := by decide +kernel

/-! #### RENEW, RELEASE and the end of a wait -/

theorem witness_RenewOutcomes :
    ((ask .renew 1 [0, 1, 255, 255] busy).Passing .renew 1 (sent .renew [0, 1, 255, 255])
      ∧ [0, 1, 255, 255] = [byteOf (0 : LeaseNo).val, 1] ++ bytes2 65535 ∧ (busy.lease 0).gen = 1
      ∧ (busy.lease 0).ownedBy 1 = true
      ∧ (busy.lease 0).st = .active ⟨⟨1, 2, .exclusive, true⟩, 1, 500, 0⟩ ⟨5, false, none⟩)
    ∧ ((ask .renew 2 [2, 1, 0, 0] busy).Passing .renew 2 (sent .renew [2, 1, 0, 0]) ∧ (busy.lease 2).gen = 1
      ∧ (busy.lease 2).ownedBy 2 = true
      ∧ (busy.lease 2).st = .grace ⟨⟨2, 3, .shared, false⟩, 60, 500, 0⟩ ⟨3, .term, false⟩)
    ∧ ((ask .renew 3 [5, 1, 0, 0] busy).Passing .renew 3 (sent .renew [5, 1, 0, 0]) ∧ (busy.lease 5).gen = 1
      ∧ (busy.lease 5).ownedBy 3 = true
      ∧ (busy.lease 5).st = .grace ⟨⟨3, 5, .exclusive, false⟩, 3, 500, 0⟩ ⟨1, .retire, false⟩) := by decide +kernel

/-- The last holder of a RETIRING resource; of an EXCLUSIVE one with settle 0 and with settle 255; the holder beside a
pending promotion; one of two holders. -/
theorem witness_ReleaseOutcomes :
    ((ask .release 3 [5, 1] busy).Passing .release 3 (sent .release [5, 1])
      ∧ (busy.lease 5).st = .grace ⟨⟨3, 5, .exclusive, false⟩, 3, 500, 0⟩ ⟨1, .retire, false⟩
      ∧ ((busy.res 5).holders.filter (· ≠ 5)) = [] ∧ (busy.res 5).st = .retiring)
    ∧ ((ask .release 1 [0, 1] busy).Passing .release 1 (sent .release [0, 1])
      ∧ (busy.lease 0).st = .active ⟨⟨1, 2, .exclusive, true⟩, 1, 500, 0⟩ ⟨5, false, none⟩
      ∧ ((busy.res 2).holders.filter (· ≠ 0)) = [] ∧ (busy.res 2).st = .exclusive ∧ (busy.res 2).attrs.settle = 0)
    ∧ ((busy.setRes 2 (resource .exclusive 1 0 4 255 1 [0] [0])).res 2).attrs.settle ≠ 0
    ∧ ((ask .release 2 [2, 1] busy).Passing .release 2 (sent .release [2, 1])
      ∧ ((busy.res 3).holders.filter (· ≠ 2)) = [1] ∧ (busy.res 3).slot ≠ some 1
      ∧ ((busy.setRes 3 { busy.res 3 with slot := some 1 }).res 3).slot = some 1) := by decide +kernel

theorem witness_EndedAnswered :
    Req.promote ∈ [Req.renew, .release, .promote, .demote]
      ∧ (ask .promote 1 [4, 4, 0, 1] busy).Passing .promote 1 (sent .promote [4, 4, 0, 1])
      ∧ byteAt [4, 4, 0, 1] 0 = byteOf (4 : LeaseNo).val ∧ byteAt [4, 4, 0, 1] 1 = (busy.lease 4).gen
      ∧ (busy.lease 4).gen ≠ 0 ∧ (busy.lease 4).st = .ended ⟨⟨1, 7, .exclusive, false⟩, 41, 500, 0⟩ .term := by
  decide +kernel

theorem witness_CancelEndedWait :
    (ask .cancelWait 3 [1, 2] busy).Passing .cancelWait 3 (sent .cancelWait [1, 2])
      ∧ [1, 2] = [byteOf (1 : WaitNo).val, 2] ∧ (busy.wait 1).gen = 2
      ∧ (busy.wait 1).st = .ended ⟨3, 7, .exclusive, 0, false⟩ .expired := by decide +kernel

/-- The wait is the head of its queue; and, with W7 put before it, it is not. -/
theorem witness_CancelWaitingWait :
    (ask .cancelWait 2 [0, 1] busy).Passing .cancelWait 2 (sent .cancelWait [0, 1]) ∧ (busy.wait 0).gen = 1
      ∧ (busy.wait 0).st = .waiting ⟨2, 2, .exclusive, 0, false⟩ 1 3 ∧ (busy.res 2).queue.head? = some 0
      ∧ ((busy.setRes 2 (resource .exclusive 1 0 4 0 2 [0] [7, 0])).res 2).queue.head? ≠ some 0 := by decide +kernel

/-! #### Promotion, demotion and the grant pass -/

/-- Rs30 of section 4.5 with the given holders: L10 of P1 and L11 of P2. -/
def readers (epoch : Quad) (hs : List LeaseNo) (slot : Option LeaseNo) : State :=
  ((open4.setRes 30 { resource .shared epoch 3 5 2 4 hs [] with slot := slot }).setLease 10
    (active 1 1 30 .shared epoch 9)).setLease 11 (active 1 2 30 .shared epoch 9 true)

theorem witness_PromoteOutcomes :
    ((ask .promote 2 [2, 1, 0, 1] busy).Passing .promote 2 (sent .promote [2, 1, 0, 1])
      ∧ (busy.lease 2).st = .grace ⟨⟨2, 3, .shared, false⟩, 60, 500, 0⟩ ⟨3, .term, false⟩)
    ∧ ((ask .promote 1 [0, 1, 0, 1] busy).Passing .promote 1 (sent .promote [0, 1, 0, 1])
      ∧ (busy.lease 0).st = .active ⟨⟨1, 2, .exclusive, true⟩, 1, 500, 0⟩ ⟨5, false, none⟩)
    ∧ ((ask .promote 1 [10, 1, 0, 1] (readers 100 [10, 11] none)).Passing .promote 1 (sent .promote [10, 1, 0, 1])
      ∧ [10, 1, 0, 1] = [byteOf (10 : LeaseNo).val, 1] ++ bytes2 1
      ∧ ((readers 100 [10, 11] none).lease 10).st = .active ⟨⟨1, 30, .shared, false⟩, 100, 500, 0⟩ ⟨9, false, none⟩
      ∧ ((readers 100 [10, 11] none).res 30).slot = none ∧ ((readers 100 [10, 11] none).res 30).holders ≠ [10])
    ∧ ((readers 100 [10, 11] (some 11)).res 30).slot ≠ none
    ∧ (((readers 0xFFFFFFFF [10] none).res 30).holders = [10] ∧ ((readers 0xFFFFFFFF [10] none).res 30).epoch = 0xFFFFFFFF)
    ∧ (((readers 0xFFFFFFFE [10] none).res 30).holders = [10] ∧ ((readers 0xFFFFFFFE [10] none).res 30).epoch ≠ 0xFFFFFFFF)
    ∧ (ask .promote 1 [10, 1, 0, 0] (readers 100 [10, 11] none)).Passing .promote 1 (sent .promote [10, 1, 0, 0]) := by
  decide +kernel

theorem witness_PromotionCompletion :
    (((readers 0xFFFFFFFE [10] (some 10)).lease 10).st = .active ⟨⟨1, 30, .shared, false⟩, 0xFFFFFFFE, 500, 0⟩
        ⟨9, false, none⟩ ∧ ((readers 0xFFFFFFFE [10] (some 10)).res 30).epoch ≠ 0xFFFFFFFF)
    ∧ (((readers 0xFFFFFFFF [10] (some 10)).lease 10).st = .active ⟨⟨1, 30, .shared, false⟩, 0xFFFFFFFF, 500, 0⟩
        ⟨9, false, none⟩ ∧ ((readers 0xFFFFFFFF [10] (some 10)).res 30).epoch = 0xFFFFFFFF) := by decide +kernel

/-- Rs30 of section 4.5 at step 5: L10 of P1 EXCLUSIVE. -/
def writer (epoch : Quad) (share : Byte) : State :=
  (open4.setRes 30 (resource .exclusive epoch share 5 2 4 [10] [])).setLease 10 (active 1 1 30 .exclusive epoch 9)

theorem witness_DemoteOutcomes :
    ((ask .demote 2 [2, 1] busy).Passing .demote 2 (sent .demote [2, 1])
      ∧ (busy.lease 2).st = .grace ⟨⟨2, 3, .shared, false⟩, 60, 500, 0⟩ ⟨3, .term, false⟩)
    ∧ ((ask .demote 1 [1, 1] busy).Passing .demote 1 (sent .demote [1, 1])
      ∧ (busy.lease 1).st = .active ⟨⟨1, 3, .shared, false⟩, 60, 500, 0⟩ ⟨250, false, none⟩)
    ∧ ((ask .demote 1 [10, 1] (writer 0xFFFFFFFE 1)).Passing .demote 1 (sent .demote [10, 1])
      ∧ ((writer 0xFFFFFFFE 1).lease 10).st = .active ⟨⟨1, 30, .exclusive, false⟩, 0xFFFFFFFE, 500, 0⟩ ⟨9, false, none⟩
      ∧ ((writer 0xFFFFFFFE 1).res 30).attrs.shareLimit ≠ 0 ∧ ((writer 0xFFFFFFFE 1).res 30).epoch ≠ 0xFFFFFFFF)
    ∧ ((writer 101 0).res 30).attrs.shareLimit = 0 ∧ ((writer 0xFFFFFFFF 1).res 30).epoch = 0xFFFFFFFF := by
  decide +kernel

/-- `busy` with Rs2 FREE and without its holder: the pass at Rs2 serves W0. -/
theorem witness_GrantPassServes :
    let s := (busy.setRes 2 (resource .free 1 0 4 0 1 [] [0])).setLease 0 ⟨1, .free⟩
    s.QueueLaw ∧ s.ReserveLaw ∧ s.ListLaw ∧ (s.res 2).holders = [] ∧ (s.wait 0).st = .waiting ⟨2, 2, .exclusive, 0, false⟩ 1 3
      ∧ ((s.grantPass 2).res 2).holders = [3] := by decide +kernel

/-- `busy` with a SHARED wait in the queue of Rs3, which has room: it joins the two holders; and Rs1 at the last epoch. -/
theorem witness_GrantPassServes_shared :
    let s := waits 3 3 .shared 89 6 22 (busy.setRes 3 (resource .shared 60 3 4 2 4 [1, 2] [6]))
    s.QueueLaw ∧ s.ReserveLaw ∧ s.ListLaw ∧ (s.res 3).st = .shared ∧ (s.res 3).slot = none
      ∧ (s.wait 6).st = .waiting ⟨3, 3, .shared, 0, false⟩ 89 22 ∧ ((s.grantPass 3).res 3).holders = [1, 2, 22]
      ∧ (resource .free 0xFFFFFFFF 2 20 3 2 [] [0]).epoch = 0xFFFFFFFF := by decide +kernel

/-! #### The resource table -/

/-- Every attribute at the upper end of its range, and at the lower. -/
theorem witness_DefineOutcomes :
    ((ask .define 0 [63, 15, 4, 255, 255, 255, 255, 255, 255, 16] busy).Passing .define 0
        (sent .define [63, 15, 4, 255, 255, 255, 255, 255, 255, 16])
      ∧ leaves (execDefine 0 (ask .define 0 [63, 15, 4, 255, 255, 255, 255, 255, 255, 16] busy))
          (answered 0 .done [63, 0, 0, 0, 0]) = true)
    ∧ ((ask .define 0 [0, 0, 0, 0, 1, 0, 1, 0, 0, 0] busy).Passing .define 0 (sent .define [0, 0, 0, 0, 1, 0, 1, 0, 0, 0])
      ∧ (busy.res 0).st = .undefined ∧ (busy.res 1).st ≠ .undefined) := by decide +kernel

/-- A request joins a queue at no cost to the laws of the records. -/
theorem asked_inv {s : State} {k : Req} {p : Port} {body : List Byte} (h : s.Inv) (hl : (ask k p body s).LinkLaw) : (ask k p body s).Inv :=
  ⟨h.holders, h.queues, h.reserves, h.claims, h.agreement, h.epochs, h.slots, h.lists, h.tombstones, h.sessions, hl,
    h.timebase, h.quotas, h.ranges, h.generations, h.counts, h.due⟩

/-- Rs30 of section 4.5 at step 2: L10 in the promotion slot with patience 2. -/
def promoting : State := (readers 100 [10, 11] (some 10)).setLease 10
  ⟨1, .active ⟨⟨1, 30, .shared, false⟩, 100, 500, 0⟩ ⟨9, false, some 2⟩⟩

theorem promoting_inv : promoting.Inv where
  holders := by decide +kernel
  queues := by decide +kernel
  reserves := by decide +kernel
  claims := by decide +kernel
  agreement := by decide +kernel
  epochs := by decide +kernel
  slots := by decide +kernel
  lists := by decide +kernel
  tombstones := ⟨by decide +kernel, waitTombstones_law (by decide +kernel)⟩
  sessions := by decide +kernel
  links := by decide +kernel
  timebase := by decide +kernel
  quotas := by decide +kernel
  ranges := by decide +kernel
  generations := by decide +kernel
  counts := by decide +kernel
  due := by decide +kernel

/-- A resource with its promotion slot full, retired and revoked. -/
theorem witness_slot_full : (ask .retire 0 [30] promoting).Inv ∧ (ask .revoke 0 [30, 2] promoting).Inv
    ∧ (ask .retire 0 [30] promoting).Passing .retire 0 (sent .retire [30])
    ∧ (ask .revoke 0 [30, 2] promoting).Passing .revoke 0 (sent .revoke [30, 2])
    ∧ (promoting.res 30).holders = [10, 11] ∧ (promoting.res 30).slot = some 10 ∧ (promoting.res 30).attrs.grace ≠ 0 :=
  ⟨asked_inv promoting_inv (by decide +kernel), asked_inv promoting_inv (by decide +kernel), by decide +kernel⟩

/-- UNDEFINED, RETIRING, FREE without holders, and Rs3 with holders in ACTIVE and in GRACE and grace 4. -/
theorem witness_RetireOutcomes : (ask .retire 0 [3] busy).Inv
    ∧ ((ask .retire 0 [3] busy).Passing .retire 0 (sent .retire [3]) ∧ [3] = [byteOf (3 : ResNo).val]
      ∧ (busy.res 0).st = .undefined ∧ (busy.res 5).st = .retiring
      ∧ ((busy.res 1).st = .free ∧ (busy.res 1).holders = [])
      ∧ ((busy.res 3).st = .shared ∧ (busy.res 3).holders = [1, 2] ∧ (busy.res 3).attrs.grace ≠ 0)) :=
  ⟨asked_inv busy_inv (by decide +kernel), by decide +kernel⟩

/-- The same with the arguments 255 (the grace of the resource) and 0 (the forced end at once). -/
theorem witness_RevokeOutcomes : (ask .revoke 0 [3, 255] busy).Inv ∧ (ask .revoke 0 [3, 0] busy).Inv
    ∧ ((ask .revoke 0 [3, 255] busy).Passing .revoke 0 (sent .revoke [3, 255])
      ∧ (ask .revoke 0 [3, 0] busy).Passing .revoke 0 (sent .revoke [3, 0])
      ∧ (busy.res 0).st = .undefined ∧ ((busy.res 4).st ≠ .undefined ∧ (busy.res 4).holders = [])
      ∧ ((busy.res 3).holders = [1, 2] ∧ (busy.res 3).attrs.grace ≠ 0 ∧ (busy.res 3).attrs.settle ≠ 0)
      ∧ ((busy.res 5).holders = [5] ∧ (busy.res 5).st = .retiring)
      ∧ ((busy.res 2).holders = [0] ∧ (busy.res 2).attrs.settle = 0 ∧ (busy.res 2).queue = [0])) :=
  ⟨asked_inv busy_inv (by decide +kernel), asked_inv busy_inv (by decide +kernel), by decide +kernel⟩

/-! #### Gates, timebase, notices -/

theorem witness_GateBindings :
    ((ask .bindGate 0 [15, 63, 3, 1] busy).Passing .bindGate 0 (sent .bindGate [15, 63, 3, 1])
      ∧ [15, 63, 3, 1] = [byteOf (15 : GateNo).val, byteOf (63 : ResNo).val, byteOf (3 : Port).val, Polarity.activeLow.value]
      ∧ busy.asserted 15 = false ∧ busy.asserted 0 = true)
    ∧ ((ask .unbindGate 0 [1] busy).Passing .unbindGate 0 (sent .unbindGate [1]) ∧ busy.asserted 1 = false) := by
  decide +kernel

theorem witness_TimebaseRequests :
    ((ask .setTimebase 0 [255, 255] busy).Passing .setTimebase 0 (sent .setTimebase [255, 255])
      ∧ [255, 255] = bytes2 65535 ∧ busy.timebase.mode = .running ∧ State.reset.timebase.mode = .halted)
    ∧ (ask .startTimebase 0 [] busy).Passing .startTimebase 0 (sent .startTimebase [])
    ∧ ((ask .haltTimebase 0 [] busy).Passing .haltTimebase 0 (sent .haltTimebase []) ∧ busy.due = [])
    ∧ (ask .haltTimebase 0 [] { busy with due := [.settle 4] }).Passing .haltTimebase 0 (sent .haltTimebase []) := by
  decide +kernel

/-- An empty list, a lease tombstone, a wait tombstone, and a resource entry. -/
theorem witness_FetchNoticeOutcomes :
    ((ask .fetchNotice 0 [] busy).Passing .fetchNotice 0 (sent .fetchNotice []) ∧ busy.attn 0 = [])
    ∧ ((ask .fetchNotice 1 [] busy).Passing .fetchNotice 1 (sent .fetchNotice []) ∧ busy.attn 1 = [⟨.lease 4, 16⟩]
      ∧ (busy.lease 4).isEnded = true)
    ∧ ((ask .fetchNotice 3 [] busy).Passing .fetchNotice 3 (sent .fetchNotice []) ∧ busy.attn 3 = [⟨.wait 1, 1⟩]
      ∧ (busy.wait 1).st = .ended ⟨3, 7, .exclusive, 0, false⟩ .expired)
    ∧ ((busy.setAttn 0 [⟨.resource 5, 1⟩]).attn 0 = [⟨.resource 5, 1⟩]) := by decide +kernel

/-! #### Ticks and expiries -/

/-- Countdowns above 1 and at 1, of every kind; two still due. -/
theorem witness_TickLowersCountdowns : busy.due = [] ∧ busy.rstN = true ∧ busy.timebase.mode = .running
    ∧ (busy.res 4).st = .settling 1 ∧ (busy.res 1).st = .free
    ∧ (busy.lease 0).st = .active ⟨⟨1, 2, .exclusive, true⟩, 1, 500, 0⟩ ⟨5, false, none⟩
    ∧ (busy.lease 5).st = .grace ⟨⟨3, 5, .exclusive, false⟩, 3, 500, 0⟩ ⟨1, .retire, false⟩
    ∧ (busy.lease 3).isHolder = false ∧ (busy.wait 0).st = .waiting ⟨2, 2, .exclusive, 0, false⟩ 1 3
    ∧ (busy.wait 1).isWaiting = false
    ∧ ((busy.setSession 3 ⟨.attached (some 1), 7, 3, 24, 12, .none⟩).session 3).st = .attached (some 1)
    ∧ ({ busy with due := [.settle 4, .wait 0] } : State).due.Nodup
    ∧ ¬ (State.reset.rstN = true ∧ State.reset.timebase.mode = .running) := by decide +kernel

theorem witness_TickFollowsDividerPeriods :
    (busy.rstN = true ∧ busy.timebase.mode = .running ∧ busy.timebase.prescaler < busy.timebase.divider
      ∧ busy.timebase.prescaler + 1 < busy.timebase.divider)
    ∧ ({ busy with timebase := ⟨.running, 1, 0⟩ } : State).timebase.prescaler < 1 := by decide +kernel

/-- `busy` with every kind of record due. -/
def dueAll : State := { busy with due := [.settle 4, .wait 0, .lease 5, .lease 2] }

/-- Rs30 with L10 in the promotion slot, its patience at `n`, due. -/
def dueToPromote (n : Half) : State := { (readers 100 [10, 11] (some 10)).setLease 10
  ⟨1, .active ⟨⟨1, 30, .shared, false⟩, 100, 500, 0⟩ ⟨9, false, some n⟩⟩ with due := [.promo 10] }

/-- `busy` with the term of L0 at `n`, due. -/
def dueTerm (n : Half) : State := { busy.setLease 0 (active 1 1 2 .exclusive 1 n) with due := [.lease 0] }

/-- Each countdown at 1 and due, and above 1 and due, as an event since the tick leaves it; and a timebase that is
HALTED. -/
theorem witness_QueueExpiries :
    State.reset.timebase.mode ≠ .running ∧
    (dueAll.rstN = true ∧ dueAll.timebase.mode = .running ∧ TickRef.settle 4 ∈ dueAll.due ∧ (dueAll.res 4).st = .settling 1
      ∧ TickRef.settle 1 ∉ dueAll.due)
    ∧ (TickRef.wait 0 ∈ dueAll.due ∧ (dueAll.wait 0).st = .waiting ⟨2, 2, .exclusive, 0, false⟩ 1 3
      ∧ (dueAll.res 2).queue.head? = some 0 ∧ TickRef.wait 1 ∉ dueAll.due ∧ TickRef.promo 0 ∉ dueAll.due)
    ∧ ((busy.setRes 4 (resource (.settling 2) 9 0 4 1 2 [] [])).res 4).st = .settling 2
    ∧ ((busy.setRes 2 (resource .exclusive 1 0 4 0 2 [0] [7, 0])).res 2).queue.head? ≠ some 0
    ∧ ((busy.setWait 0 ⟨1, .waiting ⟨2, 2, .exclusive, 0, false⟩ 2 3⟩).wait 0).st =
      .waiting ⟨2, 2, .exclusive, 0, false⟩ 2 3 := by decide +kernel

theorem witness_QueueExpiries_promotion : (dueToPromote 1).rstN = true ∧ (dueToPromote 1).timebase.mode = .running ∧ TickRef.promo 10 ∈ (dueToPromote 1).due
    ∧ ((dueToPromote 1).lease 10).st = .active ⟨⟨1, 30, .shared, false⟩, 100, 500, 0⟩ ⟨9, false, some 1⟩
    ∧ ((dueToPromote 2).lease 10).st = .active ⟨⟨1, 30, .shared, false⟩, 100, 500, 0⟩ ⟨9, false, some 2⟩ := by
  decide +kernel

/-- A term of 1 and of 2 with grace 4 and with grace 0, with and without a promotion; a grace of 1 and of 3. -/
theorem witness_TermAndGraceExpiries :
    ((dueTerm 1).rstN = true ∧ (dueTerm 1).timebase.mode = .running ∧ TickRef.lease 0 ∈ (dueTerm 1).due
      ∧ ((dueTerm 1).lease 0).st = .active ⟨⟨1, 2, .exclusive, false⟩, 1, 500, 0⟩ ⟨1, false, none⟩
      ∧ ((dueTerm 2).lease 0).st = .active ⟨⟨1, 2, .exclusive, false⟩, 1, 500, 0⟩ ⟨2, false, none⟩
      ∧ ((dueTerm 1).res 2).attrs.grace ≠ 0 ∧ ((dueTerm 1).res 2).slot ≠ some 0)
    ∧ ((readers 100 [10, 11] (some 10)).res 30).slot = some 10
    ∧ ((busy.setRes 2 (resource .exclusive 1 0 0 0 1 [0] [0])).res 2).attrs.grace = 0
    ∧ (TickRef.lease 5 ∈ dueAll.due
      ∧ (dueAll.lease 5).st = .grace ⟨⟨3, 5, .exclusive, false⟩, 3, 500, 0⟩ ⟨1, .retire, false⟩)
    ∧ (TickRef.lease 2 ∈ dueAll.due
      ∧ (dueAll.lease 2).st = .grace ⟨⟨2, 3, .shared, false⟩, 60, 500, 0⟩ ⟨3, .term, false⟩) := by decide +kernel

/-- A record of each kind whose countdown has stopped since the tick marked it. -/
def stopped : State := { open4 with due := [.settle 1, .wait 1, .promo 1, .lease 1] }

theorem witness_QueueExpiries_stopped : TickRef.settle 1 ∈ stopped.due ∧ (stopped.res 1).st = .undefined
    ∧ TickRef.wait 1 ∈ stopped.due ∧ (stopped.wait 1).st = .free
    ∧ TickRef.promo 1 ∈ stopped.due ∧ (stopped.lease 1).st = .free := by decide +kernel

theorem witness_TermAndGraceExpiries_stopped : stopped.rstN = true ∧ stopped.timebase.mode = .running
    ∧ TickRef.lease 1 ∈ stopped.due ∧ (stopped.lease 1).st = .free ∧ TickRef.lease 0 ∉ stopped.due := by decide +kernel

/-! #### Invariants -/

/-- `busy` with a command in front keeps every law, and its step leaves a next state. -/
theorem witness_StepKeepsLaws : ({ busy with pending := [.tick] } : State).Inv
    ∧ leaves (step { busy with pending := [.tick] }) (fun t => decide (t.due.length = 3)) = true :=
  ⟨⟨busy_inv.holders, busy_inv.queues, busy_inv.reserves, busy_inv.claims, busy_inv.agreement, busy_inv.epochs,
    busy_inv.slots, busy_inv.lists, busy_inv.tombstones, busy_inv.sessions, busy_inv.links, busy_inv.timebase,
    busy_inv.quotas, busy_inv.ranges, busy_inv.generations, busy_inv.counts, busy_inv.due⟩, by decide +kernel⟩

theorem witness_EpochsNeverFall : Instr.acquire 3 ≠ .coldReset
    ∧ leaves (exec (.acquire 3) (ask .acquire 3 [1, 1, 0, 0, 0, 0, 0] busy)) (fun t => (t.res 1).epoch = 8) = true := by
  decide +kernel

theorem witness_AllocationDiscipline : Instr.acquire 3 ≠ .coldReset
    ∧ leaves (exec (.acquire 3) (ask .acquire 3 [1, 1, 0, 0, 0, 0, 0] busy)) (fun t => (t.lease 6).gen = 1) = true := by
  decide +kernel

end Sys2Proof.Tests
end

