-- ==== Sys2Proof/Proofs/ResourceTable.lean ====
section
/-! PROOFS. The resource table (spec section 1): the verdict of CHECK_EPOCH (R16). -/

namespace Sys2Proof.Machine

variable {s : State} {p : Port} {rq : Request} {body : List Byte} {r : ResNo}

/-! ### The resource number of a body (R173) -/

theorem resArg_eq_none {i : Nat} (h : 63 < (byteAt body i).toNat) : resArg body i = none :=
  dif_neg (by omega)

theorem resArg_byteOf_append (r : ResNo) (bs : List Byte) : resArg ([byteOf r.val] ++ bs) 0 = some r :=
  below_resource r

/-! ### The three verdicts (R16, Table 11-6) -/

theorem verdict_noHolder {x : Resource} (h : x.holders = []) (e : Quad) : x.verdict e = 2 := if_pos h

theorem verdict_current {x : Resource} (h : x.holders ≠ []) : x.verdict x.epoch = 0 := by
  simp [Resource.verdict, h]

theorem verdict_stale {x : Resource} {e : Quad} (h : x.holders ≠ []) (he : e ≠ x.epoch) : x.verdict e = 1 := by
  simp [Resource.verdict, h, he]

/-! ### What CHECK_EPOCH decides -/

theorem checkEpochOwner_none (h : resArg body 0 = none) :
    checkEpochOwner p body s = (.refuse .badArgument, s) := by
  simp [checkEpochOwner, h]

theorem checkEpochOwner_some (h : resArg body 0 = some r) : checkEpochOwner p body s =
    (⟨.done, [(s.res r).verdict (quadAt body 1)] ++ bytes4 (s.res r).epoch⟩, s) := by
  simp [checkEpochOwner, h]

/-- A CHECK_EPOCH whose rule leaves the state as it is only moves the request to its response. -/
theorem exec_checkEpoch_replied {rp : Reply} (h : s.Passing .checkEpoch p rq)
    (ho : checkEpochOwner p rq.body s = (rp, s)) :
    exec (.checkEpoch p) s = .next (s.replied p rq rp.result rp.body) := by
  have hserve := serve_replied h checkEpochOwner_local (by rw [ho])
  rw [ho] at hserve
  exact congrArg Host.Outcome.next hserve

/-- A body that names a resource and an epoch is answered with the verdict on that epoch and the current epoch. -/
theorem exec_checkEpoch_verdict {e : Quad} (h : s.Passing .checkEpoch p rq) (hb : rq.body = [byteOf r.val] ++ bytes4 e) :
    exec (.checkEpoch p) s =
      .next (s.replied p rq .done ([(s.res r).verdict e] ++ bytes4 (s.res r).epoch)) := by
  have hr : resArg rq.body 0 = some r := by rw [hb, resArg_byteOf_append]
  have he : quadAt rq.body 1 = e := by simp [hb]
  rw [exec_checkEpoch_replied h (checkEpochOwner_some hr), he]

end Sys2Proof.Machine

namespace Sys2Proof.Proofs

open Sys2Proof Sys2Proof.Machine

/-- Settles O31, from the answer of CHECK_EPOCH and the three verdicts. -/
theorem epochVerdict : Obligations.EpochVerdict := by
  intro p rq s h
  refine ⟨fun hbad => ?_, fun r e hb => ?_⟩
  · exact exec_checkEpoch_replied h (checkEpochOwner_none (resArg_eq_none hbad))
  · rw [exec_checkEpoch_verdict h hb]
    refine ⟨fun hempty => ?_, fun hheld hcurrent => ?_, fun hheld hstale => ?_⟩
    · rw [verdict_noHolder hempty]
    · rw [hcurrent, verdict_current hheld]
    · rw [verdict_stale hheld hstale]

end Sys2Proof.Proofs
end

