-- ==== Sys2Proof/Proofs/Waiting.lean ====
section
/-! PROOFS. Waiting (spec section 3): CANCEL_WAIT of a tombstone (R63), with the wait id (R49) and the wait use (R68). -/

namespace Sys2Proof.Machine

variable {s : State} {p : Port} {w : WaitNo} {g : Byte} {rq : Request}

/-! ### The wait id of a body (R49) -/

/-- An id with the record's nonzero generation names a record out of FREE, to the port that owns it. -/
theorem resolveWait_names (hg : g ≠ 0) (hgen : (s.wait w).gen = g) (hfree : (s.wait w).isFree = false)
    (hown : (s.wait w).ownedBy p = true) : s.resolveWait p (byteOf w.val) g = .names w := by
  have hnames : g ≠ 0 ∧ (s.wait w).gen = g ∧ ¬ (s.wait w).isFree := ⟨hg, hgen, by simp [hfree]⟩
  simp only [State.resolveWait, below_wait, if_pos hnames, if_pos hown]

/-- Every id of a FREE record is stale. -/
theorem resolveWait_stale_of_free (hfree : (s.wait w).isFree = true) :
    s.resolveWait p (byteOf w.val) g = .stale := by
  simp [State.resolveWait, hfree]

/-! ### The wait use (R68) -/

/-- A predicate that turns false at one element of a list without repetition, and is the same elsewhere, counts one
less. -/
theorem countP_add_one_of_cleared {α : Type} [DecidableEq α] {P Q : α → Bool} {a : α} {l : List α} (hl : l.Nodup)
    (ha : a ∈ l) (hP : P a = true) (hQ : Q a = false) (hne : ∀ b, b ≠ a → Q b = P b) :
    l.countP Q + 1 = l.countP P := by
  have hperm := List.perm_cons_erase ha
  have hrest : (l.erase a).countP Q = (l.erase a).countP P :=
    List.countP_congr fun b hb => by rw [hne b (hl.mem_erase_iff.mp hb).1]
  simp [hperm.countP_eq, hP, hQ, hrest]

/-- A wait record of the port replaced by one that is not its own: its wait use falls by one. -/
theorem waitUse_setWait_released {x : Wait} (hown : (s.wait w).ownedBy p = true) (hx : x.ownedBy p = false) :
    (s.setWait w x).waitUse p + 1 = s.waitUse p :=
  countP_add_one_of_cleared (a := w) (List.nodup_finRange 48) (List.mem_finRange w) hown (by simp [hx])
    fun v hv => by rw [wait_setWait_ne s w x hv]

@[simp] theorem waitUse_setAttn (q : Port) (xs : List Entry) : (s.setAttn q xs).waitUse p = s.waitUse p := rfl

/-! ### What CANCEL_WAIT does with a tombstone (R63) -/

/-- The tombstone returns to FREE with its generation, and its entry leaves the list of the port. -/
def State.dropTombstone (s : State) (p : Port) (w : WaitNo) : State :=
  (s.setWait w (s.wait w).freed).withdraw p (.wait w)

theorem dropTombstone_eq : s.dropTombstone p w =
    (s.setWait w ⟨(s.wait w).gen, .free⟩).setAttn p ((s.attn p).filter fun x => x.ref ≠ .wait w) := rfl

theorem cancelNamed_ended {c : WaitClaim} {e : WaitEnd} (h : (s.wait w).st = .ended c e) :
    cancelNamed p w s = (⟨.ended, [e.value]⟩, s.dropTombstone p w) := by
  simp [cancelNamed, h, State.dropTombstone]

theorem cancelWaitOwner_names {body : List Byte}
    (h : s.resolveWait p (byteAt body 0) (byteAt body 1) = .names w) :
    cancelWaitOwner p body s = cancelNamed p w s := by
  simp [cancelWaitOwner, h]

/-- A CANCEL_WAIT whose rule leaves the port's link as it is: its effect, then the response. -/
theorem exec_cancelWait_replied {rp : Reply} {t : State} (h : s.Passing .cancelWait p rq)
    (ho : cancelWaitOwner p rq.body s = (rp, t)) (ht : t.link p = s.link p) :
    exec (.cancelWait p) s = .next (t.replied p rq rp.result rp.body) := by
  have hserve := serve_replied h cancelWaitOwner_local (by rw [ho]; exact ht)
  rw [ho] at hserve
  exact congrArg Host.Outcome.next hserve

end Sys2Proof.Machine

namespace Sys2Proof.Proofs

open Sys2Proof Sys2Proof.Machine

/-- Settles O41: the id names the port's tombstone, so the rule of R63 runs; the freed record leaves the count and the
id. -/
theorem cancelEndedWait : Obligations.CancelEndedWait := by
  intro p w g c e rq s hpass hbody hg hgen hended hport
  have hown : (s.wait w).ownedBy p = true := by simp [Wait.ownedBy, Wait.claim?, hended, hport]
  have hname : s.resolveWait p (byteAt rq.body 0) (byteAt rq.body 1) = .names w := by
    rw [hbody]
    exact resolveWait_names hg hgen.symm (by simp [Wait.isFree, hended]) hown
  have howner : cancelWaitOwner p rq.body s = (⟨.ended, [e.value]⟩, s.dropTombstone p w) := by
    rw [cancelWaitOwner_names hname, cancelNamed_ended hended]
  refine ⟨s.dropTombstone p w, exec_cancelWait_replied hpass howner ?link, ?effect, ?use, ?stale⟩
  case link => simp [dropTombstone_eq]
  case effect => rw [dropTombstone_eq, hgen]
  case use =>
    rw [dropTombstone_eq, waitUse_setAttn]
    exact waitUse_setWait_released hown rfl
  case stale =>
    apply resolveWait_stale_of_free
    simp [dropTombstone_eq, Wait.isFree]

end Sys2Proof.Proofs
end

