-- ==== Sys2Proof/Proofs/Authority.lean ====
section
/-! PROOFS. Supervisor authority (spec section 8): the checks every request meets first, in their order (R129). -/

namespace Sys2Proof.Machine

variable {s : State} {k : Req} {p : Port} {rq : Request} {body : List Byte} {r : Result}

/-! ### The classes of Table 8-3 -/

theorem supervisor_iff_mem : k.supervisor = true ↔ k ∈ [Req.define, .retire, .revoke, .setQuota, .bindGate, .unbindGate,
    .setTimebase, .startTimebase, .haltTimebase, .evict, .warmReset] := by
  cases k <;> decide

theorem needsSession_iff_not_mem : k.needsSession = true ↔
    k ∉ [Req.attach, .queryResource, .checkEpoch, .scan, .portStatus] := by
  cases k <;> decide

/-! ### The check that fails first (R129) -/

theorem precheck_notPermitted (hk : k.supervisor = true) (hp : p ≠ 0) :
    s.precheck k p body = some .notPermitted := if_pos ⟨hk, hp⟩

theorem precheck_notAttached (hauth : ¬ (k.supervisor = true ∧ p ≠ 0)) (hk : k.needsSession = true)
    (hs : s.attached p = false) : s.precheck k p body = some .notAttached := by
  rw [State.precheck, if_neg hauth, if_pos ⟨hk, hs⟩]

theorem precheck_badLength (hauth : ¬ (k.supervisor = true ∧ p ≠ 0))
    (hsession : k.needsSession = true → s.attached p = true) (hlen : body.length ≠ k.bodyLen) :
    s.precheck k p body = some .badLength := by
  have hattached : ¬ (k.needsSession = true ∧ s.attached p = false) := fun ⟨hk, hs⟩ => by simp [hsession hk] at hs
  rw [State.precheck, if_neg hauth, if_neg hattached, if_pos hlen]

/-! ### What a request refused by R129 does -/

/-- A request refused by R129 ends no tick: the tick waits for the checks to pass (R112, R129). -/
theorem tickEnded_refused (h : s.Taking k p rq) (hr : s.precheck k p rq.body = some r) : s.tickEnded k p = s := by
  obtain ⟨hrst, hroom, hhead, -⟩ := h
  simp [State.tickEnded, takeable_eq_some.mpr ⟨hrst, hroom, hhead⟩, hr]

/-- The command of every kind serves the request by its owner, where it has no tick to end first. -/
theorem exec_command_serve (hend : s.tickEnded k p = s) :
    ∃ own : Owner, exec (k.command p) s = .next (s.serve k own p) := by
  cases k
  case haltTimebase =>
    exact ⟨haltTimebaseOwner, congrArg (fun t : State => Host.Outcome.next (t.serve _ _ p)) hend⟩
  case warmReset =>
    exact ⟨warmResetOwner, congrArg (fun t : State => Host.Outcome.next (t.serve _ _ p)) hend⟩
  all_goals exact ⟨_, rfl⟩

/-- Whatever its kind, a request refused by R129 leaves its response and nothing else. -/
theorem exec_command_refused (h : s.Taking k p rq) (hr : s.precheck k p rq.body = some r) :
    exec (k.command p) s = .next (s.replied p rq r []) := by
  obtain ⟨own, hserve⟩ := exec_command_serve (tickEnded_refused h hr)
  rw [hserve, serve_refused h hr]

end Sys2Proof.Machine

namespace Sys2Proof.Proofs

open Sys2Proof Sys2Proof.Machine

/-- Settles O18: the first check of R129 that fails decides the result, and a refused request is only answered. -/
theorem authoritySessionLength : Obligations.AuthoritySessionLength := by
  intro k p rq s htaking
  simp only [← supervisor_iff_mem]
  refine ⟨fun hsup hp => ?authority, fun hauth hfree hs => ?session, fun hauth hopen hlen => ?length⟩
  case authority => exact exec_command_refused htaking (precheck_notPermitted hsup hp)
  case session =>
    exact exec_command_refused htaking (precheck_notAttached hauth (needsSession_iff_not_mem.mpr hfree) hs)
  case length =>
    have hsession : k.needsSession = true → s.attached p = true :=
      fun hk => hopen.resolve_left (needsSession_iff_not_mem.mp hk)
    exact exec_command_refused htaking (precheck_badLength hauth hsession hlen)

end Sys2Proof.Proofs
end

