-- ==== Sys2Proof/Proofs/HostLink.lean ====
section
/-! PROOFS. The host link (spec section 10): the judgement of a SUBMIT (R161) and the STATUS transaction (R167). -/

namespace Sys2Proof.Machine

variable {s s1 : State} {p : Port} {t b : Byte} {bytes stored : List Byte} {count : Nat} {cut : Bool} {rq : Request}

/-! ### The sticky flags in the status byte, and their clearing (R158, Table 10-3) -/

theorem getLsbD_bitIf (c : Bool) (v : Byte) (i : Nat) : (bitIf c v).getLsbD i = (c && v.getLsbD i) := by
  cases c <;> simp [bitIf]

/-- The count of free places in the request queue takes bits 0 to 2 only. -/
theorem getLsbD_freePlaces (n : Nat) {i : Nat} (hi : 3 ≤ i) :
    (BitVec.ofNat 8 (Config.queueDepth - n)).getLsbD i = false := by
  have hlt : Config.queueDepth - n < 2 ^ i :=
    calc Config.queueDepth - n < 2 ^ 3 := by simp only [Config.queueDepth]; omega
      _ ≤ 2 ^ i := Nat.pow_le_pow_right (by decide) hi
  rw [BitVec.getLsbD_ofNat, Nat.testBit_eq_false_of_lt hlt, Bool.and_false]

theorem statusByte_refused : (s.statusByte p).getLsbD 4 = (s.link p).refused := by
  simp only [State.statusByte, BitVec.getLsbD_or, getLsbD_bitIf, getLsbD_freePlaces _ (show 3 ≤ 4 by decide)]
  simp

theorem statusByte_badFrame : (s.statusByte p).getLsbD 3 = (s.link p).badFrame := by
  simp only [State.statusByte, BitVec.getLsbD_or, getLsbD_bitIf, getLsbD_freePlaces _ (le_refl 3)]
  simp

/-- No bit of a byte is both set and clear under its mask. -/
theorem getLsbD_and_mask_eq_zero (b : Byte) {i : Nat} (hi : i < 8) :
    (b.getLsbD i && b &&& BitVec.twoPow 8 i == 0) = false := by
  rw [BitVec.and_twoPow]
  have hne : BitVec.twoPow 8 i ≠ 0#8 := fun h => by simpa [hi] using congrArg (BitVec.getLsbD · i) h
  cases b.getLsbD i
  · rfl
  · simpa using hne

/-- The status byte carries both sticky flags as they stand, so its completion leaves neither set. -/
theorem clearCarried_statusByte {k : Link} (hrefused : k.refused = (s.link p).refused)
    (hbad : k.badFrame = (s.link p).badFrame) :
    k.clearCarried (s.statusByte p) = { k with refused := false, badFrame := false } := by
  have h4 := getLsbD_and_mask_eq_zero (s.statusByte p) (show 4 < 8 by decide)
  have h3 := getLsbD_and_mask_eq_zero (s.statusByte p) (show 3 < 8 by decide)
  rw [statusByte_refused, ← hrefused] at h4
  rw [statusByte_badFrame, ← hbad] at h3
  exact congrArg₂ (fun x y => { k with refused := x, badFrame := y }) h4 h3

/-! ### A transaction opened from IDLE, with its first byte complete (R157, R158) -/

theorem ofByte_toByte (k : TxnKind) : TxnKind.ofByte k.toByte = some k := by
  cases k <;> decide

/-- The port once the first byte of a transaction opened from IDLE is complete: the status byte has been shifted out and
has cleared the sticky flags, and the transaction goes on in `x`. -/
def State.underway (s : State) (p : Port) (x : Txn) : State :=
  s.setLink p { s.link p with
    refused := false, badFrame := false, txn := x, csLow := true, shifted := [s.statusByte p] }

@[simp] theorem sessions_underway (x : Txn) : (s.underway p x).sessions = s.sessions := rfl

@[simp] theorem link_underway (x : Txn) : (s.underway p x).link p = { s.link p with
    refused := false, badFrame := false, txn := x, csLow := true, shifted := [s.statusByte p] } :=
  link_setLink_self _ _ _

theorem reach_of_idle (hidle : (s.link p).txn = .idle) : s.reach p t = some ((s.csFall p).firstByte p t) := by
  simp [State.reach, hidle]

section CsHigh

variable (hrst : s.rstN = true) (hcs : (s.link p).csLow = false)
include hrst hcs

theorem heard_of_high : s.deaf p = false := by
  simp [State.deaf, hrst, hcs]

theorem csFall_of_high : s.csFall p =
    s.setLink p { s.link p with csLow := true, txn := .opening (s.statusByte p), shifted := [] } := by
  simp [State.csFall, hrst, hcs]

theorem firstByte_csFall_status :
    (s.csFall p).firstByte p TxnKind.status.toByte = s.underway p (.sending .nothing 0) := by
  simp only [csFall_of_high hrst hcs, State.firstByte, link_setLink_self, ofByte_toByte, setLink_setLink,
    clearCarried_statusByte, State.underway]

theorem firstByte_csFall_collect :
    ∃ o, (s.csFall p).firstByte p TxnKind.collect.toByte = s.underway p (.sending o 0) := by
  simp only [csFall_of_high hrst hcs, State.firstByte, link_setLink_self, ofByte_toByte, setLink_setLink,
    clearCarried_statusByte, State.underway]
  exact ⟨_, rfl⟩

end CsHigh

/-! ### The end of a transaction (R157) -/

theorem transact_early (hheard : s.deaf p = false) : s.transact p t bytes .early = s.abandon p := by
  simp [State.transact, hheard]

theorem transact_held (hheard : s.deaf p = false) (hreach : s.reach p t = some s1) :
    s.transact p t bytes .held = s1.setLink p ((s1.link p).shift bytes) := by
  simp [State.transact, hheard, hreach]

theorem transact_rise (hheard : s.deaf p = false) (hreach : s.reach p t = some s1) :
    s.transact p t bytes (.rise cut) = (s1.setLink p ((s1.link p).shift bytes)).csRise p cut := by
  simp [State.transact, hheard, hreach]

theorem abandon_of_idle (hidle : (s.link p).txn = .idle) : s.abandon p = (s.csFall p).csRise p false := by
  simp [State.abandon, hidle]

theorem csRise_opening (h : (s.link p).txn = .opening b) :
    s.csRise p cut = s.setLink p { s.link p with txn := .idle, csLow := false } := by
  simp [State.csRise, State.endAction, h]

theorem csRise_sending_nothing (h : (s.link p).txn = .sending .nothing count) :
    s.csRise p cut = s.setLink p { s.link p with txn := .idle, csLow := false } := by
  simp [State.csRise, State.endAction, State.endCollect, h]

theorem sessions_endCollect (o : Outgoing) : (s.endCollect p o count).sessions = s.sessions := by
  simp only [State.endCollect]
  split
  · split <;> rfl
  · rfl

theorem sessions_csRise_sending {o : Outgoing} (h : (s.link p).txn = .sending o count) :
    (s.csRise p cut).sessions = s.sessions := by
  simp only [State.csRise, State.endAction, h, sessions_setLink, sessions_endCollect]

/-! ### STATUS and COLLECT from IDLE (R165, R167) -/

section FromIdle

variable (hrst : s.rstN = true) (hidle : (s.link p).txn = .idle) (hcs : (s.link p).csLow = false)
include hrst hidle hcs

theorem transact_status (bytes : List Byte) (cut : Bool) :
    s.transact p TxnKind.status.toByte bytes (.rise cut) = s.setLink p { s.link p with
      refused := false
      badFrame := false
      shifted := s.statusByte p :: List.replicate bytes.length 0xFF } := by
  rw [transact_rise (heard_of_high hrst hcs) (reach_of_idle hidle), firstByte_csFall_status hrst hcs,
    csRise_sending_nothing (count := bytes.length) (by simp [Link.shift])]
  simp [State.underway, Link.shift, Outgoing.next, hidle, hcs]

/-- No end of a COLLECT reaches a session: it moves the port's link only. -/
theorem sessions_transact_collect (bytes : List Byte) (e : CsEnd) :
    (s.transact p TxnKind.collect.toByte bytes e).sessions = s.sessions := by
  obtain ⟨o, hopen⟩ := firstByte_csFall_collect hrst hcs
  have hheard := heard_of_high hrst hcs
  have hreach := (reach_of_idle (t := TxnKind.collect.toByte) hidle).trans (congrArg some hopen)
  cases e with
  | early =>
    rw [transact_early hheard, abandon_of_idle hidle, csFall_of_high hrst hcs,
      csRise_opening (b := s.statusByte p) (by simp)]
    rfl
  | held => rw [transact_held hheard hreach, sessions_setLink, sessions_underway]
  | rise cut =>
    rw [transact_rise hheard hreach,
      sessions_csRise_sending (o := o) (count := bytes.length) (by simp [Link.shift]), sessions_setLink,
      sessions_underway]

end FromIdle

/-! ### A valid frame renews the liveness of its port (R132) -/

theorem renewLiveness_eq : s.renewLiveness p = s.setSession p (if s.attached p then
    { s.session p with st := .attached (liveOf (s.session p).window) } else s.session p) := by
  by_cases h : s.attached p
  · rw [if_pos h]
    exact if_pos h
  · rw [if_neg h, setSession_session]
    exact if_neg h

@[simp] theorem link_renewLiveness (q : Port) : (s.renewLiveness p).link q = s.link q := by
  rw [renewLiveness_eq, link_setSession]

theorem renewLiveness_setLink (q : Port) (k : Link) :
    (s.setLink q k).renewLiveness p = (s.renewLiveness p).setLink q k := by
  rw [renewLiveness_eq, renewLiveness_eq]
  rfl

/-! ### What a received frame is (R160, Table 10-4 steps 1 and 2) -/

/-- The frame is malformed: cut short, LEN above 24, or not the bytes that LEN announces. -/
def Malformed (bytes : List Byte) (cut : Bool) : Prop :=
  bytes.length < 3 ∨ 24 < (bytes.getD 2 0).toNat ∨ cut = true ∨ bytes.length ≠ (bytes.getD 2 0).toNat + 4

/-- The check byte of the frame is not that of the bytes before it. -/
def BadCheck (bytes : List Byte) : Prop :=
  bytes.getD ((bytes.getD 2 0).toNat + 3) 0 ≠ crc8 (bytes.take ((bytes.getD 2 0).toNat + 3))

/-- The request of a well-formed frame. -/
def requestOf (bytes : List Byte) : Request :=
  ⟨bytes.getD 0 0, bytes.getD 1 0, (bytes.drop 3).take (bytes.getD 2 0).toNat⟩

/-- LEN is one of the bytes stored. -/
theorem storedFrame_len (bytes : List Byte) : (storedFrame bytes).getD 2 0 = bytes.getD 2 0 := by
  have h : 2 < min Config.maxStored ((bytes.getD 2 0).toNat + 4) := by simp only [Config.maxStored]; omega
  rw [storedFrame, List.getD_eq_getElem?_getD, List.getElem?_take_of_lt h, ← List.getD_eq_getElem?_getD]

/-- Every byte of a frame that is not malformed is stored. -/
theorem storedFrame_eq_self (h : ¬ Malformed bytes cut) : storedFrame bytes = bytes := by
  simp only [Malformed, not_or, not_lt] at h
  obtain ⟨-, hlen, -, hcount⟩ := h
  apply List.take_of_length_le
  simp only [Config.maxStored]
  omega

theorem frameRequest_malformed (h : Malformed bytes cut) :
    frameRequest (storedFrame bytes) bytes.length cut = none := by
  simp only [frameRequest, storedFrame_len]
  exact if_pos h

theorem frameRequest_badCheck (hform : ¬ Malformed bytes cut) (h : BadCheck bytes) :
    frameRequest (storedFrame bytes) bytes.length cut = none := by
  rw [storedFrame_eq_self hform]
  exact (if_neg hform).trans (if_pos h)

theorem frameRequest_valid (hform : ¬ Malformed bytes cut) (h : ¬ BadCheck bytes) :
    frameRequest (storedFrame bytes) bytes.length cut = some (requestOf bytes) := by
  rw [storedFrame_eq_self hform]
  exact (if_neg hform).trans (if_neg h)

/-! ### The judgement at the rising edge (R161, Table 10-4) -/

section Receiving

variable (htxn : (s.link p).txn = .receiving stored count)
include htxn

theorem csRise_discarded (h : frameRequest stored count cut = none) :
    s.csRise p cut = s.setLink p { s.link p with badFrame := true, txn := .idle, csLow := false } := by
  simp [State.csRise, State.endAction, htxn, State.judgeFrame, h]

theorem csRise_refused (h : frameRequest stored count cut = some rq) (hfull : 4 ≤ (s.link p).requests.length) :
    s.csRise p cut =
      (s.setLink p { s.link p with refused := true, txn := .idle, csLow := false }).renewLiveness p := by
  simp [State.csRise, State.endAction, htxn, State.judgeFrame, h, Config.queueDepth, hfull,
    renewLiveness_setLink]

theorem csRise_joined (h : frameRequest stored count cut = some rq) (hroom : (s.link p).requests.length < 4) :
    s.csRise p cut = (s.setLink p { s.link p with
      requests := (s.link p).requests ++ [rq], txn := .idle, csLow := false }).renewLiveness p := by
  simp [State.csRise, State.endAction, htxn, State.judgeFrame, h, Config.queueDepth, Nat.not_le.mpr hroom,
    renewLiveness_setLink]

end Receiving

/-- The port with the bytes of a frame stored and counted, and as many bytes shifted out. -/
def State.received (s : State) (p : Port) (bytes : List Byte) : State :=
  s.setLink p { s.link p with
    txn := .receiving (storedFrame bytes) bytes.length
    shifted := (s.link p).shifted ++ List.replicate bytes.length 0xFF }

@[simp] theorem link_received : (s.received p bytes).link p = { s.link p with
    txn := .receiving (storedFrame bytes) bytes.length
    shifted := (s.link p).shifted ++ List.replicate bytes.length 0xFF } :=
  link_setLink_self _ _ _

@[simp] theorem setLink_received (k : Link) : (s.received p bytes).setLink p k = s.setLink p k :=
  setLink_setLink _ _ _ _

/-- The rest of a SUBMIT whose frame has just begun: the bytes are stored and counted, then judged. -/
theorem transact_submit_receiving (hrst : s.rstN = true) (htxn : (s.link p).txn = .receiving [] 0) :
    s.transact p TxnKind.submit.toByte bytes (.rise cut) = (s.received p bytes).csRise p cut := by
  have hheard : s.deaf p = false := by simp [State.deaf, hrst, htxn]
  have hreach : s.reach p TxnKind.submit.toByte = some s := by
    simp [State.reach, htxn, ofByte_toByte, Txn.isOf]
  rw [transact_rise hheard hreach]
  simp [Link.shift, htxn, State.received]

end Sys2Proof.Machine

namespace Sys2Proof.Proofs

open Sys2Proof Sys2Proof.Machine

/-- Settles O13: the port sends no frame after the status byte, and no end of a COLLECT reaches a session. -/
theorem statusIsItsByte : Obligations.StatusIsItsByte := by
  intro p n cut s hrst hidle hcs
  refine ⟨?status, fun e t ht => ?collect⟩
  case status =>
    have h := transact_status hrst hidle hcs (List.replicate n 0) cut
    rw [List.length_replicate] at h
    exact congrArg Host.Outcome.next h
  case collect =>
    cases ht
    exact sessions_transact_collect hrst hidle hcs (List.replicate n 0) e

/-- Settles O11: what the frame is (Table 10-4 steps 1 and 2), then the room in the request queue (steps 3 and 4). -/
theorem submitJudged : Obligations.SubmitJudged := by
  intro p bytes cut s hrst htxn len malformed badCheck k renewed
  have hexec : exec (.submit p bytes (.rise cut)) s = .next ((s.received p bytes).csRise p cut) :=
    congrArg Host.Outcome.next (transact_submit_receiving hrst htxn)
  have hreceiving : ((s.received p bytes).link p).txn = .receiving (storedFrame bytes) bytes.length := by
    rw [link_received]
  have hrenewed (x : Link) : (s.setLink p x).renewLiveness p = (s.setLink p x).setSession p renewed :=
    renewLiveness_eq
  rw [hexec]
  refine ⟨fun hmal => ?malformed, fun hform hbad => ?badCheck, fun hform hgood hfull => ?refused,
    fun hform hgood hroom => ?joined⟩
  case malformed =>
    rw [csRise_discarded hreceiving (frameRequest_malformed hmal), setLink_received, link_received]
  case badCheck =>
    rw [csRise_discarded hreceiving (frameRequest_badCheck hform hbad), setLink_received, link_received]
  case refused =>
    rw [csRise_refused hreceiving (frameRequest_valid hform hgood) (by simpa using hfull), setLink_received,
      link_received, hrenewed]
  case joined =>
    rw [csRise_joined hreceiving (frameRequest_valid hform hgood) (by simpa using hroom), setLink_received,
      link_received, hrenewed]
    rfl

end Sys2Proof.Proofs
end

