-- ==== Sys2Proof/Proofs/Pins.lean ====
section
/-! PROOFS. The machine as a whole (spec section 0.8), its reset values, and the gate outputs (spec section 7.3). -/

namespace Sys2Proof.Machine

variable {s : State}

/-! ### Outputs while RST_N is low, and of the state after reset -/

theorem gateLevel_of_rstN_low {g : GateNo} (h : s.rstN = false) : s.gateLevel g = .highZ := by
  simp [State.gateLevel, h]

theorem gateLevel_of_gateOeN_high {g : GateNo} (h : s.gateOeN = true) : s.gateLevel g = .highZ := by
  simp [State.gateLevel, h]

/-- A gate that is let drive takes the level of its assertion and polarity (Table 7-3). -/
theorem gateLevel_driven {g : GateNo} (hrst : s.rstN = true) (hoe : s.gateOeN = false) :
    s.gateLevel g = if s.asserted g then (s.gate g).polarity.active else (s.gate g).polarity.inactive := by
  simp [State.gateLevel, hrst, hoe]

theorem polarity_active_eq (x : Polarity) : x.active = if x = .activeHigh then .high else .low := by
  cases x <;> rfl

theorem polarity_inactive_eq (x : Polarity) : x.inactive = if x = .activeHigh then .low else .high := by
  cases x <;> rfl

theorem asserted_of_unbound {g : GateNo} (h : (s.gate g).binding = none) : s.asserted g = false := by
  simp [State.asserted, h]

/-- At its reset value a gate drives low: it is unbound, and its polarity is active high. -/
theorem gateLevel_of_atReset {g : GateNo} (hgate : s.gate g = ⟨none, .activeHigh⟩) (hrst : s.rstN = true)
    (hoe : s.gateOeN = false) : s.gateLevel g = .low := by
  rw [gateLevel_driven hrst hoe, asserted_of_unbound (by rw [hgate]), hgate]
  rfl

theorem reset_atReset : State.reset.AtReset where
  resources := res_reset
  leases := lease_reset
  waits := wait_reset
  timebase := rfl
  gates := gate_reset
  sessions := session_reset
  lists := attn_reset
  requests := fun p => by rw [link_reset]; rfl
  responses := fun p => by rw [link_reset]; rfl
  refused := fun p => by rw [link_reset]; rfl
  badFrame := fun p => by rw [link_reset]; rfl
  idle := fun p => by rw [link_reset]; rfl

/-- What `link` reads of a store that has been filled. -/
theorem link_of_links {t : State} {f : Port → Link} (h : t.links = Vector.ofFn f) (p : Port) : t.link p = f p := by
  simp [State.link, h]

/-- The part while RST_N is low (R19, R171): only CS_N of each link port is what it was. -/
theorem coldReset_link {t : State} (h : exec .coldReset s = .next t) (p : Port) : t.link p = (s.link p).cold := by
  cases h
  exact link_of_links (f := fun q => (s.link q).cold) rfl p

theorem coldReset_atReset {t : State} (h : exec .coldReset s = .next t) : t.AtReset := by
  have hlink := coldReset_link h
  have hr := reset_atReset
  cases h
  exact ⟨hr.resources, hr.leases, hr.waits, hr.timebase, hr.gates, hr.sessions, hr.lists,
    fun p => by rw [hlink]; rfl, fun p => by rw [hlink]; rfl, fun p => by rw [hlink]; rfl,
    fun p => by rw [hlink]; rfl, fun p => by rw [hlink]; rfl⟩

end Sys2Proof.Machine

namespace Sys2Proof.Proofs

open Sys2Proof Sys2Proof.Machine

/-- Settles O1: the two branches of a step. -/
theorem stepTakesFront : Obligations.StepTakesFront :=
  ⟨fun c rest s h => by simp only [step, h], fun s h => by simp only [step, h]⟩

/-- Settles O3: every store is filled with its reset record, and the outputs are functions of those. -/
theorem resetState : Obligations.ResetState := by
  refine ⟨reset_atReset, rfl, rfl, rfl, fun p => ⟨?cs, ?status⟩, fun p => ⟨?attn, ?miso⟩, fun g => ?gate⟩
  case cs => rw [link_reset]; rfl
  case status => simp [State.statusByte, State.attached, Link.initial, Session.initial, Session.isAttached, bitIf,
    Config.queueDepth]
  case attn => simp [State.attnLow]
  case miso => simp [Link.misoDriven, Link.initial]
  case gate => exact gateLevel_of_atReset (gate_reset g) rfl rfl

/-- Settles O4: the records at their reset values, and what the pins that are kept let the outputs do. -/
theorem coldResetAndRise : Obligations.ColdResetAndRise := by
  refine ⟨fun s => ?cold, fun s => rfl⟩
  have hreset := coldReset_atReset (s := s) rfl
  have hlink := coldReset_link (s := s) rfl
  refine ⟨_, rfl, hreset, rfl, rfl, rfl, rfl, rfl, fun p => ⟨?cs, ?attn, ?miso⟩, fun g => ?float, fun hoe g => ?rise⟩
  case cs => rw [hlink]; rfl
  case attn => rfl
  case miso => rw [hlink]; rfl
  case float => exact gateLevel_of_rstN_low rfl
  case rise => exact gateLevel_of_atReset (hreset.gates g) rfl hoe

/-- Settles O5: no gate's assertion reads the pin. -/
theorem gateEnableOverrides : Obligations.GateEnableOverrides := by
  intro high s
  refine ⟨rfl, fun t ht g => ?_⟩
  cases ht
  exact ⟨rfl, fun h => gateLevel_of_gateOeN_high h, fun h hrst => gateLevel_driven hrst h⟩

/-- Settles O6, row by row of Table 7-3. -/
theorem gateDrive : Obligations.GateDrive := by
  intro s g
  refine ⟨gateLevel_of_rstN_low, fun _ => gateLevel_of_gateOeN_high, fun hrst hoe hon => ?on, fun hrst hoe hoff => ?off,
    asserted_of_unbound⟩
  case on => rw [gateLevel_driven hrst hoe, if_pos hon, polarity_active_eq]
  case off => rw [gateLevel_driven hrst hoe, if_neg (by simp [hoff]), polarity_inactive_eq]

end Sys2Proof.Proofs
end

