-- ==== Sys2Proof/Proofs/Serving.lean ====
section
/-! PROOFS. What a taken request that passes R129 leaves: its owner's effect and its response. The requests of the
gate unit, of the timebase, of quotas and of reports (spec sections 6.5, 7.4, 8.4, 8.6, 8.7, 1.7 and 2.8). -/

namespace Sys2Proof.Machine

variable {s t : State} {k : Req} {own : Owner} {p q : Port} {rq : Request} {body : List Byte} {rp : Reply}

/-! ### Serving a request by what its owner answers -/

/-- An owner that reads no link port writes none. -/
theorem Owner.Local.link_eq (hl : own.Local) (q : Port) (body : List Byte) (s : State) (p : Port) :
    (own q body s).2.link p = s.link p := by
  have h := hl q body s p (s.link p)
  rw [setLink_link] at h
  rw [h]
  exact link_setLink_self _ _ _

/-- The taking of a request that passes R129, from its owner's answer. -/
theorem serve_eq (h : s.Passing k p rq) (hl : own.Local) (ho : own p rq.body s = (rp, t)) :
    s.serve k own p = t.replied p rq rp.result rp.body := by
  have hserve := serve_replied h hl (hl.link_eq _ _ _ _)
  rwa [ho] at hserve

/-- A supervisor request that passes R129 comes from P0. -/
theorem Passing.eq_zero (h : s.Passing k p rq) (hk : k.supervisor = true) : p = 0 := h.2.1 hk

theorem portByte_eq (p : Port) : portByte p = byteOf p.val := rfl

/-! ### Gates (R120 to R122) -/

theorem asserted_setGate_bound {g : GateNo} {b : Binding} {x : Polarity} :
    (s.setGate g ⟨some b, x⟩).asserted g = s.holds b.port b.res := by
  simp only [State.asserted, gate_setGate_self]
  rfl

theorem bindArgs_eq (g : GateNo) (r : ResNo) (q : Port) (x : Polarity) :
    bindArgs [byteOf g.val, byteOf r.val, byteOf q.val, x.value] = some ⟨g, ⟨r, q⟩, x⟩ := by
  simp [bindArgs, gateArg, resArg, portArg]

theorem bindGateOwner_asserted {a : BindArgs} (ha : bindArgs body = some a) (h : s.asserted a.gate = true) :
    bindGateOwner p body s = (.refuse .state, s) := by
  simp [bindGateOwner, ha, h]

theorem bindGateOwner_bound {a : BindArgs} (ha : bindArgs body = some a) (h : s.asserted a.gate = false) :
    bindGateOwner p body s = (⟨.done, (s.gate a.gate).report ++ Gate.report ⟨some a.binding, a.polarity⟩
      ++ [flagByte (s.holds a.binding.port a.binding.res)]⟩, s.setGate a.gate ⟨some a.binding, a.polarity⟩) := by
  simp [bindGateOwner, ha, h, asserted_setGate_bound]

theorem unbindGateOwner_asserted {g : GateNo} (hg : gateArg body 0 = some g) (h : s.asserted g = true) :
    unbindGateOwner p body s = (.refuse .state, s) := by
  simp [unbindGateOwner, hg, h]

theorem unbindGateOwner_unbound {g : GateNo} (hg : gateArg body 0 = some g) (h : s.asserted g = false) :
    unbindGateOwner p body s = (⟨.done, (s.gate g).report ++ Gate.report ⟨none, (s.gate g).polarity⟩
      ++ [flagByte false]⟩, s.setGate g ⟨none, (s.gate g).polarity⟩) := by
  simp [unbindGateOwner, hg, h]

/-! ### Timebase (R110, R111) -/

theorem setTimebaseOwner_running (h : s.timebase.mode = .running) :
    setTimebaseOwner p body s = (.refuse .state, s) := by
  simp [setTimebaseOwner, h]

theorem setTimebaseOwner_halted (h : s.timebase.mode = .halted) : setTimebaseOwner p body s =
    (⟨.done, timebaseBody s.timebase { s.timebase with divider := (halfAt body 0).toNat + 1 }⟩,
      { s with timebase := { s.timebase with divider := (halfAt body 0).toNat + 1 } }) := by
  simp [setTimebaseOwner, h]

theorem startTimebaseOwner_halted (h : s.timebase.mode = .halted) : startTimebaseOwner p body s =
    (⟨.done, timebaseBody s.timebase { s.timebase with mode := .running, prescaler := 0 }⟩,
      { s with timebase := { s.timebase with mode := .running, prescaler := 0 } }) := by
  simp [startTimebaseOwner, h]

theorem startTimebaseOwner_running (h : s.timebase.mode = .running) : startTimebaseOwner p body s =
    (⟨.done, timebaseBody s.timebase s.timebase⟩, s) := by
  simp [startTimebaseOwner, h]

/-! ### A request that ends the tick in progress (R112, R141) -/

theorem takeable_of_taking (h : s.Taking k p rq) : s.takeable p = some rq :=
  takeable_eq_some.mpr ⟨h.1, h.2.1, h.2.2.1⟩

theorem tickEnded_passing (h : s.Passing k p rq) : s.tickEnded k p = s.finishTick := by
  simp only [State.tickEnded, takeable_of_taking h.1]
  exact if_pos ⟨h.1.2.2.2, precheck_none.mpr h.2⟩

/-- Where no tick is in progress, its end changes nothing. -/
theorem finishTick_of_due_or_halted (h : s.due = [] ∨ s.timebase.mode = .halted) : s.finishTick = s := by
  rcases h with h | h
  · exact finishTick_of_none_due h
  · exact finishTick_of_not_counting (by simp [State.counting, h])

/-- The tick has ended once: taking the request after it finds no tick to end. -/
theorem tickEnded_finishTick : s.finishTick.tickEnded k p = s.finishTick := by
  simp only [State.tickEnded]
  split
  · split
    · exact finishTick_finishTick
    · rfl
  · rfl

/-! ### Quotas, reports (R133, R139, R140, R15, R44) -/

theorem setQuotaOwner_eq {lq wq : Byte} (hb : body = [byteOf q.val, lq, wq]) (hl : lq.toNat ≤ 96) (hw : wq.toNat ≤ 48) :
    setQuotaOwner p body s = (⟨.done, [(s.session q).leaseQuota, (s.session q).waitQuota, lq, wq,
      byteOf (s.leaseUse q), byteOf (s.waitUse q)]⟩,
      s.setSession q { s.session q with leaseQuota := lq, waitQuota := wq }) := by
  simp [setQuotaOwner, hb, portArg, Nat.not_lt.mpr hl, Nat.not_lt.mpr hw]

theorem portStatusOwner_eq (h : portArg body 0 = some q) :
    portStatusOwner p body s = (⟨.done, s.portReport q⟩, s) := by
  simp [portStatusOwner, h]

theorem queryResourceOwner_eq {r : ResNo} (h : resArg body 0 = some r) :
    queryResourceOwner p body s = (⟨.done, s.resourceReport r⟩, s) := by
  simp [queryResourceOwner, h]

/-- An id with the record's nonzero generation names a record in ACTIVE, GRACE or ENDED, to the port that owns it. -/
theorem resolveLease_names {l : LeaseNo} {g : Byte} (hg : g ≠ 0) (hgen : (s.lease l).gen = g)
    (hlisted : (s.lease l).isHolder = true ∨ (s.lease l).isEnded = true) (hown : (s.lease l).ownedBy p = true) :
    s.resolveLease p (byteOf l.val) g = .names l := by
  have hnames : g ≠ 0 ∧ (s.lease l).gen = g ∧ ((s.lease l).isHolder ∨ (s.lease l).isEnded) := ⟨hg, hgen, hlisted⟩
  simp only [State.resolveLease, below_lease, if_pos hnames, if_pos hown]

theorem withLease_names {own : LeaseNo → Owner} {l : LeaseNo}
    (h : s.resolveLease p (byteAt body 0) (byteAt body 1) = .names l) : withLease own p body s = own l p body s := by
  simp [withLease, h]

/-- A listed record: its state says that it is a holder or a tombstone, and whose it is. -/
theorem listed_of_active {l : LeaseNo} {h : Holding} {a : ActivePart} (hl : (s.lease l).st = .active h a) :
    ((s.lease l).isHolder = true ∨ (s.lease l).isEnded = true) ∧ (s.lease l).ownedBy h.claim.port = true := by
  simp [Lease.isHolder, Lease.ownedBy, Lease.claim?, hl]

theorem listed_of_grace {l : LeaseNo} {h : Holding} {g : GracePart} (hl : (s.lease l).st = .grace h g) :
    ((s.lease l).isHolder = true ∨ (s.lease l).isEnded = true) ∧ (s.lease l).ownedBy h.claim.port = true := by
  simp [Lease.isHolder, Lease.ownedBy, Lease.claim?, hl]

theorem listed_of_ended {l : LeaseNo} {h : Holding} {c : RevokeCause} (hl : (s.lease l).st = .ended h c) :
    ((s.lease l).isHolder = true ∨ (s.lease l).isEnded = true) ∧ (s.lease l).ownedBy h.claim.port = true := by
  simp [Lease.isEnded, Lease.ownedBy, Lease.claim?, hl]

/-- The head waiter's bytes by the state of its record. -/
theorem headWaiter_eq (x : Resource) : s.headWaiter x = match x.queue with
    | w :: _ => match (s.wait w).st with
      | .waiting c _ _ => [byteOf c.port.val, c.mode.value]
      | .ended c _ => [byteOf c.port.val, c.mode.value]
      | .free => [0xFF, 0]
    | [] => [0xFF, 0] := by
  unfold State.headWaiter
  rcases x.queue with _ | ⟨w, ws⟩
  · rfl
  · rcases hw : (s.wait w).st with _ | _ | _ <;> simp [Wait.claim?, hw, portByte_eq]

theorem slotPort_eq (x : Resource) : s.slotPort x = match x.slot with
    | some l => match (s.lease l).claim? with
      | some c => byteOf c.port.val
      | none => 0xFF
    | none => 0xFF := by
  unfold State.slotPort
  rcases x.slot with _ | l
  · rfl
  · rcases hl : (s.lease l).claim? with _ | c <;> simp [hl, portByte_eq]

/-! ### Fields of two and four bytes (section 0.12) -/

theorem extractByte_eq {n : Nat} (x : BitVec n) (i : Nat) :
    x.extractLsb' i 8 = BitVec.ofNat 8 (x.toNat / 2 ^ i % 256) := by
  apply BitVec.eq_of_toNat_eq
  simp [Nat.shiftRight_eq_div_pow]

theorem bytes2_eq (x : Half) : bytes2 x = [BitVec.ofNat 8 (x.toNat / 256), BitVec.ofNat 8 (x.toNat % 256)] := by
  have h := x.isLt
  rw [bytes2, extractByte_eq, extractByte_eq, show x.toNat / 2 ^ 8 % 256 = x.toNat / 256 by omega,
    show x.toNat / 2 ^ 0 % 256 = x.toNat % 256 by omega]

theorem bytes4_eq (x : Quad) : bytes4 x = [BitVec.ofNat 8 (x.toNat / 16777216), BitVec.ofNat 8 (x.toNat / 65536 % 256),
    BitVec.ofNat 8 (x.toNat / 256 % 256), BitVec.ofNat 8 (x.toNat % 256)] := by
  have h := x.isLt
  rw [bytes4, extractByte_eq, extractByte_eq, extractByte_eq, extractByte_eq,
    show x.toNat / 2 ^ 24 % 256 = x.toNat / 16777216 by omega,
    show x.toNat / 2 ^ 16 % 256 = x.toNat / 65536 % 256 by omega,
    show x.toNat / 2 ^ 8 % 256 = x.toNat / 256 % 256 by omega,
    show x.toNat / 2 ^ 0 % 256 = x.toNat % 256 by omega]

end Sys2Proof.Machine

namespace Sys2Proof.Proofs

open Sys2Proof Sys2Proof.Machine

/-- Settles O50: the four answers of the gate unit. -/
theorem gateBindings : Obligations.GateBindings := by
  intro p g rq s
  refine ⟨fun r q pol hpass hbody => ?bind, fun hpass hbody => ?unbind⟩
  case bind =>
    have hargs : bindArgs rq.body = some ⟨g, ⟨r, q⟩, pol⟩ := by rw [hbody, bindArgs_eq]
    refine ⟨fun h => ?_, fun h => ?_⟩
    · exact congrArg Host.Outcome.next (serve_eq hpass bindGateOwner_local (bindGateOwner_asserted hargs h))
    · exact congrArg Host.Outcome.next (serve_eq hpass bindGateOwner_local (bindGateOwner_bound hargs h))
  case unbind =>
    have hargs : gateArg rq.body 0 = some g := by rw [hbody]; exact below_gate g
    refine ⟨fun h => ?_, fun h => ?_⟩
    · exact congrArg Host.Outcome.next (serve_eq hpass unbindGateOwner_local (unbindGateOwner_asserted hargs h))
    · exact congrArg Host.Outcome.next (serve_eq hpass unbindGateOwner_local (unbindGateOwner_unbound hargs h))

/-- Settles O51: the answer of each request in each mode; for HALT_TIMEBASE the tick in progress ends first. -/
theorem timebaseRequests : Obligations.TimebaseRequests := by
  intro p rq s
  refine ⟨fun d hpass hbody => ⟨fun h => ?setRunning, fun h => ?setHalted⟩,
    fun hpass => ⟨fun h => ?startHalted, fun h => ?startRunning⟩, fun hpass => ⟨fun h => ?halt, ?ended⟩⟩
  case setRunning =>
    exact congrArg Host.Outcome.next (serve_eq hpass setTimebaseOwner_local (setTimebaseOwner_running h))
  case setHalted =>
    have hown := setTimebaseOwner_halted (p := p) (body := rq.body) h
    rw [hbody, ← List.append_nil (bytes2 d), halfAt_bytes2_append, List.append_nil, ← hbody] at hown
    exact congrArg Host.Outcome.next (serve_eq hpass setTimebaseOwner_local hown)
  case startHalted =>
    exact congrArg Host.Outcome.next (serve_eq hpass startTimebaseOwner_local (startTimebaseOwner_halted h))
  case startRunning =>
    exact congrArg Host.Outcome.next (serve_eq hpass startTimebaseOwner_local (startTimebaseOwner_running h))
  case halt =>
    have hend : s.tickEnded .haltTimebase p = s := by rw [tickEnded_passing hpass, finishTick_of_due_or_halted h]
    have hserve := serve_eq hpass haltTimebaseOwner_local rfl
    exact congrArg Host.Outcome.next ((congrArg (State.serve · _ _ p) hend).trans hserve)
  case ended =>
    have hend : s.tickEnded .haltTimebase p = s.finishTick.tickEnded .haltTimebase p := by
      rw [tickEnded_passing hpass, tickEnded_finishTick]
    exact congrArg (fun u : State => Host.Outcome.next (u.serve .haltTimebase haltTimebaseOwner p)) hend

/-- Settles O27. -/
theorem setQuotaReplaces : Obligations.SetQuotaReplaces := by
  intro p q lq wq rq s hpass hbody hl hw
  exact congrArg Host.Outcome.next (serve_eq hpass setQuotaOwner_local (setQuotaOwner_eq hbody hl hw))

/-- Settles O29: liveness remaining is reported 0 where none is present. -/
theorem sessionReports : Obligations.SessionReports := by
  intro p rq s
  refine ⟨fun hpass => ?keepalive, fun q hpass hbody => ?status⟩
  case keepalive => exact congrArg Host.Outcome.next (serve_eq hpass keepaliveOwner_local rfl)
  case status =>
    have harg : portArg rq.body 0 = some q := by rw [hbody]; exact below_port q
    have hserve := serve_eq hpass portStatusOwner_local (portStatusOwner_eq harg)
    refine (congrArg Host.Outcome.next hserve).trans ?_
    simp only [State.portReport, portByte_eq]
    rcases hs : (s.session q).st with _ | (_ | n) | _ <;> rfl

/-- Settles O30: the reports byte by byte, and the tables of values. -/
theorem recordReports : Obligations.RecordReports := by
  refine ⟨fun p r rq s hpass hbody => ?resource, fun p l g rq s hpass hbody hg hgen hown => ?lease, fun _ => rfl, rfl, rfl,
    rfl, fun _ => rfl, rfl, rfl, rfl, rfl, rfl, fun b => rfl, bytes2_eq, bytes4_eq⟩
  case resource =>
    have harg : resArg rq.body 0 = some r := by rw [hbody]; exact below_resource r
    have hserve := serve_eq hpass queryResourceOwner_local (queryResourceOwner_eq harg)
    refine (congrArg Host.Outcome.next hserve).trans ?_
    simp only [State.resourceReport, headWaiter_eq, slotPort_eq]
    rfl
  case lease =>
    have hanswer (hlisted : (s.lease l).isHolder = true ∨ (s.lease l).isEnded = true) :
        exec (.queryLease p) s = .next (s.replied p rq .done ((s.lease l).report l)) := by
      have hname : s.resolveLease p (byteAt rq.body 0) (byteAt rq.body 1) = .names l := by
        rw [hbody]
        exact resolveLease_names hg hgen.symm hlisted hown
      exact congrArg Host.Outcome.next (serve_eq hpass queryLeaseOwner_local (withLease_names hname))
    refine ⟨fun h a hl => ?_, fun h x hl => ?_, fun h c hl => ?_⟩
    · rw [hanswer (listed_of_active hl).1]
      simp [Lease.report, hl, leaseReportOf, hgen]
    · rw [hanswer (listed_of_grace hl).1]
      simp [Lease.report, hl, leaseReportOf, hgen, bytes2, flagByte]
    · rw [hanswer (listed_of_ended hl).1]
      simp [Lease.report, hl, leaseReportOf, hgen, bytes2, flagByte, endRevoked]

end Sys2Proof.Proofs
end

