-- ==== Sys2Proof/Proofs/LeaseRequests.lean ====
section
/-! PROOFS. The requests on a lease that its id names (spec sections 2.7, 4.2, 4.4), and CANCEL_WAIT of a WAITING wait
(spec section 3.6). -/

namespace Sys2Proof.Machine

variable {s t : State} {p : Port} {rq : Request} {body : List Byte} {l : LeaseNo} {g : Byte}

/-! ### The answer of a request on a lease -/

/-- The lease id at the front of a body names the port's own listed lease. -/
theorem resolveLease_body {own : LeaseNo → Owner} {bs : List Byte} (hbody : rq.body = [byteOf l.val, g] ++ bs) (hg : g ≠ 0)
    (hgen : g = (s.lease l).gen) (hlisted : (s.lease l).isHolder = true ∨ (s.lease l).isEnded = true)
    (hown : (s.lease l).ownedBy p = true) : withLease own p rq.body s = own l p rq.body s :=
  withLease_names (by rw [hbody]; exact resolveLease_names hg hgen.symm hlisted hown)

/-! ### A record by its parts -/

theorem lease_freed_eq (x : Lease) : x.freed = ⟨x.gen, .free⟩ := rfl
theorem wait_freed_eq (x : Wait) : x.freed = ⟨x.gen, .free⟩ := rfl

/-! ### RENEW (R37, R38) -/

theorem givenTerm_eq (a : Attrs) (term : Half) : a.givenTerm term =
    if term = 0 then a.defaultTerm else if a.maxTerm < term then a.maxTerm else term := rfl

theorem renewed_eq (n : Half) : renewed n = if n = 65535 then 65535 else n + 1 := by
  unfold renewed
  split
  · next h => exact h
  · rfl

theorem renewLease_active {h : Holding} {a : ActivePart} (hl : (s.lease l).st = .active h a) :
    renewLease l p body s = (⟨.done, bytes2 ((s.res h.claim.res).attrs.givenTerm (halfAt body 2)) ++ [0]⟩,
      s.setLease l ⟨(s.lease l).gen,
        renewedState h ((s.res h.claim.res).attrs.givenTerm (halfAt body 2)) a.promo⟩) := by
  simp [renewLease, hl, flagByte]

theorem renewLease_rescued {h : Holding} {x : GracePart} (hl : (s.lease l).st = .grace h x) (hc : x.cause = .term) :
    renewLease l p body s = (⟨.done, bytes2 ((s.res h.claim.res).attrs.givenTerm (halfAt body 2)) ++ [1]⟩,
      (s.setLease l ⟨(s.lease l).gen, renewedState h ((s.res h.claim.res).attrs.givenTerm (halfAt body 2)) none⟩).flag p
        (.lease l) .rescued) := by
  simp [renewLease, hl, hc, flagByte]

theorem renewLease_revoking {h : Holding} {x : GracePart} (hl : (s.lease l).st = .grace h x) (hc : x.cause ≠ .term) :
    renewLease l p body s = (.refuse .revoking, s) := by
  simp [renewLease, hl, hc]

/-! ### RELEASE (R41) -/

/-- A lease as its release leaves it: FREE, its entry withdrawn. -/
theorem releaseHolder_eq {r : ResNo} : s.releaseHolder p l r =
    ((s.setLease l ⟨(s.lease l).gen, .free⟩).setAttn p ((s.attn p).filter fun e => e.ref ≠ .lease l)).leave r l := rfl

theorem releaseLease_holder {h : Holding}
    (hl : (∃ a, (s.lease l).st = .active h a) ∨ ∃ x, (s.lease l).st = .grace h x) :
    releaseLease l p body s = (⟨.done, []⟩, s.releaseHolder p l h.claim.res) := by
  rcases hl with ⟨a, hl⟩ | ⟨x, hl⟩ <;> simp [releaseLease, hl]

section Leave

variable {r : ResNo} {x : Resource}

/-- A lease leaves the holder list of its resource (R7, R8): what follows by the holders left. -/
theorem leave_nil (hx : (s.res r).without l = x) (h : x.holders = []) :
    s.leave r l = (s.setRes r x).lastHolderLeft r := by
  simp only [State.leave, hx, h]

theorem leave_promoted {q : LeaseNo} (hx : (s.res r).without l = x) (h : x.holders = [q]) (hs : x.slot = some q) :
    s.leave r l = (s.setRes r x).promotionCompletes r q := by
  simp only [State.leave, hx, h, hs, if_true]

theorem leave_served (hx : (s.res r).without l = x) (h : x.holders ≠ []) (hs : ∀ q, x.holders = [q] → x.slot ≠ some q) :
    s.leave r l = (s.setRes r x).grantPass r := by
  simp only [State.leave, hx]
  split
  · exact absurd ‹_› h
  · exact if_neg (hs _ ‹_›)
  · rfl

/-- The last holder has left: what follows by the state of the resource (R8, R100). -/
theorem lastHolderLeft_retiring (h : (s.res r).st = .retiring) : s.lastHolderLeft r =
    if s.attached 0 then
      (s.setRes r { s.res r with st := .undefined, attrs := .cleared, retireNotice := false }).flag 0 (.resource r) .retired
    else s.setRes r { s.res r with st := .undefined, attrs := .cleared, retireNotice := false } := by
  simp only [State.lastHolderLeft, h, State.completeRetirement]

theorem lastHolderLeft_settles (h : (s.res r).st = .exclusive ∨ (s.res r).st = .shared)
    (hs : (s.res r).attrs.settle ≠ 0) :
    s.lastHolderLeft r = s.setRes r { s.res r with st := .settling (s.res r).attrs.settle } := by
  rcases h with h | h <;> simp only [State.lastHolderLeft, h, if_neg hs]

theorem lastHolderLeft_frees (h : (s.res r).st = .exclusive ∨ (s.res r).st = .shared) (hs : (s.res r).attrs.settle = 0) :
    s.lastHolderLeft r = (s.setRes r { s.res r with st := .free }).grantPass r := by
  rcases h with h | h <;> simp only [State.lastHolderLeft, h, if_pos hs]

/-- The state with resource `r`, which would stand as `x`, retired (R100). -/
def State.retired (s : State) (r : ResNo) (x : Resource) : State :=
  let v := s.setRes r { x with st := .undefined, attrs := .cleared, retireNotice := false }
  if s.attached 0 then v.flag 0 (.resource r) .retired else v

/-- The last holder leaves (R8): its resource is retired, settles, or is FREE with a grant pass. -/
theorem leave_retires (hx : (s.res r).without l = x) (h : x.holders = []) (hst : x.st = .retiring) :
    s.leave r l = s.retired r x := by
  rw [leave_nil hx h, lastHolderLeft_retiring (by rw [res_setRes_self, hst]), setRes_setRes, res_setRes_self]
  rfl

theorem leave_settles (hx : (s.res r).without l = x) (h : x.holders = []) (hst : x.st = .exclusive ∨ x.st = .shared)
    (hs : x.attrs.settle ≠ 0) : s.leave r l = s.setRes r { x with st := .settling x.attrs.settle } := by
  rw [leave_nil hx h, lastHolderLeft_settles (by rw [res_setRes_self]; exact hst) (by rw [res_setRes_self]; exact hs),
    setRes_setRes, res_setRes_self]

theorem leave_frees (hx : (s.res r).without l = x) (h : x.holders = []) (hst : x.st = .exclusive ∨ x.st = .shared)
    (hs : x.attrs.settle = 0) : s.leave r l = (s.setRes r { x with st := .free }).grantPass r := by
  rw [leave_nil hx h, lastHolderLeft_frees (by rw [res_setRes_self]; exact hst) (by rw [res_setRes_self]; exact hs),
    setRes_setRes, res_setRes_self]

end Leave

/-! ### The answer ENDED (R39, R42, R72, R82) -/

/-- The tombstone returns to FREE, and its entry leaves the list of the port. -/
theorem answerEnded_eq {c : RevokeCause} : s.answerEnded p l c = (⟨.ended, [1, c.value]⟩,
    (s.setLease l ⟨(s.lease l).gen, .free⟩).setAttn p ((s.attn p).filter fun e => e.ref ≠ .lease l)) := rfl

/-- The four requests that meet an ENDED lease are served by an owner that answers ENDED. -/
theorem exec_ended {k : Req} {h : Holding} {c : RevokeCause} (hk : k ∈ [Req.renew, .release, .promote, .demote])
    (hl : (s.lease l).st = .ended h c) : ∃ own : LeaseNo → Owner, (withLease own).Local
      ∧ exec (k.command p) s = .next (s.serve k (withLease own) p) ∧ own l p body s = s.answerEnded p l c := by
  simp only [List.mem_cons, List.not_mem_nil, or_false] at hk
  rcases hk with rfl | rfl | rfl | rfl
  · exact ⟨renewLease, renewOwner_local, rfl, by simp [renewLease, hl]⟩
  · exact ⟨releaseLease, releaseOwner_local, rfl, by simp [releaseLease, hl]⟩
  · exact ⟨promoteLease, promoteOwner_local, rfl, by simp [promoteLease, hl]⟩
  · exact ⟨demoteLease, demoteOwner_local, rfl, by simp [demoteLease, hl]⟩

/-! ### PROMOTE (R72 to R74) -/

theorem promoteLease_grace {h : Holding} {x : GracePart} (hl : (s.lease l).st = .grace h x) :
    promoteLease l p body s = (.refuse .revoking, s) := by
  simp [promoteLease, hl]

section PromoteActive

variable {h : Holding} {a : ActivePart} (hl : (s.lease l).st = .active h a)
include hl

theorem promoteLease_exclusive (hm : h.claim.mode = .exclusive) :
    promoteLease l p body s = (.refuse .wrongMode, s) := by
  simp [promoteLease, hl, hm]

theorem promoteLease_conflict (hm : h.claim.mode = .shared) (hs : (s.res h.claim.res).slot ≠ none) :
    promoteLease l p body s = (.refuse .conflict, s) := by
  simp [promoteLease, hl, hm, Option.isSome_iff_ne_none, hs]

variable (hm : h.claim.mode = .shared) (hs : (s.res h.claim.res).slot = none)
include hm hs

theorem promoteLease_exhausted (hh : (s.res h.claim.res).holders = [l]) (he : (s.res h.claim.res).epoch = 0xFFFFFFFF) :
    promoteLease l p body s = (.refuse .epochExhausted, s) := by
  simp [promoteLease, hl, hm, hs, hh, he, maxEpoch]

theorem promoteLease_now (hh : (s.res h.claim.res).holders = [l]) (he : (s.res h.claim.res).epoch ≠ 0xFFFFFFFF) :
    promoteLease l p body s = s.promoteNow l h a := by
  have he' : (s.res h.claim.res).epoch ≠ maxEpoch := he
  simp [promoteLease, hl, hm, hs, hh, he']

theorem promoteLease_held (hh : (s.res h.claim.res).holders ≠ [l]) (hn : halfAt body 2 = 0) :
    promoteLease l p body s = (.refuse .held, s) := by
  simp [promoteLease, hl, hm, hs, hh, hn]

theorem promoteLease_pending (hh : (s.res h.claim.res).holders ≠ [l]) (hn : halfAt body 2 ≠ 0) :
    promoteLease l p body s = s.promotePending l h a (halfAt body 2) := by
  have hn' : ¬ halfAt body 2 = 0#16 := hn
  simp [promoteLease, hl, hm, hs, hh, hn']

end PromoteActive

/-! ### DEMOTE (R82, R83) -/

theorem demoteLease_grace {h : Holding} {x : GracePart} (hl : (s.lease l).st = .grace h x) :
    demoteLease l p body s = (.refuse .wrongMode, s) := by
  simp [demoteLease, hl]

section DemoteActive

variable {h : Holding} {a : ActivePart} (hl : (s.lease l).st = .active h a)
include hl

theorem demoteLease_wrongMode (hm : h.claim.mode = .shared ∨ (s.res h.claim.res).attrs.shareLimit = 0) :
    demoteLease l p body s = (.refuse .wrongMode, s) := by
  simp only [demoteLease, hl, if_pos hm]

variable (hm : h.claim.mode = .exclusive) (hs : (s.res h.claim.res).attrs.shareLimit ≠ 0)
include hm hs

theorem demoteLease_exhausted (he : (s.res h.claim.res).epoch = 0xFFFFFFFF) :
    demoteLease l p body s = (.refuse .epochExhausted, s) := by
  have hn : ¬ (h.claim.mode = .shared ∨ (s.res h.claim.res).attrs.shareLimit = 0) := by simp [hm]; exact hs
  have he' : (s.res h.claim.res).epoch = maxEpoch := he
  simp only [demoteLease, hl, if_neg hn, if_pos he']

theorem demoteLease_now (he : (s.res h.claim.res).epoch ≠ 0xFFFFFFFF) :
    demoteLease l p body s = s.demoteNow l h a := by
  have hn : ¬ (h.claim.mode = .shared ∨ (s.res h.claim.res).attrs.shareLimit = 0) := by simp [hm]; exact hs
  have he' : (s.res h.claim.res).epoch ≠ maxEpoch := he
  simp only [demoteLease, hl, if_neg hn, if_neg he']

end DemoteActive

/-! ### CANCEL_WAIT of a WAITING wait (R62) -/

theorem cancelNamed_waiting {w : WaitNo} {c : WaitClaim} {n : Half} (hw : (s.wait w).st = .waiting c n l) :
    cancelNamed p w s = (⟨.done, []⟩,
      ((s.setWait w ⟨(s.wait w).gen, .free⟩).setLease l ⟨(s.lease l).gen, .free⟩).dropWait c.res w) := by
  simp [cancelNamed, hw, wait_freed_eq, lease_freed_eq]

theorem dropWait_head {r : ResNo} {w : WaitNo} (h : (s.res r).queue.head? = some w) : s.dropWait r w =
    (s.setRes r { s.res r with queue := (s.res r).queue.filter (· ≠ w) }).grantPass r := by
  simp only [State.dropWait, if_pos h]

theorem dropWait_behind {r : ResNo} {w : WaitNo} (h : (s.res r).queue.head? ≠ some w) : s.dropWait r w =
    s.setRes r { s.res r with queue := (s.res r).queue.filter (· ≠ w) } := by
  simp only [State.dropWait, if_neg h]

/-! ### A promotion that is left alone (R76, R77) -/

theorem promotionCompletes_exhausted {r : ResNo} {h : Holding} {a : ActivePart} (hl : (s.lease l).st = .active h a)
    (he : (s.res r).epoch = maxEpoch) : s.promotionCompletes r l =
      (((s.setRes r { s.res r with slot := none }).setLease l
        ⟨(s.lease l).gen, .active h { a with promo := none }⟩).flag h.claim.port (.lease l) .promoteEnded).grantPass r := by
  simp only [State.promotionCompletes, hl, if_pos he]

/-- The resource is EXCLUSIVE then, so the grant pass finds nothing to serve. -/
theorem promotionCompletes_promoted {r : ResNo} {h : Holding} {a : ActivePart} (hl : (s.lease l).st = .active h a)
    (he : (s.res r).epoch ≠ maxEpoch) : s.promotionCompletes r l =
      ((s.setRes r { s.res r with slot := none, epoch := (s.res r).epoch + 1, st := .exclusive }).setLease l
        ⟨(s.lease l).gen, promotedState h a ((s.res r).epoch + 1)⟩).flag h.claim.port (.lease l) .promoted := by
  simp only [State.promotionCompletes, hl, if_neg he]
  refine grantPass_idle ?_ ?_ <;> simp [State.flag]

end Sys2Proof.Machine

namespace Sys2Proof.Proofs

open Sys2Proof Sys2Proof.Machine

/-- Settles O38: the three answers of RENEW. -/
theorem renewOutcomes : Obligations.RenewOutcomes := by
  intro p l g term rq s hpass hbody hg hgen hown given again
  have hterm : halfAt rq.body 2 = term := by rw [hbody]; exact halfAt_bytes2 term
  have hanswer {rp : Reply} {t : State} (hlisted : (s.lease l).isHolder = true ∨ (s.lease l).isEnded = true)
      (ho : renewLease l p rq.body s = (rp, t)) :
      exec (.renew p) s = .next (t.replied p rq rp.result rp.body) :=
    congrArg Host.Outcome.next (serve_eq hpass renewOwner_local
      ((resolveLease_body hbody hg hgen hlisted hown).trans ho))
  refine ⟨fun h a hl => ?active, fun h x hl hc => ?rescued, fun h x hl hc => ?revoking⟩
  case active =>
    rw [hanswer (listed_of_active hl).1 (renewLease_active hl), hterm, hgen, renewedState, renewed_eq, givenTerm_eq]
  case rescued =>
    rw [hanswer (listed_of_grace hl).1 (renewLease_rescued hl hc), hterm, hgen, renewedState, renewed_eq, givenTerm_eq]
  case revoking => exact hanswer (listed_of_grace hl).1 (renewLease_revoking hl hc)

/-- Settles O39: the record and its entry go, and the rest is the leaving of the holder list. -/
theorem releaseOutcomes : Obligations.ReleaseOutcomes := by
  intro p l g h rq s hpass hbody hg hgen hport hl r x y u undefined
  have hlisted : ((s.lease l).isHolder = true ∨ (s.lease l).isEnded = true) ∧ (s.lease l).ownedBy p = true := by
    rcases hl with ⟨a, hl⟩ | ⟨x, hl⟩
    · exact hport ▸ listed_of_active hl
    · exact hport ▸ listed_of_grace hl
  have hanswer : exec (.release p) s = .next ((u.leave r l).replied p rq .done []) := by
    have ho := (resolveLease_body (own := releaseLease) (bs := []) hbody hg hgen hlisted.1 hlisted.2).trans
      (releaseLease_holder hl)
    rw [releaseHolder_eq, ← hgen] at ho
    exact congrArg Host.Outcome.next (serve_eq hpass releaseOwner_local ho)
  have hy : (u.res r).without l = y := rfl
  rw [hanswer]
  refine ⟨fun hnil hst => ?retired, fun hnil hst hs => ?settles, fun hnil hst hs => ?frees,
    fun q hq hs => ?promoted, fun hne hs => ?served⟩
  case retired => rw [leave_retires hy hnil hst]; rfl
  case settles => rw [leave_settles hy hnil hst hs]
  case frees => rw [leave_frees hy hnil hst hs]
  case promoted => rw [leave_promoted hy hq hs]
  case served => rw [leave_served hy hne hs]

/-- Settles O40: one answer, whichever of the four requests meets the tombstone. -/
theorem endedAnswered : Obligations.EndedAnswered := by
  intro k p l h c rq s hk hpass hindex hgen hne hl hport
  obtain ⟨own, hlocal, hexec, hown⟩ := exec_ended (p := p) (body := rq.body) hk hl
  have hname : s.resolveLease p (byteAt rq.body 0) (byteAt rq.body 1) = .names l := by
    rw [hindex, hgen]
    exact resolveLease_names hne rfl (listed_of_ended hl).1 (hport ▸ (listed_of_ended hl).2)
  have ho : withLease own p rq.body s = _ := (withLease_names hname).trans (hown.trans answerEnded_eq)
  rw [hexec, serve_eq hpass hlocal ho]

/-- Settles O42: both records are freed, and the wait leaves its queue. -/
theorem cancelWaitingWait : Obligations.CancelWaitingWait := by
  intro p w g c n l rq s hpass hbody hg hgen hw hport x u
  have hown : (s.wait w).ownedBy p = true := by simp [Wait.ownedBy, Wait.claim?, hw, hport]
  have hname : s.resolveWait p (byteAt rq.body 0) (byteAt rq.body 1) = .names w := by
    rw [hbody]
    exact resolveWait_names hg hgen.symm (by simp [Wait.isFree, hw]) hown
  have hexec := serve_eq hpass cancelWaitOwner_local ((cancelWaitOwner_names hname).trans (cancelNamed_waiting hw))
  rw [← hgen] at hexec
  refine ⟨fun hhead => ?_, fun hhead => ?_⟩
  · rw [dropWait_head (by exact hhead)] at hexec
    exact congrArg Host.Outcome.next hexec
  · rw [dropWait_behind (by exact hhead)] at hexec
    exact congrArg Host.Outcome.next hexec

/-- Settles O43, in the order of Table 4-1. -/
theorem promoteOutcomes : Obligations.PromoteOutcomes := by
  intro p l g patience h rq s hpass hbody hg hgen hport r x
  have hpatience : halfAt rq.body 2 = patience := by rw [hbody]; exact halfAt_bytes2 patience
  have hanswer {rp : Reply} {t : State}
      (hlisted : ((s.lease l).isHolder = true ∨ (s.lease l).isEnded = true) ∧ (s.lease l).ownedBy h.claim.port = true)
      (ho : promoteLease l p rq.body s = (rp, t)) :
      exec (.promote p) s = .next (t.replied p rq rp.result rp.body) :=
    congrArg Host.Outcome.next (serve_eq hpass promoteOwner_local
      ((resolveLease_body hbody hg hgen hlisted.1 (hport ▸ hlisted.2)).trans ho))
  refine ⟨fun y hl => hanswer (listed_of_grace hl) (promoteLease_grace hl), fun a hl => ?_⟩
  have hactive {rp : Reply} {t : State} := hanswer (rp := rp) (t := t) (listed_of_active hl)
  refine ⟨fun hm => hactive (promoteLease_exclusive hl hm), fun hm hs => hactive (promoteLease_conflict hl hm hs),
    fun hm hs hh he => hactive (promoteLease_exhausted hl hm hs hh he), fun hm hs hh he => ?now,
    fun hm hs hh hn => hactive (promoteLease_held hl hm hs hh (hpatience.trans hn)), fun hm hs hh hn => ?pending⟩
  case now =>
    rw [hactive (promoteLease_now hl hm hs hh he), hgen]
    rfl
  case pending =>
    rw [hactive (promoteLease_pending hl hm hs hh (hpatience ▸ hn)), hpatience, hgen]

/-- Settles O44. -/
theorem promotionCompletion : Obligations.PromotionCompletion := by
  intro s r l h a hl
  exact ⟨fun he => promotionCompletes_promoted hl he, fun he => promotionCompletes_exhausted hl he⟩

/-- Settles O45. -/
theorem demoteOutcomes : Obligations.DemoteOutcomes := by
  intro p l g h rq s hpass hbody hg hgen hport r x
  have hanswer {rp : Reply} {t : State}
      (hlisted : ((s.lease l).isHolder = true ∨ (s.lease l).isEnded = true) ∧ (s.lease l).ownedBy h.claim.port = true)
      (ho : demoteLease l p rq.body s = (rp, t)) :
      exec (.demote p) s = .next (t.replied p rq rp.result rp.body) :=
    congrArg Host.Outcome.next (serve_eq hpass demoteOwner_local
      ((resolveLease_body (bs := []) hbody hg hgen hlisted.1 (hport ▸ hlisted.2)).trans ho))
  refine ⟨fun y hl => hanswer (listed_of_grace hl) (demoteLease_grace hl), fun a hl => ?_⟩
  have hactive {rp : Reply} {t : State} := hanswer (rp := rp) (t := t) (listed_of_active hl)
  refine ⟨fun hm => hactive (demoteLease_wrongMode hl hm),
    fun hm hs he => hactive (demoteLease_exhausted hl hm hs he), fun hm hs he => ?now⟩
  rw [hactive (demoteLease_now hl hm hs he), hgen]

end Sys2Proof.Proofs
end

