-- ==== Sys2Proof/Proofs/Acquire.lean ====
section
/-! PROOFS. ACQUIRE (spec section 2.5): the immediate grant, the queueing, and the refusals in their order. -/

namespace Sys2Proof.Machine

variable {s t : State} {p : Port} {rq : Request} {body : List Byte} {l : LeaseNo} {w : WaitNo} {a : AcquireArgs}

/-! ### The fields of the body (R26) -/

theorem acquireArgs_eq {r : ResNo} {m : Mode} {term patience : Half} {c : Bool}
    (hb : body = [byteOf r.val, m.value] ++ bytes2 term ++ bytes2 patience ++ [flagByte c]) :
    acquireArgs body = some ⟨r, m, term, patience, c⟩ := by
  have hterm : halfAt body 2 = term := by rw [hb]; exact bytes2_join term
  have hpatience : halfAt body 4 = patience := by rw [hb]; exact bytes2_join patience
  have hres : resArg body 0 = some r := by rw [hb]; exact below_resource r
  have hmode : modeArg (byteAt body 1) = some m := by rw [hb]; exact modeArg_value m
  have hflag : contendArg (byteAt body 6) = some c := by rw [hb]; exact contendArg_flagByte c
  simp only [acquireArgs, hterm, hpatience, hres, hmode, hflag]

theorem acquireOwner_eq (h : acquireArgs body = some a) : acquireOwner p body s = s.acquireChecked p a := by
  simp only [acquireOwner, h]

/-! ### The lowest FREE record (R25, R51) -/

/-- The first element of `Fin n` that meets a condition is the least. -/
theorem find?_finRange_eq_some {n : Nat} {f : Fin n → Bool} {i : Fin n} (hi : f i = true) (hlt : ∀ j < i, f j = false) :
    (List.finRange n).find? f = some i := by
  rw [List.find?_eq_some_iff_getElem]
  refine ⟨hi, i.val, by simp, by simp, fun j hj => ?_⟩
  simp only [List.getElem_finRange, Fin.cast_mk, Bool.not_eq_true']
  exact hlt _ hj

theorem freeLease_eq_some (h : s.LowestFreeLease l) : s.freeLease? = some l :=
  find?_finRange_eq_some h.1 h.2

theorem freeWait_eq_some (h : s.LowestFreeWait w) : s.freeWait? = some w :=
  find?_finRange_eq_some h.1 h.2

theorem freeLease_eq_none : s.freeLease? = none ↔ ∀ l, (s.lease l).isFree = false := by
  simp [State.freeLease?, List.find?_eq_none]

theorem freeWait_eq_none : s.freeWait? = none ↔ ∀ w, (s.wait w).isFree = false := by
  simp [State.freeWait?, List.find?_eq_none]

/-! ### Grantable now (R28) -/

theorem grantable_iff {x : Resource} {m : Mode} : x.grantable m = true ↔ x.queue = [] ∧ (x.st = .free ∨
    x.st = .shared ∧ m = .shared ∧ x.slot = none ∧ x.holders.length < x.attrs.shareLimit.toNat) := by
  rcases hst : x.st with _ | _ | _ | _ | _ | _ <;> cases m <;>
    simp [Resource.grantable, hst, List.isEmpty_iff, Option.isNone_iff_eq_none, and_comm]

/-! ### A holder joining (R6, R11, R12) -/

theorem join_free {x : Resource} {m : Mode} (h : x.st = .free) : x.join l m = { x with
    st := if m = .exclusive then .exclusive else .shared, epoch := x.epoch + 1, holders := x.holders ++ [l] } := by
  cases m <;> simp [Resource.join, h, Mode.resState]

theorem join_shared {x : Resource} {m : Mode} (h : x.st = .shared) :
    x.join l m = { x with holders := x.holders ++ [l] } := by
  simp [Resource.join, h]

/-! ### The checks of Tables 2-4 and 2-5 -/

/-- The checks of Table 2-4 that come before the lease record is allocated. -/
structure State.Admits (s : State) (p : Port) (a : AcquireArgs) : Prop where
  defined : (s.res a.res).st ≠ .undefined
  notRetiring : (s.res a.res).st ≠ .retiring
  mode : a.mode = .shared → (s.res a.res).attrs.shareLimit ≠ 0
  claim : s.hasLiveClaim p a.res = false
  quota : s.leaseUse p < (s.session p).leaseQuota.toNat

theorem acquireChecked_admitted (h : s.Admits p a) (hl : s.freeLease? = some l) : s.acquireChecked p a =
    if (s.res a.res).grantable a.mode then
      if (s.res a.res).st = .free ∧ (s.res a.res).epoch = maxEpoch then (.refuse .epochExhausted, s) else s.grantNow p a l
    else s.acquireWait p a l := by
  have hmode : ¬ (a.mode = .shared ∧ (s.res a.res).attrs.shareLimit = 0) := fun ⟨hm, h0⟩ => h.mode hm h0
  simp only [State.acquireChecked, if_neg h.defined, if_neg h.notRetiring, if_neg hmode, h.claim, Bool.false_eq_true,
    if_false, if_neg (Nat.not_le.mpr h.quota), hl]

theorem acquireChecked_granted (h : s.Admits p a) (hl : s.freeLease? = some l)
    (hg : (s.res a.res).grantable a.mode = true) (he : (s.res a.res).st = .free → (s.res a.res).epoch ≠ maxEpoch) :
    s.acquireChecked p a = s.grantNow p a l := by
  rw [acquireChecked_admitted h hl, if_pos hg, if_neg fun ⟨hst, hx⟩ => he hst hx]

theorem acquireWait_enqueue (hn : a.patience ≠ 0)
    (hq : (s.res a.res).queue.length < (s.res a.res).attrs.queueLimit.toNat)
    (hu : s.waitUse p < (s.session p).waitQuota.toNat) (hw : s.freeWait? = some w) :
    s.acquireWait p a l = s.enqueue p a l w := by
  simp only [State.acquireWait, if_neg hn, if_neg (Nat.not_le.mpr hq), if_neg (Nat.not_le.mpr hu), hw]

/-- Which refusal of Tables 2-4 and 2-5 is the first that applies, if one does. -/
def State.acquireRefusal (s : State) (p : Port) (a : AcquireArgs) : Option Result :=
  let x := s.res a.res
  if x.st = .undefined then some Result.noResource
  else if x.st = .retiring then some .retiring
  else if a.mode = .shared ∧ x.attrs.shareLimit = 0 then some .wrongMode
  else if s.hasLiveClaim p a.res then some .duplicate
  else if (s.session p).leaseQuota.toNat ≤ s.leaseUse p then some .quota
  else if s.freeLease? = none then some .poolEmpty
  else if x.grantable a.mode then if x.st = .free ∧ x.epoch = maxEpoch then some .epochExhausted else none
  else if a.patience = 0 then some .held
  else if x.attrs.queueLimit.toNat ≤ x.queue.length then some .queueFull
  else if (s.session p).waitQuota.toNat ≤ s.waitUse p then some .quota
  else if s.freeWait? = none then some .poolEmpty
  else none

/-- A refused ACQUIRE changes nothing. -/
theorem acquireChecked_refused {result : Result} (h : s.acquireRefusal p a = some result) :
    s.acquireChecked p a = (.refuse result, s) := by
  rcases hl : s.freeLease? with _ | l <;> rcases hw : s.freeWait? with _ | w <;>
    simp only [State.acquireRefusal, State.acquireChecked, State.acquireWait, hl, hw, reduceCtorEq, if_true, if_false]
      at h ⊢ <;>
    grind

end Sys2Proof.Machine

namespace Sys2Proof.Proofs

open Sys2Proof Sys2Proof.Machine

/-- Settles O34: the grant from FREE and the grant that joins a SHARED resource are the two ways to be grantable now. -/
theorem acquireGrants : Obligations.AcquireGrants := by
  intro p r m term patience c l rq s hpass hbody hclaim huse hlow x given gen granted hq hmode
  have hanswer (hd : x.st ≠ .undefined) (hr : x.st ≠ .retiring) (hg : x.grantable m = true)
      (he : x.st = .free → x.epoch ≠ maxEpoch) : exec (.acquire p) s = .next
        ((s.grantNow p ⟨r, m, term, patience, c⟩ l).2.replied p rq .done
          (s.grantNow p ⟨r, m, term, patience, c⟩ l).1.body) :=
    congrArg Host.Outcome.next (serve_eq hpass acquireOwner_local ((acquireOwner_eq (acquireArgs_eq hbody)).trans
      (acquireChecked_granted ⟨hd, hr, hmode, hclaim, huse⟩ (freeLease_eq_some hlow) hg he)))
  refine ⟨fun hst he => ?free, fun hst hm hlt hslot => ?shared⟩
  case free =>
    rw [hanswer (by simp [hst]) (by simp [hst]) (grantable_iff.mpr ⟨hq, .inl hst⟩) fun _ => he]
    have hjoin : (s.res r).join l m = _ := join_free hst
    simp only [State.grantNow, hjoin, grantedState, givenTerm_eq]
    rfl
  case shared =>
    rw [hanswer (by simp [hst]) (by simp [hst]) (grantable_iff.mpr ⟨hq, .inr ⟨hst, hm, hslot, hlt⟩⟩)
      fun h => by simp [hst] at h]
    have hjoin : (s.res r).join l m = _ := join_shared hst
    simp only [State.grantNow, hjoin, grantedState, givenTerm_eq]
    rfl

/-- Settles O35: every check passes, and the request is not grantable now. -/
theorem acquireQueues : Obligations.AcquireQueues := by
  intro p r m term patience c l w rq s hpass hbody hclaim huse hlow hwuse hwlow x genL genW hd hr hmode hn hq hnot
  have hg : ¬ x.grantable m = true := fun h => hnot (by
    obtain ⟨h1, h2⟩ := grantable_iff.mp h
    exact ⟨h1, h2⟩)
  have howner := (acquireOwner_eq (acquireArgs_eq hbody)).trans
    (acquireChecked_admitted ⟨hd, hr, hmode, hclaim, huse⟩ (freeLease_eq_some hlow))
  rw [if_neg hg, acquireWait_enqueue (a := ⟨r, m, term, patience, c⟩) hn hq hwuse (freeWait_eq_some hwlow)] at howner
  exact congrArg Host.Outcome.next (serve_eq hpass acquireOwner_local howner)

/-- Settles O36: the order of the checks is that of the tables. -/
theorem acquireRefusalOrder : Obligations.AcquireRefusalOrder := by
  intro p r m term patience c rq s result hpass hbody x grantable hresult
  have hrefusal : s.acquireRefusal p ⟨r, m, term, patience, c⟩ = some result := by
    have hg : x.grantable m = grantable := by
      rw [Bool.eq_iff_iff, grantable_iff, decide_eq_true_iff]
    simp only [State.acquireRefusal, freeLease_eq_none, freeWait_eq_none]
    rw [← hresult]
    simp only [← hg]
    rfl
  exact congrArg Host.Outcome.next (serve_eq hpass acquireOwner_local
    ((acquireOwner_eq (acquireArgs_eq hbody)).trans (acquireChecked_refused hrefusal)))

end Sys2Proof.Proofs
end

