-- ==== Sys2Proof/Proofs/TableRequests.lean ====
section
/-! PROOFS. The resource table and the notices (spec sections 1.3, 1.7 and 9.4): DEFINE, SCAN, FETCH_NOTICE; the
requests that only read. -/

namespace Sys2Proof.Machine

variable {s t : State} {p : Port} {rq : Request} {body : List Byte} {r : ResNo}

/-! ### DEFINE (R4, R5) -/

theorem defineAttrs_eq {r : ResNo} {a : Attrs} (hb : body = [byteOf r.val, a.cls, a.shareLimit] ++ bytes2 a.defaultTerm
    ++ bytes2 a.maxTerm ++ [a.grace, a.settle, a.queueLimit]) : resArg body 0 = some r ∧ defineAttrs body = a := by
  subst hb
  refine ⟨below_resource r, ?_⟩
  have h1 := bytes2_join a.defaultTerm
  have h2 := bytes2_join a.maxTerm
  cases a
  simp only [defineAttrs, Attrs.mk.injEq]
  exact ⟨rfl, rfl, h1, h2, rfl, rfl, rfl⟩

theorem inRange_iff {a : Attrs} : a.inRange = true ↔ a.cls.toNat ≤ 15 ∧ a.shareLimit.toNat ≤ 4 ∧ a.defaultTerm ≠ 0
    ∧ a.defaultTerm.toNat ≤ a.maxTerm.toNat ∧ a.queueLimit.toNat ≤ 16 := by
  simp [Attrs.inRange]

theorem defineOwner_done (hr : resArg body 0 = some r) (ha : (defineAttrs body).inRange = true)
    (hst : (s.res r).st = .undefined) : defineOwner p body s = (⟨.done, [byteOf r.val] ++ bytes4 (s.res r).epoch⟩,
      s.setRes r { s.res r with st := .free, attrs := defineAttrs body }) := by
  simp [defineOwner, hr, ha, hst]

theorem defineOwner_state (hr : resArg body 0 = some r) (ha : (defineAttrs body).inRange = true)
    (hst : (s.res r).st ≠ .undefined) : defineOwner p body s = (.refuse .state, s) := by
  simp [defineOwner, hr, ha, hst]

/-! ### FETCH_NOTICE (R149 to R151) -/

theorem fetchNoticeOwner_nil (h : s.attn p = []) : fetchNoticeOwner p body s = (⟨.done, [0]⟩, s) := by
  simp [fetchNoticeOwner, h]

theorem fetchNoticeOwner_cons {e : Entry} {es : List Entry} (h : s.attn p = e :: es) : fetchNoticeOwner p body s =
    (⟨.done, [e.ref.kind, e.ref.index, e.causes, byteOf es.length] ++ s.snapshot e.ref⟩,
      (s.setAttn p es).freeFetched e.ref) := by
  simp [fetchNoticeOwner, h]

/-! ### SCAN (R17, R18) -/

/-- A criterion in range, or one that is not named, is read (R17). -/
theorem scanArg_eq {α : Type} {named : Bool} {v : Option α} {a : α} (h : named = true → v = some a) :
    scanArg named v = some (if named then some a else none) := by
  cases named
  · rfl
  · simp [scanArg, h rfl]

/-- The criteria that the selector of a SCAN names, of the values its body gives. -/
def namedCriteria (r0 : ResNo) (sel c m : Byte) (q : Port) (w : Byte) : ScanArgs where
  start := r0
  cls := if sel.getLsbD 0 then some c else none
  states := if sel.getLsbD 1 then some m else none
  holder := if sel.getLsbD 2 then some q else none
  waiters := if sel.getLsbD 3 then some (decide (w = 1)) else none

/-- The criteria of a SCAN body whose named criteria are in range. -/
theorem scanArgs_eq {r0 : ResNo} {sel c m h w : Byte} {q : Port} (hb : body = [byteOf r0.val, sel, c, m, h, w])
    (hsel : sel.toNat ≤ 15) (hc : sel.getLsbD 0 = true → c.toNat ≤ 15)
    (hm : sel.getLsbD 1 = true → 1 ≤ m.toNat ∧ m.toNat ≤ 63) (hh : sel.getLsbD 2 = true → below 4 h = some q)
    (hw : sel.getLsbD 3 = true → w = 0 ∨ w = 1) : scanArgs body = some (namedCriteria r0 sel c m q w) := by
  have h0 : resArg body 0 = some r0 := by rw [hb]; exact below_resource r0
  have hsel' : ¬ 15 < (byteAt body 1).toNat := by rw [hb]; exact Nat.not_lt.mpr hsel
  have h1 : scanArg ((byteAt body 1).getLsbD 0) (if (byteAt body 2).toNat ≤ 15 then some (byteAt body 2) else none) =
      some (if sel.getLsbD 0 then some c else none) := by
    rw [hb]
    exact scanArg_eq fun hs => if_pos (hc hs)
  have h2 : scanArg ((byteAt body 1).getLsbD 1) (if 1 ≤ (byteAt body 3).toNat ∧ (byteAt body 3).toNat ≤ 63 then
      some (byteAt body 3) else none) = some (if sel.getLsbD 1 then some m else none) := by
    rw [hb]
    exact scanArg_eq fun hs => if_pos (hm hs)
  have h3 : scanArg ((byteAt body 1).getLsbD 2) (portArg body 4) = some (if sel.getLsbD 2 then some q else none) := by
    rw [hb]
    exact scanArg_eq hh
  have h4 : scanArg ((byteAt body 1).getLsbD 3) (if byteAt body 5 = 0 then some false else if byteAt body 5 = 1 then
      some true else none) = some (if sel.getLsbD 3 then some (decide (w = 1)) else none) := by
    rw [hb]
    exact scanArg_eq fun hs => by rcases hw hs with rfl | rfl <;> rfl
  simp only [scanArgs, h0, h1, h2, h3, h4, if_neg hsel', Option.bind_eq_bind, Option.bind_some, namedCriteria]

theorem below_eq_some {n : Nat} {b : Byte} {i : Fin n} (h : below n b = some i) : i.val = b.toNat := by
  simp only [below] at h
  split at h
  · cases h
    rfl
  · cases h

theorem scanOwner_eq {a : ScanArgs} (h : scanArgs body = some a) :
    scanOwner p body s = (⟨.done, s.scanReport (s.scanFirst a)⟩, s) := by
  simp [scanOwner, h]

/-- The first element of `Fin n` that meets a condition, or none, decides the search. -/
theorem scanFirst_eq_some {a : ScanArgs} (h0 : a.start ≤ r) (hr : s.scanMatch a r = true)
    (hlt : ∀ r', a.start ≤ r' → r' < r → s.scanMatch a r' = false) : s.scanFirst a = some r :=
  find?_finRange_eq_some (by simp [h0, hr]) fun j hj => by
    by_cases hs : a.start ≤ j
    · simp [hlt j hs hj]
    · simp [hs]

theorem scanFirst_eq_none {a : ScanArgs} (h : ∀ r, a.start ≤ r → s.scanMatch a r = false) : s.scanFirst a = none := by
  simp only [State.scanFirst, List.find?_eq_none, List.mem_finRange, true_imp_iff]
  intro j
  by_cases hs : a.start ≤ j
  · simp [h j hs]
  · simp [hs]

theorem scanBit_eq (x : ResState) : x.scanBit = x.value.toNat := by
  cases x <;> rfl

/-- What it is to match every criterion (Table 1-7). -/
theorem scanMatch_iff {a : ScanArgs} : s.scanMatch a r = true ↔
    (∀ c ∈ a.cls, (s.res r).st ≠ .undefined ∧ (s.res r).attrs.cls = c)
    ∧ (∀ m ∈ a.states, m.getLsbD (s.res r).st.value.toNat = true)
    ∧ (∀ q ∈ a.holder, ∃ l ∈ (s.res r).holders, (s.lease l).ownedBy q = true)
    ∧ ∀ b ∈ a.waiters, (b = true ↔ (s.res r).queue ≠ []) := by
  simp only [State.scanMatch, Bool.and_eq_true, and_assoc]
  refine and_congr ?cls (and_congr ?states (and_congr ?holder ?waiters))
  case cls => cases a.cls <;> simp
  case states => cases a.states <;> simp [scanBit_eq]
  case holder => cases a.holder <;> simp
  case waiters =>
    rcases a.waiters with _ | b
    · simp
    · cases b <;> simp

theorem forall_mem_named {α : Type} {n : Bool} {x : α} {P : α → Prop} :
    (∀ y ∈ (if n then some x else none : Option α), P y) ↔ (n = true → P x) := by
  cases n <;> simp

/-! ### The requests that only read -/

/-- An owner that only reads: the taking of its request changes only the link port that sends it. -/
theorem serve_reads {k : Req} {own : Owner} (h : ∀ body s, (own p body s).2 = s) :
    ∃ x, s.serve k own p = s.setLink p x := by
  simp only [State.serve]
  split
  · split
    · next rq _ _ =>
      have ha : ((s.popRequest p).answer k own p rq.body).2 = s.popRequest p := by
        simp only [State.answer]
        split
        · rfl
        · exact h _ _
      simp only [ha]
      exact ⟨_, setLink_setLink _ _ _ _⟩
    · exact ⟨_, (setLink_link s p).symm⟩
  · exact ⟨_, (setLink_link s p).symm⟩

theorem withLease_reads {own : LeaseNo → Owner} (h : ∀ l body s, (own l p body s).2 = s) :
    (withLease own p body s).2 = s := by
  simp only [withLease]
  split
  · rfl
  · rfl
  · exact h _ _ _

/-- Each of the six reading requests is served by an owner that only reads. -/
theorem exec_reads {k : Req} (hk : k ∈ [Req.keepalive, .portStatus, .queryLease, .queryResource, .checkEpoch, .scan]) :
    ∃ own : Owner, exec (k.command p) s = .next (s.serve k own p) ∧ ∀ body s, (own p body s).2 = s := by
  simp only [List.mem_cons, List.not_mem_nil, or_false] at hk
  rcases hk with rfl | rfl | rfl | rfl | rfl | rfl
  · exact ⟨keepaliveOwner, rfl, fun _ _ => rfl⟩
  · exact ⟨portStatusOwner, rfl, fun _ _ => by simp only [portStatusOwner]; split <;> rfl⟩
  · exact ⟨queryLeaseOwner, rfl, fun _ _ => withLease_reads fun _ _ _ => rfl⟩
  · exact ⟨queryResourceOwner, rfl, fun _ _ => by simp only [queryResourceOwner]; split <;> rfl⟩
  · exact ⟨checkEpochOwner, rfl, fun _ _ => by simp only [checkEpochOwner]; split <;> rfl⟩
  · exact ⟨scanOwner, rfl, fun _ _ => by simp only [scanOwner]; split <;> rfl⟩

end Sys2Proof.Machine

namespace Sys2Proof.Proofs

open Sys2Proof Sys2Proof.Machine

/-- Settles O47. -/
theorem defineOutcomes : Obligations.DefineOutcomes := by
  intro p r a rq s hpass hbody hcls hshare hdef hmax hqueue
  obtain ⟨hr, ha⟩ := defineAttrs_eq hbody
  have hrange : (defineAttrs rq.body).inRange = true := by
    rw [ha]
    exact inRange_iff.mpr ⟨hcls, hshare, fun h => by simp [h] at hdef, hmax, hqueue⟩
  refine ⟨fun hst => ?_, fun hst => ?_⟩
  · have ho := defineOwner_done (p := p) hr hrange hst
    rw [ha] at ho
    exact congrArg Host.Outcome.next (serve_eq hpass defineOwner_local ho)
  · exact congrArg Host.Outcome.next (serve_eq hpass defineOwner_local (defineOwner_state hr hrange hst))

/-- Settles O52: the head entry by the kind of its record. -/
theorem fetchNoticeOutcomes : Obligations.FetchNoticeOutcomes := by
  intro p rq s hpass
  refine ⟨fun hnil => ?empty, fun e es hcons => ?entry⟩
  case empty => exact congrArg Host.Outcome.next (serve_eq hpass fetchNoticeOwner_local (fetchNoticeOwner_nil hnil))
  intro u
  have hexec : exec (.fetchNotice p) s = _ :=
    congrArg Host.Outcome.next (serve_eq hpass fetchNoticeOwner_local (fetchNoticeOwner_cons hcons))
  obtain ⟨ref, causes⟩ := e
  refine ⟨fun l hl => ⟨fun hended => ?tombstone, fun hlive => ?lease⟩, fun w c x hw hst => ?wait, fun r hr => ?res⟩
  case tombstone =>
    cases hl
    rw [hexec]
    simp [State.freeFetched, hended, State.snapshot, Ref.kind, Ref.index, u, lease_freed_eq]
  case lease =>
    cases hl
    rw [hexec]
    simp [State.freeFetched, hlive, State.snapshot, Ref.kind, Ref.index, u]
  case wait =>
    cases hw
    rw [hexec]
    simp [State.freeFetched, hst, State.snapshot, Ref.kind, Ref.index, u, Wait.report, Wait.isEnded, wait_freed_eq]
  case res =>
    cases hr
    rw [hexec]
    simp [State.freeFetched, State.snapshot, Ref.kind, Ref.index, u]

/-- Settles O32: the search and its criteria. -/
theorem scanFindsFirst : Obligations.ScanFindsFirst := by
  intro p r0 sel c m h w rq s hpass hbody hsel hc hm hh hw fits
  obtain ⟨q, hq⟩ : ∃ q : Port, sel.getLsbD 2 = true → below 4 h = some q := by
    by_cases hs : sel.getLsbD 2 = true
    · have hlt : h.toNat < 4 := Nat.lt_succ_of_le (hh hs)
      exact ⟨⟨h.toNat, hlt⟩, fun _ => dif_pos hlt⟩
    · exact ⟨0, fun h => absurd h hs⟩
  have hargs := scanArgs_eq hbody hsel hc hm hq fun hs => by have := hw hs; bv_omega
  have hholder (r : ResNo) (hs : sel.getLsbD 2 = true) :
      (∃ l ∈ (s.res r).holders, (s.lease l).ownedBy q = true) ↔
        ∃ q : Port, q.val = h.toNat ∧ ∃ l ∈ (s.res r).holders, (s.lease l).ownedBy q = true := by
    have hval : q.val = h.toNat := below_eq_some (hq hs)
    refine ⟨fun hl => ⟨q, hval, hl⟩, ?_⟩
    rintro ⟨q', hq', hl⟩
    rwa [Fin.ext (hq'.trans hval.symm)] at hl
  have hfits (r : ResNo) : s.scanMatch (namedCriteria r0 sel c m q w) r = true ↔ fits r := by
    simp only [scanMatch_iff, namedCriteria, forall_mem_named, fits, decide_eq_true_eq]
    exact and_congr_right' (and_congr_right' (and_congr_left' (forall_congr' (hholder r))))
  have hexec : exec (.scan p) s = _ := congrArg Host.Outcome.next (serve_eq hpass scanOwner_local (scanOwner_eq hargs))
  refine ⟨fun r hr0 hr hlt => ?found, fun hnone => ?none⟩
  case found =>
    rw [scanFirst_eq_some hr0 ((hfits r).mpr hr) fun r' h0 h1 => by
      rw [← Bool.not_eq_true, hfits]; exact hlt r' h0 h1] at hexec
    exact hexec
  case none =>
    rw [scanFirst_eq_none fun r' h0 => by rw [← Bool.not_eq_true, hfits]; exact hnone r' h0] at hexec
    exact hexec

/-- Settles O33: their owners leave the state as it is. -/
theorem queriesChangeNothing : Obligations.QueriesChangeNothing := by
  intro k p s t hk hexec
  obtain ⟨own, hserve, hreads⟩ := exec_reads (p := p) (s := s) hk
  obtain ⟨x, hx⟩ := serve_reads (s := s) (k := k) hreads
  rw [hserve, hx] at hexec
  cases hexec
  rw [link_setLink_self]

end Sys2Proof.Proofs
end

