-- ==== Sys2Proof/Proofs/Tame.lean ====
section
/-! PROOFS. What no shared operation does: allocate a record, hand a record to another port or resource, or flag a notice to
a port that owns nothing. -/

namespace Sys2Proof.Machine

variable {s t u : State} {r : ResNo} {l : LeaseNo} {w : WaitNo} {p q : Port}

/-! ### Whose a record is, and on which resource -/

/-- The port and resource of a lease record out of FREE. -/
def Lease.place (x : Lease) : Option (Port × ResNo) := x.claim?.map fun c => (c.port, c.res)

/-- The port and resource of a wait record out of FREE. -/
def Wait.place (x : Wait) : Option (Port × ResNo) := x.claim?.map fun c => (c.port, c.res)

theorem lease_ownedBy_iff_place {x : Lease} : x.ownedBy p = true ↔ x.place.map (·.1) = some p := by
  unfold Lease.ownedBy Lease.place
  rcases x.claim? with _ | c <;> simp

theorem wait_ownedBy_iff_place {x : Wait} : x.ownedBy p = true ↔ x.place.map (·.1) = some p := by
  unfold Wait.ownedBy Wait.place
  rcases x.claim? with _ | c <;> simp

theorem lease_isFree_iff_place {x : Lease} : x.isFree = true ↔ x.place = none := by
  rcases x with ⟨g, _ | _ | _ | _ | _⟩ <;> simp [Lease.isFree, Lease.place, Lease.claim?]

theorem wait_isFree_iff_place {x : Wait} : x.isFree = true ↔ x.place = none := by
  rcases x with ⟨g, _ | _ | _⟩ <;> simp [Wait.isFree, Wait.place, Wait.claim?]

@[simp] theorem lease_place_freed (x : Lease) : x.freed.place = none := rfl
@[simp] theorem wait_place_freed (x : Wait) : x.freed.place = none := rfl

theorem lease_place_of_claim {x : Lease} {c : Claim} (h : x.claim? = some c) : x.place = some (c.port, c.res) := by
  simp [Lease.place, h]

theorem lease_ownedBy_of_claim {x : Lease} {c : Claim} (h : x.claim? = some c) : x.ownedBy c.port = true := by
  simp [Lease.ownedBy, h]

/-- A port that owns no record, and to which no notice of a resource goes. -/
structure State.Silent (s : State) (q : Port) : Prop where
  lease : ∀ l, (s.lease l).ownedBy q = false
  wait : ∀ w, (s.wait w).ownedBy q = false
  zero : q = 0 → s.attached 0 = false

theorem not_silent_of_lease (h : (s.lease l).ownedBy p = true) : ¬ s.Silent p :=
  fun hs => by simp [hs.lease l] at h

theorem not_silent_of_wait (h : (s.wait w).ownedBy p = true) : ¬ s.Silent p :=
  fun hs => by simp [hs.wait w] at h

/-! ### The frame -/

/-- No record is allocated or changes hands, no session and no link port changes, nor does the timebase or
what is due, and no notice goes to a silent port. -/
structure State.Tame (s t : State) : Prop where
  lease : ∀ l, (t.lease l).place = (s.lease l).place ∨ (t.lease l).place = none
  wait : ∀ w, (t.wait w).place = (s.wait w).place ∨ (t.wait w).place = none
  sessions : t.sessions = s.sessions
  links : t.links = s.links
  timebase : t.timebase = s.timebase
  rstN : t.rstN = s.rstN
  due : t.due = s.due
  quiet : ∀ q, s.Silent q → t.attn q = s.attn q

namespace State.Tame

theorem refl (s : State) : s.Tame s := ⟨fun _ => .inl rfl, fun _ => .inl rfl, rfl, rfl, rfl, rfl, rfl, fun _ _ => rfl⟩

theorem attached (h : s.Tame t) (p : Port) : t.attached p = s.attached p := by
  simp only [State.attached, State.session, h.sessions]

/-- A port stays silent. -/
theorem silent (h : s.Tame t) (hq : s.Silent q) : t.Silent q where
  lease l := by
    rw [← Bool.not_eq_true, lease_ownedBy_iff_place]
    rcases h.lease l with e | e
    · rw [e, ← lease_ownedBy_iff_place, hq.lease l]; simp
    · simp [e]
  wait w := by
    rw [← Bool.not_eq_true, wait_ownedBy_iff_place]
    rcases h.wait w with e | e
    · rw [e, ← wait_ownedBy_iff_place, hq.wait w]; simp
    · simp [e]
  zero hz := by rw [h.attached]; exact hq.zero hz

theorem trans (h : s.Tame t) (h' : t.Tame u) : s.Tame u where
  lease l := (h'.lease l).elim (fun e => e ▸ h.lease l) .inr
  wait w := (h'.wait w).elim (fun e => e ▸ h.wait w) .inr
  sessions := h'.sessions.trans h.sessions
  links := h'.links.trans h.links
  timebase := h'.timebase.trans h.timebase
  rstN := h'.rstN.trans h.rstN
  due := h'.due.trans h.due
  quiet q hq := (h'.quiet q (h.silent hq)).trans (h.quiet q hq)

/-- Two operations, the later one given first. -/
theorem after (h' : t.Tame u) (h : s.Tame t) : s.Tame u := h.trans h'

theorem setRes {x : Resource} : s.Tame (s.setRes r x) := ⟨fun _ => .inl rfl, fun _ => .inl rfl, rfl, rfl, rfl, rfl, rfl, fun _ _ => rfl⟩

theorem spendFree : s.Tame s.spendFree := ⟨fun _ => .inl rfl, fun _ => .inl rfl, rfl, rfl, rfl, rfl, rfl, fun _ _ => rfl⟩

theorem setLease {x : Lease} (hx : x.place = (s.lease l).place ∨ x.place = none) : s.Tame (s.setLease l x) where
  lease l' := by
    rw [lease_setLease]
    split
    · next h => rw [h]; exact hx
    · exact .inl rfl
  wait _ := .inl rfl
  sessions := rfl
  links := rfl
  timebase := rfl
  rstN := rfl
  due := rfl
  quiet _ _ := rfl

theorem setWait {x : Wait} (hx : x.place = (s.wait w).place ∨ x.place = none) : s.Tame (s.setWait w x) where
  lease _ := .inl rfl
  wait w' := by
    rw [wait_setWait]
    split
    · next h => rw [h]; exact hx
    · exact .inl rfl
  sessions := rfl
  links := rfl
  timebase := rfl
  rstN := rfl
  due := rfl
  quiet _ _ := rfl

theorem setAttn {x : List Entry} (hp : ¬ s.Silent p) : s.Tame (s.setAttn p x) where
  lease _ := .inl rfl
  wait _ := .inl rfl
  sessions := rfl
  links := rfl
  timebase := rfl
  rstN := rfl
  due := rfl
  quiet _ hq := attn_setAttn_ne _ _ _ fun e => hp (e ▸ hq)

/-- A flagging, after a tame operation, to a port that was not silent before it. -/
theorem flagLater {x : Ref} {c : Cause} (h : s.Tame t) (hp : ¬ s.Silent p) : s.Tame (t.flag p x c) where
  lease := h.lease
  wait := h.wait
  sessions := h.sessions
  links := h.links
  timebase := h.timebase
  rstN := h.rstN
  due := h.due
  quiet q hq := (attn_setAttn_ne _ _ _ fun e : q = p => hp (e ▸ hq)).trans (h.quiet q hq)

/-- A flagging on a lease, at the list of its port. -/
theorem flagOwner {x : Ref} {c : Cause} (hp : (s.lease l).ownedBy p = true) : s.Tame (s.flag p x c) :=
  setAttn (not_silent_of_lease hp)

theorem flagLease {c : Cause} : s.Tame (s.flagLease l c) := by
  unfold State.flagLease
  split
  · exact flagOwner (lease_ownedBy_of_claim ‹_›)
  · exact refl s

theorem foldl {α : Type} {f : State → α → State} (hf : ∀ (t : State) (x : α), t.Tame (f t x)) (xs : List α) (s : State) :
    s.Tame (xs.foldl f s) := by
  induction xs generalizing s with
  | nil => exact refl s
  | cons x xs ih => exact (hf s x).trans (ih _)

end State.Tame

/-! ### The grant pass -/

theorem grantWait_tame : s.Tame (s.grantWait r w) := by
  unfold State.grantWait
  split
  · next c n l hw =>
    split
    · next k hl =>
      have hplace : (s.lease l).place = some (k.port, k.res) := lease_place_of_claim (by simp [Lease.claim?, hl])
      refine .after (.flagOwner (l := l) ?_) (.after (.setLease (.inl ?_)) (.after (.setWait (.inr rfl)) .setRes))
      · simp [Lease.ownedBy, Lease.claim?, grantedState]
      · exact hplace.symm
    · exact .refl s
  · exact .refl s

theorem grantShared_tame (ws : List WaitNo) (s : State) : s.Tame (s.grantShared r ws) := by
  induction ws generalizing s with
  | nil => exact .refl s
  | cons w ws ih =>
    unfold State.grantShared
    split
    · exact grantWait_tame.trans (ih _)
    · exact .refl s

theorem grantPass_tame : s.Tame (s.grantPass r) := by
  unfold State.grantPass
  split
  · split
    · exact .refl s
    · split
      · exact .refl s
      · split
        · exact grantWait_tame.trans (grantShared_tame _ _)
        · exact grantWait_tame
  · split
    · exact grantShared_tame _ _
    · exact .refl s
  · exact .refl s

/-! ### Promotion, and holders leaving -/

theorem promotionCompletes_tame : s.Tame (s.promotionCompletes r l) := by
  unfold State.promotionCompletes
  split
  · next h a hl =>
    have hplace (x : Lease) (hx : x.place = some (h.claim.port, h.claim.res)) : x.place = (s.lease l).place :=
      hx.trans (lease_place_of_claim (by simp [Lease.claim?, hl])).symm
    dsimp only
    split
    · refine .after grantPass_tame (.after (.flagOwner (l := l) ?_) (.after (.setLease (.inl (hplace _ rfl))) .setRes))
      simp [Lease.ownedBy, Lease.claim?]
    · refine .after grantPass_tame (.after (.flagOwner (l := l) ?_) (.after (.setLease (.inl (hplace _ rfl))) .setRes))
      simp [Lease.ownedBy, Lease.claim?, promotedState]
  · exact .refl s

theorem completeRetirement_tame : s.Tame (s.completeRetirement r) := by
  unfold State.completeRetirement
  dsimp only
  split
  · next h =>
    refine .after (.setAttn fun hs => ?_) .setRes
    simp [show s.attached 0 = false from hs.zero rfl] at h
  · exact .setRes

theorem lastHolderLeft_tame : s.Tame (s.lastHolderLeft r) := by
  unfold State.lastHolderLeft
  dsimp only
  split
  case h_1 => exact completeRetirement_tame
  case h_4 => exact .refl s
  all_goals
    split
    · exact .after grantPass_tame .setRes
    · exact .setRes

theorem leave_tame : s.Tame (s.leave r l) := by
  unfold State.leave
  dsimp only
  split
  · exact .after lastHolderLeft_tame .setRes
  · split
    · exact .after promotionCompletes_tame .setRes
    · exact .after grantPass_tame .setRes
  · exact .after grantPass_tame .setRes

/-! ### Grace and the forced end -/

theorem enterGrace_tame {c : RevokeCause} {g : Byte} : s.Tame (s.enterGrace l c g) := by
  unfold State.enterGrace
  split
  · next h a hl =>
    have hset : s.Tame (s.setLease l { s.lease l with st := .grace h ⟨g, c, a.sent⟩ }) :=
      .setLease (.inl (lease_place_of_claim (x := s.lease l) (by simp [Lease.claim?, hl])).symm)
    have hown : ((s.setLease l { s.lease l with st := .grace h ⟨g, c, a.sent⟩ }).lease l).ownedBy h.claim.port = true := by
      simp [Lease.ownedBy, Lease.claim?]
    dsimp only
    split
    · exact .after (.flagOwner (l := l) hown) (.after .setRes (.after (.flagOwner hown) hset))
    · exact .after (.flagOwner hown) hset
  · exact .refl s

/-- A lease in GRACE as an escalation leaves it (R87). -/
def GracePart.escalated (x : GracePart) (c : RevokeCause) (g : Byte) : GracePart :=
  { x with cause := x.cause.higher c, graceLeft := if g < x.graceLeft then g else x.graceLeft }

theorem escalate_eq {h : Holding} {x : GracePart} {c : RevokeCause} {g : Byte} (hl : (s.lease l).st = .grace h x) :
    s.escalate l c g =
      if (x.escalated c g).cause ≠ x.cause ∨ (x.escalated c g).graceLeft ≠ x.graceLeft then
        (s.setLease l ⟨(s.lease l).gen, .grace h (x.escalated c g)⟩).flag h.claim.port (.lease l) .revokePending
      else s.setLease l ⟨(s.lease l).gen, .grace h (x.escalated c g)⟩ := by
  simp only [State.escalate, hl]
  rfl

theorem escalate_tame {h : Holding} {x : GracePart} {c : RevokeCause} {g : Byte} (hl : (s.lease l).st = .grace h x) :
    s.Tame (s.escalate l c g) := by
  have hset : s.Tame (s.setLease l ⟨(s.lease l).gen, .grace h (x.escalated c g)⟩) :=
    .setLease (.inl (lease_place_of_claim (x := s.lease l) (by simp [Lease.claim?, hl])).symm)
  rw [escalate_eq hl]
  split
  · exact .flagLater hset (not_silent_of_lease (l := l) (by simp [Lease.ownedBy, Lease.claim?, hl]))
  · exact hset

theorem applyRevocation_tame {c : RevokeCause} {g : Byte} : s.Tame (State.applyRevocation c g s l) := by
  unfold State.applyRevocation
  split
  · exact enterGrace_tame
  · exact escalate_tame ‹_›
  · exact .refl s

theorem endLease_tame : s.Tame (s.endLease l) := by
  unfold State.endLease
  split
  · next h x hl => exact .setLease (.inl (lease_place_of_claim (x := s.lease l) (by simp [Lease.claim?, hl])).symm)
  · exact .refl s

theorem forcedEnd_tame : s.Tame (s.forcedEnd l) := by
  unfold State.forcedEnd
  split
  · next h x hl =>
    have hport : ¬ s.Silent h.claim.port := not_silent_of_lease (l := l) (by simp [Lease.ownedBy, Lease.claim?, hl])
    dsimp only
    split
    · split
      · exact .flagLater (.after leave_tame (.after .spendFree endLease_tame)) hport
      · exact .after leave_tame (.flagLater (.after .spendFree endLease_tame) hport)
    · exact .after leave_tame (.flagLater endLease_tame hport)
  · exact .refl s

theorem endHolders_tame : s.Tame (s.endHolders r) := by
  unfold State.endHolders
  exact .after .setRes (.foldl (fun _ _ => .after .flagLease endLease_tame) _ _)

/-! ### Waits leaving and contention notices -/

theorem dropWait_tame : s.Tame (s.dropWait r w) := by
  unfold State.dropWait
  dsimp only
  split
  · exact .after grantPass_tame .setRes
  · exact .setRes

theorem endWait_tame {e : WaitEnd} {c : Cause} : s.Tame (s.endWait w e c) := by
  unfold State.endWait
  split
  · next k n l hw =>
    refine .after (.setAttn (not_silent_of_wait (w := w) ?_)) (.after (.setLease (.inr rfl)) (.setWait (.inl ?_)))
    · simp [Wait.ownedBy, Wait.claim?]
    · simp [Wait.place, Wait.claim?, hw]
  · exact .refl s

theorem contendHolder_tame : s.Tame (s.contendHolder l) := by
  unfold State.contendHolder
  split
  · next h a hl =>
    split
    · refine .after (.flagOwner (l := l) ?_) (.setLease (.inl ?_))
      · simp [Lease.ownedBy, Lease.claim?]
      · simp [Lease.place, Lease.claim?, hl]
    · exact .refl s
  · next h a hl =>
    split
    · refine .after (.flagOwner (l := l) ?_) (.setLease (.inl ?_))
      · simp [Lease.ownedBy, Lease.claim?]
      · simp [Lease.place, Lease.claim?, hl]
    · exact .refl s
  · exact .refl s

theorem contend_tame (ls : List LeaseNo) : s.Tame (s.contend ls) := .foldl (fun _ _ => contendHolder_tame) ls s

theorem treatClaim_tame (s : State) (c : ResNo × PortClaim) : s.Tame (s.treatClaim c) := by
  obtain ⟨r, l | w⟩ := c
  · exact leave_tame
  · exact dropWait_tame

/-! ### The tick at one record of the lease pool or of a queue -/

theorem tickSettle_tame : s.Tame (s.tickSettle r) := by
  unfold State.tickSettle
  dsimp only
  split
  · split
    · exact .after grantPass_tame .setRes
    · exact .setRes
  · exact .refl s

theorem termExpires_tame : s.Tame (s.termExpires l) := by
  unfold State.termExpires
  split
  · next h a hl =>
    have hend (g : Byte) : s.Tame (if g = 0 then (s.enterGrace l .term g).forcedEnd l else s.enterGrace l .term g) := by
      split
      · exact .after forcedEnd_tame enterGrace_tame
      · exact enterGrace_tame
    dsimp only
    split
    · exact .after grantPass_tame (hend _)
    · exact hend _
  · exact .refl s

theorem tickLease_tame : s.Tame (s.tickLease l) := by
  unfold State.tickLease
  split
  · next h a hl =>
    split
    · exact termExpires_tame
    · exact .setLease (.inl (lease_place_of_claim (x := s.lease l) (by simp [Lease.claim?, hl])).symm)
  · next h g hl =>
    split
    · exact forcedEnd_tame
    · exact .setLease (.inl (lease_place_of_claim (x := s.lease l) (by simp [Lease.claim?, hl])).symm)
  · exact .refl s

theorem tickPromo_tame : s.Tame (s.tickPromo l) := by
  unfold State.tickPromo
  split
  · next h a hl =>
    have hset (b : ActivePart) : s.Tame (s.setLease l { s.lease l with st := .active h b }) :=
      .setLease (.inl (lease_place_of_claim (x := s.lease l) (by simp [Lease.claim?, hl])).symm)
    split
    · split
      · refine .after grantPass_tame (.flagLater (.after .setRes (hset _)) (not_silent_of_lease (l := l) ?_))
        simp [Lease.ownedBy, Lease.claim?, hl]
      · exact hset _
    · exact .refl s
  · exact .refl s

theorem tickWait_tame : s.Tame (s.tickWait w) := by
  unfold State.tickWait
  split
  · next c n l hw =>
    split
    · exact .after dropWait_tame endWait_tame
    · exact .setWait (.inl (by simp [Wait.place, Wait.claim?, hw]))
  · exact .refl s

end Sys2Proof.Machine
end

