-- ==== Sys2Proof/Proofs/SessionEnd.lean ====
section
/-! PROOFS. The end of a session (spec sections 8.3 to 8.5): what it leaves of the port, and the requests and the expiry that
bring it about. -/

namespace Sys2Proof.Machine

variable {s t u : State} {r : ResNo} {l : LeaseNo} {w : WaitNo} {p q : Port} {st : SessState} {cause : EndCause}
  {rq : Request} {body : List Byte}

/-! ### The order of treatment -/

theorem insertByRank_perm {α : Type} (rank : α → Nat) (x : α) (xs : List α) : (insertByRank rank x xs).Perm (x :: xs) := by
  induction xs with
  | nil => exact .refl _
  | cons y ys ih =>
    unfold insertByRank
    split
    · exact .refl _
    · exact (ih.cons y).trans (.swap x y ys)

theorem sortByRank_perm {α : Type} (rank : α → Nat) (xs : List α) : (sortByRank rank xs).Perm xs := by
  induction xs with
  | nil => exact .refl _
  | cons x xs ih => exact (insertByRank_perm rank x _).trans (ih.cons x)

theorem mem_claims {c : PortClaim} : (r, c) ∈ s.claims p ↔ s.claimAt p r = some c := by
  simp only [State.claims, List.mem_filterMap, List.mem_finRange, true_and, Option.map_eq_some_iff, Prod.mk.injEq]
  constructor
  · rintro ⟨r', c', h, rfl, rfl⟩; exact h
  · intro h; exact ⟨r, c, h, rfl, rfl⟩

theorem claims_nodup : ((s.claims p).map (·.1)).Nodup := by
  have h : (s.claims p).map (·.1) = (List.finRange 64).filter fun r => (s.claimAt p r).isSome := by
    unfold State.claims
    induction List.finRange 64 with
    | nil => rfl
    | cons r rs ih =>
      cases hc : s.claimAt p r <;> simp [hc, ih]
  rw [h]
  exact (List.nodup_finRange 64).filter _

@[simp] theorem res_dropPort (st : SessState) (e : EndCause) (r : ResNo) : (s.dropPort p st e).res r = s.res r := by
  simp only [State.dropPort, res_setSession, res_setAttn]
  simp only [State.res]

theorem lease_dropPort (st : SessState) (e : EndCause) (l : LeaseNo) : (s.dropPort p st e).lease l =
    if (s.lease l).ownedBy p then (s.lease l).freed else s.lease l := by
  simp only [State.dropPort, lease_setSession, lease_setAttn]
  simp only [State.lease, Fin.getElem_fin, Vector.getElem_ofFn]

theorem wait_dropPort (st : SessState) (e : EndCause) (w : WaitNo) : (s.dropPort p st e).wait w =
    if (s.wait w).ownedBy p then (s.wait w).freed else s.wait w := by
  simp only [State.dropPort, wait_setSession, wait_setAttn]
  simp only [State.wait, Fin.getElem_fin, Vector.getElem_ofFn]

@[simp] theorem session_dropPort (q : Port) : (s.dropPort p st cause).session q =
    if q = p then { s.session p with st := st, lastEnd := cause } else s.session q := by
  simp only [State.dropPort, session_setSession, session_setAttn]
  simp only [State.session]

@[simp] theorem attn_dropPort (q : Port) : (s.dropPort p st cause).attn q = if q = p then [] else s.attn q := by
  simp only [State.dropPort, attn_setSession, attn_setAttn]
  simp only [State.attn]

/-- The port whose records are gone is silent, where its session is not left open. -/
theorem silent_dropPort (hst : ∀ n, st ≠ .attached n) : (s.dropPort p st cause).Silent p where
  lease l := by
    rw [lease_dropPort]
    split
    · rfl
    · exact eq_false_of_ne_true ‹_›
  wait w := by
    rw [wait_dropPort]
    split
    · rfl
    · exact eq_false_of_ne_true ‹_›
  zero hz := by
    subst hz
    simp only [State.attached, session_dropPort, if_pos, Session.isAttached]

/-! ### What the treatment of the resources keeps -/

/-- The session end as the freeing of the port's records and the treatment of each resource in turn. -/
theorem endSession_eq : s.endSession p st cause =
    (sortByRank (fun c => Config.treatmentRank s.freeCount c.1) (s.claims p)).foldl State.treatClaim
      (s.dropPort p st cause).spendFree := by
  simp only [State.endSession]

/-- The treatment of a claim keeps the frame of its resource. -/
theorem treatClaim_opAt (s : State) (c : ResNo × PortClaim) : s.OpAt c.1 (s.treatClaim c) := by
  obtain ⟨r, l | w⟩ := c
  · exact leave_opAt
  · exact dropWait_opAt

theorem foldl_treatClaim_tame (cs : List (ResNo × PortClaim)) (s : State) : s.Tame (cs.foldl State.treatClaim s) :=
  .foldl treatClaim_tame cs s

theorem foldl_treatClaim_links (cs : List (ResNo × PortClaim)) (s : State) :
    (cs.foldl State.treatClaim s).links = s.links := by
  induction cs generalizing s with
  | nil => rfl
  | cons c cs ih => rw [List.foldl_cons, ih, (treatClaim_opAt s c).links]

/-- A resource that is not among the claims is not treated. -/
theorem foldl_treatClaim_res (cs : List (ResNo × PortClaim)) (s : State) (h : r ∉ cs.map (·.1)) :
    (cs.foldl State.treatClaim s).res r = s.res r := by
  induction cs generalizing s with
  | nil => rfl
  | cons c cs ih =>
    simp only [List.map_cons, List.mem_cons, not_or] at h
    rw [List.foldl_cons, ih _ h.2, (treatClaim_opAt s c).other r h.1]

theorem endSession_links : (s.endSession p st cause).links = s.links := by
  rw [endSession_eq, foldl_treatClaim_links]
  simp only [State.spendFree, State.dropPort, links_setSession, links_setAttn]

theorem endSession_due : (s.endSession p st cause).due = s.due := endSession_frame.due

/-- A record of the same generation that is FREE is the record freed. -/
theorem lease_eq_freed {x y : Lease} (hg : x.gen = y.gen) (hx : x.place = none) : x = y.freed := by
  obtain ⟨g, st⟩ := x
  have : st = .free := by cases st <;> simp_all [Lease.place, Lease.claim?]
  subst this
  exact congrArg (Lease.mk · .free) hg

theorem wait_eq_freed {x y : Wait} (hg : x.gen = y.gen) (hx : x.place = none) : x = y.freed := by
  obtain ⟨g, st⟩ := x
  have : st = .free := by cases st <;> simp_all [Wait.place, Wait.claim?]
  subst this
  exact congrArg (Wait.mk · .free) hg

/-- What a session end leaves of the port (R136), in every state. -/
theorem endSession_portEnded (hst : ∀ n, st ≠ .attached n) :
    s.PortEnded (s.endSession p st cause) p st cause := by
  have hframe := endSession_frame (s := s) (p := p) (st := st) (e := cause)
  have htame : (s.dropPort p st cause).Tame (s.endSession p st cause) :=
    .after (foldl_treatClaim_tame _ _) .spendFree
  have hsession (q : Port) : (s.endSession p st cause).session q = (s.dropPort p st cause).session q := by
    simp only [State.session, htame.sessions]
  have hclaims (r : ResNo) (h : s.claimAt p r = none) :
      r ∉ (sortByRank (fun c => Config.treatmentRank s.freeCount c.1) (s.claims p)).map (·.1) := by
    simp only [List.mem_map, (sortByRank_perm _ _).mem_iff]
    rintro ⟨⟨r', c⟩, hc, rfl⟩
    rw [mem_claims, h] at hc
    cases hc
  exact {
    session := by rw [hsession, session_dropPort, if_pos rfl]
    leases := fun l hl => lease_eq_freed (hframe.leaseGen l) <|
      (htame.lease l).elim (fun e => by rw [e, lease_dropPort, if_pos hl]; rfl) id
    waits := fun w hw => wait_eq_freed (hframe.waitGen w) <|
      (htame.wait w).elim (fun e => by rw [e, wait_dropPort, if_pos hw]; rfl) id
    list := by rw [htame.quiet p (silent_dropPort hst), attn_dropPort, if_pos rfl]
    otherSessions := fun q hq => by rw [hsession, session_dropPort, if_neg hq]
    gates := hframe.gates
    timebase := hframe.timebase
    resources := fun r h => by
      rw [endSession_eq, foldl_treatClaim_res _ _ (hclaims r h)]
      simp only [State.spendFree, res_with_freeCount, res_dropPort] }

/-- What is due is no part of what a session end is about. -/
theorem portEnded_of_withDue {d : List TickRef} (h : (s.withDue d).PortEnded t p st cause) : s.PortEnded t p st cause :=
  ⟨h.session, h.leases, h.waits, h.list, h.otherSessions, h.gates, h.timebase, h.resources⟩

/-! ### The tick at a liveness (R132) -/

theorem tickLive_stopped (h : ∀ n, (s.session p).st ≠ .attached (some n)) : s.tickLive p = s := by
  unfold State.tickLive
  split
  · exact absurd ‹_› (h _)
  · rfl

theorem tickLive_lowered {n : Half} (h : (s.session p).st = .attached (some n)) (hn : 1 < n.toNat) :
    s.tickLive p = s.setSession p { s.session p with st := .attached (some (n - 1)) } := by
  simp only [State.tickLive, h, if_neg (Nat.not_le.mpr hn)]

theorem tickLive_lost (h : (s.session p).st = .attached (some 1)) : s.tickLive p = s.loseSession p .silent := by
  simp only [State.tickLive, h]
  rfl

/-! ### ATTACH (R130, R131) -/

theorem attachOwner_detached (h : s.attached p = false) : attachOwner p body s =
    (⟨.done, attachBody ((s.openSession p (halfAt body 0)).session p) false⟩, s.openSession p (halfAt body 0)) := by
  simp [attachOwner, h]

theorem attachOwner_attached (h : s.attached p = true) : attachOwner p body s =
    (⟨.done, attachBody (((s.endSession p .detached .reattach).openSession p (halfAt body 0)).session p) true⟩,
      (s.endSession p .detached .reattach).openSession p (halfAt body 0)) := by
  simp [attachOwner, h]

/-! ### EVICT (R135, R138) -/

/-- The link port of a lost session (R138, R169). -/
def Link.flushed (k : Link) : Link := { k with requests := [], responses := [], txn := k.txn.afterFlush }

theorem afterFlush_eq (x : Txn) : x.afterFlush = match x with
    | .sending (.response _) n => .sending .gone n
    | x => x := by
  rcases x with _ | _ | _ | ⟨_ | _ | _ | _, _⟩ | _ <;> rfl

theorem loseSession_eq : s.loseSession p cause =
    (s.endSession p .lost cause).setLink p (s.link p).flushed := by
  have h : (s.endSession p .lost cause).link p = s.link p := by simp only [State.link, endSession_links]
  simp only [State.loseSession, State.flushLink, h, Link.flushed]

theorem loseSession_setLink {k : Link} (hp : p ≠ q) :
    (s.setLink p k).loseSession q cause = (s.loseSession q cause).setLink p k := by
  rw [loseSession_eq, loseSession_eq, endSession_setLink, link_setLink_ne _ _ _ hp.symm]
  refine State.ext_records rfl rfl rfl (fun _ => rfl) (fun _ => rfl) (fun _ => rfl) rfl (fun _ => rfl) (fun _ => rfl)
    (fun _ => rfl) (fun x => ?_) rfl rfl rfl
  simp only [link_setLink]
  split
  · next h => rw [if_neg (h ▸ hp.symm)]
  · rfl

theorem evictOwner_lost (hq : portArg body 0 = some q) (h0 : q ≠ 0) (ha : s.attached q = true) :
    evictOwner p body s = (⟨.done, bytes2 (s.session q).number ++ [byteOf (s.leaseUse q), byteOf (s.waitUse q)]⟩,
      s.loseSession q .evicted) := by
  simp [evictOwner, hq, h0, ha]

theorem evictOwner_state (hq : portArg body 0 = some q) (h0 : q ≠ 0) (ha : s.attached q = false) :
    evictOwner p body s = (.refuse .state, s) := by
  simp [evictOwner, hq, h0, ha]

/-- The taking of a request that passes R129, by an owner that may read the link ports. -/
theorem serve_popped {k : Req} {own : Owner} (h : s.Passing k p rq) :
    s.serve k own p = (own p rq.body (s.popRequest p)).2.place p rq (own p rq.body (s.popRequest p)).1 := by
  rw [serve_taking h.1, answer_passed]
  rw [precheck_none]
  exact h.2

/-- The same, where the owner's effect on the popped state is the effect on the state with the popped link. -/
theorem serve_popped_eq {k : Req} {own : Owner} {rp : Reply} (h : s.Passing k p rq)
    (ho : own p rq.body (s.popRequest p) = (rp, t.setLink p ((s.popRequest p).link p))) (ht : t.link p = s.link p) :
    s.serve k own p = t.replied p rq rp.result rp.body := by
  rw [serve_popped h, ho]
  simp only [State.place, State.replied, State.popRequest, link_setLink_self, setLink_setLink, ht, List.drop_one]

end Sys2Proof.Machine

namespace Sys2Proof.Proofs

open Sys2Proof Sys2Proof.Machine

/-- Settles O22: an open session ends first, and the new one is opened on what that leaves. -/
theorem attachOpensSession : Obligations.AttachOpensSession := by
  intro p rq window s hpass hbody x n live
  have hwindow : halfAt rq.body 0 = window := by rw [hbody]; exact bytes2_join window
  refine ⟨fun ha => ?fresh, fun ha => ?again⟩
  case fresh =>
    have hserve := serve_eq hpass attachOwner_local (attachOwner_detached ha)
    rw [hwindow, State.openSession, session_setSession_self] at hserve
    exact congrArg Host.Outcome.next hserve
  case again =>
    have hended := endSession_portEnded (s := s) (p := p) (st := .detached) (cause := .reattach) (fun _ => nofun)
    have hserve := serve_eq hpass attachOwner_local (attachOwner_attached ha)
    rw [hwindow, State.openSession, session_setSession_self, hended.session] at hserve
    exact ⟨hended, endSession_links, congrArg Host.Outcome.next hserve⟩

/-- Settles O23. -/
theorem detachEndsSession : Obligations.DetachEndsSession := by
  intro p rq s hpass
  exact ⟨endSession_portEnded (fun _ => nofun), endSession_links,
    congrArg Host.Outcome.next (serve_eq hpass detachOwner_local rfl)⟩

/-- Settles O24: P0 sends the EVICT, so its own link port is not the one that is emptied. -/
theorem evictEndsSession : Obligations.EvictEndsSession := by
  intro p q rq s hpass hbody hq0
  have hp0 : p = 0 := hpass.2.1 rfl
  have hpq : p ≠ q := fun h => hq0 (h ▸ hp0)
  have harg : portArg rq.body 0 = some q := by rw [hbody]; exact below_port q
  refine ⟨fun ha => ⟨endSession_portEnded (fun _ => nofun), endSession_links, ?lost⟩, fun ha => ?state⟩
  case lost =>
    have ho := evictOwner_lost (s := s.popRequest p) (p := p) harg hq0 ha
    rw [State.popRequest, loseSession_setLink hpq] at ho
    have hserve := serve_popped_eq (t := s.loseSession q .evicted) hpass (own := evictOwner) (by
      rw [State.popRequest, ho, link_setLink_self]) (by
      rw [loseSession_eq, link_setLink_ne _ _ _ hpq]
      simp only [State.link, endSession_links])
    refine (congrArg Host.Outcome.next hserve).trans ?_
    rw [loseSession_eq, Link.flushed, afterFlush_eq]
    rfl
  case state =>
    exact congrArg Host.Outcome.next (serve_popped_eq (t := s) hpass (own := evictOwner) (by
      rw [evictOwner_state (s := s.popRequest p) harg hq0 ha, State.popRequest, link_setLink_self]) rfl)

/-- Settles O25: the tick at the port's liveness, by what is left of it. -/
theorem livenessExpiryLosesSession : Obligations.LivenessExpiryLosesSession := by
  intro p s hrst hmode d
  have hc : s.counting = true := counting_iff.mpr ⟨hrst, hmode⟩
  have hreach (hd : TickRef.live p ∈ s.due) : exec (.livenessExpiry p) s = .next (d.tickLive p) :=
    congrArg Host.Outcome.next (takeDue_eq hc hd)
  refine ⟨fun hd => congrArg Host.Outcome.next (takeDue_of_not_due _ hd), fun hd hst => ?stopped, fun n hd hst => ?runs⟩
  case stopped => rw [hreach hd, tickLive_stopped (s := d) hst]
  case runs =>
    refine ⟨fun h1 => ?lost, fun h1 => ?lowered⟩
    case lost =>
      subst h1
      have hended := endSession_portEnded (s := d) (p := p) (st := .lost) (cause := .silent) (fun _ => nofun)
      refine ⟨portEnded_of_withDue hended, endSession_links, endSession_due, ?_⟩
      rw [hreach hd, tickLive_lost (s := d) hst, loseSession_eq, Link.flushed, afterFlush_eq]
      rfl
    case lowered => rw [hreach hd, tickLive_lowered (s := d) hst h1]; rfl

end Sys2Proof.Proofs
end

