-- ==== Sys2Proof/Proofs/Refusals.lean ====
section
/-! PROOFS. When no request is taken (spec section 10.4), and the refusals of fields and ids (spec sections 11.2 and 11.3). -/

namespace Sys2Proof.Machine

variable {s t : State} {k : Req} {own : Owner} {p q : Port} {rq : Request} {body : List Byte} {l : LeaseNo} {w : WaitNo}
  {r : Result}

/-! ### When no request is taken (R163, R168, R171) -/

theorem takeable_eq_none (h : s.rstN = false ∨ 4 ≤ (s.link p).responses.length ∨ (s.link p).requests = []) :
    s.takeable p = none := by
  rw [Option.eq_none_iff_forall_ne_some]
  intro rq hrq
  obtain ⟨hrst, hroom, hhead⟩ := takeable_eq_some.mp hrq
  rcases h with h | h | h
  · simp [h] at hrst
  · exact absurd hroom (Nat.not_lt.mpr h)
  · simp [h] at hhead

theorem tickEnded_untaken (h : ∀ rq, ¬ s.Taking k p rq) : s.tickEnded k p = s := by
  simp only [State.tickEnded]
  split
  · next rq hrq =>
    obtain ⟨hrst, hroom, hhead⟩ := takeable_eq_some.mp hrq
    exact if_neg fun ⟨hcode, _⟩ => h rq ⟨hrst, hroom, hhead, hcode⟩
  · rfl

/-- Whatever its kind, a request that is not taken changes nothing. -/
theorem exec_command_untaken (h : ∀ rq, ¬ s.Taking k p rq) : exec (k.command p) s = .next s := by
  obtain ⟨own, hserve⟩ := exec_command_serve (tickEnded_untaken h)
  rw [hserve, serve_none h]

theorem not_taking_of_takeable (h : s.takeable p = none) (rq : Request) : ¬ s.Taking k p rq :=
  fun ht => by simp [takeable_of_taking ht] at h

theorem exec_unknownRequest_untaken (h : s.takeable p = none) : exec (.unknownRequest p) s = .next s := by
  simp only [exec, execUnknownRequest, h]

/-! ### A refusal by the request's own rule -/

/-- A request whose owner refuses it leaves its response and nothing else. -/
theorem serve_refusal (h : s.Passing k p rq) (ho : ∀ u : State, own p rq.body u = (.refuse r, u)) :
    s.serve k own p = s.replied p rq r [] :=
  serve_popped_eq (t := s) (rp := .refuse r) (own := own) h (by rw [ho, State.popRequest, link_setLink_self]) rfl

/-! ### Fields outside their range (R173) -/

theorem below_eq_none {n : Nat} {b : Byte} (h : n ≤ b.toNat) : below n b = none := dif_neg (Nat.not_lt.mpr h)

theorem portArg_eq_none {i : Nat} (h : 3 < (byteAt body i).toNat) : portArg body i = none := below_eq_none h

theorem gateArg_eq_none {i : Nat} (h : 15 < (byteAt body i).toNat) : gateArg body i = none := below_eq_none h

theorem modeArg_eq_none {b : Byte} (h : b ≠ 1 ∧ b ≠ 2) : modeArg b = none := by
  rw [modeArg, if_neg h.1, if_neg h.2]

theorem contendArg_eq_none {b : Byte} (h : b ≠ 0 ∧ b ≠ 1) : contendArg b = none := by
  rw [contendArg, if_neg h.1, if_neg h.2]

theorem polarityArg_eq_none {b : Byte} (h : b ≠ 0 ∧ b ≠ 1) : polarityArg b = none := by
  rw [polarityArg, if_neg h.1, if_neg h.2]

theorem scanArg_eq_none {α : Type} {named : Bool} {v : Option α} (hn : named = true) (h : v = none) :
    scanArg named v = none := by
  rw [scanArg, if_pos hn, h]
  rfl

/-- A body that gives a resource number above 63, for each request that begins with one. -/
theorem exec_badResource (hpass : s.Passing k p rq)
    (hk : k ∈ [Req.acquire, .queryResource, .checkEpoch, .scan, .define, .retire, .revoke])
    (h : resArg rq.body 0 = none) : exec (k.command p) s = .next (s.replied p rq .badArgument []) := by
  simp only [List.mem_cons, List.not_mem_nil, or_false] at hk
  rcases hk with rfl | rfl | rfl | rfl | rfl | rfl | rfl
  · exact congrArg Host.Outcome.next (serve_refusal hpass fun u => by simp [acquireOwner, acquireArgs, h])
  · exact congrArg Host.Outcome.next (serve_refusal hpass fun u => by simp [queryResourceOwner, h])
  · exact congrArg Host.Outcome.next (serve_refusal hpass fun u => checkEpochOwner_none h)
  · exact congrArg Host.Outcome.next (serve_refusal hpass fun u => by simp [scanOwner, scanArgs, h])
  · exact congrArg Host.Outcome.next (serve_refusal hpass fun u => by simp [defineOwner, h])
  · exact congrArg Host.Outcome.next (serve_refusal hpass fun u => by simp [retireOwner, h])
  · exact congrArg Host.Outcome.next (serve_refusal hpass fun u => by simp [revokeOwner, h])

/-- A body that gives a port number above 3, for each request that begins with one. -/
theorem exec_badPort (hpass : s.Passing k p rq) (hk : k ∈ [Req.portStatus, .setQuota, .evict])
    (h : portArg rq.body 0 = none) : exec (k.command p) s = .next (s.replied p rq .badArgument []) := by
  simp only [List.mem_cons, List.not_mem_nil, or_false] at hk
  rcases hk with rfl | rfl | rfl
  · exact congrArg Host.Outcome.next (serve_refusal hpass fun u => by simp [portStatusOwner, h])
  · exact congrArg Host.Outcome.next (serve_refusal hpass fun u => by simp [setQuotaOwner, h])
  · exact congrArg Host.Outcome.next (serve_refusal hpass fun u => by simp [evictOwner, h])

/-- A body that gives a gate number above 15, for each request that begins with one. -/
theorem exec_badGate (hpass : s.Passing k p rq) (hk : k ∈ [Req.bindGate, .unbindGate]) (h : gateArg rq.body 0 = none) :
    exec (k.command p) s = .next (s.replied p rq .badArgument []) := by
  simp only [List.mem_cons, List.not_mem_nil, or_false] at hk
  rcases hk with rfl | rfl
  · exact congrArg Host.Outcome.next (serve_refusal hpass fun u => by simp [bindGateOwner, bindArgs, h])
  · exact congrArg Host.Outcome.next (serve_refusal hpass fun u => by simp [unbindGateOwner, h])

theorem acquireArgs_eq_none (h : modeArg (byteAt body 1) = none ∨ contendArg (byteAt body 6) = none) :
    acquireArgs body = none := by
  unfold acquireArgs
  rcases h with h | h <;> simp [h]

theorem bindArgs_eq_none (h : resArg body 1 = none ∨ portArg body 2 = none ∨ polarityArg (byteAt body 3) = none) :
    bindArgs body = none := by
  unfold bindArgs
  rcases h with h | h | h <;> simp [h]

theorem scanArgs_eq_none (h : 15 < (byteAt body 1).toNat
    ∨ (byteAt body 1).getLsbD 0 = true ∧ 15 < (byteAt body 2).toNat
    ∨ (byteAt body 1).getLsbD 1 = true ∧ (byteAt body 3 = 0 ∨ 63 < (byteAt body 3).toNat)
    ∨ (byteAt body 1).getLsbD 2 = true ∧ 3 < (byteAt body 4).toNat
    ∨ (byteAt body 1).getLsbD 3 = true ∧ 1 < (byteAt body 5).toNat) : scanArgs body = none := by
  unfold scanArgs
  rcases h with h | ⟨hn, h⟩ | ⟨hn, h⟩ | ⟨hn, h⟩ | ⟨hn, h⟩
  · simp [h]
  · have hv : scanArg ((byteAt body 1).getLsbD 0) (if (byteAt body 2).toNat ≤ 15 then some (byteAt body 2) else none)
        = none := scanArg_eq_none hn (if_neg (Nat.not_le.mpr h))
    simp only [hv]
    simp
  · have hv : scanArg ((byteAt body 1).getLsbD 1) (if 1 ≤ (byteAt body 3).toNat ∧ (byteAt body 3).toNat ≤ 63 then
        some (byteAt body 3) else none) = none := scanArg_eq_none hn (if_neg (by bv_omega))
    simp only [hv]
    simp
  · have hv : scanArg ((byteAt body 1).getLsbD 2) (portArg body 4) = none := scanArg_eq_none hn (portArg_eq_none h)
    simp only [hv]
    simp
  · have hv : scanArg ((byteAt body 1).getLsbD 3) (if byteAt body 5 = 0 then some false else if byteAt body 5 = 1 then
        some true else none) = none :=
      scanArg_eq_none hn (by rw [if_neg (by bv_omega), if_neg (by bv_omega)])
    simp only [hv]
    simp

theorem defineAttrs_outOfRange (h : 15 < (byteAt body 1).toNat ∨ 4 < (byteAt body 2).toNat ∨ halfAt body 3 = 0
    ∨ (halfAt body 5).toNat < (halfAt body 3).toNat ∨ 16 < (byteAt body 9).toNat) :
    (defineAttrs body).inRange = false := by
  rw [← Bool.not_eq_true, inRange_iff]
  rintro ⟨h1, h2, h3, h4, h5⟩
  simp only [defineAttrs] at h1 h2 h3 h4 h5
  rcases h with h | h | h | h | h
  · exact absurd h1 (Nat.not_le.mpr h)
  · exact absurd h2 (Nat.not_le.mpr h)
  · exact h3 h
  · exact absurd h4 (Nat.not_le.mpr h)
  · exact absurd h5 (Nat.not_le.mpr h)

theorem defineOwner_badArgument (h : (defineAttrs body).inRange = false) :
    defineOwner p body s = (.refuse .badArgument, s) := by
  simp only [defineOwner]
  split
  · rfl
  · rw [if_pos h]

theorem setQuotaOwner_badArgument (h : 96 < (byteAt body 1).toNat ∨ 48 < (byteAt body 2).toNat) :
    setQuotaOwner p body s = (.refuse .badArgument, s) := by
  simp only [setQuotaOwner]
  split
  · rfl
  · rw [if_pos h]

theorem evictOwner_badArgument (h : byteAt body 0 = 0) : evictOwner p body s = (.refuse .badArgument, s) := by
  have hz : portArg body 0 = some 0 := by rw [portArg, h]; rfl
  simp [evictOwner, hz]

/-! ### Ids (R23, R49, R174) -/

theorem resolveLease_index (h : 95 < (byteAt body 0).toNat) :
    s.resolveLease p (byteAt body 0) (byteAt body 1) = .stale := by
  simp only [State.resolveLease, below_eq_none h]

theorem resolveLease_zero {i : Byte} : s.resolveLease p i 0 = .stale := by
  simp only [State.resolveLease]
  split <;> simp

theorem below_of_toNat {n : Nat} {b : Byte} {i : Fin n} (h : b.toNat = i.val) : below n b = some i := by
  have hlt : b.toNat < n := h ▸ i.isLt
  rw [below, dif_pos hlt, Option.some_inj]
  exact Fin.ext h

theorem resolveLease_stale {i g : Byte} (hi : i.toNat = l.val)
    (h : g ≠ (s.lease l).gen ∨ (s.lease l).isHolder = false ∧ (s.lease l).isEnded = false) :
    s.resolveLease p i g = .stale := by
  have hn : ¬ (g ≠ 0 ∧ (s.lease l).gen = g ∧ ((s.lease l).isHolder ∨ (s.lease l).isEnded)) := by
    rintro ⟨-, hgen, hlisted⟩
    rcases h with h | ⟨h1, h2⟩
    · exact h hgen.symm
    · simp [h1, h2] at hlisted
  simp only [State.resolveLease, below_of_toNat hi, if_neg hn]

theorem resolveLease_notOwner {i g : Byte} (hi : i.toNat = l.val) (hg : g ≠ 0) (hgen : g = (s.lease l).gen)
    (hlisted : (s.lease l).isHolder = true ∨ (s.lease l).isEnded = true) (hown : (s.lease l).ownedBy p = false) :
    s.resolveLease p i g = .notOwner := by
  have hn : g ≠ 0 ∧ (s.lease l).gen = g ∧ ((s.lease l).isHolder ∨ (s.lease l).isEnded) := ⟨hg, hgen.symm, hlisted⟩
  simp only [State.resolveLease, below_of_toNat hi, if_pos hn, hown, Bool.false_eq_true, if_false]

theorem resolveWait_index (h : 47 < (byteAt body 0).toNat) :
    s.resolveWait p (byteAt body 0) (byteAt body 1) = .stale := by
  simp only [State.resolveWait, below_eq_none h]

theorem resolveWait_zero {i : Byte} : s.resolveWait p i 0 = .stale := by
  simp only [State.resolveWait]
  split <;> simp

theorem resolveWait_stale {i g : Byte} (hi : i.toNat = w.val) (h : g ≠ (s.wait w).gen ∨ (s.wait w).isFree = true) :
    s.resolveWait p i g = .stale := by
  have hn : ¬ (g ≠ 0 ∧ (s.wait w).gen = g ∧ ¬ (s.wait w).isFree) := by
    rintro ⟨-, hgen, hfree⟩
    rcases h with h | h
    · exact h hgen.symm
    · exact hfree h
  simp only [State.resolveWait, below_of_toNat hi, if_neg hn]

theorem resolveWait_notOwner {i g : Byte} (hi : i.toNat = w.val) (hg : g ≠ 0) (hgen : g = (s.wait w).gen)
    (hfree : (s.wait w).isFree = false) (hown : (s.wait w).ownedBy p = false) : s.resolveWait p i g = .notOwner := by
  have hn : g ≠ 0 ∧ (s.wait w).gen = g ∧ ¬ (s.wait w).isFree := ⟨hg, hgen.symm, by simp [hfree]⟩
  simp only [State.resolveWait, below_of_toNat hi, if_pos hn, hown, Bool.false_eq_true, if_false]

/-- The five requests that carry a lease id are served by an owner that resolves it. -/
theorem exec_withLease (hk : k ∈ [Req.renew, .release, .queryLease, .promote, .demote]) :
    ∃ own : LeaseNo → Owner, (withLease own).Local ∧ exec (k.command p) s = .next (s.serve k (withLease own) p) := by
  simp only [List.mem_cons, List.not_mem_nil, or_false] at hk
  rcases hk with rfl | rfl | rfl | rfl | rfl
  · exact ⟨renewLease, renewOwner_local, rfl⟩
  · exact ⟨releaseLease, releaseOwner_local, rfl⟩
  · exact ⟨_, queryLeaseOwner_local, rfl⟩
  · exact ⟨promoteLease, promoteOwner_local, rfl⟩
  · exact ⟨demoteLease, demoteOwner_local, rfl⟩

theorem exec_lease_refused (hpass : s.Passing k p rq) (hk : k ∈ [Req.renew, .release, .queryLease, .promote, .demote]) :
    (s.resolveLease p (byteAt rq.body 0) (byteAt rq.body 1) = .stale →
      exec (k.command p) s = .next (s.replied p rq .staleId []))
    ∧ (s.resolveLease p (byteAt rq.body 0) (byteAt rq.body 1) = .notOwner →
      exec (k.command p) s = .next (s.replied p rq .notOwner [])) := by
  obtain ⟨own, hlocal, hexec⟩ := exec_withLease (p := p) (s := s) hk
  rw [hexec]
  refine ⟨fun h => ?_, fun h => ?_⟩
  · rw [serve_eq (rp := .refuse .staleId) (t := s) hpass hlocal (by simp [withLease, h])]
    rfl
  · rw [serve_eq (rp := .refuse .notOwner) (t := s) hpass hlocal (by simp [withLease, h])]
    rfl

theorem exec_cancelWait_refused (hpass : s.Passing .cancelWait p rq) :
    (s.resolveWait p (byteAt rq.body 0) (byteAt rq.body 1) = .stale →
      exec (.cancelWait p) s = .next (s.replied p rq .staleId []))
    ∧ (s.resolveWait p (byteAt rq.body 0) (byteAt rq.body 1) = .notOwner →
      exec (.cancelWait p) s = .next (s.replied p rq .notOwner [])) := by
  refine ⟨fun h => ?_, fun h => ?_⟩
  · exact exec_cancelWait_replied (rp := .refuse .staleId) hpass (by simp [cancelWaitOwner, h]) rfl
  · exact exec_cancelWait_replied (rp := .refuse .notOwner) hpass (by simp [cancelWaitOwner, h]) rfl

end Sys2Proof.Machine

namespace Sys2Proof.Proofs

open Sys2Proof Sys2Proof.Machine

/-- Settles O17: what is not taken changes nothing; an unknown code is answered before any check; and Table 11-3. -/
theorem takingNeedsItsRequest : Obligations.TakingNeedsItsRequest := by
  refine ⟨fun k p s => ⟨fun h => ?blocked, fun rq hhead hcode => ?other⟩, fun p rq s hrst hroom hhead hcode => ?unknown,
    fun k => ?table⟩
  case blocked =>
    have hnone := takeable_eq_none h
    exact ⟨exec_command_untaken (not_taking_of_takeable hnone), exec_unknownRequest_untaken hnone⟩
  case other =>
    refine exec_command_untaken fun rq' ht => hcode ?_
    have hrq : rq' = rq := Option.some_inj.mp (ht.2.2.1.symm.trans hhead)
    exact hrq ▸ ht.2.2.2
  case unknown =>
    have htake : s.takeable p = some rq := takeable_eq_some.mpr ⟨hrst, hroom, hhead⟩
    simp only [exec, execUnknownRequest, htake, if_pos (ofCode_eq_none.mpr hcode)]
    simp [State.place, State.replied, State.popRequest, Reply.refuse]
  case table => cases k <;> decide

/-- Settles O20: the request's own rule refuses each field it ranges over. -/
theorem fieldRanges : Obligations.FieldRanges := by
  intro k p rq s hpass b bad hbad
  rcases hbad with ⟨hk, h⟩ | ⟨hk, h⟩ | ⟨hk, h⟩ | ⟨rfl, h⟩ | ⟨rfl, h⟩ | ⟨rfl, h⟩ | ⟨rfl, h⟩ | ⟨rfl, h⟩ | ⟨rfl, h⟩
  · exact exec_badResource hpass hk (resArg_eq_none h)
  · exact exec_badPort hpass hk (portArg_eq_none h)
  · exact exec_badGate hpass hk (gateArg_eq_none h)
  · have hargs : acquireArgs rq.body = none :=
      acquireArgs_eq_none (h.imp modeArg_eq_none contendArg_eq_none)
    exact congrArg Host.Outcome.next (serve_refusal hpass fun u => by simp [acquireOwner, hargs])
  · have hargs : bindArgs rq.body = none :=
      bindArgs_eq_none (h.imp resArg_eq_none (Or.imp portArg_eq_none polarityArg_eq_none))
    exact congrArg Host.Outcome.next (serve_refusal hpass fun u => by simp [bindGateOwner, hargs])
  · exact congrArg Host.Outcome.next (serve_refusal hpass fun u => setQuotaOwner_badArgument h)
  · exact congrArg Host.Outcome.next (serve_refusal hpass fun u => evictOwner_badArgument h)
  · exact congrArg Host.Outcome.next (serve_refusal hpass fun u =>
      defineOwner_badArgument (defineAttrs_outOfRange h))
  · have hargs : scanArgs rq.body = none := scanArgs_eq_none h
    exact congrArg Host.Outcome.next (serve_refusal hpass fun u => by simp [scanOwner, hargs])

/-- Settles O21: the id resolves to nothing, or to another port's record. -/
theorem staleIds : Obligations.StaleIds := by
  intro k p rq s hpass i g
  refine ⟨fun hk => ?leases, fun hk => ?waits⟩
  case leases =>
    obtain ⟨hstale, hother⟩ := exec_lease_refused hpass hk
    refine ⟨fun h => hstale ?_, fun l hi => ⟨fun h => hstale (resolveLease_stale hi h), fun hg hgen hlisted hown =>
      hother (resolveLease_notOwner hi hg hgen hlisted hown)⟩⟩
    rcases h with h | h
    · exact resolveLease_index h
    · rw [show byteAt rq.body 1 = 0 from h, resolveLease_zero]
  case waits =>
    subst hk
    obtain ⟨hstale, hother⟩ := exec_cancelWait_refused hpass
    refine ⟨fun h => hstale ?_, fun w hi => ⟨fun h => hstale (resolveWait_stale hi h), fun hg hgen hfree hown =>
      hother (resolveWait_notOwner hi hg hgen hfree hown)⟩⟩
    rcases h with h | h
    · exact resolveWait_index h
    · rw [show byteAt rq.body 1 = 0 from h, resolveWait_zero]

end Sys2Proof.Proofs
end

