-- ==== Sys2Proof/Proofs/Expiries.lean ====
section
/-! PROOFS. Ticks and expiries (spec sections 1.5, 2.6, 3.5, 4.3, 5.1, 6.2, 6.3 and 6.4). -/

namespace Sys2Proof.Machine

variable {s t u : State} {r : ResNo} {l : LeaseNo} {w : WaitNo} {x : TickRef}

/-! ### The tick at a settle (R9) -/

theorem tickSettle_frees (h : (s.res r).st = .settling 1) :
    s.tickSettle r = (s.setRes r { s.res r with st := .free }).grantPass r := by
  simp only [State.tickSettle, h]
  rfl

theorem tickSettle_lowered {n : Byte} (h : (s.res r).st = .settling n) (hn : 1 < n.toNat) :
    s.tickSettle r = s.setRes r { s.res r with st := .settling (n - 1) } := by
  simp only [State.tickSettle, h, if_neg (Nat.not_le.mpr hn)]

theorem tickSettle_stopped (h : ∀ n, (s.res r).st ≠ .settling n) : s.tickSettle r = s := by
  simp only [State.tickSettle]

/-! ### The tick at a patience (R59, R60) -/

theorem tickWait_expires {c : WaitClaim} (h : (s.wait w).st = .waiting c 1 l) :
    s.tickWait w = (((s.setWait w ⟨(s.wait w).gen, .ended c .expired⟩).setLease l ⟨(s.lease l).gen, .free⟩).flag c.port
      (.wait w) .expired).dropWait c.res w := by
  simp only [State.tickWait, h]
  exact congrArg (State.dropWait · c.res w) (endWait_eq h)

theorem tickWait_expires_head {c : WaitClaim} (h : (s.wait w).st = .waiting c 1 l)
    (hh : (s.res c.res).queue.head? = some w) : s.tickWait w =
      ((((s.setWait w ⟨(s.wait w).gen, .ended c .expired⟩).setLease l ⟨(s.lease l).gen, .free⟩).flag c.port (.wait w)
        .expired).setRes c.res { s.res c.res with queue := (s.res c.res).queue.filter (· ≠ w) }).grantPass c.res :=
  (tickWait_expires h).trans (dropWait_head hh)

theorem tickWait_expires_behind {c : WaitClaim} (h : (s.wait w).st = .waiting c 1 l)
    (hh : (s.res c.res).queue.head? ≠ some w) : s.tickWait w =
      (((s.setWait w ⟨(s.wait w).gen, .ended c .expired⟩).setLease l ⟨(s.lease l).gen, .free⟩).flag c.port (.wait w)
        .expired).setRes c.res { s.res c.res with queue := (s.res c.res).queue.filter (· ≠ w) } :=
  (tickWait_expires h).trans (dropWait_behind hh)

theorem tickWait_lowered {c : WaitClaim} {n : Half} (h : (s.wait w).st = .waiting c n l) (hn : 1 < n.toNat) :
    s.tickWait w = s.setWait w ⟨(s.wait w).gen, .waiting c (n - 1) l⟩ := by
  simp only [State.tickWait, h, if_neg (Nat.not_le.mpr hn)]

theorem tickWait_stopped (h : ∀ c n l, (s.wait w).st ≠ .waiting c n l) : s.tickWait w = s := by
  simp only [State.tickWait]

/-! ### The tick at a promotion patience (R78) -/

theorem tickPromo_expires {h : Holding} {a : ActivePart} (hl : (s.lease l).st = .active h { a with promo := some 1 }) :
    s.tickPromo l = (((s.setLease l ⟨(s.lease l).gen, .active h { a with promo := none }⟩).setRes h.claim.res
      { s.res h.claim.res with slot := none }).flag h.claim.port (.lease l) .promoteEnded).grantPass h.claim.res := by
  simp only [State.tickPromo, hl]
  rfl

theorem tickPromo_lowered {h : Holding} {a : ActivePart} {n : Half}
    (hl : (s.lease l).st = .active h { a with promo := some n }) (hn : 1 < n.toNat) :
    s.tickPromo l = s.setLease l ⟨(s.lease l).gen, .active h { a with promo := some (n - 1) }⟩ := by
  simp only [State.tickPromo, hl, if_neg (Nat.not_le.mpr hn)]

theorem tickPromo_stopped (h : ∀ h a n, (s.lease l).st = .active h a → a.promo ≠ some n) : s.tickPromo l = s := by
  simp only [State.tickPromo]
  split
  · next b a hl =>
    split
    · exact absurd ‹_› (h _ _ _ hl)
    · rfl
  · rfl

/-! ### What the leaving of a holder list moves -/

/-- No lease but a RESERVED or ACTIVE one changes, and only RESERVED leases join the holder list of `r`. -/
structure State.Moves (r : ResNo) (s t : State) : Prop where
  lease : ∀ l, (s.lease l).isReserved = false → (s.lease l).isActive = false → t.lease l = s.lease l
  holders : ∀ l ∈ (t.res r).holders, l ∈ (s.res r).holders ∨ (s.lease l).isReserved = true

namespace State.Moves

theorem refl (r : ResNo) (s : State) : s.Moves r s := ⟨fun _ _ _ => rfl, fun _ => .inl⟩

theorem trans (h : s.Moves r t) (h' : t.Moves r u) (hr : ∀ l, (t.lease l).isReserved = true → (s.lease l).isReserved = true) :
    s.Moves r u where
  lease l hres hact := by
    have e := h.lease l hres hact
    rw [h'.lease l (by rw [e]; exact hres) (by rw [e]; exact hact), e]
  holders l hl := (h'.holders l hl).elim (h.holders l) fun hres => .inr (hr l hres)

theorem setRes {x : Resource} (hx : ∀ l ∈ x.holders, l ∈ (s.res r).holders) : s.Moves r (s.setRes r x) :=
  ⟨fun _ _ _ => rfl, fun l hl => .inl (hx l (by simpa using hl))⟩

end State.Moves

theorem grantWait_moves : s.Moves r (s.grantWait r w)
    ∧ ∀ l, ((s.grantWait r w).lease l).isReserved = true → (s.lease l).isReserved = true := by
  unfold State.grantWait
  split
  · next c n l hw =>
    split
    · next k hl =>
      have hres : (s.lease l).isReserved = true := by simp [Lease.isReserved, hl]
      have hother (i : LeaseNo) (x : Lease) (u : State) (hi : i ≠ l) : ((u.setLease l x).lease i) = u.lease i :=
        lease_setLease_ne _ _ _ hi
      refine ⟨⟨fun i hi _ => ?_, fun i hi => ?_⟩, fun i hi => ?_⟩
      · have hne : i ≠ l := fun e => by rw [e, hres] at hi; cases hi
        exact hother i _ _ hne
      · simp only [State.flag, res_setAttn, res_setLease, res_setWait, res_setRes_self] at hi
        have hj : i ∈ (s.res r).holders ++ [l] := by
          simp only [Resource.join] at hi
          split at hi <;> exact hi
        rcases List.mem_append.mp hj with h | h
        · exact .inl h
        · exact .inr (by rw [List.mem_singleton.mp h]; exact hres)
      · by_cases hne : i = l
        · rw [hne]; exact hres
        · exact (congrArg Lease.isReserved (hother i _ _ hne)).symm.trans hi
    · exact ⟨.refl r s, fun _ => id⟩
  · exact ⟨.refl r s, fun _ => id⟩

theorem grantShared_moves (ws : List WaitNo) (s : State) : s.Moves r (s.grantShared r ws) := by
  induction ws generalizing s with
  | nil => exact .refl r s
  | cons w ws ih =>
    unfold State.grantShared
    split
    · exact grantWait_moves.1.trans (ih _) grantWait_moves.2
    · exact .refl r s

theorem grantPass_moves : s.Moves r (s.grantPass r) := by
  unfold State.grantPass
  split
  · split
    · exact .refl r s
    · split
      · exact .refl r s
      · split
        · exact grantWait_moves.1.trans (grantShared_moves _ _) grantWait_moves.2
        · exact grantWait_moves.1
  · split
    · exact grantShared_moves _ _
    · exact .refl r s
  · exact .refl r s

/-- An ACTIVE lease replaced by one that is not RESERVED, with its resource's holders as they are and a flagging. -/
theorem setRes_setLease_flag_moves {q : LeaseNo} {x : Resource} {y : Lease} {p : Port} {i : Ref} {c : Cause}
    (hq : (s.lease q).isActive = true) (hx : x.holders = (s.res r).holders) (hy : y.isReserved = false) :
    s.Moves r (((s.setRes r x).setLease q y).flag p i c)
    ∧ ∀ l, ((((s.setRes r x).setLease q y).flag p i c).lease l).isReserved = true → (s.lease l).isReserved = true := by
  refine ⟨⟨fun l _ hl => ?_, fun l hl => .inl ?_⟩, fun l hl => ?_⟩
  · exact lease_setLease_ne _ _ _ fun e => by rw [e, hq] at hl; cases hl
  · rw [← hx]
    simpa [State.flag] using hl
  · simp only [State.flag, lease_setAttn, lease_setLease, lease_setRes] at hl
    split at hl
    · rw [hy] at hl; cases hl
    · exact hl

theorem promotionCompletes_moves {q : LeaseNo} : s.Moves r (s.promotionCompletes r q) := by
  cases hq : (s.lease q).st with
  | active h a =>
    have hact : (s.lease q).isActive = true := by simp [Lease.isActive, hq]
    by_cases he : (s.res r).epoch = maxEpoch
    · rw [promotionCompletes_exhausted hq he]
      have h1 := setRes_setLease_flag_moves (r := r) (x := { s.res r with slot := none })
        (y := ⟨(s.lease q).gen, .active h { a with promo := none }⟩) (p := h.claim.port) (i := .lease q)
        (c := .promoteEnded) hact rfl rfl
      exact h1.1.trans grantPass_moves h1.2
    · rw [promotionCompletes_promoted hq he]
      exact (setRes_setLease_flag_moves (r := r)
        (x := { s.res r with slot := none, epoch := (s.res r).epoch + 1, st := .exclusive })
        (y := ⟨(s.lease q).gen, promotedState h a ((s.res r).epoch + 1)⟩) hact rfl rfl).1
  | _ => simp only [State.promotionCompletes, hq]; exact .refl r s

theorem setRes_grantPass_moves {x : Resource} (hx : x.holders = (s.res r).holders) :
    s.Moves r ((s.setRes r x).grantPass r) :=
  (State.Moves.setRes fun l hl => by rwa [hx] at hl).trans grantPass_moves fun _ => id

theorem setRes_moves {x : Resource} (hx : x.holders = (s.res r).holders) : s.Moves r (s.setRes r x) :=
  .setRes fun l hl => by rwa [hx] at hl

theorem lastHolderLeft_moves : s.Moves r (s.lastHolderLeft r) := by
  unfold State.lastHolderLeft
  dsimp only
  split
  case h_1 =>
    unfold State.completeRetirement
    dsimp only
    split
    · exact ⟨fun _ _ _ => rfl, fun l hl => .inl (by simpa [State.flag] using hl)⟩
    · exact setRes_moves rfl
  case h_4 => exact .refl _ _
  all_goals
    split
    · exact setRes_grantPass_moves rfl
    · exact setRes_moves rfl

/-- What the leaving of lease `l` moves, from its being out of the list on. -/
theorem leave_moves : (s.setRes r ((s.res r).without l)).Moves r (s.leave r l) := by
  unfold State.leave
  dsimp only
  split
  · exact lastHolderLeft_moves
  · split
    · exact promotionCompletes_moves
    · exact grantPass_moves
  · exact grantPass_moves

/-- What the leaving of an ENDED lease does to the lease: nothing; and it is no holder any more. -/
theorem leave_ended {h : Holding} {c : RevokeCause} (hl : (s.lease l).st = .ended h c) :
    (s.leave r l).lease l = s.lease l ∧ l ∉ ((s.leave r l).res r).holders := by
  have hm := leave_moves (s := s) (r := r) (l := l)
  have hres : (s.lease l).isReserved = false := by simp [Lease.isReserved, hl]
  refine ⟨hm.lease l hres (by simp [Lease.isActive, hl]), fun hin => ?_⟩
  rcases hm.holders l hin with hin | hin
  · simp [Resource.without] at hin
  · rw [lease_setRes, hres] at hin
    cases hin

/-! ### Term and grace (R35, R85, R86) -/

theorem tickLease_lowered_term {h : Holding} {a : ActivePart} (hl : (s.lease l).st = .active h a)
    (hn : 1 < a.termLeft.toNat) :
    s.tickLease l = s.setLease l ⟨(s.lease l).gen, .active h { a with termLeft := a.termLeft - 1 }⟩ := by
  simp only [State.tickLease, hl, if_neg (Nat.not_le.mpr hn)]

theorem tickLease_lowered_grace {h : Holding} {y : GracePart} (hl : (s.lease l).st = .grace h y)
    (hn : 1 < y.graceLeft.toNat) :
    s.tickLease l = s.setLease l ⟨(s.lease l).gen, .grace h { y with graceLeft := y.graceLeft - 1 }⟩ := by
  simp only [State.tickLease, hl, if_neg (Nat.not_le.mpr hn)]

theorem tickLease_stopped (ha : ∀ h a, (s.lease l).st ≠ .active h a) (hg : ∀ h y, (s.lease l).st ≠ .grace h y) :
    s.tickLease l = s := by
  simp only [State.tickLease]

theorem tickLease_term {h : Holding} {a : ActivePart} (hl : (s.lease l).st = .active h a) (hn : a.termLeft = 1) :
    s.tickLease l = s.termExpires l := by
  simp only [State.tickLease, hl, hn]
  rfl

theorem tickLease_grace {h : Holding} {y : GracePart} (hl : (s.lease l).st = .grace h y) (hn : y.graceLeft = 1) :
    s.tickLease l = s.forcedEnd l := by
  simp only [State.tickLease, hl, hn]
  rfl

/-- The count of free values is no part of a retirement. -/
theorem retired_spendFree {x : Resource} : s.spendFree.retired r x = (s.retired r x).spendFree := by
  have ha : s.spendFree.attached 0 = s.attached 0 := rfl
  simp only [State.retired, ha]
  split <;> rfl

/-- The lease of a forced end, as its record stands then (R86). -/
def State.tombstone (s : State) (l : LeaseNo) (h : Holding) (c : RevokeCause) : State :=
  s.setLease l ⟨(s.lease l).gen, .ended h c⟩

section ForcedEnd

variable {h : Holding} {y : GracePart} (hl : (s.lease l).st = .grace h y)
include hl

/-- A forced end, but where P0's own lease completes a retirement (R86). -/
theorem forcedEnd_eq (hn : ¬ (h.claim.port = 0 ∧ (s.res h.claim.res).st = .retiring
      ∧ ((s.res h.claim.res).without l).holders = [])) :
    s.forcedEnd l =
      ((s.tombstone l h y.cause).flag h.claim.port (.lease l) .revoked).leave h.claim.res l := by
  simp only [State.forcedEnd, hl, if_neg hn, State.endLease, State.tombstone]

/-- A forced end of P0's own lease that completes a retirement: its two entries in an order left open (log entry 7). -/
theorem forcedEnd_retired (hy : h.claim.port = 0 ∧ (s.res h.claim.res).st = .retiring
      ∧ ((s.res h.claim.res).without l).holders = []) :
    s.forcedEnd l = ((s.tombstone l h y.cause).spendFree.leave h.claim.res l).flag h.claim.port (.lease l) .revoked
    ∨ s.forcedEnd l =
      ((s.tombstone l h y.cause).spendFree.flag h.claim.port (.lease l) .revoked).leave h.claim.res l := by
  by_cases hc : Config.retiredBeforeRevoked s.freeCount = true
  · exact .inl (by simp only [State.forcedEnd, hl, if_pos hy, if_pos hc, State.endLease, State.tombstone])
  · exact .inr (by simp only [State.forcedEnd, hl, if_pos hy, if_neg hc, State.endLease, State.tombstone])

/-- The forced end of a lease, from its record ENDED on. -/
theorem forcedEnd_endedAt : (s.tombstone l h y.cause).EndedAt (s.forcedEnd l) h.claim.res l h.claim.port := by
  have hlasting {x : Resource} (hst : x.st = .exclusive ∨ x.st = .shared) : x.st ≠ .retiring := fun e => by
    rcases hst with h' | h' <;> rw [e] at h' <;> cases h'
  refine ⟨fun hnil hst hp => ?retired, fun hnil hst hp => ?retiredZero, fun hnil hst hs => ?settles,
    fun hnil hst hs => ?frees, fun q hq hs => ?promoted, fun hne hs => ?served⟩
  case retired => exact (forcedEnd_eq hl fun hn => hp hn.1).trans (leave_retires rfl hnil hst)
  case retiredZero =>
    refine (forcedEnd_retired hl ⟨hp, hst, hnil⟩).symm.imp (fun e => e.trans ?_) (fun e => e.trans ?_)
    · exact (leave_retires (s := ((s.tombstone l h y.cause).flag h.claim.port (.lease l) .revoked).spendFree) rfl hnil
        hst).trans retired_spendFree
    · exact congrArg (State.flag · h.claim.port (.lease l) .revoked)
        ((leave_retires (s := (s.tombstone l h y.cause).spendFree) rfl hnil hst).trans retired_spendFree)
  case settles => exact (forcedEnd_eq hl fun h => hlasting hst h.2.1).trans (leave_settles rfl hnil hst hs)
  case frees => exact (forcedEnd_eq hl fun h => hlasting hst h.2.1).trans (leave_frees rfl hnil hst hs)
  case promoted =>
    have hne : ((s.res h.claim.res).without l).holders ≠ [] := fun e => by
      rw [show ((s.res h.claim.res).without l).holders = [q] from hq] at e
      cases e
    exact (forcedEnd_eq hl fun h => hne h.2.2).trans (leave_promoted rfl hq hs)
  case served => exact (forcedEnd_eq hl fun h => hne h.2.2).trans (leave_served rfl hne hs)

theorem forcedEnd_lease : (s.forcedEnd l).lease l = ⟨(s.lease l).gen, .ended h y.cause⟩
    ∧ l ∉ ((s.forcedEnd l).res h.claim.res).holders := by
  have hstone (u : State) (hu : u.lease l = ⟨(s.lease l).gen, .ended h y.cause⟩) :
      (u.leave h.claim.res l).lease l = ⟨(s.lease l).gen, .ended h y.cause⟩
        ∧ l ∉ ((u.leave h.claim.res l).res h.claim.res).holders := by
    have := leave_ended (s := u) (r := h.claim.res) (l := l) (by rw [hu])
    rwa [hu] at this
  have hset : (s.tombstone l h y.cause).lease l = ⟨(s.lease l).gen, .ended h y.cause⟩ := lease_setLease_self _ _ _
  by_cases hn : h.claim.port = 0 ∧ (s.res h.claim.res).st = .retiring ∧ ((s.res h.claim.res).without l).holders = []
  · rcases forcedEnd_retired hl hn with e | e
    · rw [e]
      exact hstone _ hset
    · rw [e]
      exact hstone _ hset
  · rw [forcedEnd_eq hl hn]
    exact hstone _ hset

end ForcedEnd

/-- An ENDED lease is out of the reach of a grant pass. -/
theorem grantPass_ended {h : Holding} {c : RevokeCause} (hl : (s.lease l).st = .ended h c)
    (hn : l ∉ (s.res r).holders) :
    (s.grantPass r).lease l = s.lease l ∧ l ∉ ((s.grantPass r).res r).holders := by
  have hm := grantPass_moves (s := s) (r := r)
  have hres : (s.lease l).isReserved = false := by simp [Lease.isReserved, hl]
  refine ⟨hm.lease l hres (by simp [Lease.isActive, hl]), fun hin => ?_⟩
  rcases hm.holders l hin with hin | hin
  · exact hn hin
  · rw [hres] at hin
    cases hin

/-- An ACTIVE lease whose term expires, placed in TERM grace (R35, R84, R79). -/
def State.graced (s : State) (l : LeaseNo) (h : Holding) (a : ActivePart) : State :=
  let v := (s.setLease l ⟨(s.lease l).gen, .grace h ⟨(s.res h.claim.res).attrs.grace, .term, a.sent⟩⟩).flag h.claim.port
    (.lease l) .revokePending
  if (s.res h.claim.res).slot = some l then
    (v.setRes h.claim.res { s.res h.claim.res with slot := none }).flag h.claim.port (.lease l) .promoteEnded
  else v

section TermExpiry

variable {h : Holding} {a : ActivePart} (hl : (s.lease l).st = .active h a)

theorem graced_lease : (s.graced l h a).lease l =
    ⟨(s.lease l).gen, .grace h ⟨(s.res h.claim.res).attrs.grace, .term, a.sent⟩⟩ := by
  simp only [State.graced]
  split <;> exact lease_setLease_self _ _ _

include hl

theorem enterGrace_term : s.enterGrace l .term (s.res h.claim.res).attrs.grace = s.graced l h a := by
  simp only [State.enterGrace, hl, State.graced]

theorem termExpires_graced (hg : (s.res h.claim.res).attrs.grace ≠ 0) : s.termExpires l =
    if (s.res h.claim.res).slot = some l then (s.graced l h a).grantPass h.claim.res else s.graced l h a := by
  simp only [State.termExpires, hl, enterGrace_term hl, if_neg hg]

theorem termExpires_ended (hg : (s.res h.claim.res).attrs.grace = 0) : s.termExpires l =
    if (s.res h.claim.res).slot = some l then ((s.graced l h a).forcedEnd l).grantPass h.claim.res
    else (s.graced l h a).forcedEnd l := by
  simp only [State.termExpires, hl, enterGrace_term hl, if_pos hg]

end TermExpiry

/-! ### The end of a tick (R105, R108) -/

theorem execAll_append (cs ds : List Instr) (s : State) : execAll (cs ++ ds) s =
    match execAll cs s with
    | .next t => execAll ds t
    | .fault e => .fault e
    | .refused e => .refused e := by
  induction cs generalizing s with
  | nil => rfl
  | cons c cs ih =>
    simp only [List.cons_append, execAll]
    cases exec c s with
    | next t => exact ih t
    | fault e => rfl
    | refused e => rfl

/-- The events of the countdowns still due, one after the other, are the end of the tick. -/
theorem execAll_flatMap_events (ys : List TickRef) (s : State) (hc : s.counting = true) (hp : ys.Perm s.due)
    (hn : s.due.Nodup) : execAll (ys.flatMap TickRef.events) s = .next ((ys.foldl State.tickAt s).withDue []) := by
  induction ys generalizing s with
  | nil =>
    have hd : s.due = [] := hp.symm.eq_nil
    rw [List.flatMap_nil, execAll, List.foldl_nil, ← hd, withDue_due]
  | cons y ys ih =>
    have hy : y ∈ s.due := hp.mem_iff.mp (List.mem_cons_self)
    have hrest : ys.Perm (s.due.erase y) := by
      have := hp.erase y
      rwa [List.erase_cons_head] at this
    have hcount : ((s.tickAt y).withDue (s.due.erase y)).counting = true := by
      have hf := tickAt_frame s y
      rw [counting_withDue, counting_iff, hf.rstN, hf.timebase]
      exact counting_iff.mp hc
    rw [List.flatMap_cons, execAll_append, execAll_events hc hy hn]
    simp only
    rw [ih _ hcount hrest (hn.erase y), foldl_withDue _ _ fun s x => tickAt_withDue _ s x]
    rfl

/-! ### REFCLK periods (R105) -/

theorem exec_tick_eq (h : s.counting = true) : exec .tick s = .next s.finishTick.tick := by
  simp only [exec, execTick, if_pos h]

theorem exec_tick_finishTick : exec .tick s = exec .tick s.finishTick := by
  simp only [exec, execTick, counting_finishTick, finishTick_finishTick]
  split
  · rfl
  · rw [finishTick_of_not_counting (eq_false_of_ne_true ‹_›)]

theorem exec_refclk_finishTick : exec .refclkPeriod s = exec .refclkPeriod s.finishTick := by
  simp only [exec, execRefclkPeriod, counting_finishTick, finishTick_finishTick]
  split
  · rfl
  · rw [finishTick_of_not_counting (eq_false_of_ne_true ‹_›)]

/-- The state with the prescaler count one up. -/
def State.counted (s : State) : State := { s with timebase := { s.timebase with prescaler := s.timebase.prescaler + 1 } }

theorem finishTick_timebase : s.finishTick.timebase = s.timebase := finishTick_frame.timebase

theorem exec_refclk_counted (h : s.counting = true) (hp : s.timebase.prescaler + 1 < s.timebase.divider) :
    exec .refclkPeriod s = .next s.finishTick.counted := by
  simp only [exec, execRefclkPeriod, if_pos h, finishTick_timebase, if_pos hp]
  simp only [State.counted, finishTick_timebase]

theorem exec_refclk_tick (h : s.counting = true) (hp : ¬ s.timebase.prescaler + 1 < s.timebase.divider) :
    exec .refclkPeriod s = .next s.finishTick.tick := by
  simp only [exec, execRefclkPeriod, if_pos h, finishTick_timebase, if_neg hp]

/-- The tick begins the prescaler count afresh, so it does not read it. -/
theorem counted_tick : s.counted.tick = s.tick := rfl

/-- The periods left to the divider, taken one by one, are the tick. -/
theorem execAll_periods (n : Nat) (s : State) (hc : s.counting = true)
    (hn : s.timebase.prescaler + (n + 1) = s.timebase.divider) :
    execAll (List.replicate (n + 1) .refclkPeriod) s = .next s.finishTick.tick := by
  induction n generalizing s with
  | zero => simp only [zero_add, List.replicate_one, execAll, exec_refclk_tick hc (by omega)]
  | succ n ih =>
    have hdue : s.finishTick.counted.finishTick = s.finishTick.counted :=
      finishTick_of_none_due (finishTick_due hc)
    have hcount : s.finishTick.counted.counting = true := counting_finishTick.trans hc
    have hleft : s.finishTick.counted.timebase.prescaler + (n + 1) = s.finishTick.counted.timebase.divider := by
      simp only [State.counted, finishTick_timebase]
      omega
    rw [List.replicate_succ, execAll, exec_refclk_counted hc (by omega)]
    simp only
    rw [ih _ hcount hleft, hdue, counted_tick]

end Sys2Proof.Machine

namespace Sys2Proof.Proofs

open Sys2Proof Sys2Proof.Machine

/-- Settles O54: each period short of the divider only counts, and the one that reaches it is the tick. -/
theorem tickFollowsDividerPeriods : Obligations.TickFollowsDividerPeriods := by
  intro s hrst hmode hlt
  have hc : s.counting = true := counting_iff.mpr ⟨hrst, hmode⟩
  refine ⟨exec_refclk_finishTick, fun hd hp => ?counts, ?periods⟩
  case counts => rw [exec_refclk_counted hc hp, finishTick_of_none_due hd]; rfl
  case periods =>
    obtain ⟨n, hn⟩ : ∃ n, s.timebase.divider - s.timebase.prescaler = n + 1 := Nat.exists_eq_succ_of_ne_zero (by omega)
    rw [hn, execAll_periods n s hc (by omega), exec_tick_eq hc]

/-- Settles O55, countdown by countdown. -/
theorem queueExpiries : Obligations.QueueExpiries := by
  intro s
  refine ⟨fun hstop x c hx => ?stopped, fun hrst hmode => ?running⟩
  case stopped =>
    have hc : s.counting = false := by rw [← Bool.not_eq_true, counting_iff]; exact hstop
    have hnone (y : TickRef) (b : Bool) := takeDue_of_not_counting (s := s) (x := y) b hc
    cases x <;> simp only [TickRef.events, List.mem_cons, List.not_mem_nil, or_false] at hx
    case lease l =>
      rcases hx with rfl | rfl
      · exact congrArg Host.Outcome.next (hnone _ _)
      · exact congrArg Host.Outcome.next (hnone _ _)
    all_goals
      subst hx
      exact congrArg Host.Outcome.next (hnone _ _)
  case running =>
    have hc : s.counting = true := counting_iff.mpr ⟨hrst, hmode⟩
    have hreach (x : TickRef) (hd : x ∈ s.due) : s.takeDue x true = ({ s with due := s.due.erase x } : State).tickAt x :=
      takeDue_eq hc hd
    have hnone (x : TickRef) (hd : x ∉ s.due) : s.takeDue x true = s := takeDue_of_not_due _ hd
    refine ⟨fun r => ⟨?frees, ?settles, ?unsettled, fun hd => ?undue⟩,
      fun w hd hst => ?unwaiting, fun w c l => ⟨?expires, ?expiresBehind, ?waits, fun hd => ?undueWait⟩,
      fun l hd hst => ?unpromoting, fun l h a => ⟨?promoteEnds, ?promotes, fun hd => ?unduePromo⟩⟩
    case frees =>
      intro hd hst
      exact congrArg Host.Outcome.next ((hreach _ hd).trans (tickSettle_frees hst))
    case settles =>
      intro n hd hst hn
      exact congrArg Host.Outcome.next ((hreach _ hd).trans (tickSettle_lowered hst hn))
    case unsettled =>
      intro hd hst
      exact congrArg Host.Outcome.next ((hreach _ hd).trans (tickSettle_stopped hst))
    case undue => exact congrArg Host.Outcome.next (hnone _ hd)
    case unwaiting => exact congrArg Host.Outcome.next ((hreach _ hd).trans (tickWait_stopped hst))
    case expires =>
      intro hd hst hh
      exact congrArg Host.Outcome.next ((hreach _ hd).trans (tickWait_expires_head hst hh))
    case expiresBehind =>
      intro hd hst hh
      exact congrArg Host.Outcome.next ((hreach _ hd).trans (tickWait_expires_behind hst hh))
    case waits =>
      intro n hd hst hn
      exact congrArg Host.Outcome.next ((hreach _ hd).trans (tickWait_lowered hst hn))
    case undueWait => exact congrArg Host.Outcome.next (hnone _ hd)
    case unpromoting => exact congrArg Host.Outcome.next ((hreach _ hd).trans (tickPromo_stopped hst))
    case promoteEnds =>
      intro hd hst
      exact congrArg Host.Outcome.next ((hreach _ hd).trans (tickPromo_expires hst))
    case promotes =>
      intro n hd hst hn
      exact congrArg Host.Outcome.next ((hreach _ hd).trans (tickPromo_lowered hst hn))
    case unduePromo => exact congrArg Host.Outcome.next (hnone _ hd)

/-- Settles O56: which of the two events reaches the lease, and then its term or its grace. -/
theorem termAndGraceExpiries : Obligations.TermAndGraceExpiries := by
  intro s l hrst hmode u
  have hc : s.counting = true := counting_iff.mpr ⟨hrst, hmode⟩
  have hreach (hd : TickRef.lease l ∈ s.due) : s.takeDue (.lease l) true = u.tickLease l := takeDue_eq hc hd
  have hmiss : s.takeDue (.lease l) false = s := by simp [State.takeDue]
  have hterm (hn : (s.lease l).inGrace = false) (hd : TickRef.lease l ∈ s.due) :
      exec (.termExpiry l) s = .next (u.tickLease l) := by
    rw [← hreach hd]
    simp only [exec, execTermExpiry, hn, Bool.not_false]
  have hgrace (hn : (s.lease l).isActive = false) (hd : TickRef.lease l ∈ s.due) :
      exec (.graceExpiry l) s = .next (u.tickLease l) := by
    rw [← hreach hd]
    simp only [exec, execGraceExpiry, hn, Bool.not_false]
  refine ⟨fun hd => ⟨?undueTerm, ?undueGrace⟩, fun h a hl => ?active, fun h y hl => ?grace, fun hd ha hg => ?stopped,
    fun h hd => ?reached⟩
  case undueTerm => exact congrArg Host.Outcome.next (takeDue_of_not_due _ hd)
  case undueGrace => exact congrArg Host.Outcome.next (takeDue_of_not_due _ hd)
  case active => simp only [exec, execGraceExpiry, Lease.isActive, hl, Bool.not_true, hmiss]
  case grace => simp only [exec, execTermExpiry, Lease.inGrace, hl, Bool.not_true, hmiss]
  case stopped =>
    have hstop : u.tickLease l = u := tickLease_stopped ha hg
    rw [hterm (by rcases hst : (s.lease l).st <;> simp_all [Lease.inGrace]) hd,
      hgrace (by rcases hst : (s.lease l).st <;> simp_all [Lease.isActive]) hd, hstop]
    exact ⟨rfl, rfl⟩
  case reached =>
    intro r x gen graced passed
    have hactive {a : ActivePart} (hl : (s.lease l).st = .active h a) : (s.lease l).inGrace = false := by
      simp [Lease.inGrace, hl]
    refine ⟨fun a hl hn => ?termLowered, fun y hl hn => ?graceLowered, fun a hl hn hg => ?termGrace,
      fun a hl hn hg => ?termEnds, fun y hl hn => ?graceEnds⟩
    case termLowered => rw [hterm (hactive hl) hd, tickLease_lowered_term (s := u) hl hn]; rfl
    case graceLowered =>
      rw [hgrace (by simp [Lease.isActive, hl]) hd, tickLease_lowered_grace (s := u) hl hn]; rfl
    case termGrace =>
      rw [hterm (hactive hl) hd, tickLease_term (s := u) hl hn, termExpires_graced (s := u) hl hg]; rfl
    case termEnds =>
      have hlease := graced_lease (s := u) (l := l) (h := h) (a := a)
      have hend := forcedEnd_lease (s := u.graced l h a) (by rw [hlease])
      refine ⟨(u.graced l h a).forcedEnd l, ?_, ?_, ?_⟩
      · rw [hterm (hactive hl) hd, tickLease_term (s := u) hl hn, termExpires_ended (s := u) hl hg]
        rfl
      · have := forcedEnd_endedAt (s := u.graced l h a) (by rw [hlease])
        rw [State.tombstone, hlease] at this
        exact this
      · rw [hlease] at hend
        simp only [passed]
        split
        · have hpass := grantPass_ended (r := r) (by rw [hend.1]) hend.2
          rw [hend.1] at hpass
          exact hpass
        · exact hend
    case graceEnds =>
      have hexec := hgrace (by simp [Lease.isActive, hl]) hd
      rw [tickLease_grace (s := u) hl hn] at hexec
      exact ⟨u.forcedEnd l, hexec, forcedEnd_endedAt (s := u) hl, forcedEnd_lease (s := u) hl⟩

end Sys2Proof.Proofs
end

