-- ==== Sys2Proof/Proofs/Ticks.lean ====
section
/-! PROOFS. The tick as an event at every running countdown (spec sections 6.2 and 6.3). -/

namespace Sys2Proof.Machine

variable {s : State} {r : ResNo} {l : LeaseNo} {w : WaitNo} {p : Port} {x : TickRef} {late : List TickRef}

/-! ### Every countdown of Table 6-2 -/

theorem mem_allCountdowns (x : TickRef) : x ∈ allCountdowns := by
  cases x <;> simp [allCountdowns]

theorem allCountdowns_nodup : allCountdowns.Nodup := by
  have hmap {n : Nat} (f : Fin n → TickRef) (hf : Function.Injective f) : ((List.finRange n).map f).Nodup :=
    (List.nodup_finRange n).map hf
  simp only [allCountdowns, List.nodup_append, List.mem_append, List.mem_map]
  refine ⟨⟨⟨⟨hmap _ fun a b h => ?_, hmap _ fun a b h => ?_, ?_⟩, hmap _ fun a b h => ?_, ?_⟩, hmap _ fun a b h => ?_, ?_⟩,
    hmap _ fun a b h => ?_, ?_⟩
  case refine_1 | refine_2 | refine_4 | refine_6 | refine_8 => cases h; rfl
  all_goals
    rintro a ha b ⟨_, _, rfl⟩ rfl
    simp at ha

/-- The countdowns a tick reaches later: those running that stand at 1 or below, or that `late` names. -/
theorem mem_toReach : x ∈ s.toReach late ↔ ∃ n, s.countdown x = some n ∧ (n ≤ 1 ∨ x ∈ late) := by
  simp only [State.toReach, List.mem_filter, mem_allCountdowns, true_and]
  rcases s.countdown x with _ | n <;> simp

theorem toReach_nodup : (s.toReach late).Nodup := allCountdowns_nodup.filter _

/-! ### What is lowered (R106) -/

/-- A count that a tick reaches at its own event and does not expire falls by one. -/
def tickedHalf (late : List TickRef) (x : TickRef) (n : Half) : Half := if 1 < n.toNat ∧ x ∉ late then n - 1 else n

def tickedByte (late : List TickRef) (x : TickRef) (n : Byte) : Byte := if 1 < n.toNat ∧ x ∉ late then n - 1 else n

theorem lowered_unlessLate (n : Half) : (if late.contains x then n else lowered n) = tickedHalf late x n := by
  by_cases hx : x ∈ late
  · simp [tickedHalf, hx]
  · by_cases hn : n.toNat ≤ 1
    · simp [tickedHalf, lowered, hx, hn, Nat.not_lt.mpr hn]
    · simp [tickedHalf, lowered, hx, hn, Nat.not_le.mp hn]

theorem loweredByte_unlessLate (n : Byte) : (if late.contains x then n else loweredByte n) = tickedByte late x n := by
  by_cases hx : x ∈ late
  · simp [tickedByte, hx]
  · by_cases hn : n.toNat ≤ 1
    · simp [tickedByte, loweredByte, hx, hn, Nat.not_lt.mpr hn]
    · simp [tickedByte, loweredByte, hx, hn, Nat.not_le.mp hn]

theorem res_lower : (s.lower late).res r = unlessLate late (.settle r) Resource.ticked (s.res r) := by
  simp [State.lower, State.res]

theorem lease_lower : (s.lower late).lease l =
    unlessLate late (.promo l) Lease.promoTicked (unlessLate late (.lease l) Lease.ticked (s.lease l)) := by
  simp [State.lower, State.lease]

theorem wait_lower : (s.lower late).wait w = unlessLate late (.wait w) Wait.ticked (s.wait w) := by
  simp [State.lower, State.wait]

theorem session_lower : (s.lower late).session p = unlessLate late (.live p) Session.ticked (s.session p) := by
  simp [State.lower, State.session]

theorem res_tick : s.tick.res r = (s.lower (s.late.headD [])).res r := by
  simp only [State.res, State.tick]

theorem lease_tick : s.tick.lease l = (s.lower (s.late.headD [])).lease l := by
  simp only [State.lease, State.tick]

theorem wait_tick : s.tick.wait w = (s.lower (s.late.headD [])).wait w := by
  simp only [State.wait, State.tick]

theorem session_tick : s.tick.session p = (s.lower (s.late.headD [])).session p := by
  simp only [State.session, State.tick]

/-- A tick writes the records that hold a countdown, the prescaler count, and what is due and late. -/
theorem tick_eq : s.tick = { s with
    resources := s.tick.resources, leases := s.tick.leases, waits := s.tick.waits, sessions := s.tick.sessions
    timebase := { s.timebase with prescaler := 0 }, due := s.tick.due, late := s.late.tail } := by
  simp only [State.tick, State.lower]

/-! ### Each record as a tick leaves it -/

theorem res_lower_settling {n : Byte} (h : (s.res r).st = .settling n) :
    (s.lower late).res r = { s.res r with st := .settling (tickedByte late (.settle r) n) } := by
  rw [res_lower, unlessLate, ← loweredByte_unlessLate]
  split
  · rw [← h]
  · simp only [Resource.ticked, h]

theorem res_lower_other (h : ∀ n, (s.res r).st ≠ .settling n) : (s.lower late).res r = s.res r := by
  rw [res_lower, unlessLate]
  split
  · rfl
  · simp only [Resource.ticked]

theorem lease_lower_active {h : Holding} {a : ActivePart} (hl : (s.lease l).st = .active h a) :
    (s.lower late).lease l = ⟨(s.lease l).gen, .active h { a with
      termLeft := tickedHalf late (.lease l) a.termLeft
      promo := a.promo.map (tickedHalf late (.promo l)) }⟩ := by
  rcases hx : s.lease l with ⟨g, st⟩
  rw [hx] at hl
  subst hl
  rw [lease_lower, hx]
  have hterm : unlessLate late (.lease l) Lease.ticked ⟨g, .active h a⟩ =
      ⟨g, .active h { a with termLeft := tickedHalf late (.lease l) a.termLeft }⟩ := by
    rw [unlessLate, ← lowered_unlessLate]
    split <;> rfl
  rw [hterm, unlessLate, ← funext (lowered_unlessLate (late := late) (x := .promo l))]
  split <;> simp [Lease.promoTicked]

theorem lease_lower_grace {h : Holding} {y : GracePart} (hl : (s.lease l).st = .grace h y) :
    (s.lower late).lease l = ⟨(s.lease l).gen, .grace h { y with graceLeft := tickedByte late (.lease l) y.graceLeft }⟩ := by
  rcases hx : s.lease l with ⟨g, st⟩
  rw [hx] at hl
  subst hl
  rw [lease_lower, hx, unlessLate, unlessLate, ← loweredByte_unlessLate]
  split <;> split <;> rfl

theorem lease_lower_other (hl : (s.lease l).isHolder = false) : (s.lower late).lease l = s.lease l := by
  rcases hx : s.lease l with ⟨g, st⟩
  rw [lease_lower, hx, unlessLate, unlessLate]
  rw [hx] at hl
  cases st <;> simp_all [Lease.isHolder, Lease.ticked, Lease.promoTicked]

theorem wait_lower_waiting {c : WaitClaim} {n : Half} (hw : (s.wait w).st = .waiting c n l) :
    (s.lower late).wait w = ⟨(s.wait w).gen, .waiting c (tickedHalf late (.wait w) n) l⟩ := by
  rcases hx : s.wait w with ⟨g, st⟩
  rw [hx] at hw
  subst hw
  rw [wait_lower, hx, unlessLate, ← lowered_unlessLate]
  split <;> rfl

theorem wait_lower_other (hw : (s.wait w).isWaiting = false) : (s.lower late).wait w = s.wait w := by
  rcases hx : s.wait w with ⟨g, st⟩
  rw [wait_lower, hx, unlessLate]
  rw [hx] at hw
  cases st <;> simp_all [Wait.isWaiting, Wait.ticked]

theorem session_lower_live {n : Half} (h : (s.session p).st = .attached (some n)) :
    (s.lower late).session p = { s.session p with st := .attached (some (tickedHalf late (.live p) n)) } := by
  rw [session_lower, unlessLate, ← lowered_unlessLate]
  split
  · rw [← h]
  · simp only [Session.ticked, h, Option.map_some]

theorem session_lower_other (h : ∀ n, (s.session p).st ≠ .attached (some n)) : (s.lower late).session p = s.session p := by
  rcases hx : s.session p with ⟨st, a, b, c, d, e⟩
  rw [hx] at h
  rw [session_lower, hx, unlessLate]
  split
  · rfl
  · rcases st with _ | (_ | n) | _
    · rfl
    · rfl
    · exact absurd rfl (h n)
    · rfl

/-! ### Which countdowns run (Table 6-2) -/

theorem countdown_settle {n : Nat} : s.countdown (.settle r) = some n ↔ ∃ m, (s.res r).st = .settling m ∧ m.toNat = n := by
  cases h : (s.res r).st <;> simp [State.countdown, h]

theorem countdown_lease {n : Nat} : s.countdown (.lease l) = some n ↔
    (∃ h a, (s.lease l).st = .active h a ∧ a.termLeft.toNat = n)
    ∨ ∃ h y, (s.lease l).st = .grace h y ∧ y.graceLeft.toNat = n := by
  cases h : (s.lease l).st <;> simp [State.countdown, h]

theorem countdown_promo {n : Nat} : s.countdown (.promo l) = some n ↔
    ∃ h a m, (s.lease l).st = .active h a ∧ a.promo = some m ∧ m.toNat = n := by
  cases h : (s.lease l).st <;> simp [State.countdown, h]

theorem countdown_wait {n : Nat} : s.countdown (.wait w) = some n ↔
    ∃ c m l, (s.wait w).st = .waiting c m l ∧ m.toNat = n := by
  cases h : (s.wait w).st <;> simp [State.countdown, h]

theorem countdown_live {n : Nat} : s.countdown (.live p) = some n ↔
    ∃ m, (s.session p).st = .attached (some m) ∧ m.toNat = n := by
  cases h : (s.session p).st <;> simp [State.countdown, h]

end Sys2Proof.Machine

namespace Sys2Proof.Proofs

open Sys2Proof Sys2Proof.Machine

/-- Settles O53: the end of the tick before, then each store record by record. -/
theorem tickLowersCountdowns : Obligations.TickLowersCountdowns := by
  intro s
  refine ⟨fun hstop => ?stopped, fun hrst hmode => ⟨exec_tick_finishTick, ?ended, finishTick_of_none_due, ?events⟩,
    fun hrst hmode hd => ⟨s.tick, ?tick, ?_⟩⟩
  case stopped =>
    have hc : ¬ s.counting = true := fun hc => hstop (counting_iff.mp hc)
    exact ⟨by simp only [exec, execTick, if_neg hc], by simp only [exec, execRefclkPeriod, if_neg hc]⟩
  case ended => exact finishTick_due (counting_iff.mpr ⟨hrst, hmode⟩)
  case events =>
    intro hd hn
    have hc : s.counting = true := counting_iff.mpr ⟨hrst, hmode⟩
    have hperm := sortByRank_perm (fun x => Config.expiryRank s.freeCount (tickCode x)) s.due
    refine ⟨_, hperm, ?_⟩
    rw [finishTick_eq hc hd]
    refine (execAll_flatMap_events _ s.spendFree hc hperm hn).trans (congrArg Host.Outcome.next ?_)
    exact (foldl_withDue _ _ (fun s x => tickAt_withDue _ s x) _ _).symm
  case tick => rw [exec_tick_eq (counting_iff.mpr ⟨hrst, hmode⟩), finishTick_of_none_due hd]
  intro late halfTick byteTick due
  refine ⟨fun r n h => res_tick.trans (res_lower_settling h), fun r h => res_tick.trans (res_lower_other h),
    fun l h a hl => lease_tick.trans (lease_lower_active hl), fun l h g hl => lease_tick.trans (lease_lower_grace hl),
    fun l hl => lease_tick.trans (lease_lower_other hl), fun w c n l hw => wait_tick.trans (wait_lower_waiting hw),
    fun w hw => wait_tick.trans (wait_lower_other hw), fun p n h => session_tick.trans (session_lower_live h),
    fun p h => session_tick.trans (session_lower_other h),
    toReach_nodup, fun r => ?settle, fun l => ?lease, fun l => ?promo, fun w => ?wait, fun p => ?live, tick_eq⟩
  case settle =>
    rw [show TickRef.settle r ∈ s.tick.due ↔ _ from mem_toReach]
    simp only [countdown_settle]
    exact ⟨fun ⟨_, ⟨m, h, hm⟩, hd⟩ => ⟨m, h, hm ▸ hd⟩, fun ⟨m, h, hd⟩ => ⟨_, ⟨m, h, rfl⟩, hd⟩⟩
  case lease =>
    rw [show TickRef.lease l ∈ s.tick.due ↔ _ from mem_toReach]
    simp only [countdown_lease]
    constructor
    · rintro ⟨_, ⟨h, a, hl, rfl⟩ | ⟨h, y, hl, rfl⟩, hd⟩
      · exact .inl ⟨h, a, hl, hd⟩
      · exact .inr ⟨h, y, hl, hd⟩
    · rintro (⟨h, a, hl, hd⟩ | ⟨h, y, hl, hd⟩)
      · exact ⟨_, .inl ⟨h, a, hl, rfl⟩, hd⟩
      · exact ⟨_, .inr ⟨h, y, hl, rfl⟩, hd⟩
  case promo =>
    rw [show TickRef.promo l ∈ s.tick.due ↔ _ from mem_toReach]
    simp only [countdown_promo]
    exact ⟨fun ⟨_, ⟨h, a, m, hl, hp, hm⟩, hd⟩ => ⟨h, a, m, hl, hp, hm ▸ hd⟩,
      fun ⟨h, a, m, hl, hp, hd⟩ => ⟨_, ⟨h, a, m, hl, hp, rfl⟩, hd⟩⟩
  case wait =>
    rw [show TickRef.wait w ∈ s.tick.due ↔ _ from mem_toReach]
    simp only [countdown_wait]
    exact ⟨fun ⟨_, ⟨c, m, l, h, hm⟩, hd⟩ => ⟨c, m, l, h, hm ▸ hd⟩, fun ⟨c, m, l, h, hd⟩ => ⟨_, ⟨c, m, l, h, rfl⟩, hd⟩⟩
  case live =>
    rw [show TickRef.live p ∈ s.tick.due ↔ _ from mem_toReach]
    simp only [countdown_live]
    exact ⟨fun ⟨_, ⟨m, h, hm⟩, hd⟩ => ⟨m, h, hm ▸ hd⟩, fun ⟨m, h, hd⟩ => ⟨_, ⟨m, h, rfl⟩, hd⟩⟩

end Sys2Proof.Proofs
end

