-- ==== Sys2Proof/Proofs/Calm.lean ====
section
/-! PROOFS. What each request's own rule leaves as it is: the pins and what is due; no epoch falls, and no rule but that of
ACQUIRE allocates a record. -/

namespace Sys2Proof.Machine

variable {s t u : State} {r : ResNo} {l : LeaseNo} {w : WaitNo} {p q : Port} {body : List Byte}

/-- No waiting command, pin or countdown still due has changed, and no epoch has fallen. -/
structure State.Effect (s t : State) : Prop where
  pending : t.pending = s.pending
  rstN : t.rstN = s.rstN
  gateOeN : t.gateOeN = s.gateOeN
  due : t.due = s.due
  late : t.late = s.late
  epoch : ∀ r, (s.res r).epoch.toNat ≤ (t.res r).epoch.toNat

/-- No record has been allocated or has changed its generation, its port or its resource. -/
structure State.Steady (s t : State) : Prop where
  leaseGen : ∀ l, (t.lease l).gen = (s.lease l).gen
  waitGen : ∀ w, (t.wait w).gen = (s.wait w).gen
  lease : ∀ l, (t.lease l).place = (s.lease l).place ∨ (t.lease l).place = none
  wait : ∀ w, (t.wait w).place = (s.wait w).place ∨ (t.wait w).place = none

namespace State.Effect

theorem refl (s : State) : s.Effect s := ⟨rfl, rfl, rfl, rfl, rfl, fun _ => Nat.le_refl _⟩

theorem trans (h : s.Effect t) (h' : t.Effect u) : s.Effect u where
  pending := h'.pending.trans h.pending
  rstN := h'.rstN.trans h.rstN
  gateOeN := h'.gateOeN.trans h.gateOeN
  due := h'.due.trans h.due
  late := h'.late.trans h.late
  epoch r := (h.epoch r).trans (h'.epoch r)

theorem ofFrame (h : s.TickFrame t) : s.Effect t := ⟨h.pending, h.rstN, h.gateOeN, h.due, h.late, h.epoch⟩

theorem ofOpAt (h : s.OpAt r t) : s.Effect t := ofFrame (.ofOpAt h)

end State.Effect

namespace State.Steady

theorem refl (s : State) : s.Steady s := ⟨fun _ => rfl, fun _ => rfl, fun _ => .inl rfl, fun _ => .inl rfl⟩

theorem trans (h : s.Steady t) (h' : t.Steady u) : s.Steady u where
  leaseGen l := (h'.leaseGen l).trans (h.leaseGen l)
  waitGen w := (h'.waitGen w).trans (h.waitGen w)
  lease l := (h'.lease l).elim (fun e => e ▸ h.lease l) .inr
  wait w := (h'.wait w).elim (fun e => e ▸ h.wait w) .inr

/-- Generations by the frame of an operation, places by its being tame. -/
theorem ofTame (h : s.OpAt r t) (h' : s.Tame t) : s.Steady t := ⟨h.leaseGen, h.waitGen, h'.lease, h'.wait⟩

/-- The same stores of records. -/
theorem ofStores (hl : t.leases = s.leases) (hw : t.waits = s.waits) : s.Steady t where
  leaseGen l := by simp only [State.lease, hl]
  waitGen w := by simp only [State.wait, hw]
  lease l := .inl (by simp only [State.lease, hl])
  wait w := .inl (by simp only [State.wait, hw])

end State.Steady

/-- Both frames: what every rule but that of ACQUIRE keeps. -/
def State.Calm (s t : State) : Prop := s.Effect t ∧ s.Steady t

namespace State.Calm

theorem refl (s : State) : s.Calm s := ⟨.refl s, .refl s⟩

theorem trans (h : s.Calm t) (h' : t.Calm u) : s.Calm u := ⟨h.1.trans h'.1, h.2.trans h'.2⟩

/-- Two effects, the later one given first. -/
theorem after (h' : t.Calm u) (h : s.Calm t) : s.Calm u := h.trans h'

theorem ofTame (h : s.OpAt r t) (h' : s.Tame t) : s.Calm t := ⟨.ofOpAt h, .ofTame h h'⟩

theorem setRes {x : Resource} (hx : (s.res r).epoch.toNat ≤ x.epoch.toNat) : s.Calm (s.setRes r x) :=
  ofTame (.setRes hx) .setRes

theorem setLease {x : Lease} (hg : x.gen = (s.lease l).gen) (hx : x.place = (s.lease l).place ∨ x.place = none) :
    s.Calm (s.setLease l x) :=
  ofTame (r := 0) (.setLease hg) (.setLease hx)

theorem setWait {x : Wait} (hg : x.gen = (s.wait w).gen) (hx : x.place = (s.wait w).place ∨ x.place = none) :
    s.Calm (s.setWait w x) :=
  ofTame (r := 0) (.setWait hg) (.setWait hx)

theorem setAttn {x : List Entry} : s.Calm (s.setAttn p x) := ⟨.ofOpAt (r := 0) .setAttn, .ofStores rfl rfl⟩

theorem flag {x : Ref} {c : Cause} : s.Calm (s.flag p x c) := setAttn

theorem withdraw {x : Ref} : s.Calm (s.withdraw p x) := setAttn

theorem setSession {x : Session} : s.Calm (s.setSession p x) := ⟨.ofFrame setSession_frame, .ofStores rfl rfl⟩

theorem setLink {x : Link} : s.Calm (s.setLink p x) := ⟨.ofFrame setLink_frame, .ofStores rfl rfl⟩

theorem setGate {g : GateNo} {x : Gate} : s.Calm (s.setGate g x) :=
  ⟨⟨rfl, rfl, rfl, rfl, rfl, fun _ => Nat.le_refl _⟩, .ofStores rfl rfl⟩

theorem setTimebase {x : Timebase} : s.Calm { s with timebase := x } :=
  ⟨⟨rfl, rfl, rfl, rfl, rfl, fun _ => Nat.le_refl _⟩, .ofStores rfl rfl⟩

theorem foldl {α : Type} {f : State → α → State} (hf : ∀ (t : State) (x : α), t.Calm (f t x)) (xs : List α) (s : State) :
    s.Calm (xs.foldl f s) := by
  induction xs generalizing s with
  | nil => exact refl s
  | cons x xs ih => exact (hf s x).trans (ih _)

end State.Calm

/-! ### Shared operations -/

theorem grantPass_calm : s.Calm (s.grantPass r) := .ofTame grantPass_opAt grantPass_tame
theorem leave_calm : s.Calm (s.leave r l) := .ofTame leave_opAt leave_tame
theorem lastHolderLeft_calm : s.Calm (s.lastHolderLeft r) := .ofTame lastHolderLeft_opAt lastHolderLeft_tame
theorem endHolders_calm : s.Calm (s.endHolders r) := .ofTame endHolders_opAt endHolders_tame
theorem dropWait_calm : s.Calm (s.dropWait r w) := .ofTame dropWait_opAt dropWait_tame
theorem contend_calm {ls : List LeaseNo} : s.Calm (s.contend ls) := .ofTame (r := 0) (contend_opAt ls) (contend_tame ls)
theorem endWait_calm {e : WaitEnd} {c : Cause} : s.Calm (s.endWait w e c) := .ofTame (r := 0) endWait_opAt endWait_tame

theorem applyRevocation_calm {c : RevokeCause} {g : Byte} (s : State) (l : LeaseNo) :
    s.Calm (State.applyRevocation c g s l) := by
  unfold State.applyRevocation
  split
  · next h a hl => exact .ofTame (enterGrace_opAt (r := h.claim.res) (by simp [Lease.claim?, hl])) enterGrace_tame
  · next hl => exact .ofTame (r := 0) escalate_opAt (escalate_tame hl)
  · exact .refl s

theorem dropPort_calm {st : SessState} {e : EndCause} : s.Calm (s.dropPort p st e) := by
  refine ⟨.ofFrame dropPort_frame, dropPort_frame.leaseGen, dropPort_frame.waitGen, fun l => ?_, fun w => ?_⟩
  · rw [lease_dropPort]
    split
    · exact .inr rfl
    · exact .inl rfl
  · rw [wait_dropPort]
    split
    · exact .inr rfl
    · exact .inl rfl

theorem spendFree_calm : s.Calm s.spendFree := .ofTame (r := 0) .spendFree .spendFree

theorem treatClaim_calm (s : State) (c : ResNo × PortClaim) : s.Calm (s.treatClaim c) :=
  .ofTame (treatClaim_opAt s c) (treatClaim_tame s c)

theorem endSession_calm {st : SessState} {e : EndCause} : s.Calm (s.endSession p st e) := by
  rw [endSession_eq]
  exact .after (.foldl treatClaim_calm _ _) (.after spendFree_calm dropPort_calm)

theorem loseSession_calm {e : EndCause} : s.Calm (s.loseSession p e) := .after .setLink endSession_calm

/-! ### The requests' own rules -/

/-- The rule's effect is calm, whatever it meets. -/
def Owner.Calm (own : Owner) : Prop := ∀ (p : Port) (body : List Byte) (s : State), s.Calm (own p body s).2

/-- A next epoch that is not past the last is no lower. -/
theorem epoch_le_succ {e : Quad} (h : e ≠ maxEpoch) : e.toNat ≤ (e + 1).toNat := (toNat_lt_succ_epoch h).le

theorem attachOwner_calm : attachOwner.Calm := by
  intro p body s
  simp only [attachOwner]
  split
  · exact .after .setSession endSession_calm
  · exact .setSession

theorem detachOwner_calm : detachOwner.Calm := fun _ _ _ => endSession_calm

theorem setQuotaOwner_calm : setQuotaOwner.Calm := by
  intro p body s
  simp only [setQuotaOwner]
  split
  · exact .refl s
  · split
    · exact .refl s
    · exact .setSession

theorem evictOwner_calm : evictOwner.Calm := by
  intro p body s
  simp only [evictOwner]
  split
  · exact .refl s
  · split
    · exact .refl s
    · split
      · exact .refl s
      · exact loseSession_calm

theorem withLease_calm {own : LeaseNo → Owner} (h : ∀ l, (own l).Calm) : (withLease own).Calm := by
  intro p body s
  simp only [withLease]
  split
  · exact .refl s
  · exact .refl s
  · exact h _ _ _ _

theorem answerEnded_calm {c : RevokeCause} : s.Calm (s.answerEnded p l c).2 := .after .withdraw (.setLease rfl (.inr rfl))

/-- A lease record of the same claim keeps its place. -/
theorem place_eq_of_claim {x y : Lease} {c : Claim} (hx : x.claim? = some c) (hy : y.claim? = some c) :
    x.place = y.place := by
  rw [lease_place_of_claim hx, lease_place_of_claim hy]

theorem renewOwner_calm : renewOwner.Calm := by
  refine withLease_calm fun l p body s => ?_
  simp only [renewLease]
  split
  · next h a hl =>
    exact .setLease rfl (.inl (place_eq_of_claim (c := h.claim) rfl (by simp [Lease.claim?, hl])))
  · next h g hl =>
    split
    · exact .after .flag (.setLease rfl (.inl (place_eq_of_claim (c := h.claim) rfl (by simp [Lease.claim?, hl]))))
    · exact .refl s
  · exact answerEnded_calm
  · exact .refl s

theorem releaseHolder_calm : s.Calm (s.releaseHolder p l r) :=
  .after leave_calm (.after .withdraw (.setLease rfl (.inr rfl)))

theorem releaseOwner_calm : releaseOwner.Calm := by
  refine withLease_calm fun l p body s => ?_
  simp only [releaseLease]
  split
  · exact releaseHolder_calm
  · exact releaseHolder_calm
  · exact answerEnded_calm
  · exact .refl s

theorem promoteOwner_calm : promoteOwner.Calm := by
  refine withLease_calm fun l p body s => ?_
  simp only [promoteLease]
  split
  · exact answerEnded_calm
  · exact .refl s
  · next h a hl =>
    have hplace {x : Lease} {c : Claim} (hx : x.claim? = some c) (hp : c.port = h.claim.port) (hr : c.res = h.claim.res) :
        x.place = (s.lease l).place := by
      rw [lease_place_of_claim hx, lease_place_of_claim (x := s.lease l) (by simp [Lease.claim?, hl]; rfl), hp, hr]
    split
    · exact .refl s
    · split
      · exact .refl s
      · split
        · split
          · exact .refl s
          · exact .after (.setLease rfl (.inl (hplace rfl rfl rfl))) (.setRes (epoch_le_succ ‹_›))
        · split
          · exact .refl s
          · exact .after contend_calm (.after (.setLease rfl (.inl (hplace rfl rfl rfl))) (.setRes (Nat.le_refl _)))
  · exact .refl s

theorem demoteOwner_calm : demoteOwner.Calm := by
  refine withLease_calm fun l p body s => ?_
  simp only [demoteLease]
  split
  · exact answerEnded_calm
  · next h a hl =>
    split
    · exact .refl s
    · split
      · exact .refl s
      · refine .after grantPass_calm (.after (.setLease rfl (.inl ?_)) (.setRes (epoch_le_succ ‹_›)))
        exact (lease_place_of_claim (c := { h.claim with mode := .shared }) rfl).trans
          (lease_place_of_claim (x := s.lease l) (c := h.claim) (by simp [Lease.claim?, hl])).symm
  · exact .refl s
  · exact .refl s

theorem cancelWaitOwner_calm : cancelWaitOwner.Calm := by
  intro p body s
  simp only [cancelWaitOwner]
  split
  · exact .refl s
  · exact .refl s
  · simp only [cancelNamed]
    split
    · exact .after dropWait_calm (.after (.setLease rfl (.inr rfl)) (.setWait rfl (.inr rfl)))
    · exact .after .withdraw (.setWait rfl (.inr rfl))
    · exact .refl s

theorem defineOwner_calm : defineOwner.Calm := by
  intro p body s
  simp only [defineOwner]
  split
  · exact .refl s
  · split
    · exact .refl s
    · split
      · exact .refl s
      · exact .setRes (Nat.le_refl _)

theorem revoke_calm {g : Byte} : s.Calm (s.revoke r g) := by
  have hfold := State.Calm.foldl (applyRevocation_calm (c := .supervisor) (g := g)) (s.res r).holders s
  simp only [State.revoke]
  split
  · exact .refl s
  · split
    · exact .after lastHolderLeft_calm (.after endHolders_calm hfold)
    · split
      · exact .after grantPass_calm hfold
      · exact hfold

theorem revokeOwner_calm : revokeOwner.Calm := by
  intro p body s
  simp only [revokeOwner]
  split
  · exact .refl s
  · split
    · exact .refl s
    · exact revoke_calm

theorem withdrawWaits_calm : s.Calm (s.withdrawWaits r) :=
  .after (.setRes (Nat.le_refl _)) (.foldl (fun _ _ => endWait_calm) _ _)

theorem retire_calm : s.Calm (s.retire r).2 := by
  have hfold := State.Calm.foldl (applyRevocation_calm (c := .retire) (g := (s.res r).attrs.grace)) (s.res r).holders
    (s.withdrawWaits r)
  simp only [State.retire]
  split
  · exact .after (.setRes (Nat.le_refl _)) withdrawWaits_calm
  · split
    · exact .after (.setRes (Nat.le_refl _)) (.after endHolders_calm (hfold.after withdrawWaits_calm))
    · exact .after (.setRes (Nat.le_refl _)) (hfold.after withdrawWaits_calm)

theorem retireOwner_calm : retireOwner.Calm := by
  intro p body s
  simp only [retireOwner]
  split
  · exact .refl s
  · split
    · exact .refl s
    · split
      · exact .refl s
      · exact retire_calm

theorem fetchNoticeOwner_calm : fetchNoticeOwner.Calm := by
  intro p body s
  simp only [fetchNoticeOwner]
  split
  · exact .refl s
  · next e es _ =>
    refine .after (t := s.setAttn p es) ?_ .setAttn
    cases e.ref with
    | lease l =>
      simp only [State.freeFetched]
      split
      · exact .setLease rfl (.inr rfl)
      · exact .refl _
    | wait w =>
      simp only [State.freeFetched]
      split
      · exact .setWait rfl (.inr rfl)
      · exact .refl _
    | resource r => exact .refl _

theorem bindGateOwner_calm : bindGateOwner.Calm := by
  intro p body s
  simp only [bindGateOwner]
  split
  · exact .refl s
  · split
    · exact .refl s
    · exact .setGate

theorem unbindGateOwner_calm : unbindGateOwner.Calm := by
  intro p body s
  simp only [unbindGateOwner]
  split
  · exact .refl s
  · split
    · exact .refl s
    · exact .setGate

theorem setTimebaseOwner_calm : setTimebaseOwner.Calm := by
  intro p body s
  simp only [setTimebaseOwner]
  split
  · exact .refl s
  · exact .setTimebase

theorem startTimebaseOwner_calm : startTimebaseOwner.Calm := fun _ _ _ => .setTimebase

theorem haltTimebaseOwner_calm : haltTimebaseOwner.Calm := fun _ _ _ => .setTimebase

/-- An owner that only reads is calm. -/
theorem calm_of_reads {own : Owner} (h : ∀ p body s, (own p body s).2 = s) : own.Calm :=
  fun p body s => by rw [h]; exact .refl s

/-! ### ACQUIRE -/

theorem ite_some_eq_none_iff {α : Type} {c : Prop} [Decidable c] {x : α} {y : Option α} :
    (if c then some x else y) = none ↔ ¬ c ∧ y = none := by
  split <;> simp [*]

/-- An ACQUIRE that no check refuses finds a FREE lease record, and is grantable now or finds a FREE wait record too. -/
theorem acquireRefusal_none {a : AcquireArgs} (h : s.acquireRefusal p a = none) :
    s.Admits p a ∧ ∃ l, s.freeLease? = some l
      ∧ (((s.res a.res).grantable a.mode = true ∧ ((s.res a.res).st = .free → (s.res a.res).epoch ≠ maxEpoch))
        ∨ (s.res a.res).grantable a.mode = false ∧ a.patience ≠ 0
          ∧ (s.res a.res).queue.length < (s.res a.res).attrs.queueLimit.toNat
          ∧ s.waitUse p < (s.session p).waitQuota.toNat ∧ ∃ w, s.freeWait? = some w) := by
  simp only [State.acquireRefusal, ite_some_eq_none_iff] at h
  obtain ⟨h1, h2, h3, h4, h5, h6, h⟩ := h
  obtain ⟨l, hl⟩ := Option.ne_none_iff_exists'.mp h6
  refine ⟨⟨h1, h2, fun hm h0 => h3 ⟨hm, h0⟩, eq_false_of_ne_true h4, Nat.not_le.mp h5⟩, l, hl, ?_⟩
  rcases hg : (s.res a.res).grantable a.mode
  · simp only [hg, Bool.false_eq_true, if_false, ite_some_eq_none_iff] at h
    obtain ⟨h9, h10, h11, h12, -⟩ := h
    exact .inr ⟨rfl, h9, Nat.not_le.mp h10, Nat.not_le.mp h11, Option.ne_none_iff_exists'.mp h12⟩
  · simp only [hg, if_true, ite_some_eq_none_iff] at h
    exact .inl ⟨rfl, fun hf he => h.1 ⟨hf, he⟩⟩

/-- The three ways an ACQUIRE ends: refused, granted, or queued. -/
theorem acquireOwner_cases (p : Port) (body : List Byte) (s : State) :
    (∃ result, acquireOwner p body s = (.refuse result, s))
    ∨ ∃ a l, s.Admits p a ∧ s.freeLease? = some l
      ∧ (((s.res a.res).grantable a.mode = true ∧ ((s.res a.res).st = .free → (s.res a.res).epoch ≠ maxEpoch)
          ∧ acquireOwner p body s = s.grantNow p a l)
        ∨ ∃ w, s.freeWait? = some w ∧ s.waitUse p < (s.session p).waitQuota.toNat
          ∧ (s.res a.res).grantable a.mode = false ∧ a.patience ≠ 0
          ∧ (s.res a.res).queue.length < (s.res a.res).attrs.queueLimit.toNat
          ∧ acquireOwner p body s = s.enqueue p a l w) := by
  rcases ha : acquireArgs body with _ | a
  · exact .inl ⟨.badArgument, by simp only [acquireOwner, ha]⟩
  rw [acquireOwner_eq ha]
  rcases hr : s.acquireRefusal p a with _ | result
  · obtain ⟨hadmit, l, hl, ⟨hg, he⟩ | ⟨hg, hn, hq, hu, w, hw⟩⟩ := acquireRefusal_none hr
    · exact .inr ⟨a, l, hadmit, hl, .inl ⟨hg, he, acquireChecked_granted hadmit hl hg he⟩⟩
    · refine .inr ⟨a, l, hadmit, hl, .inr ⟨w, hw, hu, hg, hn, hq, ?_⟩⟩
      rw [acquireChecked_admitted hadmit hl, hg, if_neg Bool.false_ne_true, acquireWait_enqueue hn hq hu hw]
  · exact .inl ⟨result, acquireChecked_refused hr⟩

end Sys2Proof.Machine
end

