-- ==== Sys2Proof/Proofs/Contention.lean ====
section
/-! PROOFS. Contention notices (spec section 3.8). -/

namespace Sys2Proof.Machine

variable {s : State} {l : LeaseNo} {p : Port}

/-! ### One holder (R66) -/

/-- The holder asked for a contention notice and has not been told. -/
def Lease.toTell (x : Lease) : Bool :=
  match x.st with
  | .active h a => h.claim.contend && !a.sent
  | .grace h g => h.claim.contend && !g.sent
  | _ => false

/-- The lease record of a holder that has been told. -/
def Lease.told (x : Lease) : Lease :=
  match x.st with
  | .active h a => { x with st := .active h { a with sent := true } }
  | .grace h g => { x with st := .grace h { g with sent := true } }
  | _ => x

theorem lease_claim_told (x : Lease) : x.told.claim? = x.claim? := by
  unfold Lease.told
  split <;> simp_all [Lease.claim?]

theorem contendHolder_told (h : (s.lease l).toTell = true) : s.contendHolder l =
    (s.setLease l (s.lease l).told).flagLease l .contended := by
  have hclaim := lease_claim_told (s.lease l)
  rcases hl : (s.lease l).st with _ | k | ⟨k, a⟩ | ⟨k, a⟩ | k <;>
    simp_all [Lease.toTell, Lease.told, State.contendHolder, State.flagLease, Lease.claim?]

theorem contendHolder_untold (h : (s.lease l).toTell = false) : s.contendHolder l = s := by
  rcases hl : (s.lease l).st with _ | k | ⟨k, a⟩ | ⟨k, a⟩ | k <;>
    simp_all [Lease.toTell, State.contendHolder]

theorem lease_flagLease (s : State) (l l' : LeaseNo) (c : Cause) : (s.flagLease l c).lease l' = s.lease l' := by
  unfold State.flagLease
  split <;> rfl

/-- Only leases and lists change. -/
theorem contendHolder_other (s : State) (l : LeaseNo) :
    ∃ ls es, s.contendHolder l = { s with leases := ls, attention := es } := by
  rcases h : (s.lease l).toTell
  · exact ⟨s.leases, s.attention, contendHolder_untold h⟩
  · rw [contendHolder_told h, State.flagLease]
    split
    · exact ⟨_, _, rfl⟩
    · exact ⟨_, s.attention, rfl⟩

theorem lease_contendHolder (s : State) (l l' : LeaseNo) : (s.contendHolder l).lease l' =
    if l' = l ∧ (s.lease l').toTell = true then (s.lease l').told else s.lease l' := by
  rcases h : (s.lease l).toTell
  · rw [contendHolder_untold h, if_neg]
    rintro ⟨rfl, h'⟩
    simp [h] at h'
  · rw [contendHolder_told h, lease_flagLease, lease_setLease]
    by_cases hl : l' = l
    · subst hl; simp [h]
    · simp [hl]

theorem attn_contendHolder (s : State) (l : LeaseNo) (p : Port) : (s.contendHolder l).attn p =
    if (s.lease l).toTell = true ∧ (s.lease l).ownedBy p = true then addCause (.lease l) .contended (s.attn p)
    else s.attn p := by
  rcases h : (s.lease l).toTell
  · rw [contendHolder_untold h, if_neg (by simp)]
  · rw [contendHolder_told h, State.flagLease, lease_setLease_self, lease_claim_told]
    rcases hc : (s.lease l).claim? with _ | c
    · simp [Lease.ownedBy, hc]
    · by_cases hp : p = c.port <;> simp [Lease.ownedBy, hc, hp, State.flag, eq_comm]

/-! ### A list of holders -/

theorem contend_other (ls : List LeaseNo) (s : State) :
    ∃ xs es, s.contend ls = { s with leases := xs, attention := es } := by
  induction ls generalizing s with
  | nil => exact ⟨s.leases, s.attention, rfl⟩
  | cons l ls ih =>
    obtain ⟨xs, es, h⟩ := contendHolder_other s l
    obtain ⟨ys, fs, h'⟩ := ih (s.contendHolder l)
    refine ⟨ys, fs, ?_⟩
    change (s.contendHolder l).contend ls = _
    rw [h', h]

theorem lease_contend {ls : List LeaseNo} (hls : ls.Nodup) (s : State) (l : LeaseNo) : (s.contend ls).lease l =
    if l ∈ ls ∧ (s.lease l).toTell = true then (s.lease l).told else s.lease l := by
  induction ls generalizing s with
  | nil => simp [State.contend]
  | cons l' ls ih =>
    obtain ⟨hnot, hls⟩ := List.nodup_cons.mp hls
    have h : (s.contend (l' :: ls)).lease l = _ := ih hls (s.contendHolder l')
    rw [h, lease_contendHolder]
    by_cases hl : l = l'
    · subst hl; simp [hnot]
    · simp [hl]

/-- The notices join the list of each port in the order of the holders told. -/
theorem attn_contend {ls : List LeaseNo} (hls : ls.Nodup) (s : State) (p : Port) : (s.contend ls).attn p =
    (ls.filter fun l => (s.lease l).toTell && (s.lease l).ownedBy p).foldl
      (fun es l => addCause (.lease l) .contended es) (s.attn p) := by
  induction ls generalizing s with
  | nil => rfl
  | cons l ls ih =>
    obtain ⟨hnot, hls⟩ := List.nodup_cons.mp hls
    have h : (s.contend (l :: ls)).attn p = _ := ih hls (s.contendHolder l)
    have hsame : (ls.filter fun l' => ((s.contendHolder l).lease l').toTell && ((s.contendHolder l).lease l').ownedBy p) =
        ls.filter fun l' => (s.lease l').toTell && (s.lease l').ownedBy p := List.filter_congr fun l' hl' => by
      rw [lease_contendHolder, if_neg fun hx : l' = l ∧ _ => hnot (hx.1 ▸ hl')]
    rw [h, hsame, attn_contendHolder, List.filter_cons]
    by_cases ht : (s.lease l).toTell = true ∧ (s.lease l).ownedBy p = true
    · simp [ht]
    · rw [if_neg ht, if_neg (by simpa using ht)]

/-! ### The entries of a list (R145) -/

/-- An entry after a flagging of the record it is about, if it is about one of those given. -/
def Entry.withCause (xs : List Ref) (c : Cause) (e : Entry) : Entry :=
  if e.ref ∈ xs then { e with causes := e.causes ||| c.value } else e

theorem withCause_not_mem {xs : List Ref} {c : Cause} {e : Entry} (h : e.ref ∉ xs) : e.withCause xs c = e := if_neg h

theorem withCause_cons {x : Ref} {xs : List Ref} {c : Cause} (h : x ∉ xs) (e : Entry) :
    (e.withCause [x] c).withCause xs c = e.withCause (x :: xs) c := by
  by_cases he : e.ref = x
  · subst he
    simp [Entry.withCause, h]
  · simp [Entry.withCause, he]

theorem addCause_eq {x : Ref} {c : Cause} {es : List Entry} (h : (es.map (·.ref)).Nodup) : addCause x c es =
    es.map (Entry.withCause [x] c) ++ if x ∈ es.map (·.ref) then [] else [⟨x, c.value⟩] := by
  induction es with
  | nil => rfl
  | cons e es ih =>
    obtain ⟨hnot, hes⟩ := List.nodup_cons.mp h
    unfold addCause
    by_cases he : e.ref = x
    · subst he
      have hid : es.map (Entry.withCause [e.ref] c) = es := (List.map_congr_left fun f hf => withCause_not_mem fun hx =>
        hnot (List.mem_map.mpr ⟨f, hf, List.mem_singleton.mp hx⟩)).trans (List.map_id es)
      simp [hid, Entry.withCause]
    · rw [if_neg he, ih hes]
      simp [Entry.withCause, he, Ne.symm he]

/-- Flaggings of distinct records: each entry of one of them gains the cause, and the records without one join the tail in
order. -/
theorem foldl_addCause {c : Cause} {xs : List Ref} (hxs : xs.Nodup) {es : List Entry} (h : (es.map (·.ref)).Nodup) :
    xs.foldl (fun es x => addCause x c es) es =
      es.map (Entry.withCause xs c) ++ (xs.filter fun x => x ∉ es.map (·.ref)).map fun x => ⟨x, c.value⟩ := by
  induction xs generalizing es with
  | nil => exact ((List.append_nil _).trans ((List.map_congr_left fun _ _ => withCause_not_mem List.not_mem_nil).trans
      (List.map_id es))).symm
  | cons x xs ih =>
    obtain ⟨hnot, hxs⟩ := List.nodup_cons.mp hxs
    have hnodup : ((addCause x c es).map (·.ref)).Nodup := by
      rw [map_ref_addCause]
      split
      · exact h
      · next hx =>
        exact List.nodup_append.mpr ⟨h, by simp, fun a ha b hb hab => hx (List.mem_singleton.mp hb ▸ hab ▸ ha)⟩
    have hmap : (es.map (Entry.withCause [x] c)).map (Entry.withCause xs c) = es.map (Entry.withCause (x :: xs) c) := by
      rw [List.map_map]
      exact List.map_congr_left fun e _ => withCause_cons hnot e
    rw [List.foldl_cons, ih hxs hnodup, map_ref_addCause, addCause_eq h, List.map_append, hmap, List.filter_cons]
    by_cases hx : x ∈ es.map (·.ref)
    · simp [hx]
    · have hfilter : (xs.filter fun y => y ∉ es.map (·.ref) ++ [x]) = xs.filter fun y => y ∉ es.map (·.ref) :=
        List.filter_congr fun y hy => by
          have : y ≠ x := fun e => hnot (e ▸ hy)
          simp [this]
      have hnew : Entry.withCause xs c ⟨x, c.value⟩ = ⟨x, c.value⟩ := withCause_not_mem hnot
      rw [if_neg hx, if_neg hx, if_pos (by simpa using hx), hfilter, List.map_singleton, hnew, List.append_assoc]
      rfl

end Sys2Proof.Machine

namespace Sys2Proof.Proofs

open Sys2Proof Sys2Proof.Machine

/-- Settles O37: each holder is told once, and the notices join each list in the order of the holders. -/
theorem contentionNotices : Obligations.ContentionNotices := by
  intro s ls hls t told
  have htold (l : LeaseNo) : told l = (s.lease l).toTell := rfl
  refine ⟨?other, fun l hl ht => ⟨fun h a hx => ?active, fun h g hx => ?grace⟩, fun l hl => ?untold, fun p hp => ?list⟩
  case other =>
    obtain ⟨xs, es, h⟩ := contend_other ls s
    rw [show t = _ from h]
  case active =>
    rw [lease_contend hls, if_pos ⟨hl, ht⟩]
    simp [Lease.told, hx]
  case grace =>
    rw [lease_contend hls, if_pos ⟨hl, ht⟩]
    simp [Lease.told, hx]
  case untold =>
    rw [lease_contend hls, if_neg]
    rintro ⟨hmem, ht⟩
    rcases hl with hl | hl
    · exact hl hmem
    · rw [htold, ht] at hl
      exact Bool.noConfusion hl
  case list =>
    intro flagged
    have hrefs : ((ls.filter flagged).map Ref.lease).Nodup := (hls.filter _).map fun _ _ h => Ref.lease.inj h
    have hfold := foldl_addCause (c := .contended) hrefs hp
    rw [List.foldl_map] at hfold
    rw [attn_contend hls]
    refine hfold.trans (congrArg₂ _ (List.map_congr_left fun e _ => ?_) ?_)
    · unfold Entry.withCause
      rcases e with ⟨l | w | r, c⟩ <;> simp [Cause.value]
    · rw [List.filter_map, List.map_map, List.filter_filter]
      refine congrArg _ (List.filter_congr fun l _ => ?_)
      rw [Bool.and_comm, Bool.eq_iff_iff]
      simp

end Sys2Proof.Proofs
end

