-- ==== Sys2Proof/Proofs/Allocation.lean ====
section
/-! PROOFS. What every command leaves: a next state that touches no waiting command, lowers no epoch and allocates within
the quotas; and what the taking of a request leaves of the links, the pins and what is due. -/

namespace Sys2Proof.Machine

variable {s t u : State} {r : ResNo} {l : LeaseNo} {w : WaitNo} {p q : Port} {k : Req} {own : Owner} {rq : Request}
  {body : List Byte}

/-! ### The owner of each kind of request -/

/-- The rule that serves a request of each kind once the checks of R129 have passed. -/
def ownerOf : Req → Owner
  | .attach => attachOwner
  | .detach => detachOwner
  | .keepalive => keepaliveOwner
  | .portStatus => portStatusOwner
  | .acquire => acquireOwner
  | .renew => renewOwner
  | .release => releaseOwner
  | .queryLease => queryLeaseOwner
  | .promote => promoteOwner
  | .demote => demoteOwner
  | .cancelWait => cancelWaitOwner
  | .queryResource => queryResourceOwner
  | .checkEpoch => checkEpochOwner
  | .scan => scanOwner
  | .fetchNotice => fetchNoticeOwner
  | .define => defineOwner
  | .retire => retireOwner
  | .revoke => revokeOwner
  | .setQuota => setQuotaOwner
  | .bindGate => bindGateOwner
  | .unbindGate => unbindGateOwner
  | .setTimebase => setTimebaseOwner
  | .startTimebase => startTimebaseOwner
  | .haltTimebase => haltTimebaseOwner
  | .evict => evictOwner
  | .warmReset => warmResetOwner

/-- The state in which a request of this kind is taken. -/
def State.takenIn (s : State) (k : Req) (p : Port) : State :=
  match k with
  | .haltTimebase => s.tickEnded .haltTimebase p
  | .warmReset => s.tickEnded .warmReset p
  | _ => s

theorem exec_command (k : Req) (p : Port) (s : State) :
    exec (k.command p) s = .next ((s.takenIn k p).serve k (ownerOf k) p) := by
  cases k <;> rfl

/-! ### Warm reset, record by record (R141) -/

theorem res_warm : s.warm.res r = (s.res r).warm := by simp [State.warm, State.res]
theorem lease_warm : s.warm.lease l = (s.lease l).freed := by simp [State.warm, State.lease]
theorem wait_warm : s.warm.wait w = (s.wait w).freed := by simp [State.warm, State.wait]

theorem epoch_warm (x : Resource) : x.warm.epoch = x.epoch := by
  simp only [Resource.warm]
  repeat' split
  all_goals rfl

theorem warm_effect : s.Effect s.warm :=
  ⟨by simp only [State.warm], by simp only [State.warm], by simp only [State.warm], by simp only [State.warm],
    by simp only [State.warm], fun r => (congrArg BitVec.toNat (by rw [res_warm, epoch_warm])).le⟩

theorem warm_steady : s.Steady s.warm :=
  ⟨fun l => by rw [lease_warm, Lease.freed], fun w => by rw [wait_warm, Wait.freed],
    fun l => .inr (by rw [lease_warm]; rfl), fun w => .inr (by rw [wait_warm]; rfl)⟩

/-! ### Reports -/

theorem portStatusOwner_reads (p : Port) (body : List Byte) (s : State) : (portStatusOwner p body s).2 = s := by
  unfold portStatusOwner
  split <;> rfl

theorem queryResourceOwner_reads (p : Port) (body : List Byte) (s : State) : (queryResourceOwner p body s).2 = s := by
  unfold queryResourceOwner
  split <;> rfl

theorem checkEpochOwner_reads (p : Port) (body : List Byte) (s : State) : (checkEpochOwner p body s).2 = s := by
  unfold checkEpochOwner
  split <;> rfl

theorem scanOwner_reads (p : Port) (body : List Byte) (s : State) : (scanOwner p body s).2 = s := by
  unfold scanOwner
  split <;> rfl

/-- The rule of every request but ACQUIRE is calm. -/
theorem owner_calm (h : k ≠ .acquire) : (ownerOf k).Calm := by
  cases k
  case acquire => exact absurd rfl h
  case attach => exact attachOwner_calm
  case detach => exact detachOwner_calm
  case keepalive => exact calm_of_reads fun _ _ _ => rfl
  case portStatus => exact calm_of_reads portStatusOwner_reads
  case renew => exact renewOwner_calm
  case release => exact releaseOwner_calm
  case queryLease => exact calm_of_reads fun _ _ _ => withLease_reads fun _ _ _ => rfl
  case promote => exact promoteOwner_calm
  case demote => exact demoteOwner_calm
  case cancelWait => exact cancelWaitOwner_calm
  case queryResource => exact calm_of_reads queryResourceOwner_reads
  case checkEpoch => exact calm_of_reads checkEpochOwner_reads
  case scan => exact calm_of_reads scanOwner_reads
  case fetchNotice => exact fetchNoticeOwner_calm
  case define => exact defineOwner_calm
  case retire => exact retireOwner_calm
  case revoke => exact revokeOwner_calm
  case setQuota => exact setQuotaOwner_calm
  case bindGate => exact bindGateOwner_calm
  case unbindGate => exact unbindGateOwner_calm
  case setTimebase => exact setTimebaseOwner_calm
  case startTimebase => exact startTimebaseOwner_calm
  case haltTimebase => exact haltTimebaseOwner_calm
  case evict => exact evictOwner_calm
  case warmReset => exact fun _ _ _ => ⟨warm_effect, warm_steady⟩

/-! ### What a command may allocate (R22, R49, R45, R68) -/

/-- A record's generation changes only when it leaves FREE; no use rises but to within its quota. -/
structure State.Alloc (s t : State) : Prop where
  leaseGen : ∀ l, (t.lease l).gen = (s.lease l).gen ∨ (s.lease l).isFree = true ∧ (t.lease l).isFree = false
    ∧ (t.lease l).gen = nextGen (s.lease l).gen
  waitGen : ∀ w, (t.wait w).gen = (s.wait w).gen ∨ (s.wait w).isFree = true ∧ (t.wait w).isFree = false
    ∧ (t.wait w).gen = nextGen (s.wait w).gen
  leaseUse : ∀ p, t.leaseUse p ≤ s.leaseUse p ∨ t.leaseUse p ≤ (s.session p).leaseQuota.toNat
  waitUse : ∀ p, t.waitUse p ≤ s.waitUse p ∨ t.waitUse p ≤ (s.session p).waitQuota.toNat

namespace State.Steady

theorem leaseOwned (h : s.Steady t) (hl : (t.lease l).ownedBy p = true) : (s.lease l).ownedBy p = true := by
  rw [lease_ownedBy_iff_place] at hl ⊢
  rcases h.lease l with e | e <;> simp_all

theorem waitOwned (h : s.Steady t) (hw : (t.wait w).ownedBy p = true) : (s.wait w).ownedBy p = true := by
  rw [wait_ownedBy_iff_place] at hw ⊢
  rcases h.wait w with e | e <;> simp_all

theorem leaseUse_le (h : s.Steady t) (p : Port) : t.leaseUse p ≤ s.leaseUse p :=
  List.countP_mono_left fun _ _ => h.leaseOwned

theorem waitUse_le (h : s.Steady t) (p : Port) : t.waitUse p ≤ s.waitUse p :=
  List.countP_mono_left fun _ _ => h.waitOwned

theorem alloc (h : s.Steady t) : s.Alloc t :=
  ⟨fun l => .inl (h.leaseGen l), fun w => .inl (h.waitGen w), fun p => .inl (h.leaseUse_le p), fun p => .inl (h.waitUse_le p)⟩

end State.Steady

/-- One more index may meet the condition. -/
theorem countP_finRange_le_succ {n : Nat} {f g : Fin n → Bool} (i : Fin n) (h : ∀ j ≠ i, f j = true → g j = true) :
    (List.finRange n).countP f ≤ (List.finRange n).countP g + 1 := by
  have hcount (xs : List (Fin n)) : xs.countP f ≤ xs.countP g + xs.count i := by
    induction xs with
    | nil => simp
    | cons x xs ih =>
      by_cases hx : x = i
      · subst hx
        have : xs.countP f + 1 ≤ xs.countP g + (xs.count x + 1) := by omega
        rw [List.countP_cons, List.countP_cons, List.count_cons_self]
        split <;> split <;> omega
      · have := h x hx
        rw [List.countP_cons, List.countP_cons, List.count_cons_of_ne hx]
        split <;> split <;> simp_all <;> omega
  have := List.nodup_iff_count_le_one.mp (List.nodup_finRange n) i
  exact (hcount _).trans (by omega)

/-- A record that becomes a port's in place of a FREE one. -/
theorem leaseUse_setLease {x : Lease} {c : Claim} (hx : x.claim? = some c) (q : Port)
    (huse : s.leaseUse c.port < (s.session c.port).leaseQuota.toNat) :
    (s.setLease l x).leaseUse q ≤ s.leaseUse q ∨ (s.setLease l x).leaseUse q ≤ (s.session q).leaseQuota.toNat := by
  by_cases hq : q = c.port
  · subst hq
    have : (s.setLease l x).leaseUse c.port ≤ s.leaseUse c.port + 1 :=
      countP_finRange_le_succ l fun j hj hown => by rwa [lease_setLease_ne _ _ _ hj] at hown
    exact .inr (by omega)
  · refine .inl (List.countP_mono_left fun j _ hown => ?_)
    by_cases hj : j = l
    · subst hj
      rw [lease_setLease_self, lease_ownedBy_iff_place, lease_place_of_claim hx] at hown
      exact absurd (Option.some.inj hown).symm hq
    · rwa [lease_setLease_ne _ _ _ hj] at hown

/-- A wait record that becomes a port's in place of a FREE one. -/
theorem waitUse_setWait {x : Wait} {c : WaitClaim} (hx : x.claim? = some c) (q : Port)
    (huse : s.waitUse c.port < (s.session c.port).waitQuota.toNat) :
    (s.setWait w x).waitUse q ≤ s.waitUse q ∨ (s.setWait w x).waitUse q ≤ (s.session q).waitQuota.toNat := by
  by_cases hq : q = c.port
  · subst hq
    have : (s.setWait w x).waitUse c.port ≤ s.waitUse c.port + 1 :=
      countP_finRange_le_succ w fun j hj hown => by rwa [wait_setWait_ne _ _ _ hj] at hown
    exact .inr (by omega)
  · refine .inl (List.countP_mono_left fun j _ hown => ?_)
    by_cases hj : j = w
    · subst hj
      simp only [wait_setWait_self, Wait.ownedBy, hx, decide_eq_true_eq] at hown
      exact absurd hown.symm hq
    · rwa [wait_setWait_ne _ _ _ hj] at hown

theorem free_of_freeLease (h : s.freeLease? = some l) : (s.lease l).isFree = true :=
  List.find?_some (p := fun l => (s.lease l).isFree) h
theorem free_of_freeWait (h : s.freeWait? = some w) : (s.wait w).isFree = true :=
  List.find?_some (p := fun w => (s.wait w).isFree) h

/-- A lease record that leaves FREE with the next generation. -/
theorem leaseGen_setLease {x : LeaseState} (hl : s.freeLease? = some l) (hx : x ≠ .free) (l' : LeaseNo) :
    ((s.setLease l ⟨nextGen (s.lease l).gen, x⟩).lease l').gen = (s.lease l').gen ∨ (s.lease l').isFree = true
      ∧ ((s.setLease l ⟨nextGen (s.lease l).gen, x⟩).lease l').isFree = false
      ∧ ((s.setLease l ⟨nextGen (s.lease l).gen, x⟩).lease l').gen = nextGen (s.lease l').gen := by
  by_cases h : l' = l
  · subst h
    rw [lease_setLease_self]
    exact .inr ⟨free_of_freeLease hl, by cases x <;> simp_all [Lease.isFree], rfl⟩
  · rw [lease_setLease_ne _ _ _ h]
    exact .inl rfl

theorem grantNow_alloc {a : AcquireArgs} (h : s.Admits p a) (hl : s.freeLease? = some l) :
    s.Alloc (s.grantNow p a l).2 where
  leaseGen := leaseGen_setLease hl nofun
  waitGen _ := .inl rfl
  leaseUse q := leaseUse_setLease (c := ⟨p, a.res, a.mode, a.contend⟩) rfl q h.quota
  waitUse _ := .inl (Nat.le_refl _)

/-- A wait record that leaves FREE with the next generation. -/
theorem waitGen_setWait {x : WaitState} (hw : s.freeWait? = some w) (hx : x ≠ .free) (w' : WaitNo) :
    ((s.setWait w ⟨nextGen (s.wait w).gen, x⟩).wait w').gen = (s.wait w').gen ∨ (s.wait w').isFree = true
      ∧ ((s.setWait w ⟨nextGen (s.wait w).gen, x⟩).wait w').isFree = false
      ∧ ((s.setWait w ⟨nextGen (s.wait w).gen, x⟩).wait w').gen = nextGen (s.wait w').gen := by
  by_cases h : w' = w
  · subst h
    rw [wait_setWait_self]
    exact .inr ⟨free_of_freeWait hw, by cases x <;> simp_all [Wait.isFree], rfl⟩
  · rw [wait_setWait_ne _ _ _ h]
    exact .inl rfl

/-- The state in which an ACQUIRE is queued, before the contention notices. -/
def State.queued (s : State) (p : Port) (a : AcquireArgs) (l : LeaseNo) (w : WaitNo) : State :=
  ((s.setLease l ⟨nextGen (s.lease l).gen, .reserved ⟨p, a.res, a.mode, a.contend⟩⟩).setWait w
    ⟨nextGen (s.wait w).gen, .waiting ⟨p, a.res, a.mode, a.term, a.contend⟩ a.patience l⟩).setRes a.res
      { s.res a.res with queue := (s.res a.res).queue ++ [w] }

theorem enqueue_eq {a : AcquireArgs} : (s.enqueue p a l w).2 = (s.queued p a l w).contend (s.res a.res).holders := rfl

theorem queued_alloc {a : AcquireArgs} (h : s.Admits p a) (hl : s.freeLease? = some l) (hw : s.freeWait? = some w)
    (hwu : s.waitUse p < (s.session p).waitQuota.toNat) : s.Alloc (s.queued p a l w) where
  leaseGen := leaseGen_setLease hl nofun
  waitGen := waitGen_setWait (s := s) hw nofun
  leaseUse q := leaseUse_setLease (c := ⟨p, a.res, a.mode, a.contend⟩) rfl q h.quota
  waitUse q := waitUse_setWait (s := s) (c := ⟨p, a.res, a.mode, a.term, a.contend⟩) rfl q hwu

theorem isFree_contendHolder (s : State) (l l' : LeaseNo) : ((s.contendHolder l).lease l').isFree = (s.lease l').isFree := by
  rw [lease_contendHolder]
  split
  · unfold Lease.told
    split <;> simp_all [Lease.isFree]
  · rfl

theorem isFree_contend (ls : List LeaseNo) (s : State) (l : LeaseNo) : ((s.contend ls).lease l).isFree = (s.lease l).isFree := by
  induction ls generalizing s with
  | nil => rfl
  | cons l' ls ih => exact (ih (s.contendHolder l')).trans (isFree_contendHolder s l' l)

/-- Contention notices allocate nothing. -/
theorem State.Alloc.contend {ls : List LeaseNo} (h : s.Alloc t) : s.Alloc (t.contend ls) where
  leaseGen l := by rw [contend_calm.2.leaseGen, isFree_contend]; exact h.leaseGen l
  waitGen w := by
    obtain ⟨xs, es, e⟩ := contend_other ls t
    rw [e]
    exact h.waitGen w
  leaseUse p := (h.leaseUse p).imp (contend_calm.2.leaseUse_le p).trans (contend_calm.2.leaseUse_le p).trans
  waitUse p := (h.waitUse p).imp (contend_calm.2.waitUse_le p).trans (contend_calm.2.waitUse_le p).trans

/-- A holder that joins does not lower the epoch. -/
theorem epoch_le_join {x : Resource} {m : Mode} (h : x.st = .free → x.epoch ≠ maxEpoch) :
    x.epoch.toNat ≤ (x.join l m).epoch.toNat := by
  unfold Resource.join
  split
  · next hst => exact epoch_le_succ (h (by simpa using hst))
  · exact Nat.le_refl _

theorem acquireOwner_proper (p : Port) (body : List Byte) (s : State) :
    s.Effect (acquireOwner p body s).2 ∧ s.Alloc (acquireOwner p body s).2 := by
  rcases acquireOwner_cases p body s with ⟨result, h⟩ | ⟨a, l, hadmit, hl, ⟨-, he, h⟩ | ⟨w, hw, hu, -, -, -, h⟩⟩
  · rw [h]
    exact ⟨.refl s, (State.Steady.refl s).alloc⟩
  · rw [h]
    exact ⟨.trans (.ofOpAt (.setRes (epoch_le_join he))) ⟨rfl, rfl, rfl, rfl, rfl, fun _ => Nat.le_refl _⟩,
      grantNow_alloc hadmit hl⟩
  · rw [h, enqueue_eq]
    refine ⟨.trans (t := s.queued p a l w) ?_ contend_calm.1, (queued_alloc hadmit hl hw hu).contend⟩
    exact .trans (t := (s.setLease l _).setWait w _) ⟨rfl, rfl, rfl, rfl, rfl, fun _ => Nat.le_refl _⟩
      (.ofOpAt (.setRes (Nat.le_refl _)))

/-! ### Serving a request -/

/-- The effect and the allocation of every request's own rule. -/
theorem owner_proper (k : Req) (p : Port) (body : List Byte) (s : State) :
    s.Effect (ownerOf k p body s).2 ∧ s.Alloc (ownerOf k p body s).2 := by
  by_cases hk : k = .acquire
  · exact hk ▸ acquireOwner_proper p body s
  · exact ⟨(owner_calm hk p body s).1, (owner_calm hk p body s).2.alloc⟩

theorem answer_proper (k : Req) (p : Port) (body : List Byte) (s : State) :
    s.Effect (s.answer k (ownerOf k) p body).2 ∧ s.Alloc (s.answer k (ownerOf k) p body).2 := by
  simp only [State.answer]
  split
  · exact ⟨.refl s, (State.Steady.refl s).alloc⟩
  · exact owner_proper k p body s

/-- The taking of a request: its answer, and two changes of the link port. -/
theorem serve_proper (k : Req) (p : Port) (s : State) :
    s.Effect (s.serve k (ownerOf k) p) ∧ s.Alloc (s.serve k (ownerOf k) p) := by
  simp only [State.serve]
  split
  · next rq _ =>
    split
    · obtain ⟨he, ha⟩ := answer_proper k p rq.body (s.popRequest p)
      exact ⟨.trans (.ofFrame setLink_frame) (he.trans (.ofFrame setLink_frame)),
        ⟨ha.leaseGen, ha.waitGen, ha.leaseUse, ha.waitUse⟩⟩
    · exact ⟨.refl s, (State.Steady.refl s).alloc⟩
  · exact ⟨.refl s, (State.Steady.refl s).alloc⟩

end Sys2Proof.Machine
end

