-- ==== Sys2Proof/Proofs/Commands.lean ====
section
/-! PROOFS. Every command in one case split, and what follows of all of them: a next state (spec section 11.3), the
waiting commands untouched, no epoch lowered (R11), records allocated within the quotas (R22, R45, R68). -/

namespace Sys2Proof.Machine

variable {s t u : State} {r : ResNo} {l : LeaseNo} {w : WaitNo} {p q : Port} {k : Req} {rq : Request} {body : List Byte}

/-! ### What a command can leave -/

/-- The state after COLD_RESET (R19, R46, R69, R113, R125, R143, R155, R171). -/
def State.coldReset (s : State) : State :=
  { State.reset with
    pending := s.pending
    late := s.late
    rstN := false
    gateOeN := s.gateOeN
    links := Vector.ofFn fun p => (s.link p).cold
    freeCount := s.freeCount }

/-- The states a command may leave, one case for each kind of command. -/
inductive State.Leads (s : State) : State → Prop
  | stays : s.Leads s
  | request (k : Req) (p : Port) : s.Leads ((s.takenIn k p).serve k (ownerOf k) p)
  | unknown (p : Port) (rq : Request) : s.takeable p = some rq →
      s.Leads ((s.popRequest p).place p rq (.refuse .unknownRequest))
  | transact (p : Port) (t : Byte) (bytes : List Byte) (e : CsEnd) : s.Leads (s.transact p t bytes e)
  | fall (p : Port) : s.Leads (s.csFall p)
  | firstByte (p : Port) (t : Byte) : s.Leads (s.firstByte p t)
  | tick : s.counting = true → s.Leads s.finishTick.tick
  | counted : s.counting = true → s.timebase.prescaler + 1 < s.timebase.divider → s.Leads s.finishTick.counted
  | reached (x : TickRef) : s.counting = true → x ∈ s.due → s.Leads (({ s with due := s.due.erase x } : State).tickAt x)
  | rise : s.Leads { s with rstN := true }
  | gateOeN (high : Bool) : s.Leads { s with gateOeN := high }

theorem takeDue_leads (x : TickRef) (mine : Bool) : s.Leads (s.takeDue x mine) := by
  unfold State.takeDue
  split
  · next h =>
    simp only [Bool.and_eq_true, List.contains_iff_mem] at h
    exact .reached x h.1.1 h.1.2
  · exact .stays

theorem refclk_leads (s : State) : ∃ t, exec .refclkPeriod s = .next t ∧ s.Leads t := by
  by_cases h : s.counting = true
  · by_cases hp : s.timebase.prescaler + 1 < s.timebase.divider
    · exact ⟨_, exec_refclk_counted h hp, .counted h hp⟩
    · exact ⟨_, exec_refclk_tick h hp, .tick h⟩
  · exact ⟨s, by simp only [exec, execRefclkPeriod, if_neg h], .stays⟩

theorem exec_coldReset : exec .coldReset s = .next s.coldReset := rfl

/-- Every command but COLD_RESET leaves one of these states. -/
theorem exec_leads (c : Instr) (hc : c ≠ .coldReset) (s : State) : ∃ t, exec c s = .next t ∧ s.Leads t := by
  have request (k : Req) (p : Port) : ∃ t, exec (k.command p) s = .next t ∧ s.Leads t :=
    ⟨_, exec_command k p s, .request k p⟩
  cases c
  case coldReset => exact absurd rfl hc
  case attach p => exact request .attach p
  case detach p => exact request .detach p
  case keepalive p => exact request .keepalive p
  case portStatus p => exact request .portStatus p
  case acquire p => exact request .acquire p
  case renew p => exact request .renew p
  case release p => exact request .release p
  case queryLease p => exact request .queryLease p
  case promote p => exact request .promote p
  case demote p => exact request .demote p
  case cancelWait p => exact request .cancelWait p
  case queryResource p => exact request .queryResource p
  case checkEpoch p => exact request .checkEpoch p
  case scan p => exact request .scan p
  case fetchNotice p => exact request .fetchNotice p
  case define p => exact request .define p
  case retire p => exact request .retire p
  case revoke p => exact request .revoke p
  case setQuota p => exact request .setQuota p
  case bindGate p => exact request .bindGate p
  case unbindGate p => exact request .unbindGate p
  case setTimebase p => exact request .setTimebase p
  case startTimebase p => exact request .startTimebase p
  case haltTimebase p => exact request .haltTimebase p
  case evict p => exact request .evict p
  case warmReset p => exact request .warmReset p
  case unknownRequest p =>
    refine ⟨_, rfl, ?_⟩
    split
    · next rq hrq =>
      split
      · exact .unknown p rq hrq
      · exact .stays
    · exact .stays
  case submit p bytes e => exact ⟨_, rfl, .transact p _ bytes e⟩
  case collect p n e => exact ⟨_, rfl, .transact p _ _ e⟩
  case status p n e => exact ⟨_, rfl, .transact p _ _ e⟩
  case unknownTypeByte p t n e =>
    refine ⟨_, rfl, ?_⟩
    split
    · exact .transact p t _ e
    · exact .stays
  case tick =>
    by_cases h : s.counting = true
    · exact ⟨_, exec_tick_eq h, .tick h⟩
    · exact ⟨s, by simp only [exec, execTick, if_neg h], .stays⟩
  case settleExpiry r => exact ⟨_, rfl, takeDue_leads _ _⟩
  case termExpiry l => exact ⟨_, rfl, takeDue_leads _ _⟩
  case graceExpiry l => exact ⟨_, rfl, takeDue_leads _ _⟩
  case patienceExpiry w => exact ⟨_, rfl, takeDue_leads _ _⟩
  case promotionPatienceExpiry l => exact ⟨_, rfl, takeDue_leads _ _⟩
  case livenessExpiry p => exact ⟨_, rfl, takeDue_leads _ _⟩
  case gateOeNChange high => exact ⟨_, rfl, .gateOeN high⟩
  case csNFall p => exact ⟨_, rfl, .fall p⟩
  case firstByteCompletion p t =>
    refine ⟨_, rfl, ?_⟩
    split
    · exact .firstByte p t
    · exact .stays
  case refclkPeriod => exact refclk_leads s
  case rstNRise => exact ⟨_, rfl, .rise⟩

/-! ### The link ports -/

theorem csFall_calm : s.Calm (s.csFall p) := by
  simp only [State.csFall]
  split
  · exact .refl s
  · split
    · exact .setLink
    · exact .setLink

theorem firstByte_calm {b : Byte} : s.Calm (s.firstByte p b) := by
  simp only [State.firstByte]
  split
  · split
    · exact .setLink
    · exact .setLink
    · exact .setLink
    · exact .setLink
  · exact .refl s

theorem renewLiveness_calm : s.Calm (s.renewLiveness p) := by
  rw [renewLiveness_eq]
  exact .setSession

theorem endAction_calm {cut : Bool} : s.Calm (s.endAction p cut) := by
  unfold State.endAction
  split
  · simp only [State.judgeFrame]
    split
    · exact .setLink
    · split
      · exact .after renewLiveness_calm .setLink
      · exact .after renewLiveness_calm .setLink
  · unfold State.endCollect
    split
    · split
      · exact .setLink
      · exact .refl s
    · exact .refl s
  · exact .refl s

theorem csRise_calm {cut : Bool} : s.Calm (s.csRise p cut) := .after .setLink endAction_calm

theorem abandon_calm : s.Calm (s.abandon p) := by
  unfold State.abandon
  split
  · exact .after csRise_calm csFall_calm
  · exact csRise_calm
  · exact .refl s

theorem reach_calm {b : Byte} (h : s.reach p b = some t) : s.Calm t := by
  unfold State.reach at h
  split at h
  · exact Option.some.inj h ▸ .after firstByte_calm csFall_calm
  · exact Option.some.inj h ▸ firstByte_calm
  · split at h
    · exact Option.some.inj h ▸ .refl s
    · exact absurd h nofun

theorem transact_calm {b : Byte} {bytes : List Byte} {e : CsEnd} : s.Calm (s.transact p b bytes e) := by
  unfold State.transact
  split
  · exact .setLink
  · split
    · exact abandon_calm
    · split
      · exact .refl s
      · next t ht =>
        split
        · exact .after csRise_calm (.after .setLink (reach_calm ht))
        · exact .after .setLink (reach_calm ht)

/-! ### Ticks -/

/-- What every command but COLD_RESET and ACQUIRE keeps: the waiting commands, the generations, and no epoch lower. -/
structure State.Mild (s t : State) : Prop where
  pending : t.pending = s.pending
  epoch : ∀ r, (s.res r).epoch.toNat ≤ (t.res r).epoch.toNat
  steady : s.Steady t

namespace State.Mild

theorem refl (s : State) : s.Mild s := ⟨rfl, fun _ => Nat.le_refl _, .refl s⟩

theorem trans (h : s.Mild t) (h' : t.Mild u) : s.Mild u :=
  ⟨h'.pending.trans h.pending, fun r => (h.epoch r).trans (h'.epoch r), h.steady.trans h'.steady⟩

theorem ofCalm (h : s.Calm t) : s.Mild t := ⟨h.1.pending, h.1.epoch, h.2⟩

end State.Mild

theorem tickLive_calm : s.Calm (s.tickLive p) := by
  unfold State.tickLive
  split
  · split
    · exact loseSession_calm
    · exact .setSession
  · exact .refl s

theorem tickAt_steady (s : State) (x : TickRef) : s.Steady (s.tickAt x) := by
  have hf := tickAt_frame s x
  have of (ht : s.Tame (s.tickAt x)) : s.Steady (s.tickAt x) := ⟨hf.leaseGen, hf.waitGen, ht.lease, ht.wait⟩
  cases x with
  | settle r => exact of tickSettle_tame
  | lease l => exact of tickLease_tame
  | promo l => exact of tickPromo_tame
  | wait w => exact of tickWait_tame
  | live p => exact tickLive_calm.2

theorem tickAt_mild (s : State) (x : TickRef) : s.Mild (s.tickAt x) :=
  ⟨(tickAt_frame s x).pending, (tickAt_frame s x).epoch, tickAt_steady s x⟩

theorem foldl_tickAt_mild (xs : List TickRef) (s : State) : s.Mild (xs.foldl State.tickAt s) := by
  induction xs generalizing s with
  | nil => exact .refl s
  | cons x xs ih => exact (tickAt_mild s x).trans (ih _)

theorem finishTick_mild : s.Mild s.finishTick := by
  by_cases h : s.counting = true
  · by_cases hd : s.due = []
    · rw [finishTick_of_none_due hd]
      exact .refl s
    · rw [finishTick_eq h hd]
      exact .trans (t := { s.spendFree with due := [] })
        ⟨rfl, fun _ => Nat.le_refl _, .ofStores rfl rfl⟩ (foldl_tickAt_mild _ _)
  · rw [finishTick_of_not_counting (eq_false_of_ne_true h)]
    exact .refl s

theorem lease_place_ticked (x : Lease) : x.ticked.place = x.place := by
  unfold Lease.ticked
  split <;> simp_all [Lease.place, Lease.claim?]

theorem lease_place_promoTicked (x : Lease) : x.promoTicked.place = x.place := by
  unfold Lease.promoTicked
  split <;> simp_all [Lease.place, Lease.claim?]

theorem wait_place_ticked (x : Wait) : x.ticked.place = x.place := by
  unfold Wait.ticked
  split <;> simp_all [Wait.place, Wait.claim?]

theorem apply_unlessLate {α β : Type} {late : List TickRef} {x : TickRef} {f : α → α} {g : α → β} (h : ∀ a, g (f a) = g a)
    (a : α) : g (unlessLate late x f a) = g a := by
  unfold unlessLate
  split
  · rfl
  · exact h a

theorem epoch_ticked (x : Resource) : x.ticked.epoch = x.epoch := by
  unfold Resource.ticked
  split <;> rfl

theorem gen_ticked (x : Lease) : x.ticked.gen = x.gen := by
  unfold Lease.ticked
  split <;> rfl

theorem gen_promoTicked (x : Lease) : x.promoTicked.gen = x.gen := by
  unfold Lease.promoTicked
  split <;> rfl

theorem wait_gen_ticked (x : Wait) : x.ticked.gen = x.gen := by
  unfold Wait.ticked
  split <;> rfl

theorem tick_steady : s.Steady s.tick where
  leaseGen l := by
    rw [lease_tick, lease_lower, apply_unlessLate gen_promoTicked, apply_unlessLate gen_ticked]
  waitGen w := by rw [wait_tick, wait_lower, apply_unlessLate wait_gen_ticked]
  lease l := by
    rw [lease_tick, lease_lower, apply_unlessLate lease_place_promoTicked, apply_unlessLate lease_place_ticked]
    exact .inl rfl
  wait w := by
    rw [wait_tick, wait_lower, apply_unlessLate wait_place_ticked]
    exact .inl rfl

theorem epoch_tick (s : State) (r : ResNo) : (s.tick.res r).epoch = (s.res r).epoch := by
  rw [res_tick, res_lower, apply_unlessLate (g := Resource.epoch) epoch_ticked]

theorem tick_mild : s.Mild s.tick :=
  ⟨by simp only [State.tick, State.lower], fun r => (congrArg BitVec.toNat (epoch_tick s r)).ge, tick_steady⟩

/-! ### All commands -/

/-- What every command but COLD_RESET keeps. -/
structure State.Proper (s t : State) : Prop where
  pending : t.pending = s.pending
  epoch : ∀ r, (s.res r).epoch.toNat ≤ (t.res r).epoch.toNat
  alloc : s.Alloc t

theorem State.Mild.proper (h : s.Mild t) : s.Proper t := ⟨h.pending, h.epoch, h.steady.alloc⟩

theorem takenIn_mild : s.Mild (s.takenIn k p) := by
  have ended (k : Req) : s.Mild (s.tickEnded k p) := by
    simp only [State.tickEnded]
    split
    · split
      · exact finishTick_mild
      · exact .refl s
    · exact .refl s
  unfold State.takenIn
  split
  · exact ended _
  · exact ended _
  · exact .refl s

/-- The taking of a request whose own rule is calm. -/
theorem serve_calm {own : Owner} (h : own.Calm) : s.Calm (s.serve k own p) := by
  have answer (t : State) (body : List Byte) : t.Calm (t.answer k own p body).2 := by
    simp only [State.answer]
    split
    · exact .refl t
    · exact h p body t
  simp only [State.serve]
  split
  · split
    · exact .after .setLink (.after (answer _ _) .setLink)
    · exact .refl s
  · exact .refl s

theorem request_proper (k : Req) (p : Port) (s : State) : s.Proper ((s.takenIn k p).serve k (ownerOf k) p) := by
  by_cases hk : k = .acquire
  · subst hk
    obtain ⟨he, ha⟩ := serve_proper .acquire p s
    exact ⟨he.pending, he.epoch, ha⟩
  · exact (takenIn_mild.trans (.ofCalm (serve_calm (owner_calm hk)))).proper

theorem leads_proper (h : s.Leads t) : s.Proper t := by
  have pins {rst oe : Bool} : s.Mild { s with rstN := rst, gateOeN := oe } :=
    ⟨rfl, fun _ => Nat.le_refl _, .ofStores rfl rfl⟩
  cases h with
  | stays => exact (State.Mild.refl s).proper
  | request k p => exact request_proper k p s
  | unknown p rq _ => exact (State.Mild.ofCalm (.trans .setLink .setLink)).proper
  | transact p b bytes e => exact (State.Mild.ofCalm transact_calm).proper
  | fall p => exact (State.Mild.ofCalm csFall_calm).proper
  | firstByte p b => exact (State.Mild.ofCalm firstByte_calm).proper
  | tick _ => exact (finishTick_mild.trans tick_mild).proper
  | counted _ _ => exact (finishTick_mild.trans (.ofCalm .setTimebase)).proper
  | reached x _ _ =>
    have hdue : s.Mild { s with due := s.due.erase x } := ⟨rfl, fun _ => Nat.le_refl _, .ofStores rfl rfl⟩
    exact (hdue.trans (tickAt_mild _ x)).proper
  | rise => exact pins.proper
  | gateOeN high => exact pins.proper

end Sys2Proof.Machine

namespace Sys2Proof.Proofs

open Sys2Proof Sys2Proof.Machine

theorem exec_proper {c : Instr} {s t : State} (hc : c ≠ .coldReset) (h : exec c s = .next t) : s.Proper t := by
  obtain ⟨u, hu, hl⟩ := exec_leads c hc s
  rw [hu] at h
  exact Host.Outcome.next.inj h ▸ leads_proper hl

/-- Settles O2. -/
theorem everyCommandCompletes : Obligations.EveryCommandCompletes := by
  intro c s
  by_cases hc : c = .coldReset
  · subst hc
    exact ⟨s.coldReset, rfl, rfl⟩
  · obtain ⟨t, ht, hl⟩ := exec_leads c hc s
    exact ⟨t, ht, (leads_proper hl).pending⟩

/-- Settles O59. -/
theorem epochsNeverFall : Obligations.EpochsNeverFall := fun _ _ _ hc h => (exec_proper hc h).epoch

/-- Settles O60. -/
theorem allocationDiscipline : Obligations.AllocationDiscipline := by
  intro c s t hc h
  obtain ⟨-, -, ha⟩ := exec_proper hc h
  exact ⟨ha.leaseGen, ha.waitGen, fun p => ⟨ha.leaseUse p, ha.waitUse p⟩⟩

end Sys2Proof.Proofs
end

