-- ==== Sys2Proof/Proofs/Responses.lean ====
section
/-! PROOFS. A taken request leaves exactly one response (spec section 10.4). -/

namespace Sys2Proof.Machine

variable {s t : State} {p : Port} {k : Req} {rq : Request} {body : List Byte} {own : Owner}

/-! ### Owners that keep off the link ports -/

theorem ownerOf_local (hevict : k ≠ .evict) (hwarm : k ≠ .warmReset) : (ownerOf k).Local := by
  cases k
  case evict => exact absurd rfl hevict
  case warmReset => exact absurd rfl hwarm
  case attach => exact attachOwner_local
  case detach => exact detachOwner_local
  case keepalive => exact keepaliveOwner_local
  case portStatus => exact portStatusOwner_local
  case acquire => exact acquireOwner_local
  case renew => exact renewOwner_local
  case release => exact releaseOwner_local
  case queryLease => exact queryLeaseOwner_local
  case promote => exact promoteOwner_local
  case demote => exact demoteOwner_local
  case cancelWait => exact cancelWaitOwner_local
  case queryResource => exact queryResourceOwner_local
  case checkEpoch => exact checkEpochOwner_local
  case scan => exact scanOwner_local
  case fetchNotice => exact fetchNoticeOwner_local
  case define => exact defineOwner_local
  case retire => exact retireOwner_local
  case revoke => exact revokeOwner_local
  case setQuota => exact setQuotaOwner_local
  case bindGate => exact bindGateOwner_local
  case unbindGate => exact unbindGateOwner_local
  case setTimebase => exact setTimebaseOwner_local
  case startTimebase => exact startTimebaseOwner_local
  case haltTimebase => exact haltTimebaseOwner_local

/-! ### Refusals have no body (R164) -/

/-- A reply is one of the four results that carry a body, or has none. -/
def Reply.Bare (rp : Reply) : Prop := rp.result ∉ [Result.done, .queued, .pending, .ended] → rp.body = []

@[simp] theorem bare_refuse (r : Result) : (Reply.refuse r).Bare := fun _ => rfl

@[simp] theorem bare_done (b : List Byte) : (Reply.mk .done b).Bare := fun h => absurd (by simp) h

@[simp] theorem bare_queued (b : List Byte) : (Reply.mk .queued b).Bare := fun h => absurd (by simp) h

@[simp] theorem bare_pending (b : List Byte) : (Reply.mk .pending b).Bare := fun h => absurd (by simp) h

@[simp] theorem bare_ended (b : List Byte) : (Reply.mk .ended b).Bare := fun h => absurd (by simp) h

@[simp] theorem bare_answerEnded (s : State) (p : Port) (l : LeaseNo) (c : RevokeCause) : (s.answerEnded p l c).1.Bare :=
  bare_ended _

/-- The owner answers a refusal with no body. -/
def Owner.Bare (own : Owner) : Prop := ∀ p body s, (own p body s).1.Bare

theorem withLease_bare {own : LeaseNo → Owner} (h : ∀ l, (own l).Bare) : (withLease own).Bare := by
  intro p body s
  simp only [withLease]
  split
  · exact bare_refuse _
  · exact bare_refuse _
  · exact h _ _ _ _

theorem acquireOwner_bare : acquireOwner.Bare := by
  intro p body s
  rcases acquireOwner_cases p body s with ⟨result, h⟩ | ⟨a, l, -, -, ⟨-, -, h⟩ | ⟨w, -, -, -, -, -, h⟩⟩ <;> rw [h]
  · exact bare_refuse _
  · exact bare_done _
  · exact bare_queued _

theorem portStatusOwner_bare : portStatusOwner.Bare := by
  intro p body s
  simp only [portStatusOwner]
  repeat' split
  all_goals simp

theorem renewOwner_bare : renewOwner.Bare := by
  refine withLease_bare fun l p body s => ?_
  simp only [renewLease]
  repeat' split
  all_goals simp

theorem releaseOwner_bare : releaseOwner.Bare := by
  refine withLease_bare fun l p body s => ?_
  simp only [releaseLease, State.releaseHolder]
  repeat' split
  all_goals simp

theorem promoteOwner_bare : promoteOwner.Bare := by
  refine withLease_bare fun l p body s => ?_
  simp only [promoteLease, State.promoteNow, State.promotePending]
  repeat' split
  all_goals simp

theorem demoteOwner_bare : demoteOwner.Bare := by
  refine withLease_bare fun l p body s => ?_
  simp only [demoteLease, State.demoteNow]
  repeat' split
  all_goals simp

theorem cancelWaitOwner_bare : cancelWaitOwner.Bare := by
  intro p body s
  simp only [cancelWaitOwner, cancelNamed]
  repeat' split
  all_goals simp

theorem queryResourceOwner_bare : queryResourceOwner.Bare := by
  intro p body s
  simp only [queryResourceOwner]
  repeat' split
  all_goals simp

theorem checkEpochOwner_bare : checkEpochOwner.Bare := by
  intro p body s
  simp only [checkEpochOwner]
  repeat' split
  all_goals simp

theorem scanOwner_bare : scanOwner.Bare := by
  intro p body s
  simp only [scanOwner]
  repeat' split
  all_goals simp

theorem fetchNoticeOwner_bare : fetchNoticeOwner.Bare := by
  intro p body s
  simp only [fetchNoticeOwner]
  repeat' split
  all_goals simp

theorem defineOwner_bare : defineOwner.Bare := by
  intro p body s
  simp only [defineOwner]
  repeat' split
  all_goals simp

theorem retireOwner_bare : retireOwner.Bare := by
  intro p body s
  simp only [retireOwner, State.retire]
  repeat' split
  all_goals simp

theorem revokeOwner_bare : revokeOwner.Bare := by
  intro p body s
  simp only [revokeOwner]
  repeat' split
  all_goals simp

theorem setQuotaOwner_bare : setQuotaOwner.Bare := by
  intro p body s
  simp only [setQuotaOwner]
  repeat' split
  all_goals simp

theorem bindGateOwner_bare : bindGateOwner.Bare := by
  intro p body s
  simp only [bindGateOwner]
  repeat' split
  all_goals simp

theorem unbindGateOwner_bare : unbindGateOwner.Bare := by
  intro p body s
  simp only [unbindGateOwner]
  repeat' split
  all_goals simp

theorem setTimebaseOwner_bare : setTimebaseOwner.Bare := by
  intro p body s
  simp only [setTimebaseOwner]
  repeat' split
  all_goals simp

theorem evictOwner_bare : evictOwner.Bare := by
  intro p body s
  simp only [evictOwner]
  repeat' split
  all_goals simp

theorem ownerOf_bare (k : Req) : (ownerOf k).Bare := by
  cases k
  case attach => exact fun _ _ _ => bare_done _
  case detach => exact fun _ _ _ => bare_done _
  case keepalive => exact fun _ _ _ => bare_done _
  case portStatus => exact portStatusOwner_bare
  case acquire => exact acquireOwner_bare
  case renew => exact renewOwner_bare
  case release => exact releaseOwner_bare
  case queryLease => exact withLease_bare fun _ _ _ _ => bare_done _
  case promote => exact promoteOwner_bare
  case demote => exact demoteOwner_bare
  case cancelWait => exact cancelWaitOwner_bare
  case queryResource => exact queryResourceOwner_bare
  case checkEpoch => exact checkEpochOwner_bare
  case scan => exact scanOwner_bare
  case fetchNotice => exact fetchNoticeOwner_bare
  case define => exact defineOwner_bare
  case retire => exact retireOwner_bare
  case revoke => exact revokeOwner_bare
  case setQuota => exact setQuotaOwner_bare
  case bindGate => exact bindGateOwner_bare
  case unbindGate => exact unbindGateOwner_bare
  case setTimebase => exact setTimebaseOwner_bare
  case startTimebase => exact fun _ _ _ => bare_done _
  case haltTimebase => exact fun _ _ _ => bare_done _
  case evict => exact evictOwner_bare
  case warmReset => exact fun _ _ _ => bare_done _

/-! ### The response -/

theorem serve_effect (k : Req) (p : Port) (s : State) : s.Effect (s.serve k (ownerOf k) p) := (serve_proper k p s).1

theorem serve_response (h : s.Taking k p rq) (hl : (ownerOf k).Local) : ∃ result body,
    (result ∉ [Result.done, .queued, .pending, .ended] → body = [])
    ∧ ∃ t : State, (∀ q, t.link q = s.link q) ∧ s.serve k (ownerOf k) p = t.replied p rq result body := by
  rcases hr : s.precheck k p rq.body with _ | r
  · refine ⟨_, _, ownerOf_bare k p rq.body s, (ownerOf k p rq.body s).2, fun q => hl.link_eq _ _ _ _, ?_⟩
    exact serve_eq ⟨h, precheck_none.mp hr⟩ hl rfl
  · exact ⟨r, [], fun _ => rfl, s, fun _ => rfl, serve_refused h hr⟩

theorem takenIn_eq (hwarm : k ≠ .warmReset) (hhalt : k = .haltTimebase → s.due = [] ∨ s.timebase.mode = .halted) :
    s.takenIn k p = s := by
  cases k
  case warmReset => exact absurd rfl hwarm
  case haltTimebase =>
    simp only [State.takenIn, State.tickEnded]
    split
    · split
      · exact finishTick_of_due_or_halted (hhalt rfl)
      · rfl
    · rfl
  all_goals rfl

end Sys2Proof.Machine

namespace Sys2Proof.Proofs

open Sys2Proof Sys2Proof.Machine

/-- Settles O19: no owner but those of EVICT and WARM_RESET touches a link port. -/
theorem oneResponseEach : Obligations.OneResponseEach := by
  intro k p rq s t h hevict hwarm hhalt hexec
  rw [exec_command, takenIn_eq hwarm hhalt] at hexec
  obtain ⟨result, body, hbare, u, hlink, hserve⟩ := serve_response h (ownerOf_local hevict hwarm)
  obtain rfl := Host.Outcome.next.inj hexec
  have he := serve_effect k p s
  refine ⟨⟨result, body, ?_, hbare⟩, fun q hq => ?_, he.rstN, he.gateOeN, he.due, he.late⟩
  · rw [hserve, State.replied, link_setLink_self, hlink]
  · rw [hserve, State.replied, link_setLink_ne _ _ _ hq, hlink]

end Sys2Proof.Proofs
end

