-- ==== Sys2Proof/Proofs/WarmReset.lean ====
section
/-! PROOFS. Warm reset (spec sections 1.8 to 10.7), the laws at reset, and the gates under the laws (spec section 7.2). -/

namespace Sys2Proof.Machine

variable {s : State} {r : ResNo} {l : LeaseNo} {w : WaitNo} {p q : Port} {g : GateNo} {b : Binding}

/-! ### Warm reset, record by record (R20, R142, R170) -/

theorem session_warm : s.warm.session p = (s.session p).warm := by simp [State.warm, State.session]
theorem attn_warm : s.warm.attn p = [] := by simp [State.warm, State.attn]
theorem link_warm : s.warm.link p = (s.link p).warm := by simp [State.warm, State.link]

theorem resource_warm_eq (x : Resource) : x.warm = { x with
    st := match x.st with
      | .undefined => .undefined
      | .free => .free
      | .retiring => .undefined
      | _ => if x.attrs.settle = 0 then .free else .settling x.attrs.settle
    attrs := if x.st = .retiring then ⟨0, 0, 0, 0, 0, 0, 0⟩ else x.attrs
    holders := []
    queue := []
    slot := none
    retireNotice := false } := by
  rcases hx : x.st <;> simp only [Resource.warm, hx, reduceCtorEq, if_false, if_true, Attrs.cleared] <;> split <;> rfl

/-- The taking of a WARM_RESET that passes R129, where no tick is in progress. -/
theorem exec_warmReset {rq : Request} (h : s.Passing .warmReset p rq) (hd : s.due = [] ∨ s.timebase.mode = .halted) :
    exec (.warmReset p) s = .next ((s.popRequest p).warm.place p rq ⟨.done, []⟩) := by
  have hend : s.tickEnded .warmReset p = s := by rw [tickEnded_passing h, finishTick_of_due_or_halted hd]
  exact congrArg Host.Outcome.next ((congrArg (State.serve · _ _ p) hend).trans (serve_popped h))

theorem link_warmed {rq : Request} : ((s.popRequest p).warm.place p rq ⟨.done, []⟩).link q =
    { (s.link q).warm with responses := if q = p then [⟨rq.seq, rq.code, .done, []⟩] else [] } := by
  rw [State.place, link_setLink]
  split
  · next h =>
    subst h
    rw [link_warm, State.popRequest, link_setLink_self]
    rfl
  · next h =>
    rw [link_warm, State.popRequest, link_setLink_ne _ _ _ h]
    rfl

/-! ### Gates (R116) -/

/-- A port holds a resource exactly while it owns a lease of its holder list (R24, R116). -/
theorem asserted_iff (h : s.HolderLaw) (hb : (s.gate g).binding = some b) :
    s.asserted g = true ↔ ∃ l ∈ (s.res b.res).holders, (s.lease l).ownedBy b.port = true := by
  simp only [State.asserted, hb, State.holds, List.any_eq_true, List.mem_finRange, true_and, Bool.and_eq_true]
  refine exists_congr fun l => ?_
  rw [(h b.res).2 l]
  rcases hl : (s.lease l).st <;>
    simp [Lease.isHolder, Lease.liveClaim, Lease.isEnded, Lease.claim?, Lease.ownedBy, hl, and_comm]

end Sys2Proof.Machine

namespace Sys2Proof.Proofs

open Sys2Proof Sys2Proof.Machine

/-- Settles O28: each store after the one event. -/
theorem warmResetClears : Obligations.WarmResetClears := by
  intro p rq s hpass
  refine ⟨?ended, fun hd => ⟨_, exec_warmReset hpass hd, fun r => ?res, fun l => ?lease, fun w => ?wait,
    ?timebase, ?gates, fun q => ?session, fun q => ?attn, fun q => ?link, ?rstN, ?gateOeN, ?due, ?late, ?free⟩⟩
  case ended =>
    have hend : s.tickEnded .warmReset p = s.finishTick.tickEnded .warmReset p := by
      rw [tickEnded_passing hpass, tickEnded_finishTick]
    exact congrArg (fun u : State => Host.Outcome.next (u.serve .warmReset warmResetOwner p)) hend
  case res => exact (res_warm (s := s.popRequest p)).trans (resource_warm_eq _)
  case lease => exact lease_warm (s := s.popRequest p)
  case wait => exact wait_warm (s := s.popRequest p)
  case session => exact session_warm (s := s.popRequest p)
  case attn => exact attn_warm (s := s.popRequest p)
  case link =>
    rw [link_warmed]
    rfl
  all_goals simp only [State.place, State.setLink, State.warm, State.popRequest]

/-- Settles O57. -/
theorem resetKeepsLaws : Obligations.ResetKeepsLaws where
  holders r := by simp [Resource.initial, Lease.initial, Lease.isHolder]
  queues r := by simp [Resource.initial, Wait.initial, Wait.isWaiting]
  reserves := by simp [State.ReserveLaw, Wait.initial, Wait.reserved?, Lease.initial, Lease.isReserved]
  claims p r := by simp [Lease.initial, Lease.liveClaim, Lease.claim?]
  agreement r := by simp [State.agrees, Resource.initial]
  epochs r := by simp [Resource.initial]
  slots := by simp [State.SlotLaw, Resource.initial, Lease.initial, Lease.isPromoting]
  lists p := by simp
  tombstones := by simp [State.TombstoneLaw, Lease.initial, Lease.isEnded, Wait.initial]
  sessions p _ := by simp [Lease.initial, Lease.ownedBy, Lease.claim?, Wait.initial, Wait.ownedBy, Wait.claim?]
  links p := by simp [Link.initial]
  timebase := by simp [State.TimebaseLaw, State.reset, Timebase.initial, Config.resetDivider]
  quotas p := by simp [Session.initial, Config.resetLeaseQuota, Config.resetWaitQuota]
  ranges r := by simp [Resource.initial]
  generations := by simp [State.GenerationLaw, Lease.initial, Lease.isFree, Wait.initial, Wait.isFree]
  counts := by simp [State.CountLaw, Lease.initial, Lease.counts, Wait.initial, Wait.counts, Session.initial, Session.counts]
  due := by simp [State.DueLaw, State.reset]

/-- Settles O7: the holder lists say which ports hold, and a port without session owns no lease. -/
theorem gatesFollowHolders : Obligations.GatesFollowHolders := by
  intro s hinv
  refine ⟨fun g => ?holds, fun g b hb hnone => ?empty, fun g b hb hq => ?silent, fun g g' b b' hb hb' hr hex hg hg' => ?one⟩
  case holds =>
    rcases hb : (s.gate g).binding with _ | b
    · simp [asserted_of_unbound hb]
    · simp [asserted_iff hinv.holders hb]
  case empty => exact eq_false_of_ne_true fun h => by simp [asserted_iff hinv.holders hb, hnone] at h
  case silent =>
    refine eq_false_of_ne_true fun h => ?_
    obtain ⟨l, -, hl⟩ := (asserted_iff hinv.holders hb).mp h
    exact Bool.false_ne_true (((hinv.sessions b.port hq).2.1 l).symm.trans hl)
  case one =>
    have hlen : (s.res b.res).holders.length = 1 := by
      have := hinv.agreement b.res
      simp only [State.agrees, hex, Bool.decide_and, Bool.and_eq_true, decide_eq_true_eq] at this
      exact this.1
    obtain ⟨l, hl⟩ := List.length_eq_one_iff.mp hlen
    obtain ⟨m, hm, hown⟩ := (asserted_iff hinv.holders hb).mp hg
    obtain ⟨m', hm', hown'⟩ := (asserted_iff hinv.holders hb').mp hg'
    rw [← hr, hl, List.mem_singleton] at hm'
    rw [hl, List.mem_singleton] at hm
    subst hm hm'
    rw [lease_ownedBy_iff_place] at hown hown'
    exact Option.some.inj (hown.symm.trans hown')

end Sys2Proof.Proofs
end

