-- ==== Sys2Proof/Proofs/CheckByte.lean ====
section
/-! PROOFS. The check byte (R162): its recurrence, and that it detects any one wrong byte. -/

namespace Sys2Proof.Machine

theorem crcShift_injective : Function.Injective crcShift := by
  have hbit0 (x : Byte) : (crcShift x).getLsbD 0 = x.msb := by
    unfold crcShift
    split <;> simp [*]
  intro a b h
  have hmsb : a.msb = b.msb := by rw [← hbit0 a, ← hbit0 b, h]
  have hlow : a <<< 1 = b <<< 1 := by
    unfold crcShift at h
    rw [hmsb] at h
    split at h
    · exact BitVec.xor_right_inj 7 |>.mp (by simpa [BitVec.xor_comm] using h)
    · exact h
  refine BitVec.eq_of_getLsbD_eq fun i hi => ?_
  by_cases h7 : i = 7
  · subst h7
    simpa [BitVec.msb_eq_getLsbD_last] using hmsb
  · have := congrArg (BitVec.getLsbD · (i + 1)) hlow
    simpa [show i + 1 < 8 by omega, BitVec.getLsbD_eq_getElem hi] using this

theorem crcByte_injective_reg (b : Byte) : Function.Injective fun reg => crcByte reg b := fun x y h => by
  simpa [crcByte, crcShift_injective.eq_iff] using h

theorem crcByte_injective (reg : Byte) : Function.Injective (crcByte reg) := fun x y h => by
  simpa [crcByte, crcShift_injective.eq_iff] using h

/-- The register after the same bytes tells the registers before them apart. -/
theorem foldl_crcByte_injective (bs : List Byte) : Function.Injective fun reg => bs.foldl crcByte reg := by
  induction bs with
  | nil => exact fun _ _ h => h
  | cons b bs ih => exact fun x y h => crcByte_injective_reg b (ih h)

end Sys2Proof.Machine

namespace Sys2Proof.Proofs

open Sys2Proof Sys2Proof.Machine

/-- Settles O16: every step of the register is injective. -/
theorem checkByteDetects : Obligations.CheckByteDetects := by
  refine ⟨rfl, fun bs b => ?recurrence, fun pre post b b' hne heq => ?detects⟩
  case recurrence =>
    have hshift (x : Byte) : crcShift x = if x.getLsbD 7 then (x <<< 1) ^^^ 0x07 else x <<< 1 := by
      simp [crcShift, BitVec.msb_eq_getLsbD_last]
    simp only [← hshift]
    rw [crc8, List.foldl_append]
    rfl
  case detects =>
    simp only [crc8, List.foldl_append, List.foldl_cons, List.foldl_nil] at heq
    exact hne (crcByte_injective _ (foldl_crcByte_injective post heq))

end Sys2Proof.Proofs
end

