-- ==== Sys2Proof/Proofs/FirstByte.lean ====
section
/-! PROOFS. Transactions (spec sections 10.2, 10.3, 10.5): the status byte, the first byte, and each kind whole. -/

namespace Sys2Proof.Machine

variable {s u : State} {p : Port} {t b : Byte} {bytes : List Byte} {cut : Bool} {k : Link} {x : Txn} {o : Outgoing}
  {rq : Request} {count n m : Nat}

/-! ### The bits of the status byte (Table 10-3) -/

theorem statusByte_attached : (s.statusByte p).getLsbD 7 = s.attached p := by
  simp only [State.statusByte, BitVec.getLsbD_or, getLsbD_bitIf, getLsbD_freePlaces _ (show 3 ≤ 7 by decide)]
  simp

theorem statusByte_attn : (s.statusByte p).getLsbD 6 = !(s.attn p).isEmpty := by
  simp only [State.statusByte, BitVec.getLsbD_or, getLsbD_bitIf, getLsbD_freePlaces _ (show 3 ≤ 6 by decide)]
  simp

theorem statusByte_ready : (s.statusByte p).getLsbD 5 = !(s.link p).responses.isEmpty := by
  simp only [State.statusByte, BitVec.getLsbD_or, getLsbD_bitIf, getLsbD_freePlaces _ (show 3 ≤ 5 by decide)]
  simp

/-- A bit of the upper five is none of the lower three. -/
theorem bitIf_and_seven {c : Bool} {v : Byte} (h : v &&& 7 = 0) : bitIf c v &&& 7 = 0 := by
  cases c
  · exact BitVec.zero_and
  · exact h

theorem statusByte_free (h : (s.link p).requests.length ≤ 4) :
    (s.statusByte p &&& 7).toNat = 4 - (s.link p).requests.length := by
  simp only [State.statusByte, BitVec.and_or_distrib_right]
  rw [bitIf_and_seven rfl, bitIf_and_seven rfl, bitIf_and_seven rfl, bitIf_and_seven rfl, bitIf_and_seven rfl]
  simp only [Config.queueDepth]
  generalize (s.link p).requests.length = n at h
  interval_cases n <;> rfl

/-! ### The first byte (R157, R158, R159) -/

/-- A flag stays unless the status byte carried it as set. -/
theorem clearCarried_eq (k : Link) (b : Byte) : k.clearCarried b = { k with
    refused := k.refused && !b.getLsbD 4
    badFrame := k.badFrame && !b.getLsbD 3 } := by
  have hbit {i : Nat} (hi : i < 8) : (b &&& BitVec.twoPow 8 i == 0) = !b.getLsbD i := by
    rw [BitVec.and_twoPow]
    have hne : BitVec.twoPow 8 i ≠ 0#8 := fun h => by simpa [hi] using congrArg (BitVec.getLsbD · i) h
    cases b.getLsbD i
    · rfl
    · simpa using hne
  rw [← hbit (show 4 < 8 by decide), ← hbit (show 3 < 8 by decide)]
  rfl

theorem ofByte_unknown (h1 : t ≠ 0xA1) (h2 : t ≠ 0xA2) (h3 : t ≠ 0xA3) : TxnKind.ofByte t = none := by
  rw [TxnKind.ofByte, if_neg h1, if_neg h2, if_neg h3]

/-- What the port sends in a COLLECT (R165, R166). -/
def Link.outgoing (k : Link) : Outgoing :=
  match k.responses with
  | r :: _ => .response r.frame
  | [] => .empty emptyFrame

/-- The state of the transaction that a type byte begins (R158, R159). -/
def Link.begun (k : Link) (t : Byte) : Txn :=
  match TxnKind.ofByte t with
  | some .submit => .receiving [] 0
  | some .collect => .sending k.outgoing 0
  | some .status => .sending .nothing 0
  | none => .ignoring

theorem firstByte_opening (h : (s.link p).txn = .opening b) : s.firstByte p t =
    s.setLink p { (s.link p).clearCarried b with
      shifted := [b]
      txn := (s.link p).begun t
      badFrame := ((s.link p).clearCarried b).badFrame || decide (TxnKind.ofByte t = none) } := by
  simp only [State.firstByte, h, Link.begun, Link.outgoing]
  rcases TxnKind.ofByte t with _ | _ | _ | _
  · simp
  · simp
  · rcases (s.link p).responses with _ | _ <;> simp
  · simp

theorem firstByte_of_not_opening (h : ∀ b, (s.link p).txn ≠ .opening b) : s.firstByte p t = s := by
  simp only [State.firstByte]

end Sys2Proof.Machine

namespace Sys2Proof.Proofs

open Sys2Proof Sys2Proof.Machine

/-- Settles O8. -/
theorem statusByteFormed : Obligations.StatusByteFormed := by
  intro p s hlen
  refine ⟨fun hrst hcs => ⟨s.statusByte p, ?fall, statusByte_attached, statusByte_attn, statusByte_ready,
    statusByte_refused, statusByte_badFrame, statusByte_free hlen, fun t ht => ?outputs⟩, fun hrst hcs => ?reset,
    fun hcs => ?low, ?attn, fun _ => by simp [Link.misoDriven]⟩
  case fall => exact congrArg Host.Outcome.next (csFall_of_high hrst hcs)
  case outputs =>
    obtain rfl := Host.Outcome.next.inj ht
    rw [csFall_of_high hrst hcs, statusByte_attn]
    simp [Link.misoDriven, State.attnLow, hrst]
  case reset => exact congrArg Host.Outcome.next (by simp [State.csFall, hrst, hcs])
  case low => exact congrArg Host.Outcome.next (by simp [State.csFall, hcs])
  case attn => simp [State.attnLow]

/-- Settles O9. -/
theorem firstByteDecides : Obligations.FirstByteDecides := by
  intro p t s
  refine ⟨fun b hrst hopen => ?opening, fun h => ?other⟩
  case opening =>
    intro k
    have hexec : exec (.firstByteCompletion p t) s = .next (s.setLink p { k with
        txn := (s.link p).begun t
        badFrame := k.badFrame || decide (TxnKind.ofByte t = none) }) := by
      have h := firstByte_opening (t := t) hopen
      rw [clearCarried_eq] at h
      exact congrArg Host.Outcome.next ((if_pos hrst).trans h)
    rw [hexec]
    refine ⟨?submit, ?collect, ?empty, ?status, fun h1 h2 h3 => ?unknown⟩
    case submit => rintro rfl; simp [Link.begun, TxnKind.ofByte]
    case collect =>
      rintro rfl r rest hr
      simp [Link.begun, TxnKind.ofByte, Link.outgoing, hr, Response.frame]
    case empty =>
      rintro rfl hr
      simp [Link.begun, TxnKind.ofByte, Link.outgoing, hr]
      rfl
    case status => rintro rfl; simp [Link.begun, TxnKind.ofByte]
    case unknown => simp [Link.begun, ofByte_unknown h1 h2 h3]
  case other =>
    exact congrArg Host.Outcome.next (by rw [firstByte_of_not_opening h, ite_self])

end Sys2Proof.Proofs
end

