-- ==== Sys2Proof/Proofs/Transactions.lean ====
section
/-! PROOFS. Whole transactions and transactions in pieces (spec sections 10.2, 10.3, 10.5). -/

namespace Sys2Proof.Machine

variable {s u : State} {p : Port} {t b : Byte} {bytes : List Byte} {cut : Bool} {k : Link} {x : Txn} {o : Outgoing}
  {rq : Request} {count n m : Nat}

/-! ### A transaction from IDLE (R157, R158) -/

/-- The link port once the first byte of a transaction opened from IDLE is complete. -/
def State.openedLink (s : State) (p : Port) (t : Byte) : Link :=
  { s.link p with
    refused := false
    badFrame := decide (TxnKind.ofByte t = none)
    txn := (s.link p).begun t
    csLow := true
    shifted := [s.statusByte p] }

section FromIdle

variable (hrst : s.rstN = true) (hidle : (s.link p).txn = .idle) (hcs : (s.link p).csLow = false)
include hrst hcs

theorem firstByte_csFall (t : Byte) : (s.csFall p).firstByte p t = s.setLink p (s.openedLink p t) := by
  rw [csFall_of_high hrst hcs, firstByte_opening (b := s.statusByte p) (by rw [link_setLink_self]), link_setLink_self,
    setLink_setLink]
  simp only [clearCarried_statusByte, Bool.false_or]
  rfl

include hidle

theorem reach_opened (t : Byte) : s.reach p t = some (s.setLink p (s.openedLink p t)) :=
  (reach_of_idle hidle).trans (congrArg some (firstByte_csFall hrst hcs t))

/-- A whole transaction: the first byte, the bytes after it, and the rising edge. -/
theorem transact_whole (t : Byte) (bytes : List Byte) (cut : Bool) : s.transact p t bytes (.rise cut) =
    (s.setLink p ((s.openedLink p t).shift bytes)).csRise p cut := by
  rw [transact_rise (heard_of_high hrst hcs) (reach_opened hrst hidle hcs t), link_setLink_self, setLink_setLink]

theorem transact_held_whole (t : Byte) (bytes : List Byte) : s.transact p t bytes .held =
    s.setLink p ((s.openedLink p t).shift bytes) := by
  rw [transact_held (heard_of_high hrst hcs) (reach_opened hrst hidle hcs t), link_setLink_self, setLink_setLink]

/-- A transaction that ends before its first byte is complete (R158, R159). -/
theorem transact_early_eq (t : Byte) (bytes : List Byte) : s.transact p t bytes .early =
    s.setLink p { s.link p with shifted := [] } := by
  rw [transact_early (heard_of_high hrst hcs), abandon_of_idle hidle, csFall_of_high hrst hcs,
    csRise_opening (b := s.statusByte p) (by rw [link_setLink_self]), setLink_setLink, link_setLink_self]
  congr 1
  simp only [← hidle, ← hcs]

/-- The falling edge and then the early end are the early end. -/
theorem transact_early_opening (t : Byte) (bytes : List Byte) :
    (s.csFall p).transact p t bytes .early = s.transact p t bytes .early := by
  have hopen : ((s.csFall p).link p).txn = .opening (s.statusByte p) := by rw [csFall_of_high hrst hcs, link_setLink_self]
  have hheard : (s.csFall p).deaf p = false := by
    have : (s.csFall p).rstN = true := by rw [csFall_of_high hrst hcs]; exact hrst
    simp [State.deaf, this, hopen]
  rw [transact_early hheard, transact_early (heard_of_high hrst hcs), abandon_of_idle hidle]
  simp [State.abandon, hopen]

end FromIdle

/-! ### The rising edge (R157, R165) -/

theorem csRise_ignoring (h : (s.link p).txn = .ignoring) :
    s.csRise p cut = s.setLink p { s.link p with txn := .idle, csLow := false } := by
  simp [State.csRise, State.endAction, h]

/-- The response queue after `n` bytes of a COLLECT have been shifted out: the head response leaves exactly when its whole
frame is out (R165, R166). -/
def Outgoing.left (o : Outgoing) (n : Nat) (rs : List Response) : List Response :=
  match o with
  | .response f => if f.length ≤ n then rs.drop 1 else rs
  | _ => rs

theorem csRise_sending (h : (s.link p).txn = .sending o n) : s.csRise p cut = s.setLink p { s.link p with
    responses := o.left n (s.link p).responses, txn := .idle, csLow := false } := by
  simp only [State.csRise, State.endAction, h, State.endCollect]
  cases o with
  | response f =>
    simp only [Outgoing.left]
    split
    · rw [setLink_setLink, link_setLink_self]
    · rfl
  | empty _ => rfl
  | nothing => rfl
  | gone => rfl

/-! ### The frame of a request (Table 11-1, R160 to R162) -/

section Frame

variable (hlen : rq.body.length ≤ 24)
include hlen

theorem requestFrame_len : (rq.frame.getD 2 0).toNat = rq.body.length := by
  simp [Request.frame, byteOf]
  omega

theorem requestFrame_formed : ¬ Malformed rq.frame false := by
  have hl := requestFrame_len hlen
  simp only [Malformed, hl]
  simp [Request.frame]
  omega

theorem requestFrame_checked : ¬ BadCheck rq.frame := by
  simp only [BadCheck, requestFrame_len hlen, not_not]
  have htake : rq.frame.take (rq.body.length + 3) = [rq.seq, rq.code, byteOf rq.body.length] ++ rq.body := by
    simp [Request.frame]
  rw [htake]
  simp [Request.frame]

theorem requestOf_frame : requestOf rq.frame = rq := by
  rcases hrq : rq with ⟨seq, code, body⟩
  have hl := requestFrame_len hlen
  rw [hrq] at hl
  simp only [requestOf, hl]
  simp [Request.frame]

theorem frameRequest_frame : frameRequest (storedFrame rq.frame) rq.frame.length false = some rq := by
  rw [frameRequest_valid (requestFrame_formed hlen) (requestFrame_checked hlen), requestOf_frame hlen]

end Frame

/-! ### The bytes after the first, in pieces (R160, R165) -/

theorem take_take_append (n : Nat) (xs ys : List Byte) : (xs.take n ++ ys).take n = (xs ++ ys).take n := by
  rw [List.take_append, List.take_append, List.take_take, Nat.min_self, List.length_take]
  congr 2
  omega

/-- A byte beyond those stored stays beyond them. -/
theorem storedFrame_append (xs ys : List Byte) : storedFrame (storedFrame xs ++ ys) = storedFrame (xs ++ ys) := by
  have hget (zs : List Byte) (h : 3 ≤ zs.length) (ws : List Byte) : (zs ++ ws).getD 2 0 = zs.getD 2 0 := by
    simp [List.getElem?_append_left (show 2 < zs.length by omega)]
  by_cases hx : xs.length < 3
  · have htake : storedFrame xs = xs := List.take_of_length_le (by simp only [Config.maxStored]; omega)
    rw [htake]
  · have hstored : 3 ≤ (storedFrame xs).length := by
      simp only [storedFrame, List.length_take, Config.maxStored]
      omega
    have hlen : (storedFrame xs ++ ys).getD 2 0 = xs.getD 2 0 := by rw [hget _ hstored, storedFrame_len]
    have hlen' : (xs ++ ys).getD 2 0 = xs.getD 2 0 := hget _ (by omega) _
    rw [storedFrame, hlen, storedFrame, storedFrame, hlen', take_take_append]

/-- A frame and then 0xFF. -/
def padded (f : List Byte) (n : Nat) : List Byte := f.take n ++ List.replicate (n - f.length) 0xFF

/-- A frame's bytes and then 0xFF, in pieces. -/
theorem padded_append (f : List Byte) (m n : Nat) : padded f m ++ padded (f.drop m) n = padded f (m + n) := by
  unfold padded
  by_cases hm : m ≤ f.length
  · have hrep : m + n - f.length = n - (f.drop m).length := by rw [List.length_drop]; omega
    rw [List.take_add, Nat.sub_eq_zero_of_le hm, hrep]
    simp
  · have hm : f.length ≤ m := by omega
    rw [List.drop_of_length_le hm, List.take_of_length_le hm, List.take_of_length_le (by omega : f.length ≤ m + n),
      List.append_assoc, List.take_nil, List.nil_append, List.replicate_append_replicate, List.length_nil]
    congr 2
    omega

theorem next_eq (o : Outgoing) (sent n : Nat) : o.next sent n = padded (match o with
    | .response f => f.drop sent
    | .empty f => f.drop sent
    | .nothing => []
    | .gone => []) n := by
  cases o <;> rfl

theorem next_append (o : Outgoing) (sent m n : Nat) : o.next sent m ++ o.next (sent + m) n = o.next sent (m + n) := by
  rw [next_eq, next_eq, next_eq, ← padded_append]
  cases o with
  | response f => simp
  | empty f => simp
  | nothing => simp
  | gone => simp

theorem replicate_append_length (xs ys : List Byte) (b : Byte) :
    List.replicate xs.length b ++ List.replicate ys.length b = List.replicate (xs ++ ys).length b := by
  rw [List.replicate_append_replicate, List.length_append]

theorem shift_shift (k : Link) (xs ys : List Byte) : (k.shift xs).shift ys = k.shift (xs ++ ys) := by
  rcases hk : k.txn with _ | b | ⟨stored, count⟩ | ⟨o, sent⟩ | _ <;> simp only [Link.shift, hk]
  · rw [storedFrame_append, ← replicate_append_length, List.append_assoc, List.append_assoc, List.length_append,
      Nat.add_assoc]
  · rw [List.length_append, ← next_append, List.append_assoc, Nat.add_assoc]
  · rw [← replicate_append_length, List.append_assoc]

theorem shift_isOf (k : Link) (xs : List Byte) (x : Option TxnKind) : (k.shift xs).txn.isOf x = k.txn.isOf x := by
  rcases hk : k.txn with _ | b | ⟨stored, count⟩ | ⟨o, sent⟩ | _ <;> simp only [Link.shift, hk]
  · rcases x with _ | _ | _ | _ <;> rfl
  · rcases o with _ | _ | _ | _ <;> rcases x with _ | _ | _ | _ <;> rfl

theorem begun_isOf (k : Link) (t : Byte) : (k.begun t).isOf (TxnKind.ofByte t) = true := by
  unfold Link.begun
  rcases TxnKind.ofByte t with _ | _ | _ | _
  · rfl
  · rfl
  · unfold Link.outgoing
    rcases k.responses with _ | _ <;> rfl
  · rfl

section Underway

variable (hrst : s.rstN = true) (hof : (s.link p).txn.isOf (TxnKind.ofByte t) = true)
include hof

theorem reach_underway : s.reach p t = some s := by
  unfold State.reach
  split
  · simp_all [Txn.isOf]
  · simp_all [Txn.isOf]
  · rw [if_pos hof]

include hrst

theorem heard_underway : s.deaf p = false := by
  have : (s.link p).txn ≠ .idle := fun h => by rw [h] at hof; simp [Txn.isOf] at hof
  simp [State.deaf, hrst, this]

/-- The rest of a transaction, its bytes in two pieces. -/
theorem transact_append (xs ys : List Byte) {e : CsEnd} (he : e ≠ .early) :
    s.transact p t (xs ++ ys) e = (s.setLink p ((s.link p).shift xs)).transact p t ys e := by
  have hof' : ((s.setLink p ((s.link p).shift xs)).link p).txn.isOf (TxnKind.ofByte t) = true := by
    rw [link_setLink_self, shift_isOf, hof]
  have hheard := heard_underway (s := s.setLink p ((s.link p).shift xs)) hrst hof'
  cases e with
  | early => exact absurd rfl he
  | held =>
    rw [transact_held (heard_underway hrst hof) (reach_underway hof), transact_held hheard (reach_underway hof'),
      link_setLink_self, setLink_setLink, shift_shift]
  | rise cut =>
    rw [transact_rise (heard_underway hrst hof) (reach_underway hof), transact_rise hheard (reach_underway hof'),
      link_setLink_self, setLink_setLink, shift_shift]

end Underway

/-- A transaction from IDLE in pieces: its first byte, some bytes with CS_N held low, and the rest. -/
theorem transact_pieces (hrst : s.rstN = true) (hidle : (s.link p).txn = .idle) (hcs : (s.link p).csLow = false)
    (t : Byte) (xs ys : List Byte) {e : CsEnd} (he : e ≠ .early) : s.transact p t (xs ++ ys) e =
      (((s.csFall p).firstByte p t).transact p t xs .held).transact p t ys e := by
  have hopen := firstByte_csFall hrst hcs t
  have hof : (((s.csFall p).firstByte p t).link p).txn.isOf (TxnKind.ofByte t) = true := by
    rw [hopen, link_setLink_self]
    exact begun_isOf _ t
  have hrst' : ((s.csFall p).firstByte p t).rstN = true := by rw [hopen]; exact hrst
  have hfirst : s.transact p t (xs ++ ys) e = ((s.csFall p).firstByte p t).transact p t (xs ++ ys) e := by
    cases e with
    | early => exact absurd rfl he
    | held =>
      rw [transact_held (heard_of_high hrst hcs) (reach_of_idle hidle),
        transact_held (heard_underway hrst' hof) (reach_underway hof)]
    | rise cut =>
      rw [transact_rise (heard_of_high hrst hcs) (reach_of_idle hidle),
        transact_rise (heard_underway hrst' hof) (reach_underway hof)]
  rw [hfirst, transact_append hrst' hof _ _ he, transact_held (heard_underway hrst' hof) (reach_underway hof)]

end Sys2Proof.Machine

namespace Sys2Proof.Proofs

open Sys2Proof Sys2Proof.Machine

/-- Settles O14. -/
theorem unknownTypeSetsBadFrame : Obligations.UnknownTypeSetsBadFrame := by
  intro p t n cut s hrst hidle hcs h1 h2 h3
  have hnone := ofByte_unknown h1 h2 h3
  refine congrArg Host.Outcome.next ((if_pos hnone).trans ?_)
  rw [transact_whole hrst hidle hcs, csRise_ignoring (by simp [State.openedLink, Link.begun, hnone, Link.shift])]
  simp [State.openedLink, Link.begun, hnone, Link.shift, hidle, hcs]

/-- Settles O10: the frame is well formed, and its fields are those of the request. -/
theorem submittedFrameReceived : Obligations.SubmittedFrameReceived := by
  intro p rq s hrst hidle hcs hlen head k room
  have hwhole := transact_whole hrst hidle hcs TxnKind.submit.toByte rq.frame false
  have htxn : ((s.openedLink p TxnKind.submit.toByte).shift rq.frame) = { s.link p with
      refused := false
      badFrame := false
      csLow := true
      txn := .receiving (storedFrame rq.frame) rq.frame.length
      shifted := s.statusByte p :: List.replicate (rq.body.length + 4) 0xFF } := by
    simp [State.openedLink, Link.begun, ofByte_toByte, Link.shift, Request.frame]
  rw [htxn] at hwhole
  refine congrArg Host.Outcome.next (hwhole.trans ?_)
  by_cases hroom : (s.link p).requests.length < 4
  · rw [csRise_joined (by rw [link_setLink_self]) (frameRequest_frame hlen) (by simpa using hroom), renewLiveness_eq]
    simp [room, k, hroom, hidle, hcs, liveOf]
  · rw [csRise_refused (by rw [link_setLink_self]) (frameRequest_frame hlen) (by simpa using hroom), renewLiveness_eq]
    simp [room, k, hroom, hidle, hcs, liveOf]

/-- Settles O12: what has been shifted out decides whether the head response leaves. -/
theorem collectDelivers : Obligations.CollectDelivers := by
  refine ⟨fun p n cut s hrst hidle hcs => ?whole, fun p n sent cut s hrst htxn => ?gone, fun r => by cases r <;> decide⟩
  case whole =>
    intro k
    have hshift : (s.openedLink p TxnKind.collect.toByte).shift (List.replicate n 0) = { s.link p with
        refused := false
        badFrame := false
        csLow := true
        txn := .sending (s.link p).outgoing n
        shifted := s.statusByte p :: (s.link p).outgoing.next 0 n } := by
      simp [State.openedLink, Link.begun, ofByte_toByte, Link.shift]
    have hexec : exec (.collect p n (.rise cut)) s = .next (s.setLink p { k with
        responses := (s.link p).outgoing.left n (s.link p).responses
        shifted := s.statusByte p :: (s.link p).outgoing.next 0 n }) := by
      refine congrArg Host.Outcome.next ((transact_whole hrst hidle hcs _ _ _).trans ?_)
      rw [hshift, csRise_sending (by rw [link_setLink_self]), setLink_setLink, link_setLink_self]
      simp only [k, hidle, hcs]
    have hpad (f : List Byte) : padded f n = (f ++ List.replicate n 0xFF).take n := by
      rw [padded, List.take_append, List.take_replicate, Nat.min_eq_left (Nat.sub_le _ _)]
    rw [hexec]
    refine ⟨fun r rest hr => ?_, fun hr => ?_⟩
    · have hlen : r.frame.length = r.body.length + 5 := by simp [Response.frame]
      simp only [Link.outgoing, hr, Outgoing.left, next_eq, hpad, List.drop_zero, List.drop_one, List.tail_cons, hlen]
      rfl
    · have hk : k.responses = [] := hr
      simp only [Link.outgoing, hr, hk, Outgoing.left, next_eq, hpad, List.drop_zero]
      rfl
  case gone =>
    intro k
    have hof : (s.link p).txn.isOf (TxnKind.ofByte TxnKind.collect.toByte) = true := by rw [htxn]; rfl
    have hshift : (s.link p).shift (List.replicate n 0) = { k with txn := .sending .gone (sent + n) } := by
      simp [Link.shift, htxn, k, Outgoing.next]
    refine ⟨congrArg Host.Outcome.next ?_, congrArg Host.Outcome.next ?_⟩
    · rw [transact_held (heard_underway hrst hof) (reach_underway hof), hshift]
    · rw [transact_rise (heard_underway hrst hof) (reach_underway hof), hshift,
        csRise_sending (by rw [link_setLink_self]), setLink_setLink, link_setLink_self]
      rfl

theorem execAll_cons {c : Instr} {cs : List Instr} {s t : State} (h : exec c s = .next t) :
    execAll (c :: cs) s = execAll cs t := by
  simp only [execAll, h]

/-- Settles O15. -/
theorem transactionsCompose : Obligations.TransactionsCompose := by
  intro p s hrst hidle hcs
  refine ⟨fun e he => ?pieces, fun bytes => ?stored, fun c hc => ?early⟩
  case pieces =>
    have hpieces (t : Byte) (xs ys : List Byte) := transact_pieces hrst hidle hcs t xs ys he
    have hfirst (t : Byte) : exec (.firstByteCompletion p t) (s.csFall p) = .next ((s.csFall p).firstByte p t) := by
      have : (s.csFall p).rstN = true := by rw [csFall_of_high hrst hcs]; exact hrst
      exact congrArg Host.Outcome.next (if_pos this)
    have hall (t : Byte) (c d : Instr) (u v : State) (hc : exec c ((s.csFall p).firstByte p t) = .next u)
        (hd : exec d u = .next v) : execAll [.csNFall p, .firstByteCompletion p t, c, d] s = .next v := by
      rw [execAll_cons rfl, execAll_cons (hfirst t), execAll_cons hc, execAll_cons hd, execAll]
    refine ⟨fun a b => ?_, fun m n => ?_, fun m n => ?_, fun t m n h1 h2 h3 => ?_⟩
    · exact (congrArg Host.Outcome.next (hpieces 0xA1 a b)).trans (hall 0xA1 (.submit p a .held) (.submit p b e) _ _ rfl rfl).symm
    · have h := hpieces 0xA2 (List.replicate m 0) (List.replicate n 0)
      rw [List.replicate_append_replicate] at h
      exact (congrArg Host.Outcome.next h).trans (hall 0xA2 (.collect p m .held) (.collect p n e) _ _ rfl rfl).symm
    · have h := hpieces 0xA3 (List.replicate m 0) (List.replicate n 0)
      rw [List.replicate_append_replicate] at h
      exact (congrArg Host.Outcome.next h).trans (hall 0xA3 (.status p m .held) (.status p n e) _ _ rfl rfl).symm
    · have h := hpieces t (List.replicate m 0) (List.replicate n 0)
      rw [List.replicate_append_replicate] at h
      have hnone := ofByte_unknown h1 h2 h3
      have hexec (n : Nat) (e : CsEnd) (s : State) : exec (.unknownTypeByte p t n e) s =
          .next (s.transact p t (List.replicate n 0) e) := congrArg Host.Outcome.next (if_pos hnone)
      rw [hexec, h, hall t _ _ _ _ (hexec m .held _) (hexec n e _)]
  case stored =>
    refine congrArg Host.Outcome.next ((transact_held_whole hrst hidle hcs _ _).trans ?_)
    simp [State.openedLink, Link.begun, ofByte_toByte, Link.shift, storedFrame, Config.maxStored]
  case early =>
    have hearly (t : Byte) (bytes : List Byte) : s.transact p t bytes .early = s.setLink p { s.link p with shifted := [] } :=
      transact_early_eq hrst hidle hcs t bytes
    have hfallen (t : Byte) (bytes : List Byte) :
        (s.csFall p).transact p t bytes .early = s.setLink p { s.link p with shifted := [] } := by
      rw [transact_early_opening hrst hidle hcs, hearly t bytes]
    simp only [List.mem_cons, List.not_mem_nil, or_false] at hc
    rcases hc with rfl | rfl | rfl | rfl
    · exact ⟨congrArg Host.Outcome.next (hearly _ _), congrArg Host.Outcome.next (hfallen _ _)⟩
    · exact ⟨congrArg Host.Outcome.next (hearly _ _), congrArg Host.Outcome.next (hfallen _ _)⟩
    · exact ⟨congrArg Host.Outcome.next (hearly _ _), congrArg Host.Outcome.next (hfallen _ _)⟩
    · exact ⟨congrArg Host.Outcome.next (hearly _ _), congrArg Host.Outcome.next (hfallen _ _)⟩

end Sys2Proof.Proofs
end

