-- ==== Sys2Proof/Proofs/GrantPass.lean ====
section
/-! PROOFS. The grant pass (spec section 3.4): what a run of grants leaves, and where it stops. -/

namespace Sys2Proof.Machine

variable {s t u : State} {r : ResNo} {l : LeaseNo} {w : WaitNo} {p : Port} {ws served rest : List WaitNo} {e : Quad}
  {c : WaitClaim} {n : Half}

/-! ### Waits that can be granted (R50, R53) -/

/-- Different waits, each WAITING with a lease reserved for it alone. -/
structure State.Ready (s : State) (ws : List WaitNo) : Prop where
  nodup : ws.Nodup
  waiting : ∀ w ∈ ws, ∃ c n l, (s.wait w).st = .waiting c n l ∧ (s.lease l).st = .reserved c.leaseClaim
  distinct : ∀ w ∈ ws, ∀ w' ∈ ws, ∀ l, (s.wait w).reserved? = some l → (s.wait w').reserved? = some l → w = w'

theorem wait_reserved_of_waiting (h : (s.wait w).st = .waiting c n l) : (s.wait w).reserved? = some l := by
  simp [Wait.reserved?, h]

theorem mode_of_waiting (h : (s.wait w).st = .waiting c n l) : (s.wait w).mode? = some c.mode := by
  simp [Wait.mode?, Wait.claim?, h]

theorem ready_of_laws (hq : s.QueueLaw) (hr : s.ReserveLaw) (r : ResNo) : s.Ready (s.res r).queue where
  nodup := (hq r).1
  waiting w hw := by
    obtain ⟨hwaiting, -⟩ := ((hq r).2.2 w).mp hw
    rcases hst : (s.wait w).st with _ | ⟨c, n, l⟩ | ⟨c, x⟩
    · simp [Wait.isWaiting, hst] at hwaiting
    · obtain ⟨hres, hclaim⟩ := hr.1 w l (wait_reserved_of_waiting hst)
      refine ⟨c, n, l, rfl, ?_⟩
      rcases hl : (s.lease l).st <;> simp_all [Lease.isReserved, Lease.claim?, Wait.claim?]
    · simp [Wait.isWaiting, hst] at hwaiting
  distinct w hw w' hw' l hl hl' := by
    have hone := hr.2 l (hr.1 w l hl).1
    obtain ⟨v, hv⟩ := List.length_eq_one_iff.mp hone
    have hmem (y : WaitNo) (hy : (s.wait y).reserved? = some l) : y = v := by
      have : y ∈ (List.finRange 48).filter fun w => (s.wait w).reserved? = some l := by simp [hy]
      simpa [hv] using this
    rw [hmem w hl, hmem w' hl']

/-! ### A run of grants -/

/-- The leases reserved for the waits. -/
def State.reservedFor (s : State) (ws : List WaitNo) : List LeaseNo := ws.filterMap fun w => (s.wait w).reserved?

/-- The GRANTED entries of one port for the waits. -/
def State.grantedEntries (s : State) (p : Port) (ws : List WaitNo) : List Entry := ws.filterMap fun w =>
  match (s.wait w).st with
  | .waiting c _ l => if c.port = p then some ⟨.lease l, 1⟩ else none
  | _ => none

/-- The waits have been granted under epoch `e`, in this order, and nothing else has changed but the resource. -/
structure State.Granted (s t : State) (r : ResNo) (ws : List WaitNo) (e : Quad) : Prop where
  waits : ∀ w ∈ ws, t.wait w = (s.wait w).freed
  waitsElse : ∀ w, w ∉ ws → t.wait w = s.wait w
  leases : ∀ w ∈ ws, ∀ c n l, (s.wait w).st = .waiting c n l →
    t.lease l = ⟨(s.lease l).gen, grantedState c.leaseClaim e ((s.res r).attrs.givenTerm c.term)⟩
  leasesElse : ∀ l, l ∉ s.reservedFor ws → t.lease l = s.lease l
  attn : ∀ p, (∀ l ∈ s.reservedFor ws, Ref.lease l ∉ (s.attn p).map (·.ref)) → t.attn p = s.attn p ++ s.grantedEntries p ws
  other : ∀ r', r' ≠ r → t.res r' = s.res r'
  attrs : (t.res r).attrs = (s.res r).attrs
  stores : t = { s with resources := t.resources, leases := t.leases, waits := t.waits, attention := t.attention }

theorem granted_nil (s : State) (r : ResNo) (e : Quad) : s.Granted s r [] e where
  waits := nofun
  waitsElse _ _ := rfl
  leases := nofun
  leasesElse _ _ := rfl
  attn _ _ := (List.append_nil _).symm
  other _ _ := rfl
  attrs := rfl
  stores := rfl

theorem grantedEntries_single (hw : (s.wait w).st = .waiting c n l) :
    s.grantedEntries p [w] = if c.port = p then [⟨.lease l, 1⟩] else [] := by
  by_cases h : c.port = p <;> simp [State.grantedEntries, hw, h]

theorem addCause_of_new {x : Ref} {k : Cause} {es : List Entry} (h : x ∉ es.map (·.ref)) :
    addCause x k es = es ++ [⟨x, k.value⟩] := by
  induction es with
  | nil => rfl
  | cons f es ih =>
    rw [List.map_cons, List.mem_cons, not_or] at h
    rw [addCause, if_neg (Ne.symm h.1), ih h.2, List.cons_append]

/-- One grant. -/
theorem grantWait_granted (hw : (s.wait w).st = .waiting c n l) (hl : (s.lease l).st = .reserved c.leaseClaim) :
    s.Granted (s.grantWait r w) r [w] ((s.res r).join l c.mode).epoch where
  waits w' hw' := by
    rw [List.mem_singleton.mp hw', grantWait_eq hw hl]
    simp [State.flag]
  waitsElse w' hw' := by
    rw [grantWait_eq hw hl]
    simp [State.flag, List.mem_singleton.not.mp hw']
  leases w' hw' c' n' l' h' := by
    rw [List.mem_singleton.mp hw', hw] at h'
    obtain ⟨rfl, rfl, rfl⟩ := WaitState.waiting.inj h'
    rw [grantWait_eq hw hl]
    simp [State.flag, WaitClaim.leaseClaim]
  leasesElse l' hl' := by
    have hne : l' ≠ l := by
      rintro rfl
      simp [State.reservedFor, wait_reserved_of_waiting hw] at hl'
    rw [grantWait_eq hw hl]
    simp [State.flag, hne]
  attn p hp := by
    have hnew : Ref.lease l ∉ (s.attn p).map (·.ref) := hp l (by simp [State.reservedFor, wait_reserved_of_waiting hw])
    rw [grantWait_eq hw hl]
    by_cases hport : p = c.port
    · subst hport
      simp [State.flag, WaitClaim.leaseClaim, State.grantedEntries, hw, addCause_of_new hnew, Cause.value]
    · simp [State.flag, WaitClaim.leaseClaim, State.grantedEntries, hw, hport, Ne.symm hport]
  other r' hr' := by
    rw [grantWait_eq hw hl]
    simp [State.flag, hr']
  attrs := grantWait_kept.1
  stores := by
    rw [grantWait_eq hw hl]
    rfl

theorem res_grantWait (hw : (s.wait w).st = .waiting c n l) (hl : (s.lease l).st = .reserved c.leaseClaim) :
    (s.grantWait r w).res r = { (s.res r).join l c.mode with queue := (s.res r).queue.filter (· ≠ w) } := by
  rw [grantWait_eq hw hl]
  simp [State.flag, WaitClaim.leaseClaim]

section Cons

variable (hready : s.Ready (w :: ws)) (hw : (s.wait w).st = .waiting c n l)
include hready hw

theorem reserved_ne_of_ready {w' : WaitNo} (hw' : w' ∈ ws) : (s.wait w').reserved? ≠ some l := fun h => by
  obtain ⟨hnot, -⟩ := List.nodup_cons.mp hready.nodup
  have := hready.distinct w List.mem_cons_self w' (List.mem_cons_of_mem _ hw') l (wait_reserved_of_waiting hw) h
  exact hnot (this ▸ hw')

theorem not_mem_reservedFor (hsub : ∀ v ∈ served, v ∈ ws) : l ∉ s.reservedFor served := fun h => by
  obtain ⟨w', hw', h⟩ := List.mem_filterMap.mp h
  exact reserved_ne_of_ready hready hw (hsub w' hw') h

/-- The head granted, the others are still ready. -/
theorem ready_tail (h : s.Granted t r [w] e) : t.Ready ws where
  nodup := (List.nodup_cons.mp hready.nodup).2
  waiting w' hw' := by
    obtain ⟨hnot, -⟩ := List.nodup_cons.mp hready.nodup
    obtain ⟨c', n', l', hst, hl'⟩ := hready.waiting w' (List.mem_cons_of_mem _ hw')
    have hne : w' ≠ w := fun e => hnot (e ▸ hw')
    refine ⟨c', n', l', by rw [h.waitsElse w' (by simpa using hne), hst], ?_⟩
    have hll : l' ≠ l := fun e => reserved_ne_of_ready hready hw hw' (by rw [wait_reserved_of_waiting hst, e])
    rw [h.leasesElse l' (by simp [State.reservedFor, wait_reserved_of_waiting hw, hll]), hl']
  distinct v hv v' hv' l' hl hl' := by
    obtain ⟨hnot, -⟩ := List.nodup_cons.mp hready.nodup
    have hne {y : WaitNo} (hy : y ∈ ws) : t.wait y = s.wait y :=
      h.waitsElse y (by rw [List.mem_singleton]; exact fun e => hnot (e ▸ hy))
    rw [hne hv] at hl
    rw [hne hv'] at hl'
    exact hready.distinct v (List.mem_cons_of_mem _ hv) v' (List.mem_cons_of_mem _ hv') l' hl hl'

/-- A grant of the head, and then of others of the list. -/
theorem granted_cons (h : s.Granted t r [w] e) (hsub : ∀ v ∈ served, v ∈ ws) (h' : t.Granted u r served e) :
    s.Granted u r (w :: served) e := by
  obtain ⟨hnot, -⟩ := List.nodup_cons.mp hready.nodup
  have hwait {y : WaitNo} (hy : y ∈ served) : t.wait y = s.wait y :=
    h.waitsElse y (by rw [List.mem_singleton]; exact fun e => hnot (e ▸ hsub y hy))
  have hfor : t.reservedFor served = s.reservedFor served :=
    List.filterMap_congr fun y hy => by rw [hwait hy]
  have hentries (p : Port) : t.grantedEntries p served = s.grantedEntries p served :=
    List.filterMap_congr fun y hy => by rw [hwait hy]
  have hcons : s.reservedFor (w :: served) = l :: s.reservedFor served := by
    simp [State.reservedFor, wait_reserved_of_waiting hw]
  have hnotl := not_mem_reservedFor hready hw hsub
  refine ⟨fun y hy => ?_, fun y hy => ?_, fun y hy c' n' l' hst => ?_, fun l' hl' => ?_, fun p hp => ?_, fun r' hr' => ?_,
    h'.attrs.trans h.attrs, ?_⟩
  · rcases List.mem_cons.mp hy with rfl | hy
    · rw [h'.waitsElse y fun hmem => hnot (hsub y hmem), h.waits y (by simp)]
    · rw [h'.waits y hy, hwait hy]
  · rw [List.mem_cons, not_or] at hy
    rw [h'.waitsElse y hy.2, h.waitsElse y (by simpa using hy.1)]
  · rcases List.mem_cons.mp hy with rfl | hy
    · rw [hw] at hst
      obtain ⟨rfl, rfl, rfl⟩ := WaitState.waiting.inj hst
      rw [h'.leasesElse l (by rwa [hfor]), h.leases y (by simp) c n l hw]
    · have hll : l' ≠ l := fun e => reserved_ne_of_ready hready hw (hsub y hy) (by rw [wait_reserved_of_waiting hst, e])
      rw [h'.leases y hy c' n' l' (by rw [hwait hy, hst]), h.attrs,
        h.leasesElse l' (by simp [State.reservedFor, wait_reserved_of_waiting hw, hll])]
  · rw [hcons, List.mem_cons, not_or] at hl'
    rw [h'.leasesElse l' (by rw [hfor]; exact hl'.2),
      h.leasesElse l' (by simpa [State.reservedFor, wait_reserved_of_waiting hw] using hl'.1)]
  · rw [hcons] at hp
    have h1 := h.attn p fun l' hl' => hp l' (by
      simp only [State.reservedFor, wait_reserved_of_waiting hw, List.filterMap_cons, List.filterMap_nil,
        List.mem_singleton] at hl'
      simp [hl'])
    have h2 := h'.attn p fun l' hl' => by
      rw [hfor] at hl'
      rw [h1, List.map_append, List.mem_append, not_or]
      refine ⟨hp l' (List.mem_cons_of_mem _ hl'), fun hmem => ?_⟩
      have hll : l' ≠ l := fun e => hnotl (e ▸ hl')
      rw [grantedEntries_single hw] at hmem
      split at hmem
      · exact hll (Ref.lease.inj (by simpa using hmem))
      · simp at hmem
    rw [h2, h1, hentries, List.append_assoc]
    simp only [State.grantedEntries, List.filterMap_cons, List.filterMap_nil]
    split <;> rfl
  · rw [h'.other r' hr', h.other r' hr']
  · rw [h'.stores, h.stores]

end Cons

/-! ### The shared part of a pass (R55, R56) -/

/-- A WAITING wait that did not ask for SHARED asked for EXCLUSIVE. -/
theorem exclusive_of_not_shared (hready : s.Ready ws) (hw : w ∈ ws) (h : (s.wait w).mode? ≠ some .shared) :
    (s.wait w).mode? = some .exclusive := by
  obtain ⟨c, n, l, hst, -⟩ := hready.waiting w hw
  rw [mode_of_waiting hst] at h ⊢
  cases hm : c.mode
  · rfl
  · simp [hm] at h

theorem filter_ne_cons (h : (w :: ws).Nodup) : (w :: ws).filter (· ≠ w) = ws := by
  obtain ⟨hnot, -⟩ := List.nodup_cons.mp h
  rw [List.filter_cons_of_neg (by simp)]
  exact List.filter_eq_self.mpr fun y hy => by
    have : y ≠ w := fun e => hnot (e ▸ hy)
    simpa using this

theorem res_eq_of_queue {q : List WaitNo} (h : (s.res r).queue = q) : s.res r = { s.res r with queue := q } := by
  rw [← h]

/-- At a SHARED resource the queue is served from its head while the head asked for SHARED and there is room. -/
theorem grantShared_serves (ws : List WaitNo) (s : State) (hready : s.Ready ws) (hst : (s.res r).st = .shared)
    (hq : (s.res r).queue = ws) : ∃ served rest, ws = served ++ rest
      ∧ s.Granted (s.grantShared r ws) r served (s.res r).epoch
      ∧ (s.grantShared r ws).res r =
        { s.res r with holders := (s.res r).holders ++ s.reservedFor served, queue := rest }
      ∧ (∀ w ∈ served, (s.wait w).mode? = some .shared)
      ∧ (served = [] ∨ (s.res r).holders.length + served.length ≤ (s.res r).attrs.shareLimit.toNat)
      ∧ ((s.res r).holders.length + served.length < (s.res r).attrs.shareLimit.toNat →
          ∀ w ∈ rest.head?, (s.wait w).mode? = some .exclusive)
      ∧ (served = [] → s.grantShared r ws = s) := by
  induction ws generalizing s with
  | nil =>
    refine ⟨[], [], rfl, granted_nil s r _, ?_, nofun, .inl rfl, nofun, fun _ => rfl⟩
    exact (res_eq_of_queue hq).trans (by rw [State.reservedFor, List.filterMap_nil, List.append_nil])
  | cons w ws ih =>
    by_cases hgo : (s.wait w).mode? = some .shared ∧ (s.res r).holders.length < (s.res r).attrs.shareLimit.toNat
    · obtain ⟨c, n, l, hw, hl⟩ := hready.waiting w List.mem_cons_self
      obtain ⟨hnot, -⟩ := List.nodup_cons.mp hready.nodup
      have hgrant : s.Granted (s.grantWait r w) r [w] _ := grantWait_granted hw hl
      have hres : (s.grantWait r w).res r = _ := res_grantWait hw hl
      rw [join_shared hst] at hgrant hres
      rw [hq, filter_ne_cons hready.nodup] at hres
      have hst' : ((s.grantWait r w).res r).st = .shared := by rw [hres]; exact hst
      obtain ⟨served, rest, hws, hg, hx, hmode, hroom, hstop, -⟩ :=
        ih (s.grantWait r w) (ready_tail hready hw hgrant) hst' (by rw [hres])
      have hwait {y : WaitNo} (hy : y ∈ ws) : (s.grantWait r w).wait y = s.wait y :=
        hgrant.waitsElse y (by rw [List.mem_singleton]; exact fun e => hnot (e ▸ hy))
      have hsub : ∀ v ∈ served, v ∈ ws := fun v hv => hws ▸ List.mem_append_left _ hv
      have hfor : (s.grantWait r w).reservedFor served = s.reservedFor served :=
        List.filterMap_congr fun y hy => by rw [hwait (hsub y hy)]
      have hcons : s.reservedFor (w :: served) = l :: s.reservedFor served := by
        simp [State.reservedFor, wait_reserved_of_waiting hw]
      have heq : s.grantShared r (w :: ws) = (s.grantWait r w).grantShared r ws := if_pos hgo
      rw [heq]
      rw [hres] at hg hx hroom hstop
      simp only [List.length_append, List.length_singleton] at hroom hstop
      refine ⟨w :: served, rest, by rw [hws]; rfl, granted_cons hready hw hgrant hsub hg, ?_, fun y hy => ?_, .inr ?_,
        fun hlt y hy => ?_, nofun⟩
      · rw [hx, hfor, hcons]
        simp
      · rcases List.mem_cons.mp hy with rfl | hy
        · exact hgo.1
        · rw [← hwait (hsub y hy)]
          exact hmode y hy
      · rcases hroom with rfl | hroom
        · simp only [List.length_singleton]
          omega
        · simp only [List.length_cons]
          omega
      · have hmem : y ∈ ws := by
          rw [hws]
          exact List.mem_append_right _ (List.mem_of_mem_head? hy)
        rw [← hwait hmem]
        exact hstop (by simp only [List.length_cons] at hlt; omega) y hy
    · have heq : s.grantShared r (w :: ws) = s := if_neg hgo
      rw [heq]
      refine ⟨[], w :: ws, rfl, granted_nil s r _, ?_, nofun, .inl rfl, fun hlt y hy => ?_, fun _ => rfl⟩
      · simp [State.reservedFor, ← hq]
      · obtain rfl := Option.some.inj hy
        exact exclusive_of_not_shared hready List.mem_cons_self fun hm => hgo ⟨hm, by simpa using hlt⟩

/-! ### The pass -/

/-- A pass at a FREE resource below the last epoch begins a holding period with the head (R55). -/
theorem grantPass_begins (hready : s.Ready (w :: ws)) (hst : (s.res r).st = .free) (he : (s.res r).epoch ≠ maxEpoch)
    (hq : (s.res r).queue = w :: ws) (hnone : (s.res r).holders = []) :
    (s.Granted (s.grantPass r) r [w] ((s.res r).epoch + 1) ∧ (s.wait w).mode? = some .exclusive
      ∧ (s.grantPass r).res r = { s.res r with
          st := .exclusive, epoch := (s.res r).epoch + 1, holders := s.reservedFor [w], queue := ws })
    ∨ ∃ served rest, ws = served ++ rest ∧ s.Granted (s.grantPass r) r (w :: served) ((s.res r).epoch + 1)
      ∧ (∀ v ∈ w :: served, (s.wait v).mode? = some .shared)
      ∧ (served = [] ∨ 1 + served.length ≤ (s.res r).attrs.shareLimit.toNat)
      ∧ (s.grantPass r).res r = { s.res r with
          st := .shared, epoch := (s.res r).epoch + 1, holders := s.reservedFor (w :: served), queue := rest }
      ∧ (1 + served.length < (s.res r).attrs.shareLimit.toNat → ∀ v ∈ rest.head?, (s.wait v).mode? = some .exclusive) := by
  obtain ⟨c, n, l, hw, hl⟩ := hready.waiting w List.mem_cons_self
  obtain ⟨hnot, -⟩ := List.nodup_cons.mp hready.nodup
  have hgrant : s.Granted (s.grantWait r w) r [w] _ := grantWait_granted hw hl
  have hres : (s.grantWait r w).res r = _ := res_grantWait hw hl
  rw [join_free hst] at hgrant hres
  rw [hq, filter_ne_cons hready.nodup, hnone, List.nil_append] at hres
  have hfor1 : s.reservedFor [w] = [l] := by simp [State.reservedFor, wait_reserved_of_waiting hw]
  have hpass : s.grantPass r = if (s.wait w).mode? = some .shared then (s.grantWait r w).grantShared r ws
      else s.grantWait r w := by
    simp only [State.grantPass, hst, hq, if_neg he]
  by_cases hm : (s.wait w).mode? = some .shared
  · rw [if_pos hm] at hpass
    have hcm : c.mode = .shared := by
      rw [mode_of_waiting hw] at hm
      exact Option.some.inj hm
    rw [hcm] at hres
    obtain ⟨served, rest, hws, hg, hx, hmode, hroom, hstop, -⟩ := grantShared_serves ws (s.grantWait r w)
      (ready_tail hready hw hgrant) (by rw [hres]; rfl) (by rw [hres])
    have hwait {y : WaitNo} (hy : y ∈ ws) : (s.grantWait r w).wait y = s.wait y :=
      hgrant.waitsElse y (by rw [List.mem_singleton]; exact fun e => hnot (e ▸ hy))
    have hsub : ∀ v ∈ served, v ∈ ws := fun v hv => hws ▸ List.mem_append_left _ hv
    have hfor : (s.grantWait r w).reservedFor served = s.reservedFor served :=
      List.filterMap_congr fun y hy => by rw [hwait (hsub y hy)]
    have hcons : s.reservedFor (w :: served) = l :: s.reservedFor served := by
      simp [State.reservedFor, wait_reserved_of_waiting hw]
    rw [hres] at hg hx hroom hstop
    refine .inr ⟨served, rest, hws, ?_, fun y hy => ?_, hroom, ?_, fun hlt y hy => ?_⟩
    · rw [hpass]
      exact granted_cons hready hw hgrant hsub hg
    · rcases List.mem_cons.mp hy with rfl | hy
      · exact hm
      · rw [← hwait (hsub y hy)]
        exact hmode y hy
    · rw [hpass, hx, hfor, hcons]
      rfl
    · have hmem : y ∈ ws := by
        rw [hws]
        exact List.mem_append_right _ (List.mem_of_mem_head? hy)
      rw [← hwait hmem]
      exact hstop hlt y hy
  · rw [if_neg hm] at hpass
    have hex := exclusive_of_not_shared hready List.mem_cons_self hm
    have hcm : c.mode = .exclusive := by
      rw [mode_of_waiting hw] at hex
      exact Option.some.inj hex
    rw [hcm] at hres
    refine .inl ⟨?_, hex, ?_⟩
    · rw [hpass]
      exact hgrant
    · rw [hpass, hres, hfor1]
      rfl

/-- How far a pass goes and what it makes of the resource (R55, R56). -/
structure State.PassOutcome (s t : State) (r : ResNo) (served rest : List WaitNo) : Prop where
  none : served = [] → t = s
  other : (s.res r).st ≠ .free → (s.res r).st ≠ .shared → served = []
  exhausted : (s.res r).st = .free → (s.res r).epoch = maxEpoch → served = []
  begins : (s.res r).st = .free → (s.res r).epoch ≠ maxEpoch → (s.res r).queue ≠ [] →
    (∃ w, served = [w] ∧ (s.wait w).mode? = some .exclusive ∧ t.res r = { s.res r with
      st := .exclusive, epoch := (s.res r).epoch + 1, holders := s.reservedFor served, queue := rest })
    ∨ served ≠ [] ∧ (∀ w ∈ served, (s.wait w).mode? = some .shared)
      ∧ (served.length = 1 ∨ served.length ≤ (s.res r).attrs.shareLimit.toNat) ∧ t.res r = { s.res r with
        st := .shared, epoch := (s.res r).epoch + 1, holders := s.reservedFor served, queue := rest }
  slot : (s.res r).st = .shared → (s.res r).slot ≠ Option.none → served = []
  shared : (s.res r).st = .shared → (∀ w ∈ served, (s.wait w).mode? = some .shared)
    ∧ (served = [] ∨ (s.res r).holders.length + served.length ≤ (s.res r).attrs.shareLimit.toNat)
    ∧ t.res r = { s.res r with holders := (s.res r).holders ++ s.reservedFor served, queue := rest }
  stops : (t.res r).st = .shared → (t.res r).slot = Option.none →
    (t.res r).holders.length < (t.res r).attrs.shareLimit.toNat → ∀ w ∈ rest.head?, (s.wait w).mode? = some .exclusive

theorem length_reservedFor (hready : s.Ready ws) (hsub : ∀ w ∈ served, w ∈ ws) :
    (s.reservedFor served).length = served.length := by
  induction served with
  | nil => rfl
  | cons w served ih =>
    obtain ⟨c, n, l, hw, -⟩ := hready.waiting w (hsub w List.mem_cons_self)
    rw [State.reservedFor, List.filterMap_cons, wait_reserved_of_waiting hw]
    exact congrArg (· + 1) (ih fun v hv => hsub v (List.mem_cons_of_mem _ hv))

/-- A pass that serves none. -/
theorem passOutcome_nil (hother : (s.res r).st = .free → (s.res r).epoch ≠ maxEpoch → (s.res r).queue = [])
    (hstops : (s.res r).st = .shared → (s.res r).slot ≠ none) : s.PassOutcome s r [] (s.res r).queue where
  none _ := rfl
  other _ _ := rfl
  exhausted _ _ := rfl
  begins hst he hq := absurd (hother hst he) hq
  slot _ _ := rfl
  shared _ := ⟨nofun, .inl rfl, by simp [State.reservedFor]⟩
  stops hst hslot := absurd hslot (hstops hst)

theorem grantPass_outcome (hready : s.Ready (s.res r).queue) (hempty : (s.res r).st = .free → (s.res r).holders = []) :
    ∃ served rest, (s.res r).queue = served ++ rest ∧ s.Granted (s.grantPass r) r served ((s.grantPass r).res r).epoch
      ∧ s.PassOutcome (s.grantPass r) r served rest := by
  have hnone (h : s.grantPass r = s) (hother : (s.res r).st = .free → (s.res r).epoch ≠ maxEpoch → (s.res r).queue = [])
      (hstops : (s.res r).st = .shared → (s.res r).slot ≠ none) : ∃ served rest, (s.res r).queue = served ++ rest
        ∧ s.Granted (s.grantPass r) r served ((s.grantPass r).res r).epoch ∧ s.PassOutcome (s.grantPass r) r served rest := by
    rw [h]
    exact ⟨[], _, rfl, granted_nil s r _, passOutcome_nil hother hstops⟩
  by_cases hfree : (s.res r).st = .free
  · by_cases he : (s.res r).epoch = maxEpoch
    · refine hnone ?_ (fun _ h => absurd he h) (fun h => by simp [hfree] at h)
      simp only [State.grantPass, hfree, if_pos he]
      split <;> rfl
    rcases hq : (s.res r).queue with _ | ⟨w, ws⟩
    · rw [← hq]
      exact hnone (by simp only [State.grantPass, hfree, hq]) (fun _ _ => hq) (fun h => by simp [hfree] at h)
    rw [hq] at hready
    rcases grantPass_begins hready hfree he hq (hempty hfree) with ⟨hg, hm, hx⟩ | ⟨served, rest, hws, hg, hm, hroom, hx, hstop⟩
    · refine ⟨[w], ws, rfl, by rw [hx]; exact hg, nofun, fun h => absurd hfree h, fun _ h => absurd h he,
        fun _ _ _ => .inl ⟨w, rfl, hm, hx⟩, fun h => by simp [hfree] at h, fun h => by simp [hfree] at h, fun h => ?_⟩
      rw [hx] at h
      exact absurd h nofun
    · refine ⟨w :: served, rest, by rw [hws]; rfl, by rw [hx]; exact hg, nofun, fun h => absurd hfree h,
        fun _ h => absurd h he, fun _ _ _ => .inr ⟨nofun, hm, ?_, hx⟩, fun h => by simp [hfree] at h,
        fun h => by simp [hfree] at h, fun _ _ hlt => hstop ?_⟩
      · rcases hroom with rfl | hroom
        · exact .inl rfl
        · exact .inr (by simp only [List.length_cons]; omega)
      · have hlen := length_reservedFor (served := w :: served) hready fun v hv => by
          rw [hws, ← List.cons_append]
          exact List.mem_append_left _ hv
        rw [hx] at hlt
        simp only [hlen, List.length_cons] at hlt
        omega
  · by_cases hshared : (s.res r).st = .shared
    · by_cases hslot : (s.res r).slot = none
      · have hpass : s.grantPass r = s.grantShared r (s.res r).queue := by
          simp only [State.grantPass, hshared, if_pos hslot]
        obtain ⟨served, rest, hws, hg, hx, hm, hroom, hstop, hn⟩ := grantShared_serves _ s hready hshared rfl
        rw [← hpass] at hg hx hn
        refine ⟨served, rest, hws, by rw [hx]; exact hg, hn, fun _ h => absurd hshared h, fun h => absurd h hfree,
          fun h => absurd h hfree, fun _ h => absurd hslot h, fun _ => ⟨hm, hroom, hx⟩, fun _ _ hlt => hstop ?_⟩
        have hlen := length_reservedFor (served := served) hready fun v hv => by
          rw [hws]
          exact List.mem_append_left _ hv
        rw [hx] at hlt
        simpa only [List.length_append, hlen] using hlt
      · exact hnone (by simp only [State.grantPass, hshared, if_neg hslot]) (fun h => absurd h hfree) (fun _ => hslot)
    · refine hnone ?_ (fun h => absurd h hfree) (fun h => absurd h hshared)
      simp only [State.grantPass]

end Sys2Proof.Machine

namespace Sys2Proof.Proofs

open Sys2Proof Sys2Proof.Machine

/-- Settles O46: a FREE resource begins a holding period, a SHARED one with an empty slot goes on with it, and any other
is served nothing. -/
theorem grantPassServes : Obligations.GrantPassServes := by
  intro s r hqueue hreserve hempty x t allShared leases
  have hready := ready_of_laws hqueue hreserve r
  have hlist (hl : s.ListLaw) (p : Port) (ws : List WaitNo) (hws : ∀ w ∈ ws, w ∈ x.queue) :
      ∀ l ∈ s.reservedFor ws, Ref.lease l ∉ (s.attn p).map (·.ref) := by
    intro l hl' hmem
    obtain ⟨w, hw, hres⟩ := List.mem_filterMap.mp hl'
    obtain ⟨e, he, heq⟩ := List.mem_map.mp hmem
    have hentry := (hl p).2 e he
    have hreserved := (hreserve.1 w l hres).1
    rw [heq] at hentry
    rcases hst : (s.lease l).st <;> simp_all [Lease.isReserved, Lease.isHolder, Lease.isEnded]
  obtain ⟨served, rest, hsplit, hg, ho⟩ := grantPass_outcome hready hempty
  have hperiod (st : ResState) (hst : x.st = .free) : ({ s.res r with
      st := st, epoch := (s.res r).epoch + 1, holders := s.reservedFor served, queue := rest } : Resource) =
      { s.res r with
        st := st, epoch := (s.res r).epoch + 1, holders := (s.res r).holders ++ s.reservedFor served, queue := rest } := by
    rw [hempty hst, List.nil_append]
  refine ⟨served, rest, hsplit, ho.none, ho.other, ho.exhausted, fun hst he hq => ?_, ho.slot, ho.shared, ho.stops,
    fun w hw c n l hst => ⟨hg.waits w hw, hg.leases w hw c n l hst⟩, hg.waitsElse, hg.leasesElse,
    fun hl p => hg.attn p (hlist hl p served fun v hv => ?_), hg.other, hg.stores⟩
  · have h := ho.begins hst he hq
    rwa [hperiod _ hst, hperiod _ hst] at h
  · rw [show x.queue = _ from hsplit]
    exact List.mem_append_left _ hv

end Sys2Proof.Proofs
end

