-- ==== Sys2Proof/Proofs/Site.lean ====
section
/-! PROOFS. The laws of one resource as a predicate on its record and on what it sees of the leases and waits (R3, R12, R24,
R27, R50, R53, R71, R99), and how each change of those keeps them. -/

namespace Sys2Proof.Machine

/-! ### What a resource sees of a record -/

/-- What resource `r` sees of a lease record: its state while it is a live claim on `r`, and FREE otherwise. -/
def Lease.seenAt (r : ResNo) (y : Lease) : LeaseState :=
  match y.st with
  | .reserved c => if c.res = r then .reserved c else .free
  | .active h a => if h.claim.res = r then .active h a else .free
  | .grace h g => if h.claim.res = r then .grace h g else .free
  | _ => .free

/-- What resource `r` sees of a wait record: its state while it is WAITING at `r`, and FREE otherwise. -/
def Wait.seenAt (r : ResNo) (y : Wait) : WaitState :=
  match y.st with
  | .waiting c n l => if c.res = r then .waiting c n l else .free
  | _ => .free

/-- The claim and the epoch of a lease in ACTIVE or GRACE. -/
def LeaseState.holding? : LeaseState → Option (Claim × Quad)
  | .active h _ => some (h.claim, h.epoch)
  | .grace h _ => some (h.claim, h.epoch)
  | _ => none

/-- The promotion patience of an ACTIVE lease. -/
def LeaseState.promo? : LeaseState → Option Half
  | .active _ a => a.promo
  | _ => none

/-- The revoke cause of a lease in GRACE. -/
def LeaseState.cause? : LeaseState → Option RevokeCause
  | .grace _ g => some g.cause
  | _ => none

/-- The claim of a live lease: RESERVED, ACTIVE or in GRACE. -/
def LeaseState.live? : LeaseState → Option Claim
  | .reserved c => some c
  | .active h _ => some h.claim
  | .grace h _ => some h.claim
  | _ => none

structure Site (x : Resource) (L : LeaseNo → LeaseState) (V : WaitNo → WaitState) (G : LeaseNo → Prop)
    (W : WaitNo → Prop) : Prop where
  holdersNodup : x.holders.Nodup
  mem_holders : ∀ l, l ∈ x.holders ↔ (L l).holding?.isSome = true ∨ G l
  gone : ∀ l, G l → L l = .free
  epoch : ∀ l c e, (L l).holding? = some (c, e) → e = x.epoch
  queueNodup : x.queue.Nodup
  queueLimit : x.queue.length ≤ x.attrs.queueLimit.toNat
  mem_queue : ∀ w, w ∈ x.queue ↔ (∃ c n l, V w = .waiting c n l) ∨ W w
  goneWait : ∀ w, W w → V w = .free
  reserve : ∀ w c n l, V w = .waiting c n l → L l = .reserved c.leaseClaim
  reserve_inj : ∀ w w' c c' n n' l, V w = .waiting c n l → V w' = .waiting c' n' l → w = w'
  reserved : ∀ l k, L l = .reserved k → ∃ w c n, V w = .waiting c n l
  claims : ∀ l l' c c', (L l).live? = some c → (L l').live? = some c' → c.port = c'.port → l = l'
  slot : ∀ l, x.slot = some l → G l ∨ ∃ n, (L l).promo? = some n
  slotHolder : ∀ l, x.slot = some l → l ∈ x.holders
  promo : ∀ l n, (L l).promo? = some n → x.slot = some l
  slotShared : x.st ≠ .shared → x.slot = none
  undefined : x.st = .undefined → x.holders = [] ∧ x.queue = [] ∧ x.attrs = .cleared
  free : x.st = .free → x.holders = []
  settling : ∀ n, x.st = .settling n → x.holders = [] ∧ n ≠ 0
  exclusive : x.st = .exclusive →
    x.holders.length = 1 ∧ ∀ l c e, (L l).holding? = some (c, e) → c.mode = .exclusive
  shared : x.st = .shared → 1 ≤ x.holders.length ∧ x.holders.length ≤ x.attrs.shareLimit.toNat
    ∧ ∀ l c e, (L l).holding? = some (c, e) → c.mode = .shared
  retiring : x.st = .retiring → 1 ≤ x.holders.length ∧ x.queue = []
    ∧ ∀ l c e, (L l).holding? = some (c, e) → (L l).cause? = some .retire
  notice : x.retireNotice = true ↔ x.st = .retiring
  range : x.st ≠ .undefined → x.attrs.inRange = true
  few : x.holders.length ≤ 4
  sharedWait : ∀ w c n l, V w = .waiting c n l → c.mode = .shared → x.attrs.shareLimit ≠ 0

variable {x : Resource} {L L' : LeaseNo → LeaseState} {V V' : WaitNo → WaitState}
  {G : LeaseNo → Prop} {W : WaitNo → Prop} {l : LeaseNo} {w : WaitNo} {c k : Claim} {e : Quad}

/-- A function changed at one argument. -/
def setAt {α β : Type} [DecidableEq α] (f : α → β) (a : α) (b : β) : α → β := fun i => if i = a then b else f i

theorem setAt_apply {α β : Type} [DecidableEq α] (f : α → β) (a : α) (b : β) (i : α) :
  setAt f a b i = if i = a then b else f i := rfl

namespace Site

theorem mem_of_holding (hs : Site x L V G W) (hl : (L l).holding? = some (c, e)) : l ∈ x.holders :=
  (hs.mem_holders l).mpr (.inl (by simp [hl]))

/-- Same roles. -/
theorem congr_role (hs : Site x L V G W)
    (holding : ∀ l, (L' l).holding? = (L l).holding?)
    (promo : ∀ l n, (L' l).promo? = some n → ∃ n', (L l).promo? = some n')
    (promo' : ∀ l n, (L l).promo? = some n → ∃ n', (L' l).promo? = some n')
    (cause : ∀ l, (L l).cause? = some .retire → (L' l).cause? = some .retire)
    (reserved : ∀ l k, L' l = .reserved k ↔ L l = .reserved k)
    (live : ∀ l, (L' l).live? = (L l).live?)
    (free : ∀ l, L l = .free → L' l = .free)
    (wait : ∀ w c n l, V' w = .waiting c n l → ∃ n', V w = .waiting c n' l)
    (wait' : ∀ w c n l, V w = .waiting c n l → ∃ n', V' w = .waiting c n' l)
    (waitFree : ∀ w, V w = .free → V' w = .free) : Site x L' V' G W := by
  constructor <;> grind (splits := 20) -ext [Site]

/-- An ACTIVE lease enters grace, and leaves the slot. -/
theorem enterGrace (hs : Site x L V G W) {h : Holding} {a : ActivePart} {g : GracePart} (hl : L l = .active h a) :
    Site { x with slot := if x.slot = some l then none else x.slot } (setAt L l (.grace h g)) V G W := by
  have hm : l ∈ x.holders := hs.mem_of_holding (by rw [hl]; rfl)
  constructor <;>
    grind (splits := 20) -ext [Site, setAt_apply, LeaseState.holding?, LeaseState.promo?, LeaseState.live?, LeaseState.cause?]

/-- A lease in grace for another cause than RETIRE is ACTIVE again. -/
theorem rescue (hs : Site x L V G W) {h h' : Holding} {a : ActivePart} {g : GracePart} (hl : L l = .grace h g)
    (hg : g.cause ≠ .retire) (hc : h'.claim = h.claim) (he : h'.epoch = h.epoch) (ha : a.promo = none) :
    Site x (setAt L l (.active h' a)) V G W := by
  have hm : l ∈ x.holders := hs.mem_of_holding (by rw [hl]; rfl)
  constructor <;>
    grind (splits := 20) -ext [Site, setAt_apply, LeaseState.holding?, LeaseState.promo?, LeaseState.live?, LeaseState.cause?]

/-- A holder's record is FREE or ENDED, while the lease still stands in the list. -/
theorem holderGone (hs : Site x L V G W) (hl : (L l).holding? = some (c, e)) :
    Site x (setAt L l .free) V (fun i => G i ∨ i = l) W := by
  have hm : l ∈ x.holders := hs.mem_of_holding hl
  constructor <;>
    grind (splits := 20) -ext [Site, setAt_apply, LeaseState.holding?, LeaseState.promo?, LeaseState.live?, LeaseState.cause?]

/-- A lease that is gone leaves the list. -/
theorem without (hs : Site x L V G W) (hl : G l) (hne : (x.without l).holders ≠ []) :
    Site (x.without l) L V (fun i => G i ∧ i ≠ l) W := by
  have hm : l ∈ x.holders := (hs.mem_holders l).mpr (.inr hl)
  have hlen : (x.holders.filter (· ≠ l)).length < x.holders.length := 
    List.length_filter_lt_length_iff_exists.mpr ⟨l, hm, by simp⟩
  have hpos : 0 < (x.holders.filter (· ≠ l)).length := List.length_pos_iff.mpr hne
  constructor <;>
    grind (splits := 20) -ext [Site, Resource.without, LeaseState.holding?, LeaseState.promo?, LeaseState.live?, LeaseState.cause?]


/-- The last holder has left -/
theorem emptied (hs : Site x L V G W) (hnone : ∀ l, (L l).holding? = none) {st : ResState}
    (hx : x.st = .exclusive ∨ x.st = .shared) (hst : st = .free ∨ ∃ n, st = .settling n ∧ n ≠ 0) :
    Site { x with st := st, holders := [], slot := none } L V (fun _ => False) W := by
  constructor <;>
    grind (splits := 20) -ext [Site, LeaseState.promo?, LeaseState.holding?, LeaseState.live?]

theorem retired (hs : Site x L V G W) (hnone : ∀ l, (L l).holding? = none) (hw : ∀ w, V w = .free) :
    Site { x with st := .undefined, attrs := .cleared, holders := [], queue := [], slot := none, retireNotice := false }
      L V (fun _ => False) (fun _ => False) := by
  have hnp : ∀ l, (L l).promo? = none := fun l => by
    have := hnone l; cases h : L l <;> simp_all [LeaseState.holding?, LeaseState.promo?]
  constructor <;>
    grind (splits := 20) -ext [Site, LeaseState.promo?, LeaseState.holding?, LeaseState.live?]

theorem waitGone (hs : Site x L V G W) {c : WaitClaim} {n : Half} (hw : V w = .waiting c n l) :
    Site x (setAt L l .free) (setAt V w .free) G (fun i => W i ∨ i = w) := by
  have hm : w ∈ x.queue := (hs.mem_queue w).mpr (.inl ⟨c, n, l, hw⟩)
  have hl := hs.reserve w c n l hw
  have hl' : ∀ l', (L l').holding? ≠ none → l' ≠ l := by grind [LeaseState.holding?]
  constructor
  case reserved =>
    intro l' k hl'
    have hne : l' ≠ l := by grind [setAt_apply]
    obtain ⟨w', c', n', hw'⟩ := hs.reserved l' k (by grind [setAt_apply])
    exact ⟨w', c', n', by grind [setAt_apply]⟩
  case mem_queue => grind -ext [Site, setAt_apply]
  case reserve => grind -ext [Site, setAt_apply]
  all_goals
    grind (splits := 20) -ext [Site, setAt_apply, LeaseState.holding?, LeaseState.promo?, LeaseState.live?, LeaseState.cause?]

theorem dequeue (hs : Site x L V G W) (hw : W w) :
    Site { x with queue := x.queue.filter (· ≠ w) } L V G (fun i => W i ∧ i ≠ w) := by
  have hlen : (x.queue.filter (· ≠ w)).length ≤ x.queue.length := List.length_filter_le ..
  constructor <;> grind (splits := 20) -ext [Site]

theorem withdrawn (hs : Site x L V G W) (hw : ∀ w, V w = .free) :
    Site { x with queue := [] } L V G (fun _ => False) := by
  constructor <;> grind (splits := 20) -ext [Site]

/-- A lease joins a FREE resource under the next epoch. -/
theorem join_free (hs : Site x L V (fun _ => False) W) {h : Holding} {a : ActivePart} 
    (hl : L l = .free) (hx : x.st = .free) (hshare : h.claim.mode = .shared → x.attrs.shareLimit ≠ 0)
    (he : h.epoch = x.epoch + 1)
    (ha : a.promo = none) (hp : ∀ l' c', (L l').live? = some c' → c'.port ≠ h.claim.port) :
    Site { x with st := h.claim.mode.resState, epoch := x.epoch + 1, holders := x.holders ++ [l] }
      (setAt L l (.active h a)) V (fun _ => False) W := by
  have hempty := hs.free hx
  have hnone : ∀ l, (L l).holding? = none := fun l => by
    have := hs.mem_holders l; simpa [hempty] using this
  have hslot : x.slot = none := hs.slotShared (by simp [hx])
  have hpos : h.claim.mode = .shared → 1 ≤ x.attrs.shareLimit.toNat := fun hm => by
    have := hshare hm; bv_omega
  have hst : h.claim.mode = .exclusive ∧ h.claim.mode.resState = .exclusive ∨
      h.claim.mode = .shared ∧ h.claim.mode.resState = .shared := by cases h.claim.mode <;> simp [Mode.resState]
  rw [hempty]
  constructor <;>
    grind (splits := 20) -ext [Site, setAt_apply, LeaseState.holding?, LeaseState.promo?, LeaseState.live?, LeaseState.cause?]

/-- A lease joins the holders of a SHARED resource with room. -/
theorem join_shared (hs : Site x L V (fun _ => False) W) {h : Holding} {a : ActivePart} 
    (hl : L l = .free) (hx : x.st = .shared) (hmode : h.claim.mode = .shared)
    (hroom : x.holders.length < x.attrs.shareLimit.toNat) (he : h.epoch = x.epoch)
    (ha : a.promo = none) (hp : ∀ l' c', (L l').live? = some c' → c'.port ≠ h.claim.port) :
    Site { x with holders := x.holders ++ [l] } (setAt L l (.active h a)) V (fun _ => False) W := by
  have hm : l ∉ x.holders := fun hmem => by have := (hs.mem_holders l).mp hmem; simp [hl, LeaseState.holding?] at this
  have hfour : x.attrs.shareLimit.toNat ≤ 4 := by
    have hr := hs.range (by simp [hx])
    simp only [Attrs.inRange, decide_eq_true_eq] at hr
    exact hr.2.1
  constructor <;>
    grind (splits := 20) -ext [Site, setAt_apply, LeaseState.holding?, LeaseState.promo?, LeaseState.live?, LeaseState.cause?]


/-- An ACQUIRE is queued. -/
theorem enqueue (hs : Site x L V (fun _ => False) (fun _ => False)) {c : WaitClaim} {n : Half} (hl : L l = .free)
    (hw : V w = .free) (hu : x.st ≠ .undefined) (hr : x.st ≠ .retiring)
    (hroom : x.queue.length < x.attrs.queueLimit.toNat) (hshare : c.mode = .shared → x.attrs.shareLimit ≠ 0)
    (hp : ∀ l' c', (L l').live? = some c' → c'.port ≠ c.port) :
    Site { x with queue := x.queue ++ [w] } (setAt L l (.reserved c.leaseClaim)) (setAt V w (.waiting c n l))
      (fun _ => False) (fun _ => False) := by
  have hm : w ∉ x.queue := fun hmem => by have := (hs.mem_queue w).mp hmem; simp [hw] at this
  have hm' : l ∉ x.holders := fun hmem => by have := (hs.mem_holders l).mp hmem; simp [hl, LeaseState.holding?] at this
  have hfree : ∀ w' c' n', V w' ≠ .waiting c' n' l := fun w' c' n' h => by
    have := hs.reserve w' c' n' l h; simp [hl] at this
  have hport : c.leaseClaim.port = c.port := rfl
  constructor
  case reserved =>
    intro l' k hl'
    by_cases hne : l' = l
    · exact ⟨w, c, n, by simp [setAt_apply, hne]⟩
    · obtain ⟨w', c', n', hw'⟩ := hs.reserved l' k (by grind [setAt_apply])
      exact ⟨w', c', n', by grind [setAt_apply]⟩
  case mem_queue =>
    intro w'
    by_cases hne : w' = w
    · simp [setAt_apply, hne]
    · simpa [setAt_apply, hne] using hs.mem_queue w'
  all_goals
    grind (splits := 20) -ext [Site, setAt_apply, LeaseState.holding?, LeaseState.promo?, LeaseState.live?, LeaseState.cause?]

/-- A sole holder is promoted. -/
theorem promoted (hs : Site x L V (fun _ => False) W) {h h' : Holding} {a a' : ActivePart} {e : Quad}
    (hl : L l = .active h a) (hx : x.holders = [l]) (hshared : x.st = .shared)
    (hc : h'.claim = { h.claim with mode := .exclusive }) (he : h'.epoch = e)
    (ha : a'.promo = none) :
    Site { x with st := .exclusive, epoch := e, slot := none } (setAt L l (.active h' a')) V (fun _ => False) W := by
  have honly : ∀ l', (L l').holding?.isSome = true → l' = l := fun l' h => by
    simpa [hx] using (hs.mem_holders l').mpr (.inl h)
  have hpromo : ∀ l' n, (L l').promo? = some n → l' = l := fun l' n h => by
    have := hs.slotHolder l' (hs.promo l' n h); simpa [hx] using this
  have hport : h'.claim.port = h.claim.port := by rw [hc]
  have hmode : h'.claim.mode = .exclusive := by rw [hc]
  constructor <;>
    grind (splits := 20) -ext [Site, setAt_apply, LeaseState.holding?, LeaseState.promo?, LeaseState.live?, LeaseState.cause?]

/-- An exclusive holder is demoted. -/
theorem demoted (hs : Site x L V (fun _ => False) W) {h h' : Holding} {a : ActivePart} {e : Quad}
    (hl : L l = .active h a) (hmode : h.claim.mode = .exclusive) (hshare : x.attrs.shareLimit ≠ 0)
    (hc : h'.claim = { h.claim with mode := .shared }) (he : h'.epoch = e) :
    Site { x with st := .shared, epoch := e } (setAt L l (.active h' a)) V (fun _ => False) W := by
  have hmem : l ∈ x.holders := hs.mem_of_holding (by rw [hl]; rfl)
  have hhold : (L l).holding? = some (h.claim, h.epoch) := by rw [hl]; rfl
  have hst : x.st = .exclusive := by
    cases hst : x.st with
    | undefined => simp [(hs.undefined hst).1] at hmem
    | free => simp [hs.free hst] at hmem
    | settling n => simp [(hs.settling n hst).1] at hmem
    | exclusive => rfl
    | shared => simp [(hs.shared hst).2.2 l _ _ hhold] at hmode
    | retiring => simpa [hl, LeaseState.cause?] using (hs.retiring hst).2.2 l _ _ hhold
  have hslot : x.slot = none := hs.slotShared (by simp [hst])
  have hlen := (hs.exclusive hst).1
  have hx : x.holders = [l] := by
    obtain ⟨l', hl'⟩ := List.length_eq_one_iff.mp hlen
    rw [hl'] at hmem ⊢
    simp_all
  have honly : ∀ l', (L l').holding?.isSome = true → l' = l := fun l' h => by
    simpa [hx] using (hs.mem_holders l').mpr (.inl h)
  have hpos : 1 ≤ x.attrs.shareLimit.toNat := by bv_omega
  have hport : h'.claim.port = h.claim.port := by rw [hc]
  have hmode : h'.claim.mode = .shared := by rw [hc]
  constructor <;>
    grind (splits := 20) -ext [Site, setAt_apply, LeaseState.holding?, LeaseState.promo?, LeaseState.live?, LeaseState.cause?]

/-- An ACTIVE SHARED lease fills the empty slot. -/
theorem slotFilled (hs : Site x L V (fun _ => False) W) {h : Holding} {a a' : ActivePart} {n : Half}
    (hl : L l = .active h a) (hmode : h.claim.mode = .shared) (hslot : x.slot = none) (ha : a'.promo = some n) :
    Site { x with slot := some l } (setAt L l (.active h a')) V (fun _ => False) W := by
  have hmem : l ∈ x.holders := hs.mem_of_holding (by rw [hl]; rfl)
  have hhold : (L l).holding? = some (h.claim, h.epoch) := by rw [hl]; rfl
  have hst : x.st = .shared := by
    cases hst : x.st with
    | undefined => simp [(hs.undefined hst).1] at hmem
    | free => simp [hs.free hst] at hmem
    | settling n => simp [(hs.settling n hst).1] at hmem
    | exclusive => simp [(hs.exclusive hst).2 l _ _ hhold] at hmode
    | shared => rfl
    | retiring => simpa [hl, LeaseState.cause?] using (hs.retiring hst).2.2 l _ _ hhold
  constructor <;>
    grind (splits := 20) -ext [Site, setAt_apply, LeaseState.holding?, LeaseState.promo?, LeaseState.live?, LeaseState.cause?]

/-- A promotion ends and leaves the lease ACTIVE. -/
theorem slotEmptied (hs : Site x L V G W) {h : Holding} {a a' : ActivePart} (hl : L l = .active h a)
    (hslot : x.slot = some l) (ha : a'.promo = none) :
    Site { x with slot := none } (setAt L l (.active h a')) V G W := by
  constructor <;>
    grind (splits := 20) -ext [Site, setAt_apply, LeaseState.holding?, LeaseState.promo?, LeaseState.live?, LeaseState.cause?]

/-- DEFINE. -/
theorem defined (hs : Site x L V G W) {a : Attrs} (hx : x.st = .undefined) (ha : a.inRange = true) :
    Site { x with st := .free, attrs := a } L V G W := by
  constructor <;> grind (splits := 20) -ext [Site]

/-- RETIRE with grace: RETIRING. -/
theorem drained (hs : Site x L V (fun _ => False) W) (hx : x.holders ≠ []) 
    (hcause : ∀ l, (L l).holding?.isSome = true → (L l).cause? = some .retire) (hw : ∀ w, V w = .free) :
    Site { x with st := .retiring, queue := [], slot := none, retireNotice := true } L V (fun _ => False)
      (fun _ => False) := by
  have hnp : ∀ l n, (L l).promo? ≠ some n := fun l n => by
    have := hcause l; cases h : L l <;> simp_all [LeaseState.holding?, LeaseState.promo?, LeaseState.cause?]
  have hpos : 1 ≤ x.holders.length := List.length_pos_iff.mpr hx
  constructor <;> grind (splits := 20) -ext [Site]

theorem settled (hs : Site x L V G W) {n : Byte} (hx : x.st = .settling n) :
    Site { x with st := .free } L V G W := by
  constructor <;> grind (splits := 20) -ext [Site]

theorem settleLowered (hs : Site x L V G W) {n m : Byte} (hx : x.st = .settling n) (hm : m ≠ 0) :
    Site { x with st := .settling m } L V G W := by
  constructor <;> grind (splits := 20) -ext [Site]

/-- The records of a port are freed. -/
theorem portGone {p : Port} (hs : Site x L V (fun _ => False) (fun _ => False))
    (hL : ∀ l, L' l = .free ∧ (∃ c, (L l).live? = some c ∧ c.port = p)
      ∨ L' l = L l ∧ ∀ c, (L l).live? = some c → c.port ≠ p)
    (hV : ∀ w, V' w = .free ∧ (∃ c n l, V w = .waiting c n l ∧ c.port = p)
      ∨ V' w = V w ∧ ∀ c n l, V w = .waiting c n l → c.port ≠ p) :
    Site x L' V' (fun l => (L l).holding?.isSome = true ∧ L' l = .free)
      (fun w => (∃ c n l, V w = .waiting c n l) ∧ V' w = .free) := by
  have hport : ∀ c : WaitClaim, c.leaseClaim.port = c.port := fun _ => rfl
  have hfree : LeaseState.holding? .free = none := rfl
  have hfree' : LeaseState.live? .free = none := rfl
  have hfree'' : LeaseState.promo? .free = none := rfl
  have hlive : ∀ k, LeaseState.live? (.reserved k) = some k := fun _ => rfl
  constructor
  case mem_queue =>
    intro w
    rw [hs.mem_queue]
    have := hV w
    cases h : V w <;> grind
  case reserve => 
    intro w c n l hw
    have := hs.reserve w c n l; have := hV w; have := hL l
    grind
  case mem_holders => 
    intro l
    have := hs.mem_holders l; have := hL l
    grind
  case reserved =>
    intro l k hl
    have := hL l
    have hlk : L l = .reserved k := by grind
    obtain ⟨w, c, n, hw⟩ := hs.reserved l k hlk
    have := hs.reserve w c n l hw
    have := hV w
    exact ⟨w, c, n, by grind⟩
  case slot => 
    intro l hl
    have := hs.slot l hl; have := hL l; 
    have : ∀ n, (L l).promo? = some n → (L l).holding?.isSome = true := by
      intro n; cases L l <;> simp [LeaseState.promo?, LeaseState.holding?]
    grind
  case retiring =>
    intro hx
    obtain ⟨hpos, hq, hcause⟩ := hs.retiring hx
    refine ⟨hpos, hq, fun l c e hl => ?_⟩
    have := hL l; have := hcause l c e
    grind
  all_goals grind (splits := 20) -ext [Site]

/-- A resource without claims. -/
theorem empty {x : Resource} (hh : x.holders = []) (hq : x.queue = []) (hslot : x.slot = none) (hn : x.retireNotice = false)
    (hst : x.st = .undefined ∧ x.attrs = .cleared ∨ (x.st = .free ∨ ∃ n, x.st = .settling n ∧ n ≠ 0) ∧ x.attrs.inRange = true) :
    Site x (fun _ => .free) (fun _ => .free) (fun _ => False) (fun _ => False) := by
  have hfree : LeaseState.holding? .free = none := rfl
  have hfree' : LeaseState.live? .free = none := rfl
  have hfree'' : LeaseState.promo? .free = none := rfl
  constructor <;> grind (splits := 20) -ext

theorem initial : Site Resource.initial (fun _ => .free) (fun _ => .free) (fun _ => False) (fun _ => False) :=
  empty rfl rfl rfl rfl (.inl ⟨rfl, rfl⟩)

theorem warm (hs : Site x L V G W) :
    Site x.warm (fun _ => .free) (fun _ => .free) (fun _ => False) (fun _ => False) := by
  have hu := hs.undefined; have hr := hs.range
  cases hst : x.st <;> simp only [Resource.warm, hst]
  case undefined => exact empty rfl rfl rfl rfl (.inl ⟨rfl, (hu hst).2.2⟩)
  case free => exact empty rfl rfl rfl rfl (.inr ⟨.inl rfl, hr (by simp [hst])⟩)
  case retiring => exact empty rfl rfl rfl rfl (.inl ⟨rfl, rfl⟩)
  all_goals
    split
    · exact empty rfl rfl rfl rfl (.inr ⟨.inl rfl, hr (by simp [hst])⟩)
    · exact empty rfl rfl rfl rfl (.inr ⟨.inr ⟨_, rfl, ‹_›⟩, hr (by simp [hst])⟩)

end Site
end Sys2Proof.Machine
end

