-- ==== Sys2Proof/Proofs/SiteOps.lean ====
section
/-! PROOFS. The laws at one resource of the state: what a resource sees of the records, and the grant pass. -/

namespace Sys2Proof.Machine

variable {s t u : State} {r r' : ResNo} {l : LeaseNo} {w : WaitNo} {p : Port}

/-- No lease; no wait. -/
abbrev noLease : LeaseNo → Prop := fun _ => False
abbrev noWait : WaitNo → Prop := fun _ => False

/-- The lease records as resource `r` sees them. -/
def State.leaseAt (s : State) (r : ResNo) (l : LeaseNo) : LeaseState := (s.lease l).seenAt r

/-- The wait records as resource `r` sees them. -/
def State.waitAt (s : State) (r : ResNo) (w : WaitNo) : WaitState := (s.wait w).seenAt r

/-- The laws of resource `r`, but for the leases `G` and the waits `W`, whose records are gone. -/
def State.SiteLaw (s : State) (r : ResNo) (G : LeaseNo → Prop) (W : WaitNo → Prop) : Prop :=
  Site (s.res r) (s.leaseAt r) (s.waitAt r) G W

/-- The laws of resource `r`, none of whose waits could be granted now. -/
structure State.Sound (s : State) (r : ResNo) : Prop where
  site : s.SiteLaw r noLease noWait
  served : (s.res r).st = .free → (s.res r).queue = [] ∨ (s.res r).epoch = maxEpoch

/-- No resource but `r` sees a difference. -/
structure State.Elsewhere (r : ResNo) (s t : State) : Prop where
  res : ∀ r', r' ≠ r → t.res r' = s.res r'
  lease : ∀ r', r' ≠ r → t.leaseAt r' = s.leaseAt r'
  wait : ∀ r', r' ≠ r → t.waitAt r' = s.waitAt r'

/-! ### Views -/

theorem seenAt_reserved {y : Lease} {c : Claim} :
    y.seenAt r = .reserved c ↔ y.st = .reserved c ∧ c.res = r := by
  unfold Lease.seenAt; cases y.st <;> grind
theorem seenAt_active {y : Lease} {h : Holding} {a : ActivePart} :
    y.seenAt r = .active h a ↔ y.st = .active h a ∧ h.claim.res = r := by
  unfold Lease.seenAt; cases y.st <;> grind
theorem seenAt_grace {y : Lease} {h : Holding} {g : GracePart} :
    y.seenAt r = .grace h g ↔ y.st = .grace h g ∧ h.claim.res = r := by
  unfold Lease.seenAt; cases y.st <;> grind
theorem seenAt_not_ended {y : Lease} {h : Holding} {c : RevokeCause} : y.seenAt r ≠ .ended h c := by
  unfold Lease.seenAt; cases y.st <;> grind
theorem seenAt_waiting {y : Wait} {c : WaitClaim} {n : Half} :
    y.seenAt r = .waiting c n l ↔ y.st = .waiting c n l ∧ c.res = r := by
  unfold Wait.seenAt; cases y.st <;> grind
theorem seenAt_not_endedWait {y : Wait} {c : WaitClaim} {e : WaitEnd} : y.seenAt r ≠ .ended c e := by
  unfold Wait.seenAt; cases y.st <;> grind

@[simp] theorem seenAt_mk_free (g : Byte) : Lease.seenAt r ⟨g, .free⟩ = .free := rfl
@[simp] theorem seenAt_mk_ended (g : Byte) (h : Holding) (c : RevokeCause) : Lease.seenAt r ⟨g, .ended h c⟩ = .free := rfl
theorem seenAt_mk_reserved (g : Byte) {c : Claim} (hr : c.res = r) : Lease.seenAt r ⟨g, .reserved c⟩ = .reserved c :=
  if_pos hr
theorem seenAt_mk_active (g : Byte) {h : Holding} (a : ActivePart) (hr : h.claim.res = r) :
    Lease.seenAt r ⟨g, .active h a⟩ = .active h a := if_pos hr
theorem seenAt_mk_grace (g : Byte) {h : Holding} (x : GracePart) (hr : h.claim.res = r) :
    Lease.seenAt r ⟨g, .grace h x⟩ = .grace h x := if_pos hr

/-- A record is off resource `r`. -/
theorem seenAt_off {y : Lease} (h : ∀ c, y.st.live? = some c → c.res ≠ r) : y.seenAt r = .free := by
  unfold Lease.seenAt
  cases hy : y.st <;> simp_all [LeaseState.live?]

theorem leaseAt_setLease (y : Lease) : (s.setLease l y).leaseAt r = setAt (s.leaseAt r) l (y.seenAt r) := by
  funext i
  simp only [State.leaseAt, lease_setLease, setAt_apply]
  split <;> rfl

theorem waitAt_setWait (y : Wait) : (s.setWait w y).waitAt r = setAt (s.waitAt r) w (y.seenAt r) := by
  funext i
  simp only [State.waitAt, wait_setWait, setAt_apply]
  split <;> rfl

@[simp] theorem leaseAt_setRes (x : Resource) : (s.setRes r' x).leaseAt r = s.leaseAt r := rfl
@[simp] theorem leaseAt_setWait (y : Wait) : (s.setWait w y).leaseAt r = s.leaseAt r := rfl
@[simp] theorem leaseAt_setAttn (y : List Entry) : (s.setAttn p y).leaseAt r = s.leaseAt r := rfl
@[simp] theorem leaseAt_flag (x : Ref) (c : Cause) : (s.flag p x c).leaseAt r = s.leaseAt r := rfl
@[simp] theorem waitAt_setRes (x : Resource) : (s.setRes r' x).waitAt r = s.waitAt r := rfl
@[simp] theorem waitAt_setLease (y : Lease) : (s.setLease l y).waitAt r = s.waitAt r := rfl
@[simp] theorem waitAt_setAttn (y : List Entry) : (s.setAttn p y).waitAt r = s.waitAt r := rfl
@[simp] theorem waitAt_flag (x : Ref) (c : Cause) : (s.flag p x c).waitAt r = s.waitAt r := rfl
@[simp] theorem res_flag (x : Ref) (c : Cause) (i : ResNo) : (s.flag p x c).res i = s.res i := rfl
@[simp] theorem lease_flag (x : Ref) (c : Cause) (i : LeaseNo) : (s.flag p x c).lease i = s.lease i := rfl
@[simp] theorem wait_flag (x : Ref) (c : Cause) (i : WaitNo) : (s.flag p x c).wait i = s.wait i := rfl

@[simp] theorem setAt_setAt {α β : Type} [DecidableEq α] (f : α → β) (a : α) (b c : β) :
    setAt (setAt f a b) a c = setAt f a c := by
  funext i; simp only [setAt_apply]; split <;> rfl

theorem setAt_same {α β : Type} [DecidableEq α] {f : α → β} {a : α} {b : β} (h : f a = b) : setAt f a b = f := by
  funext i; simp only [setAt_apply]; split
  · rename_i e; rw [e, h]
  · rfl

namespace State.Elsewhere

theorem refl (r : ResNo) (s : State) : s.Elsewhere r s := ⟨fun _ _ => rfl, fun _ _ => rfl, fun _ _ => rfl⟩

theorem trans (h : s.Elsewhere r t) (h' : t.Elsewhere r u) : s.Elsewhere r u where
  res r' hr := (h'.res r' hr).trans (h.res r' hr)
  lease r' hr := (h'.lease r' hr).trans (h.lease r' hr)
  wait r' hr := (h'.wait r' hr).trans (h.wait r' hr)

theorem setRes (s : State) (x : Resource) : s.Elsewhere r (s.setRes r x) :=
  ⟨fun r' h => by simp [h], fun _ _ => rfl, fun _ _ => rfl⟩

theorem setAttn (s : State) (x : List Entry) : s.Elsewhere r (s.setAttn p x) :=
  ⟨fun _ _ => rfl, fun _ _ => rfl, fun _ _ => rfl⟩

theorem flag (s : State) (x : Ref) (c : Cause) : s.Elsewhere r (s.flag p x c) := setAttn s _

theorem setLease {y : Lease} (h : ∀ c, (s.lease l).st.live? = some c → c.res = r)
    (h' : ∀ c, y.st.live? = some c → c.res = r) : s.Elsewhere r (s.setLease l y) where
  res _ _ := rfl
  lease r' hr := by
    rw [leaseAt_setLease, seenAt_off fun c hc => (h' c hc).symm ▸ hr.symm]
    exact setAt_same (seenAt_off fun c hc => (h c hc).symm ▸ hr.symm)
  wait _ _ := rfl

theorem setWait {y : Wait} (h : ∀ c n l, (s.wait w).st = .waiting c n l → c.res = r)
    (h' : ∀ c n l, y.st = .waiting c n l → c.res = r) : s.Elsewhere r (s.setWait w y) where
  res _ _ := rfl
  lease _ _ := rfl
  wait r' hr := by
    have hoff : ∀ {y : Wait}, (∀ c n l, y.st = .waiting c n l → c.res = r) → y.seenAt r' = .free := by
      intro y hy
      unfold Wait.seenAt
      split
      · rename_i c n l hc; rw [if_neg]; rw [hy c n l hc]; exact hr.symm
      · rfl
    rw [waitAt_setWait, hoff h']
    exact setAt_same (hoff h)

theorem siteLaw (h : s.Elsewhere r t) (hr : r' ≠ r) {G : LeaseNo → Prop} {W : WaitNo → Prop}
    (hs : s.SiteLaw r' G W) : t.SiteLaw r' G W := by
  unfold State.SiteLaw at *
  rw [h.res r' hr, h.lease r' hr, h.wait r' hr]; exact hs

theorem sound (h : s.Elsewhere r t) (hr : r' ≠ r) (hs : s.Sound r') : t.Sound r' :=
  ⟨h.siteLaw hr hs.site, by rw [h.res r' hr]; exact hs.served⟩

/-- All resources are sound when the one is. -/
theorem all_sound (h : s.Elsewhere r t) (hs : ∀ r', s.Sound r') (ht : t.Sound r) (r' : ResNo) : t.Sound r' :=
  if hr : r' = r then hr ▸ ht else h.sound hr (hs r')

end State.Elsewhere

/-! ### The grant pass -/

theorem leaseAt_eq_active {h : Holding} {a : ActivePart} :
    s.leaseAt r l = .active h a ↔ (s.lease l).st = .active h a ∧ h.claim.res = r := seenAt_active
theorem leaseAt_eq_grace {h : Holding} {g : GracePart} :
    s.leaseAt r l = .grace h g ↔ (s.lease l).st = .grace h g ∧ h.claim.res = r := seenAt_grace
theorem leaseAt_eq_reserved {c : Claim} :
    s.leaseAt r l = .reserved c ↔ (s.lease l).st = .reserved c ∧ c.res = r := seenAt_reserved
theorem waitAt_eq_waiting {c : WaitClaim} {n : Half} :
    s.waitAt r w = .waiting c n l ↔ (s.wait w).st = .waiting c n l ∧ c.res = r := seenAt_waiting

/-- A queued wait is WAITING with its lease RESERVED. -/
theorem State.SiteLaw.queued (hs : s.SiteLaw r noLease noWait) (hw : w ∈ (s.res r).queue) :
    ∃ c n l, (s.wait w).st = .waiting c n l ∧ c.res = r ∧ (s.lease l).st = .reserved c.leaseClaim
      ∧ s.waitAt r w = .waiting c n l := by
  obtain ⟨c, n, l, h⟩ | h := (hs.mem_queue w).mp hw
  · obtain ⟨h1, h2⟩ := waitAt_eq_waiting.mp h
    exact ⟨c, n, l, h1, h2, (leaseAt_eq_reserved.mp (hs.reserve w c n l h)).1, h⟩
  · exact h.elim

/-- A wait that fits is granted. -/
theorem grantWait_site (hs : s.SiteLaw r noLease noWait) (hq : w ∈ (s.res r).queue)
    (hfit : (s.res r).st = .free ∨ (s.res r).st = .shared ∧ (s.wait w).mode? = some .shared
      ∧ (s.res r).holders.length < (s.res r).attrs.shareLimit.toNat) :
    (s.grantWait r w).SiteLaw r noLease noWait ∧ s.Elsewhere r (s.grantWait r w)
      ∧ ((s.grantWait r w).res r).queue = (s.res r).queue.filter (· ≠ w)
      ∧ (((s.grantWait r w).res r).st = .exclusive ∧ (s.wait w).mode? = some .exclusive
        ∨ ((s.grantWait r w).res r).st = .shared ∧ (s.wait w).mode? = some .shared) := by
  obtain ⟨c, n, l, hw, hc, hl, hwa⟩ := hs.queued hq
  have hmode : (s.wait w).mode? = some c.mode := by simp [Wait.mode?, Wait.claim?, hw]
  have hcl : c.leaseClaim.mode = c.mode := rfl
  rw [grantWait_eq hw hl]
  set x' := (s.res r).join l c.leaseClaim.mode with hx'
  have hqueue : x'.queue = (s.res r).queue := by rw [hx']; unfold Resource.join; split <;> rfl
  refine ⟨?_, ?_, by simp, ?_⟩
  · have h1 := (Site.waitGone hs hwa).dequeue (w := w) (.inr rfl)
    have hW : (fun i => (noWait i ∨ i = w) ∧ i ≠ w) = noWait := by funext i; simp [noWait]
    rw [hW] at h1
    have hp : ∀ l' c', (setAt (s.leaseAt r) l .free l').live? = some c' → c'.port ≠ c.leaseClaim.port := by
      intro l' c' h' he
      by_cases hne : l' = l
      · simp [setAt_apply, hne, LeaseState.live?] at h'
      · simp only [setAt_apply, hne, if_false] at h'
        exact hne (hs.claims l' l _ _ h' (by rw [hs.reserve w c n l hwa]; rfl) he)
    have hl0 : setAt (s.leaseAt r) l .free l = .free := by simp [setAt_apply]
    unfold State.SiteLaw
    simp only [res_flag, res_setLease, res_setWait, res_setRes_self, leaseAt_flag, waitAt_flag, waitAt_setLease,
      leaseAt_setLease, leaseAt_setWait, leaseAt_setRes, waitAt_setWait, waitAt_setRes]
    have hg : Lease.seenAt r ⟨(s.lease l).gen, grantedState c.leaseClaim x'.epoch ((s.res r).attrs.givenTerm c.term)⟩ =
        .active ⟨c.leaseClaim, x'.epoch, (s.res r).attrs.givenTerm c.term, 0⟩
          ⟨(s.res r).attrs.givenTerm c.term, false, none⟩ := by
      have : c.leaseClaim.res = r := hc
      simp [Lease.seenAt, grantedState, this]
    have hwf : (s.wait w).freed.seenAt r = .free := rfl
    rw [hg, hwf]
    rcases hfit with hfree | ⟨hsh, hm, hroom⟩
    · have := Site.join_free (h := ⟨c.leaseClaim, x'.epoch, (s.res r).attrs.givenTerm c.term, 0⟩)
        (a := ⟨(s.res r).attrs.givenTerm c.term, false, none⟩) h1 hl0 hfree (hs.sharedWait w c n l hwa)
        (by simp [hx', epoch_join, hfree]) rfl hp
      simpa [hx', Resource.join, hfree] using this
    · have hm : c.mode = .shared := by simpa [hmode] using hm
      have := Site.join_shared (h := ⟨c.leaseClaim, x'.epoch, (s.res r).attrs.givenTerm c.term, 0⟩)
        (a := ⟨(s.res r).attrs.givenTerm c.term, false, none⟩) h1 hl0 hsh hm hroom
        (by simp [hx', epoch_join, hsh]) rfl hp
      simpa [hx', Resource.join, hsh] using this
  · refine (State.Elsewhere.setRes s _).trans (.trans (.setWait ?_ ?_) (.trans (.setLease ?_ ?_) (.flag _ _ _)))
    · intro c' n' l' h'; rw [wait_setRes, hw] at h'; cases h'; exact hc
    · intro c' n' l' h'; cases h'
    · intro c' h'; rw [lease_setWait, lease_setRes, hl] at h'; cases h'; exact hc
    · intro c' h'; cases h'; exact hc
  · simp only [res_flag, res_setLease, res_setWait, res_setRes_self, hmode, hx', Resource.join]
    rcases hfit with hfree | ⟨hsh, hm, hroom⟩
    · rw [hfree]; cases hm : c.mode <;> simp [hcl, hm, Mode.resState]
    · simpa [hsh, hmode] using hm

theorem grantShared_site (ws : List WaitNo) (s : State) (hs : s.SiteLaw r noLease noWait) (hst : (s.res r).st = .shared)
    (hq : (s.res r).queue = ws) : (s.grantShared r ws).SiteLaw r noLease noWait ∧ s.Elsewhere r (s.grantShared r ws)
      ∧ ((s.grantShared r ws).res r).st = .shared := by
  induction ws generalizing s with
  | nil => exact ⟨hs, .refl r s, hst⟩
  | cons w ws ih =>
    unfold State.grantShared
    split
    · rename_i hfit
      obtain ⟨h1, h2, h3, h4⟩ := grantWait_site hs (by simp [hq]) (.inr ⟨hst, hfit⟩)
      have hst' : ((s.grantWait r w).res r).st = .shared := by
        rcases h4 with ⟨_, h⟩ | ⟨h, _⟩
        · rw [hfit.1] at h; cases h
        · exact h
      have hq' : ((s.grantWait r w).res r).queue = ws := by
        rw [h3, hq, filter_ne_cons (hq ▸ hs.queueNodup)]
      obtain ⟨h5, h6, h7⟩ := ih _ h1 hst' hq'
      exact ⟨h5, h2.trans h6, h7⟩
    · exact ⟨hs, .refl r s, hst⟩

theorem grantPass_sound (hs : s.SiteLaw r noLease noWait) :
    (s.grantPass r).Sound r ∧ s.Elsewhere r (s.grantPass r) := by
  unfold State.grantPass
  split
  · rename_i hfree
    split
    · exact ⟨⟨hs, fun _ => .inl ‹_›⟩, .refl r s⟩
    · rename_i w ws hq
      split
      · exact ⟨⟨hs, fun _ => .inr ‹_›⟩, .refl r s⟩
      · obtain ⟨h1, h2, h3, h4⟩ := grantWait_site (w := w) hs (by simp [hq]) (.inl hfree)
        split
        · rename_i hm
          have hst' : ((s.grantWait r w).res r).st = .shared := by
            rcases h4 with ⟨_, h⟩ | ⟨h, _⟩
            · rw [hm] at h; cases h
            · exact h
          have hq' : ((s.grantWait r w).res r).queue = ws := by
            rw [h3, hq, filter_ne_cons (hq ▸ hs.queueNodup)]
          obtain ⟨h5, h6, h7⟩ := grantShared_site ws _ h1 hst' hq'
          exact ⟨⟨h5, by simp [h7]⟩, h2.trans h6⟩
        · exact ⟨⟨h1, by rcases h4 with ⟨h, _⟩ | ⟨h, _⟩ <;> simp [h]⟩, h2⟩
  · rename_i hsh
    split
    · obtain ⟨h5, h6, h7⟩ := grantShared_site _ _ hs hsh rfl
      exact ⟨⟨h5, by simp [h7]⟩, h6⟩
    · exact ⟨⟨hs, by simp [hsh]⟩, .refl r s⟩
  · rename_i h _
    exact ⟨⟨hs, fun h' => absurd h' h⟩, .refl r s⟩

end Sys2Proof.Machine
end

