-- ==== Sys2Proof/Proofs/SiteLeaving.lean ====
section
/-! PROOFS. The laws at one resource: promotion, holders that leave, grace. -/

namespace Sys2Proof.Machine

variable {s t u : State} {r r' : ResNo} {l q : LeaseNo} {w : WaitNo} {p : Port} {G : LeaseNo → Prop} {W : WaitNo → Prop}

/-- A record of the state as resource `r` sees it, kept by an update that is no business of the sites. -/
theorem State.SiteLaw.of_eq (hs : s.SiteLaw r G W) (h1 : t.res r = s.res r) (h2 : t.leaseAt r = s.leaseAt r)
    (h3 : t.waitAt r = s.waitAt r) : t.SiteLaw r G W := by
  unfold State.SiteLaw; rw [h1, h2, h3]; exact hs

theorem State.SiteLaw.flag (hs : s.SiteLaw r G W) (x : Ref) (c : Cause) : (s.flag p x c).SiteLaw r G W := hs
theorem State.Sound.flag (hs : s.Sound r) (x : Ref) (c : Cause) : (s.flag p x c).Sound r := ⟨hs.site, hs.served⟩

theorem State.SiteLaw.setRes {x : Resource} (h : Site x (s.leaseAt r) (s.waitAt r) G W) :
    (s.setRes r x).SiteLaw r G W := by
  unfold State.SiteLaw; rw [res_setRes_self]; exact h

/-- A lease of `r` replaced by another of `r`, with the resource record. -/
theorem State.SiteLaw.setLease {y : Lease} (h : Site (s.res r) (setAt (s.leaseAt r) l (y.seenAt r)) (s.waitAt r) G W) :
    (s.setLease l y).SiteLaw r G W := by
  unfold State.SiteLaw; rw [leaseAt_setLease]; exact h

theorem leaseAt_promo {n : Half} (h : (s.leaseAt r l).promo? = some n) :
    ∃ h a, s.leaseAt r l = .active h a ∧ a.promo = some n := by
  cases hl : s.leaseAt r l <;> simp_all [LeaseState.promo?]

theorem waitAt_free_or (w : WaitNo) : s.waitAt r w = .free ∨ ∃ c n l, s.waitAt r w = .waiting c n l := by
  cases h : s.waitAt r w with
  | free => exact .inl rfl
  | waiting c n l => exact .inr ⟨c, n, l, rfl⟩
  | ended c e => exact absurd h seenAt_not_endedWait

theorem State.SiteLaw.waitAt_free (hs : s.SiteLaw r G W) (hq : (s.res r).queue = []) (w : WaitNo) :
    s.waitAt r w = .free := by
  refine (waitAt_free_or w).resolve_right fun h => ?_
  have := (hs.mem_queue w).mpr (.inl h)
  simp [hq] at this

/-! ### Promotion -/

theorem promotionCompletes_sound (hs : s.SiteLaw r noLease noWait) (hh : (s.res r).holders = [l])
    (hslot : (s.res r).slot = some l) :
    (s.promotionCompletes r l).Sound r ∧ s.Elsewhere r (s.promotionCompletes r l) := by
  obtain ⟨n, hn⟩ := (hs.slot l hslot).resolve_left id
  obtain ⟨h, a, hla, ha⟩ := leaseAt_promo hn
  obtain ⟨hl, hr⟩ := leaseAt_eq_active.mp hla
  have hst : (s.res r).st = .shared := by
    by_contra hne; simpa [hslot] using hs.slotShared hne
  have hlive : ∀ c, (s.lease l).st.live? = some c → c.res = r := by
    intro c hc; rw [hl] at hc; cases hc; exact hr
  simp only [State.promotionCompletes, hl]
  split
  · have h1 : (((s.setRes r { s.res r with slot := none }).setLease l
        { s.lease l with st := .active h { a with promo := none } }).flag h.claim.port (.lease l) .promoteEnded).SiteLaw
          r noLease noWait := by
      refine .flag (.setLease ?_) _ _
      rw [res_setRes_self, leaseAt_setRes, waitAt_setRes, seenAt_mk_active _ _ hr]
      exact hs.slotEmptied hla hslot rfl
    obtain ⟨h2, h3⟩ := grantPass_sound h1
    refine ⟨h2, .trans (.setRes s _) (.trans (.setLease hlive ?_) (.trans (.flag _ _ _) h3))⟩
    intro c hc; cases hc; exact hr
  · have h1 : (((s.setRes r { s.res r with slot := none, epoch := (s.res r).epoch + 1, st := .exclusive }).setLease l
        { s.lease l with st := promotedState h a ((s.res r).epoch + 1) }).flag h.claim.port (.lease l) .promoted).SiteLaw
          r noLease noWait := by
      refine .flag (.setLease ?_) _ _
      rw [res_setRes_self, leaseAt_setRes, waitAt_setRes, promotedState, seenAt_mk_active _ _ (by exact hr)]
      exact hs.promoted hla hh hst rfl rfl rfl
    obtain ⟨h2, h3⟩ := grantPass_sound h1
    refine ⟨h2, .trans (.setRes s _) (.trans (.setLease hlive ?_) (.trans (.flag _ _ _) h3))⟩
    intro c hc; cases hc; exact hr

/-! ### Holders leaving -/

theorem completeRetirement_elsewhere : s.Elsewhere r (s.completeRetirement r) := by
  unfold State.completeRetirement
  dsimp only
  split
  · exact .trans (.setRes s _) (.flag _ _ _)
  · exact .setRes s _

theorem completeRetirement_siteLaw
    (h : Site { s.res r with st := .undefined, attrs := .cleared, retireNotice := false } (s.leaseAt r) (s.waitAt r) G W) :
    (s.completeRetirement r).SiteLaw r G W := by
  unfold State.completeRetirement
  dsimp only
  split
  · exact (State.SiteLaw.setRes h).flag _ _
  · exact .setRes h

/-- After the last holder, its list and slot empty. -/
theorem lastHolderLeft_sound {x : Resource} (hs : Site x (s.leaseAt r) (s.waitAt r) G noWait)
    (hx : s.res r = { x with holders := [], slot := none })
    (hst : x.st = .exclusive ∨ x.st = .shared ∨ x.st = .retiring) (hnone : ∀ l, (s.leaseAt r l).holding? = none) :
    (s.lastHolderLeft r).Sound r ∧ s.Elsewhere r (s.lastHolderLeft r) := by
  have hst' : (s.res r).st = x.st := by rw [hx]
  have hat : (s.res r).attrs = x.attrs := by rw [hx]
  have key (h : x.st = .exclusive ∨ x.st = .shared) :
      (if (s.res r).attrs.settle = 0 then (s.setRes r { s.res r with st := .free }).grantPass r
        else s.setRes r { s.res r with st := .settling (s.res r).attrs.settle }).Sound r ∧
      s.Elsewhere r (if (s.res r).attrs.settle = 0 then (s.setRes r { s.res r with st := .free }).grantPass r
        else s.setRes r { s.res r with st := .settling (s.res r).attrs.settle }) := by
    split
    · have h1 : (s.setRes r { s.res r with st := .free }).SiteLaw r noLease noWait :=
        .setRes (by rw [hx]; exact hs.emptied hnone h (.inl rfl))
      obtain ⟨h2, h3⟩ := grantPass_sound h1
      exact ⟨h2, .trans (.setRes s _) h3⟩
    · refine ⟨⟨.setRes ?_, by simp⟩, .setRes s _⟩
      rw [hat, hx]; exact hs.emptied hnone h (.inr ⟨_, rfl, by rw [← hat]; assumption⟩)
  unfold State.lastHolderLeft
  dsimp only
  rcases hst with h | h | h
  · rw [hst', h]; exact key (.inl h)
  · rw [hst', h]; exact key (.inr h)
  · rw [hst', h]
    refine ⟨⟨completeRetirement_siteLaw ?_, ?_⟩, completeRetirement_elsewhere⟩
    · rw [hx]
      have hq := (hs.retiring h).2.1
      have hV : ∀ w, s.waitAt r w = .free := fun w => (waitAt_free_or w).resolve_right fun hw => by
        have := (hs.mem_queue w).mpr (.inl hw); simp [hq] at this
      have := hs.retired hnone hV
      rw [hq]; exact this
    · unfold State.completeRetirement; dsimp only; split <;> simp

theorem leave_sound (hs : s.SiteLaw r (· = l) noWait) :
    (s.leave r l).Sound r ∧ s.Elsewhere r (s.leave r l) := by
  have hm : l ∈ (s.res r).holders := (hs.mem_holders l).mpr (.inr rfl)
  have hst : (s.res r).st = .exclusive ∨ (s.res r).st = .shared ∨ (s.res r).st = .retiring := by
    cases hst : (s.res r).st with
    | undefined => simp [(hs.undefined hst).1] at hm
    | free => simp [hs.free hst] at hm
    | settling n => simp [(hs.settling n hst).1] at hm
    | exclusive => simp
    | shared => simp
    | retiring => simp
  unfold State.leave
  dsimp only
  by_cases hempty : ((s.res r).without l).holders = []
  · rw [hempty]
    have honly : ∀ i ∈ (s.res r).holders, i = l := by
      simpa [Resource.without, List.filter_eq_nil_iff] using hempty
    have hslot : ((s.res r).without l).slot = none := by
      simp only [Resource.without]
      split
      · rfl
      · rename_i hne
        cases h : (s.res r).slot with
        | none => rfl
        | some i => exact absurd (h.trans (congrArg some (honly i (hs.slotHolder i h)))) hne
    have hnone : ∀ i, (s.leaseAt r i).holding? = none := by
      intro i
      by_contra hne
      have hi := honly i ((hs.mem_holders i).mpr (.inl (Option.isSome_iff_ne_none.mpr hne)))
      rw [hi, hs.gone l rfl] at hne
      exact hne rfl
    have hx : (s.res r).without l = { s.res r with holders := [], slot := none } := by
      rw [← hempty, ← hslot]; rfl
    obtain ⟨h1, h2⟩ := lastHolderLeft_sound (s := s.setRes r ((s.res r).without l)) (x := s.res r) hs
      (by rw [res_setRes_self, hx]) hst hnone
    exact ⟨h1, .trans (.setRes s _) h2⟩
  · have h1 : (s.setRes r ((s.res r).without l)).SiteLaw r noLease noWait := by
      have := Site.without hs rfl hempty
      have hG : (fun i => i = l ∧ i ≠ l) = noLease := by funext i; simp
      rw [hG] at this
      exact .setRes this
    obtain ⟨h2, h3⟩ := grantPass_sound h1
    have hpass := And.intro h2 ((State.Elsewhere.setRes s ((s.res r).without l)).trans h3)
    split
    · exact absurd ‹_› hempty
    · rename_i q hq
      split
      · rename_i hslot
        obtain ⟨h4, h5⟩ := promotionCompletes_sound h1 (by rw [res_setRes_self]; exact hq)
          (by rw [res_setRes_self]; exact hslot)
        exact ⟨h4, .trans (.setRes s _) h5⟩
      · exact hpass
    · exact hpass

/-! ### Grace -/

theorem enterGrace_site {h : Holding} {a : ActivePart} {c : RevokeCause} {g : Byte}
    (hs : s.SiteLaw r G W) (hla : s.leaseAt r l = .active h a) :
    (s.enterGrace l c g).SiteLaw r G W ∧ s.Elsewhere r (s.enterGrace l c g)
      ∧ (s.enterGrace l c g).res r = { s.res r with slot := if (s.res r).slot = some l then none else (s.res r).slot }
      ∧ (s.enterGrace l c g).leaseAt r = setAt (s.leaseAt r) l (.grace h ⟨g, c, a.sent⟩) := by
  obtain ⟨hl, hr⟩ := leaseAt_eq_active.mp hla
  have hlive : ∀ c, (s.lease l).st.live? = some c → c.res = r := by
    intro c hc; rw [hl] at hc; cases hc; exact hr
  have hlive' : ∀ c', (LeaseState.grace h ⟨g, c, a.sent⟩).live? = some c' → c'.res = r := by
    intro c hc; cases hc; exact hr
  have hsite := hs.enterGrace (g := ⟨g, c, a.sent⟩) hla
  subst hr
  by_cases hslot : (s.res h.claim.res).slot = some l
  · rw [enterGrace_slot hl hslot]
    refine ⟨?_, .trans (.setLease hlive hlive') (.trans (.flag _ _ _) (.trans (.setRes _ _) (.flag _ _ _))), ?_, ?_⟩
    · unfold State.SiteLaw
      simp only [res_flag, res_setRes_self, leaseAt_flag, leaseAt_setRes, leaseAt_setLease, waitAt_flag, waitAt_setRes,
        waitAt_setLease]
      rw [seenAt_mk_grace _ _ rfl]
      simpa [hslot] using hsite
    · simp [hslot]
    · simp [leaseAt_setLease, seenAt_mk_grace _ _ rfl]
  · rw [enterGrace_eq hl hslot]
    refine ⟨?_, .trans (.setLease hlive hlive') (.flag _ _ _), ?_, ?_⟩
    · refine .flag (.setLease ?_) _ _
      rw [seenAt_mk_grace _ _ rfl]
      simpa [hslot] using hsite
    · simp [hslot]
    · simp [leaseAt_setLease, seenAt_mk_grace _ _ rfl]

/-- A lease record replaced by one of the same role. -/
theorem setLease_role {y : Lease} {c : Claim} {e : Quad} (hs : s.SiteLaw r G W)
    (hl : (s.leaseAt r l).holding? = some (c, e)) (hy : (y.seenAt r).holding? = some (c, e))
    (hp : ((y.seenAt r).promo?).isSome = ((s.leaseAt r l).promo?).isSome)
    (hc : (s.leaseAt r l).cause? = some .retire → (y.seenAt r).cause? = some .retire) :
    (s.setLease l y).SiteLaw r G W := by
  have hp' := hp
  rw [Option.isSome_eq_isSome] at hp'
  refine .setLease (Site.congr_role hs ?_ ?_ ?_ ?_ ?_ ?_ ?_ ?_ ?_ fun _ h => h)
  · intro i; simp only [setAt_apply]; split
    · subst i; rw [hl, hy]
    · rfl
  · intro i n; simp only [setAt_apply]; split
    · subst i; intro h; exact Option.isSome_iff_exists.mp (hp ▸ by simp [h])
    · intro h; exact ⟨n, h⟩
  · intro i n; simp only [setAt_apply]; split
    · subst i; intro h; exact Option.isSome_iff_exists.mp (hp ▸ by simp [h])
    · intro h; exact ⟨n, h⟩
  · intro i; simp only [setAt_apply]; split
    · subst i; exact hc
    · exact id
  · intro i k; simp only [setAt_apply]; split
    · subst i; constructor
      · intro h; rw [h] at hy; cases hy
      · intro h; rw [h] at hl; cases hl
    · rfl
  · intro i; simp only [setAt_apply]; split
    · subst i
      revert hl hy
      cases s.leaseAt r l <;> cases y.seenAt r <;> simp_all [LeaseState.holding?, LeaseState.live?]
    · rfl
  · intro i; simp only [setAt_apply]; split
    · subst i; intro h; rw [h] at hl; cases hl
    · exact id
  · intro w c n l h; exact ⟨n, h⟩
  · intro w c n l h; exact ⟨n, h⟩

end Sys2Proof.Machine
end

