-- ==== Sys2Proof/Proofs/SiteEvents.lean ====
section
/-! PROOFS. The laws at one resource: contention notices, forced ends, waits that leave, the tick at one record. -/

namespace Sys2Proof.Machine

variable {s t u : State} {r r' : ResNo} {l q : LeaseNo} {w : WaitNo} {p : Port} {G : LeaseNo → Prop} {W : WaitNo → Prop}

/-- What a resource sees of a lease: its state, or FREE. -/
theorem seenAt_eq (y : Lease) (r : ResNo) :
    y.seenAt r = if (y.st.live?).map (·.res) = some r then y.st else .free := by
  unfold Lease.seenAt
  cases y.st <;> simp [LeaseState.live?]

theorem live_of_holding {y : LeaseState} {c : Claim} {e : Quad} (h : y.holding? = some (c, e)) : y.live? = some c := by
  cases y <;> simp_all [LeaseState.holding?, LeaseState.live?]

/-- A holder's record replaced by one of the same role. -/
theorem State.SiteLaw.sameRole {y : Lease} {c : Claim} {e : Quad} (hs : s.SiteLaw r G W)
    (hl : (s.lease l).st.holding? = some (c, e)) (hy : y.st.holding? = some (c, e))
    (hp : (y.st.promo?).isSome = ((s.lease l).st.promo?).isSome)
    (hc : (s.lease l).st.cause? = some .retire → y.st.cause? = some .retire) :
    (s.setLease l y).SiteLaw r G W := by
  have h1 : s.leaseAt r l = if c.res = r then (s.lease l).st else .free := by
    simp [State.leaseAt, seenAt_eq, live_of_holding hl]
  have h2 : y.seenAt r = if c.res = r then y.st else .free := by
    simp [seenAt_eq, live_of_holding hy]
  by_cases hr : c.res = r
  · rw [if_pos hr] at h1 h2
    exact setLease_role hs (by rw [h1, hl]) (by rw [h2, hy]) (by rw [h1, h2, hp]) (by rw [h1, h2]; exact hc)
  · rw [if_neg hr] at h1 h2
    refine .setLease ?_
    rw [h2, setAt_same h1]
    exact hs

theorem State.Sound.sameRole {y : Lease} {c : Claim} {e : Quad} (hs : s.Sound r)
    (hl : (s.lease l).st.holding? = some (c, e)) (hy : y.st.holding? = some (c, e))
    (hp : (y.st.promo?).isSome = ((s.lease l).st.promo?).isSome)
    (hc : (s.lease l).st.cause? = some .retire → y.st.cause? = some .retire) :
    (s.setLease l y).Sound r :=
  ⟨hs.site.sameRole hl hy hp hc, hs.served⟩

/-- Contention notices change no role. -/
theorem contendHolder_siteLaw (hs : s.SiteLaw r G W) : (s.contendHolder l).SiteLaw r G W := by
  unfold State.contendHolder
  split
  · rename_i h a hl
    split
    · exact .flag (hs.sameRole (c := h.claim) (e := h.epoch) (by rw [hl]; rfl) rfl (by rw [hl]; rfl) (by rw [hl]; simp [LeaseState.cause?])) _ _
    · exact hs
  · rename_i h g hl
    split
    · exact .flag (hs.sameRole (c := h.claim) (e := h.epoch) (by rw [hl]; rfl) rfl (by rw [hl]; rfl) (by rw [hl]; simp [LeaseState.cause?])) _ _
    · exact hs
  · exact hs

theorem res_contendHolder (s : State) (l : LeaseNo) (r : ResNo) : (s.contendHolder l).res r = s.res r := by
  unfold State.contendHolder
  split
  · split <;> rfl
  · split <;> rfl
  · rfl

theorem contend_sound (ls : List LeaseNo) (hs : s.Sound r) : (s.contend ls).Sound r := by
  unfold State.contend
  induction ls generalizing s with
  | nil => exact hs
  | cons l ls ih =>
    exact ih ⟨contendHolder_siteLaw hs.site, by rw [res_contendHolder]; exact hs.served⟩

/-! ### Forced ends -/

theorem holderGone_site {y : Lease} {c : Claim} {e : Quad} (hs : s.SiteLaw r G W)
    (hla : (s.leaseAt r l).holding? = some (c, e)) (hy : y.seenAt r = .free) :
    (s.setLease l y).SiteLaw r (fun i => G i ∨ i = l) W := by
  refine .setLease ?_
  rw [hy]
  exact hs.holderGone hla

theorem holderGone_one {y : Lease} {c : Claim} {e : Quad} (hs : s.SiteLaw r noLease W)
    (hla : (s.leaseAt r l).holding? = some (c, e)) (hy : y.seenAt r = .free) :
    (s.setLease l y).SiteLaw r (· = l) W := by
  have h := holderGone_site hs hla hy
  have hG : (fun i => noLease i ∨ i = l) = (· = l) := by funext i; simp
  rwa [hG] at h

theorem forcedEnd_sound {h : Holding} {g : GracePart} (hs : s.SiteLaw r noLease noWait)
    (hla : s.leaseAt r l = .grace h g) : (s.forcedEnd l).Sound r ∧ s.Elsewhere r (s.forcedEnd l) := by
  obtain ⟨hl, hr⟩ := leaseAt_eq_grace.mp hla
  subst hr
  have h1 : (s.endLease l).SiteLaw h.claim.res (· = l) noWait := by
    simp only [State.endLease, hl]
    exact holderGone_one hs (by rw [hla]; rfl) rfl
  have h2 : s.Elsewhere h.claim.res (s.endLease l) := by
    simp only [State.endLease, hl]
    exact .setLease (fun c hc => by rw [hl] at hc; cases hc; rfl) (fun c hc => by cases hc)
  simp only [State.forcedEnd, hl]
  split
  · split
    · obtain ⟨h3, h4⟩ := leave_sound (s := (s.endLease l).spendFree) h1
      exact ⟨h3.flag _ _, h2.trans (.trans ⟨h4.res, h4.lease, h4.wait⟩ (.flag _ _ _))⟩
    · obtain ⟨h3, h4⟩ := leave_sound (s := (s.endLease l).spendFree.flag h.claim.port (.lease l) .revoked) h1
      exact ⟨h3, h2.trans ⟨h4.res, h4.lease, h4.wait⟩⟩
  · obtain ⟨h3, h4⟩ := leave_sound (s := (s.endLease l).flag h.claim.port (.lease l) .revoked) h1
    exact ⟨h3, h2.trans ⟨h4.res, h4.lease, h4.wait⟩⟩

theorem termExpires_sound {h : Holding} {a : ActivePart} (hs : s.Sound r) (hla : s.leaseAt r l = .active h a) :
    (s.termExpires l).Sound r ∧ s.Elsewhere r (s.termExpires l) := by
  obtain ⟨hl, hr⟩ := leaseAt_eq_active.mp hla
  simp only [State.termExpires, hl, hr]
  obtain ⟨h1, h2, h3, h4⟩ := enterGrace_site (c := .term) (g := (s.res r).attrs.grace) hs.site hla
  have h5 : (s.enterGrace l .term (s.res r).attrs.grace).Sound r := ⟨h1, by rw [h3]; exact hs.served⟩
  have h6 : (if (s.res r).attrs.grace = 0 then (s.enterGrace l .term (s.res r).attrs.grace).forcedEnd l
      else s.enterGrace l .term (s.res r).attrs.grace).Sound r ∧ s.Elsewhere r (if (s.res r).attrs.grace = 0 then (s.enterGrace l .term (s.res r).attrs.grace).forcedEnd l
      else s.enterGrace l .term (s.res r).attrs.grace) := by
    split
    · obtain ⟨h7, h8⟩ := forcedEnd_sound (l := l) (h := h) (g := ⟨(s.res r).attrs.grace, .term, a.sent⟩) h1 (by rw [h4]; simp [setAt_apply])
      exact ⟨h7, h2.trans h8⟩
    · exact ⟨h5, h2⟩
  split
  · obtain ⟨h7, h8⟩ := grantPass_sound h6.1.site
    exact ⟨h7, h6.2.trans h8⟩
  · exact h6

/-! ### Waits leaving -/

/-- A WAITING wait's record is FREE or ENDED, and its lease FREE. -/
theorem waitGone_site {y : Wait} {z : Lease} {c : WaitClaim} {n : Half} (hs : s.SiteLaw r G noWait)
    (hwa : s.waitAt r w = .waiting c n l) (hy : y.seenAt r = .free) (hz : z.seenAt r = .free) :
    ((s.setWait w y).setLease l z).SiteLaw r G (· = w) := by
  unfold State.SiteLaw
  rw [res_setLease, res_setWait, leaseAt_setLease, leaseAt_setWait, waitAt_setLease, waitAt_setWait, hy, hz]
  have h := Site.waitGone hs hwa
  have hW : (fun i => noWait i ∨ i = w) = (· = w) := by funext i; simp
  rwa [hW] at h

theorem waitGone_elsewhere {y : Wait} {z : Lease} {c : WaitClaim} {n : Half} (hs : s.SiteLaw r G W)
    (hwa : s.waitAt r w = .waiting c n l) (hy : ∀ c n l, y.st ≠ .waiting c n l) (hz : z.st.live? = none) :
    s.Elsewhere r ((s.setWait w y).setLease l z) := by
  obtain ⟨hw, hr⟩ := waitAt_eq_waiting.mp hwa
  obtain ⟨hl, hr'⟩ := leaseAt_eq_reserved.mp (hs.reserve w c n l hwa)
  refine .trans (.setWait ?_ fun c n l h => absurd h (hy c n l)) (.setLease ?_ fun c h => by rw [hz] at h; cases h)
  · intro c' n' l' h'; rw [hw] at h'; cases h'; exact hr
  · intro c' h'; rw [lease_setWait, hl] at h'; cases h'; exact hr'

theorem dropWait_sound (hs : s.SiteLaw r noLease (· = w))
    (hserved : (s.res r).st = .free → (s.res r).queue = [] ∨ (s.res r).epoch = maxEpoch) :
    (s.dropWait r w).Sound r ∧ s.Elsewhere r (s.dropWait r w) := by
  have hm : w ∈ (s.res r).queue := (hs.mem_queue w).mpr (.inr rfl)
  have h1 : (s.setRes r { s.res r with queue := (s.res r).queue.filter (· ≠ w) }).SiteLaw r noLease noWait := by
    have h := Site.dequeue hs (rfl : w = w)
    have hW : (fun i => i = w ∧ i ≠ w) = noWait := by funext i; simp
    rw [hW] at h
    exact .setRes h
  unfold State.dropWait
  dsimp only
  split
  · obtain ⟨h2, h3⟩ := grantPass_sound h1
    exact ⟨h2, .trans (.setRes s _) h3⟩
  · refine ⟨⟨h1, fun hf => ?_⟩, .setRes s _⟩
    rw [res_setRes_self] at hf ⊢
    exact .inr ((hserved hf).resolve_left (List.ne_nil_of_mem hm))

/-- The tick at a patience. -/
theorem endWait_site {c : WaitClaim} {n : Half} {e : WaitEnd} {x : Cause} (hs : s.SiteLaw r G noWait)
    (hwa : s.waitAt r w = .waiting c n l) :
    (s.endWait w e x).SiteLaw r G (· = w) ∧ s.Elsewhere r (s.endWait w e x) := by
  obtain ⟨hw, hr⟩ := waitAt_eq_waiting.mp hwa
  rw [endWait_eq hw]
  exact ⟨.flag (waitGone_site hs hwa rfl rfl) _ _, .trans (waitGone_elsewhere hs hwa (by simp) rfl) (.flag _ _ _)⟩

/-! ### The tick at one record -/

theorem tickSettle_sound (hs : s.Sound r) : (s.tickSettle r).Sound r ∧ s.Elsewhere r (s.tickSettle r) := by
  unfold State.tickSettle
  dsimp only
  split
  · rename_i n hn
    split
    · obtain ⟨h1, h2⟩ := grantPass_sound (s := s.setRes r { s.res r with st := .free }) (r := r)
        (.setRes (hs.site.settled hn))
      exact ⟨h1, .trans (.setRes s _) h2⟩
    · refine ⟨⟨.setRes (hs.site.settleLowered hn ?_), by simp⟩, .setRes s _⟩
      intro h0; rename_i hgt; apply hgt; bv_omega
  · exact ⟨hs, .refl r s⟩

theorem tickLease_sound (hs : ∀ r, s.Sound r) (r : ResNo) : (s.tickLease l).Sound r := by
  unfold State.tickLease
  split
  · rename_i h a hl
    split
    · obtain ⟨h1, h2⟩ := termExpires_sound (hs h.claim.res) (leaseAt_eq_active.mpr ⟨hl, rfl⟩)
      exact h2.all_sound hs h1 r
    · exact (hs r).sameRole (c := h.claim) (e := h.epoch) (by rw [hl]; rfl) rfl (by rw [hl]; rfl) (by rw [hl]; simp [LeaseState.cause?])
  · rename_i h g hl
    split
    · obtain ⟨h1, h2⟩ := forcedEnd_sound (hs h.claim.res).site (leaseAt_eq_grace.mpr ⟨hl, rfl⟩)
      exact h2.all_sound hs h1 r
    · exact (hs r).sameRole (c := h.claim) (e := h.epoch) (by rw [hl]; rfl) rfl (by rw [hl]; rfl) (by rw [hl]; simp [LeaseState.cause?])
  · exact hs r

theorem tickPromo_sound (hs : ∀ r, s.Sound r) (r : ResNo) : (s.tickPromo l).Sound r := by
  unfold State.tickPromo
  split
  · rename_i h a hl
    split
    · rename_i n hn
      split
      · have hla : s.leaseAt h.claim.res l = .active h a := leaseAt_eq_active.mpr ⟨hl, rfl⟩
        have hsite := (hs h.claim.res).site
        have hslot := hsite.promo l n (by rw [hla]; exact hn)
        have h1 : (((s.setLease l { s.lease l with st := .active h { a with promo := none } }).setRes h.claim.res
            { s.res h.claim.res with slot := none }).flag h.claim.port (.lease l) .promoteEnded).SiteLaw h.claim.res
              noLease noWait := by
          refine .flag (.setRes ?_) _ _
          rw [leaseAt_setLease, waitAt_setLease, seenAt_mk_active _ _ rfl]
          exact hsite.slotEmptied hla hslot rfl
        obtain ⟨h2, h3⟩ := grantPass_sound h1
        refine (State.Elsewhere.trans (.setLease ?_ ?_) (.trans (.setRes _ _) (.trans (.flag _ _ _) h3))).all_sound hs h2 r
        · intro c hc; rw [hl] at hc; cases hc; rfl
        · intro c hc; cases hc; rfl
      · exact (hs r).sameRole (c := h.claim) (e := h.epoch) (by rw [hl]; rfl) rfl (by rw [hl]; simp [LeaseState.promo?, hn]) (by rw [hl]; simp [LeaseState.cause?])
    · exact hs r
  · exact hs r

/-- A wait record whose patience alone differs. -/
theorem patience_sound {c : WaitClaim} {n m : Half} (hs : s.Sound r) (hw : (s.wait w).st = .waiting c n l) :
    (s.setWait w { s.wait w with st := .waiting c m l }).Sound r := by
  refine ⟨?_, hs.served⟩
  unfold State.SiteLaw
  rw [waitAt_setWait]
  have hv : s.waitAt r w = if c.res = r then .waiting c n l else .free := by
    simp only [State.waitAt, Wait.seenAt, hw]
  have hv' : Wait.seenAt r { s.wait w with st := .waiting c m l } = if c.res = r then .waiting c m l else .free := rfl
  rw [hv']
  refine Site.congr_role hs.site (fun _ => rfl) (fun _ n h => ⟨n, h⟩) (fun _ n h => ⟨n, h⟩) (fun _ => id) (fun _ _ => Iff.rfl) (fun _ => rfl) (fun _ => id) ?_ ?_ ?_
  · intro w' c' n' l'; simp only [setAt_apply]; split
    · subst w'; rw [hv]; split <;> simp +contextual
    · exact fun h => ⟨n', h⟩
  · intro w' c' n' l'; simp only [setAt_apply]; split
    · subst w'; rw [hv]; split <;> simp +contextual
    · exact fun h => ⟨n', h⟩
  · intro w'; simp only [setAt_apply]; split
    · subst w'; rw [hv]; split <;> simp
    · exact id

theorem tickWait_sound (hs : ∀ r, s.Sound r) (r : ResNo) : (s.tickWait w).Sound r := by
  unfold State.tickWait
  split
  · rename_i c n l hw
    split
    · obtain ⟨h1, h2⟩ := endWait_site (e := .expired) (x := .expired) (hs c.res).site (waitAt_eq_waiting.mpr ⟨hw, rfl⟩)
      obtain ⟨h3, h4⟩ := dropWait_sound h1 (by rw [endWait_eq hw]; exact (hs c.res).served)
      exact (h2.trans h4).all_sound hs h3 r
    · exact patience_sound (hs r) hw
  · exact hs r

end Sys2Proof.Machine
end

