-- ==== Sys2Proof/Proofs/SiteSessions.lean ====
section
/-! PROOFS. The laws at every resource through a session end (R136, R137). -/

namespace Sys2Proof.Machine

variable {s t u : State} {r r' : ResNo} {l q : LeaseNo} {w : WaitNo} {p : Port} {G : LeaseNo → Prop} {W : WaitNo → Prop}

/-! ### Session end -/

/-- What a session end has still to treat: the listed claims of a port whose records are gone. -/
structure State.Pending (s : State) (cs : List (ResNo × PortClaim)) : Prop where
  site : ∀ r, s.SiteLaw r (fun l => (r, .holder l) ∈ cs) (fun w => (r, .waiter w) ∈ cs)
  served : ∀ r, (s.res r).st = .free → (s.res r).queue = [] ∨ (s.res r).epoch = maxEpoch

theorem State.Pending.spendFree {cs : List (ResNo × PortClaim)} (hs : s.Pending cs) : s.spendFree.Pending cs :=
  ⟨hs.site, hs.served⟩

theorem treatClaim_pending {c : ResNo × PortClaim} {cs : List (ResNo × PortClaim)} (hs : s.Pending (c :: cs))
    (hnd : ((c :: cs).map (·.1)).Nodup) : (s.treatClaim c).Pending cs := by
  obtain ⟨r, c⟩ := c
  have hr : ∀ c', (r, c') ∉ cs := fun c' h => (List.nodup_cons.mp hnd).1 (List.mem_map.mpr ⟨_, h, rfl⟩)
  have hsite := hs.site r
  have key : (s.treatClaim (r, c)).Sound r ∧ s.Elsewhere r (s.treatClaim (r, c)) := by
    cases c with
    | holder l => 
      refine leave_sound ?_
      convert hsite using 1
      · funext i; simp [hr]
      · funext i; simp [hr]
    | waiter w =>
      refine dropWait_sound ?_ (hs.served r)
      convert hsite using 1
      · funext i; simp [hr]
      · funext i; simp [hr]
  refine ⟨fun r' => ?_, fun r' => ?_⟩
  · by_cases he : r' = r
    · subst he
      have := key.1.site
      convert this using 1
      · funext i; simp [hr]
      · funext i; simp [hr]
    · refine key.2.siteLaw he ?_
      have := hs.site r'
      convert this using 1
      · funext i; simp [he]
      · funext i; simp [he]
  · by_cases he : r' = r
    · subst he; exact key.1.served
    · rw [key.2.res r' he]; exact hs.served r'

theorem foldl_treatClaim_sound (cs : List (ResNo × PortClaim)) (s : State) (hs : s.Pending cs)
    (hnd : (cs.map (·.1)).Nodup) (r : ResNo) : (cs.foldl State.treatClaim s).Sound r := by
  induction cs generalizing s with
  | nil =>
    refine ⟨?_, hs.served r⟩
    have := hs.site r
    simpa using this
  | cons c cs ih => exact ih _ (treatClaim_pending hs hnd) (List.nodup_cons.mp hnd).2

/-- A live record as its resource sees it is the record's claim. -/
theorem claim_of_leaseAt {c : Claim} (h : (s.leaseAt r l).live? = some c) : (s.lease l).claim? = some c ∧ c.res = r := by
  unfold State.leaseAt Lease.seenAt at h
  unfold Lease.claim?
  cases hst : (s.lease l).st <;> simp only [hst] at h ⊢
  case free | ended => cases h
  all_goals
    split at h
    · exact ⟨h, by cases h; assumption⟩
    · cases h

theorem ownedBy_iff {y : Lease} : y.ownedBy p = true ↔ ∃ c, y.claim? = some c ∧ c.port = p := by
  unfold Lease.ownedBy
  cases y.claim? <;> simp

theorem wait_ownedBy_iff {y : Wait} : y.ownedBy p = true ↔ ∃ c, y.claim? = some c ∧ c.port = p := by
  unfold Wait.ownedBy
  cases y.claim? <;> simp

theorem find?_of_unique {α : Type} {P : α → Bool} {a : α} {xs : List α} (ha : a ∈ xs) (hP : P a = true)
    (hu : ∀ b ∈ xs, P b = true → b = a) : xs.find? P = some a := by
  cases h : xs.find? P with
  | none => exact absurd hP (by simpa using List.find?_eq_none.mp h a ha)
  | some b => rw [hu b (List.mem_of_find?_eq_some h) (List.find?_some h)]

/-- The listed holder of port `p` at `r`. -/
theorem holder_owned_iff (hs : s.SiteLaw r noLease noWait) :
    (l ∈ (s.res r).holders ∧ (s.lease l).ownedBy p = true) ↔
      ∃ c e, (s.leaseAt r l).holding? = some (c, e) ∧ c.port = p := by
  constructor
  · rintro ⟨hm, ho⟩
    obtain ⟨⟨c, e⟩, hce⟩ := Option.isSome_iff_exists.mp (((hs.mem_holders l).mp hm).resolve_right id)
    obtain ⟨c', hc', hp⟩ := ownedBy_iff.mp ho
    have := (claim_of_leaseAt (live_of_holding hce)).1
    rw [hc'] at this
    cases this
    exact ⟨c, e, hce, hp⟩
  · rintro ⟨c, e, hce, hp⟩
    exact ⟨Site.mem_of_holding hs hce, ownedBy_iff.mpr ⟨c, (claim_of_leaseAt (live_of_holding hce)).1, hp⟩⟩

theorem waiter_owned_iff (hs : s.SiteLaw r noLease noWait) :
    (w ∈ (s.res r).queue ∧ (s.wait w).ownedBy p = true) ↔
      ∃ c n l, s.waitAt r w = .waiting c n l ∧ c.port = p := by
  constructor
  · rintro ⟨hm, ho⟩
    obtain ⟨c, n, l, hw, _, _, hwa⟩ := hs.queued hm
    refine ⟨c, n, l, hwa, ?_⟩
    simpa [Wait.ownedBy, Wait.claim?, hw] using ho
  · rintro ⟨c, n, l, hwa, hp⟩
    refine ⟨(hs.mem_queue w).mpr (.inl ⟨c, n, l, hwa⟩), ?_⟩
    simp [Wait.ownedBy, Wait.claim?, (waitAt_eq_waiting.mp hwa).1, hp]

/-- Where port `p` has a holder lease at `r`. -/
theorem claimAt_holder (hs : s.SiteLaw r noLease noWait) : s.claimAt p r = some (.holder l) ↔
    ∃ c e, (s.leaseAt r l).holding? = some (c, e) ∧ c.port = p := by
  rw [← holder_owned_iff hs]
  unfold State.claimAt
  constructor
  · intro h
    split at h
    · rename_i l' hl'
      cases h
      exact ⟨List.mem_of_find?_eq_some hl', by simpa using List.find?_some hl'⟩
    · simp at h
  · rintro ⟨hm, ho⟩
    rw [find?_of_unique (P := fun l => (s.lease l).ownedBy p) hm ho]
    intro l' hm' ho'
    obtain ⟨c, e, hce, hp⟩ := (holder_owned_iff hs).mp ⟨hm, ho⟩
    obtain ⟨c', e', hce', hp'⟩ := (holder_owned_iff hs).mp ⟨hm', ho'⟩
    exact hs.claims _ _ _ _ (live_of_holding hce') (live_of_holding hce) (hp'.trans hp.symm)

/-- Where port `p` has a wait in the queue of `r`. -/
theorem claimAt_waiter (hs : s.SiteLaw r noLease noWait) : s.claimAt p r = some (.waiter w) ↔
    ∃ c n l, s.waitAt r w = .waiting c n l ∧ c.port = p := by
  rw [← waiter_owned_iff hs]
  unfold State.claimAt
  constructor
  · intro h
    split at h
    · cases h
    · simp only [Option.map_eq_some_iff, PortClaim.waiter.injEq, exists_eq_right] at h
      exact ⟨List.mem_of_find?_eq_some h, by simpa using List.find?_some h⟩
  · rintro ⟨hm, ho⟩
    obtain ⟨c, n, l, hwa, hp⟩ := (waiter_owned_iff hs).mp ⟨hm, ho⟩
    have hres := hs.reserve w c n l hwa
    have hnone : (s.res r).holders.find? (fun l => (s.lease l).ownedBy p) = none := by
      rw [List.find?_eq_none]
      intro l' hm' ho'
      obtain ⟨c', e', hce', hp'⟩ := (holder_owned_iff hs).mp ⟨hm', ho'⟩
      have hll := hs.claims l' l _ _ (live_of_holding hce') (by rw [hres]; rfl) (hp'.trans hp.symm)
      rw [hll, hres] at hce'
      cases hce'
    rw [hnone]
    simp only [Option.map_eq_some_iff, PortClaim.waiter.injEq, exists_eq_right]
    refine find?_of_unique (P := fun w => (s.wait w).ownedBy p) hm ho fun w' hm' ho' => ?_
    obtain ⟨c', n', l', hwa', hp'⟩ := (waiter_owned_iff hs).mp ⟨hm', ho'⟩
    have hll := hs.claims l' l _ _ (by rw [hs.reserve w' c' n' l' hwa']; rfl) (by rw [hres]; rfl) (hp'.trans hp.symm)
    exact hs.reserve_inj w' w c' c n' n l (hll ▸ hwa') hwa

theorem dropPort_pending {st : SessState} {e : EndCause} (hs : ∀ r, s.Sound r) :
    (s.dropPort p st e).Pending (s.claims p) := by
  refine ⟨fun r => ?_, fun r => by rw [res_dropPort]; exact (hs r).served⟩
  have hsite := (hs r).site
  have hL : ∀ l, (s.dropPort p st e).leaseAt r l = .free ∧ (∃ c, (s.leaseAt r l).live? = some c ∧ c.port = p)
      ∨ (s.dropPort p st e).leaseAt r l = s.leaseAt r l ∧ ∀ c, (s.leaseAt r l).live? = some c → c.port ≠ p := by
    intro l
    simp only [State.leaseAt, lease_dropPort]
    by_cases ho : (s.lease l).ownedBy p = true
    · rw [if_pos ho]
      obtain ⟨c, hc, hp⟩ := ownedBy_iff.mp ho
      cases hst : (s.lease l).seenAt r with
      | free => exact .inr ⟨rfl, fun c h => by cases h⟩
      | ended h x => exact absurd hst seenAt_not_ended
      | reserved k => exact .inl ⟨rfl, k, rfl, by simp [Lease.claim?, (seenAt_reserved.mp hst).1] at hc; rw [hc, hp]⟩
      | active h a => exact .inl ⟨rfl, h.claim, rfl, by simp [Lease.claim?, (seenAt_active.mp hst).1] at hc; rw [hc, hp]⟩
      | grace h g => exact .inl ⟨rfl, h.claim, rfl, by simp [Lease.claim?, (seenAt_grace.mp hst).1] at hc; rw [hc, hp]⟩
    · rw [if_neg ho]
      exact .inr ⟨rfl, fun c hc hp => ho (ownedBy_iff.mpr ⟨c, (claim_of_leaseAt (s := s) hc).1, hp⟩)⟩
  have hV : ∀ w, (s.dropPort p st e).waitAt r w = .free ∧ (∃ c n l, s.waitAt r w = .waiting c n l ∧ c.port = p)
      ∨ (s.dropPort p st e).waitAt r w = s.waitAt r w ∧ ∀ c n l, s.waitAt r w = .waiting c n l → c.port ≠ p := by
    intro w
    simp only [State.waitAt, wait_dropPort]
    by_cases ho : (s.wait w).ownedBy p = true
    · rw [if_pos ho]
      obtain ⟨c, hc, hp⟩ := wait_ownedBy_iff.mp ho
      cases hst : (s.wait w).seenAt r with
      | free => exact .inr ⟨rfl, fun c n l h => by cases h⟩
      | ended h x => exact absurd hst seenAt_not_endedWait
      | waiting k n l => exact .inl ⟨rfl, k, n, l, rfl, by simp [Wait.claim?, (seenAt_waiting.mp hst).1] at hc; rw [hc, hp]⟩
    · rw [if_neg ho]
      refine .inr ⟨rfl, fun c n l hc hp => ho (wait_ownedBy_iff.mpr ⟨c, ?_, hp⟩)⟩
      simp [Wait.claim?, (seenAt_waiting.mp hc).1]
  have h := Site.portGone hsite hL hV
  unfold State.SiteLaw
  rw [res_dropPort]
  convert h using 1
  · funext l
    rw [mem_claims, claimAt_holder hsite, eq_iff_iff]
    constructor
    · rintro ⟨c, e, hce, hp⟩
      exact ⟨by simp [hce], ((hL l).resolve_right fun h => h.2 c (live_of_holding hce) hp).1⟩
    · rintro ⟨hh, hf⟩
      obtain ⟨⟨c, e⟩, hce⟩ := Option.isSome_iff_exists.mp hh
      refine ⟨c, e, hce, ?_⟩
      obtain ⟨_, c', hc', hp⟩ := (hL l).resolve_right fun h => by rw [← h.1, hf] at hce; cases hce
      rw [live_of_holding hce] at hc'
      cases hc'; exact hp
  · funext w
    rw [mem_claims, claimAt_waiter hsite, eq_iff_iff]
    constructor
    · rintro ⟨c, n, l, hwa, hp⟩
      exact ⟨⟨c, n, l, hwa⟩, ((hV w).resolve_right fun h => h.2 c n l hwa hp).1⟩
    · rintro ⟨⟨c, n, l, hwa⟩, hf⟩
      refine ⟨c, n, l, hwa, ?_⟩
      obtain ⟨_, c', n', l', hwa', hp⟩ := (hV w).resolve_right fun h => by rw [← h.1, hf] at hwa; cases hwa
      rw [hwa] at hwa'
      cases hwa'; exact hp

theorem endSession_sound {st : SessState} {e : EndCause} (hs : ∀ r, s.Sound r) (r : ResNo) :
    (s.endSession p st e).Sound r := by
  unfold State.endSession
  have hperm := sortByRank_perm (fun c : ResNo × PortClaim => Config.treatmentRank s.freeCount c.1) (s.claims p)
  have hpend := dropPort_pending (p := p) (st := st) (e := e) hs
  refine foldl_treatClaim_sound _ _ (State.Pending.spendFree ⟨fun r => ?_, hpend.served⟩)
    ((hperm.map _).nodup_iff.mpr claims_nodup) r
  simp only [hperm.mem_iff]
  exact hpend.site r

theorem tickLive_sound (hs : ∀ r, s.Sound r) (r : ResNo) : (s.tickLive p).Sound r := by
  unfold State.tickLive
  split
  · split
    · have := endSession_sound (p := p) (st := .lost) (e := .silent) hs r
      exact ⟨this.site, this.served⟩
    · exact ⟨(hs r).site, (hs r).served⟩
  · exact hs r

theorem tickAt_sound (x : TickRef) (hs : ∀ r, s.Sound r) (r : ResNo) : (s.tickAt x).Sound r := by
  cases x with
  | settle q => exact (tickSettle_sound (hs q)).2.all_sound hs (tickSettle_sound (hs q)).1 r
  | lease l => exact tickLease_sound hs r
  | promo l => exact tickPromo_sound hs r
  | wait w => exact tickWait_sound hs r
  | live p => exact tickLive_sound hs r

end Sys2Proof.Machine
end

