-- ==== Sys2Proof/Proofs/SiteRevocation.lean ====
section
/-! PROOFS. The laws at one resource: escalation, REVOKE, RETIRE. -/

namespace Sys2Proof.Machine

variable {s t u : State} {r r' : ResNo} {l q : LeaseNo} {w : WaitNo} {p : Port} {G : LeaseNo → Prop} {W : WaitNo → Prop}

/-! ### REVOKE and RETIRE at the holders -/

/-- A lease in GRACE for the cause or a higher one. -/
def LeaseState.graced (c : RevokeCause) (y : LeaseState) : Prop :=
  ∃ h g, y = .grace h g ∧ (c = .retire → g.cause = .retire)

/-- What the placing of some holders in grace leaves: no law of the resource is broken, no other resource sees it, and the
resource itself loses its slot at most. -/
structure State.Revoked (r : ResNo) (c : RevokeCause) (ls : List LeaseNo) (s t : State) : Prop where
  site : t.SiteLaw r noLease noWait
  elsewhere : s.Elsewhere r t
  res : ∃ slot, t.res r = { s.res r with slot := slot }
  graced : ∀ l ∈ ls, (t.leaseAt r l).graced c
  kept : ∀ l, l ∉ ls → t.leaseAt r l = s.leaseAt r l


theorem escalate_site {h : Holding} {x : GracePart} {c : RevokeCause} {g : Byte}
    (hs : s.SiteLaw r G W) (hla : s.leaseAt r l = .grace h x) :
    (s.escalate l c g).SiteLaw r G W ∧ s.Elsewhere r (s.escalate l c g)
      ∧ (s.escalate l c g).res r = s.res r
      ∧ (s.escalate l c g).leaseAt r = setAt (s.leaseAt r) l (.grace h (x.escalated c g)) := by
  obtain ⟨hl, hr⟩ := leaseAt_eq_grace.mp hla
  have hret : x.cause = .retire → (x.escalated c g).cause = .retire := by
    intro h; simp only [GracePart.escalated, h]; cases c <;> rfl
  have h1 : (s.setLease l ⟨(s.lease l).gen, .grace h (x.escalated c g)⟩).SiteLaw r G W :=
    hs.sameRole (c := h.claim) (e := h.epoch) (by rw [hl]; rfl) rfl (by rw [hl]; rfl)
      (by rw [hl]; simpa [LeaseState.cause?] using hret)
  have h2 : s.Elsewhere r (s.setLease l ⟨(s.lease l).gen, .grace h (x.escalated c g)⟩) :=
    .setLease (fun c hc => by rw [hl] at hc; cases hc; exact hr) (fun c hc => by cases hc; exact hr)
  have h3 : (s.setLease l ⟨(s.lease l).gen, .grace h (x.escalated c g)⟩).leaseAt r =
      setAt (s.leaseAt r) l (.grace h (x.escalated c g)) := by
    rw [leaseAt_setLease, seenAt_mk_grace _ _ hr]
  rw [escalate_eq hl]
  split
  · exact ⟨h1.flag _ _, h2.trans (.flag _ _ _), rfl, h3⟩
  · exact ⟨h1, h2, rfl, h3⟩

theorem higher_retire (c : RevokeCause) : c.higher .retire = .retire := by cases c <;> rfl

theorem applyRevocation_revoked {c : RevokeCause} {g : Byte} (hs : s.SiteLaw r noLease noWait)
    (hl : (s.leaseAt r l).holding?.isSome = true) : s.Revoked r c [l] (State.applyRevocation c g s l) := by
  cases hla : s.leaseAt r l with
  | free => rw [hla] at hl; cases hl
  | reserved k => rw [hla] at hl; cases hl
  | ended h x => exact absurd hla seenAt_not_ended
  | active h a =>
    simp only [State.applyRevocation, (leaseAt_eq_active.mp hla).1]
    obtain ⟨h1, h2, h3, h4⟩ := enterGrace_site (c := c) (g := g) hs hla
    refine ⟨h1, h2, ⟨_, h3⟩, ?_, ?_⟩
    · intro i hi
      rw [List.mem_singleton.mp hi, h4]
      exact ⟨h, ⟨g, c, a.sent⟩, by simp [setAt_apply], fun h => h⟩
    · intro i hi
      rw [h4, setAt_apply, if_neg (by simpa using hi)]
  | grace h x =>
    simp only [State.applyRevocation, (leaseAt_eq_grace.mp hla).1]
    obtain ⟨h1, h2, h3, h4⟩ := escalate_site (c := c) (g := g) hs hla
    refine ⟨h1, h2, ⟨(s.res r).slot, h3⟩, ?_, ?_⟩
    · intro i hi
      rw [List.mem_singleton.mp hi, h4]
      exact ⟨h, x.escalated c g, by simp [setAt_apply], by rintro rfl; exact higher_retire _⟩
    · intro i hi
      rw [h4, setAt_apply, if_neg (by simpa using hi)]

theorem foldl_applyRevocation_revoked {c : RevokeCause} {g : Byte} (ls : List LeaseNo) (s : State)
    (hs : s.SiteLaw r noLease noWait) (hnd : ls.Nodup) (hl : ∀ l ∈ ls, (s.leaseAt r l).holding?.isSome = true) :
    s.Revoked r c ls (ls.foldl (State.applyRevocation c g) s) := by
  induction ls generalizing s with
  | nil => exact ⟨hs, .refl r s, ⟨(s.res r).slot, rfl⟩, by simp, fun _ _ => rfl⟩
  | cons l ls ih =>
    obtain ⟨hnot, hnd⟩ := List.nodup_cons.mp hnd
    have h1 := applyRevocation_revoked (c := c) (g := g) hs (hl l (by simp))
    have h2 := ih _ h1.site hnd fun i hi => by
      rw [h1.kept i (by rw [List.mem_singleton]; rintro rfl; exact hnot hi)]; exact hl i (by simp [hi])
    refine ⟨h2.site, h1.elsewhere.trans h2.elsewhere, ?_, ?_, ?_⟩
    · obtain ⟨a, ha⟩ := h1.res
      obtain ⟨b, hb⟩ := h2.res
      exact ⟨b, by rw [List.foldl_cons, hb, ha]⟩
    · intro i hi
      rcases List.mem_cons.mp hi with rfl | hi
      · rw [List.foldl_cons, h2.kept i hnot]; exact h1.graced i (by simp)
      · exact h2.graced i hi
    · intro i hi
      rw [List.mem_cons, not_or] at hi
      rw [List.foldl_cons, h2.kept i hi.2, h1.kept i (by simp [hi.1])]

/-! ### The forced ends of every holder -/

theorem flagLease_leaseAt (c : Cause) : (s.flagLease l c).leaseAt r = s.leaseAt r := by
  unfold State.flagLease; split <;> rfl
theorem flagLease_waitAt (c : Cause) : (s.flagLease l c).waitAt r = s.waitAt r := by
  unfold State.flagLease; split <;> rfl
theorem flagLease_res (c : Cause) : (s.flagLease l c).res r = s.res r := by
  unfold State.flagLease; split <;> rfl

theorem endOne_leaseAt (s : State) (l : LeaseNo) {h : Holding} {g : GracePart} (hla : s.leaseAt r l = .grace h g) :
    ((s.endLease l).flagLease l .revoked).leaseAt r = setAt (s.leaseAt r) l .free
      ∧ s.Elsewhere r ((s.endLease l).flagLease l .revoked)
      ∧ ((s.endLease l).flagLease l .revoked).res r = s.res r 
      ∧ ((s.endLease l).flagLease l .revoked).waitAt r = s.waitAt r := by
  obtain ⟨hl, hr⟩ := leaseAt_eq_grace.mp hla
  have he : s.endLease l = s.setLease l { s.lease l with st := .ended h g.cause } := by simp only [State.endLease, hl]
  have hel : s.Elsewhere r (s.endLease l) := by
    rw [he]
    exact .setLease (fun c hc => by rw [hl] at hc; cases hc; exact hr) (fun c hc => by cases hc)
  refine ⟨?_, ⟨?_, ?_, ?_⟩, ?_, ?_⟩
  · rw [flagLease_leaseAt, he, leaseAt_setLease]; rfl
  · intro r' h; rw [flagLease_res]; exact hel.res r' h
  · intro r' h; rw [flagLease_leaseAt]; exact hel.lease r' h
  · intro r' h; rw [flagLease_waitAt]; exact hel.wait r' h
  · rw [flagLease_res, he]; rfl
  · rw [flagLease_waitAt, he]; rfl

theorem foldl_endLease_site (ls : List LeaseNo) (s : State) (G : LeaseNo → Prop) (hs : s.SiteLaw r G W) (hnd : ls.Nodup)
    (hl : ∀ l ∈ ls, (s.leaseAt r l).graced .term) :
    (ls.foldl (fun t l => (t.endLease l).flagLease l .revoked) s).SiteLaw r (fun i => G i ∨ i ∈ ls) W
      ∧ s.Elsewhere r (ls.foldl (fun t l => (t.endLease l).flagLease l .revoked) s)
      ∧ (ls.foldl (fun t l => (t.endLease l).flagLease l .revoked) s).res r = s.res r
      ∧ (∀ l ∈ ls, (ls.foldl (fun t l => (t.endLease l).flagLease l .revoked) s).leaseAt r l = .free)
      ∧ ∀ l, l ∉ ls → (ls.foldl (fun t l => (t.endLease l).flagLease l .revoked) s).leaseAt r l = s.leaseAt r l := by
  induction ls generalizing s G with
  | nil => exact ⟨by simpa using hs, .refl r s, rfl, by simp, fun _ _ => rfl⟩
  | cons l ls ih =>
    obtain ⟨hnot, hnd⟩ := List.nodup_cons.mp hnd
    obtain ⟨h, g, hla, _⟩ := hl l (by simp)
    obtain ⟨h1, h2, h3, h4⟩ := endOne_leaseAt s l hla
    have hsite : ((s.endLease l).flagLease l .revoked).SiteLaw r (fun i => G i ∨ i = l) W := by
      unfold State.SiteLaw
      rw [h1, h3, h4]
      exact Site.holderGone hs (by rw [hla]; rfl)
    obtain ⟨h5, h6, h7, h8, h9⟩ := ih _ _ hsite hnd fun i hi => by
      rw [h1, setAt_apply, if_neg (by rintro rfl; exact hnot hi)]; exact hl i (by simp [hi])
    refine ⟨?_, h2.trans h6, h7.trans h3, ?_, ?_⟩
    · rw [List.foldl_cons]
      convert h5 using 1
      funext i; simp [or_assoc]
    · intro i hi
      rcases List.mem_cons.mp hi with rfl | hi
      · rw [List.foldl_cons, h9 i hnot, h1]; simp [setAt_apply]
      · exact h8 i hi
    · intro i hi
      rw [List.mem_cons, not_or] at hi
      rw [List.foldl_cons, h9 i hi.2, h1, setAt_apply, if_neg hi.1]

/-- What the forced ends of every holder leave: no holding, and the resource as it was, its list and slot empty. -/
theorem endHolders_site (hs : s.SiteLaw r noLease noWait)
    (hl : ∀ l ∈ (s.res r).holders, (s.leaseAt r l).graced .term) :
    ∃ G, Site (s.res r) ((s.endHolders r).leaseAt r) ((s.endHolders r).waitAt r) G noWait
      ∧ (s.endHolders r).res r = { s.res r with holders := [], slot := none }
      ∧ s.Elsewhere r (s.endHolders r) ∧ ∀ l, ((s.endHolders r).leaseAt r l).holding? = none := by
  obtain ⟨h1, h2, h3, h4, h5⟩ := foldl_endLease_site (s.res r).holders s noLease hs hs.holdersNodup hl
  unfold State.endHolders
  dsimp only
  refine ⟨fun i => noLease i ∨ i ∈ (s.res r).holders, ?_, ?_, h2.trans (.setRes _ _), ?_⟩
  · rw [leaseAt_setRes, waitAt_setRes]
    unfold State.SiteLaw at h1
    rw [h3] at h1
    exact h1
  · rw [res_setRes_self, h3]
  · intro l
    rw [leaseAt_setRes]
    by_cases hm : l ∈ (s.res r).holders
    · rw [h4 l hm]; rfl
    · rw [h5 l hm]
      by_contra hne
      exact hm ((hs.mem_holders l).mpr (.inl (Option.isSome_iff_ne_none.mpr hne)))

theorem graced_term {c : RevokeCause} {y : LeaseState} (h : y.graced c) : y.graced .term := by
  obtain ⟨h, g, e, _⟩ := h; exact ⟨h, g, e, by simp⟩

/-! ### REVOKE -/

theorem holder_st (hs : s.SiteLaw r noLease noWait) (hh : (s.res r).holders ≠ []) :
    (s.res r).st = .exclusive ∨ (s.res r).st = .shared ∨ (s.res r).st = .retiring := by
  cases hst : (s.res r).st with
  | undefined => exact absurd (hs.undefined hst).1 hh
  | free => exact absurd (hs.free hst) hh
  | settling n => exact absurd (hs.settling n hst).1 hh
  | exclusive => simp
  | shared => simp
  | retiring => simp

theorem revoke_sound {g : Byte} (hs : s.Sound r) : (s.revoke r g).Sound r ∧ s.Elsewhere r (s.revoke r g) := by
  unfold State.revoke
  dsimp only
  split
  · exact ⟨hs, .refl r s⟩
  · rename_i hh
    have hsite := hs.site
    have hrev := foldl_applyRevocation_revoked (c := .supervisor) (g := g) (s.res r).holders s hsite hsite.holdersNodup
      fun l hl => ((hsite.mem_holders l).mp hl).resolve_right id
    set s1 := (s.res r).holders.foldl (State.applyRevocation .supervisor g) s with hs1
    obtain ⟨slot, hres⟩ := hrev.res
    have hst : (s1.res r).st = (s.res r).st := by rw [hres]
    have hhold : (s1.res r).holders = (s.res r).holders := by rw [hres]
    have h3 := holder_st hsite hh
    split
    · obtain ⟨G, h4, h5, h6, h7⟩ := endHolders_site hrev.site (by rw [hhold]; exact fun l hl => graced_term (hrev.graced l hl))
      obtain ⟨h8, h9⟩ := lastHolderLeft_sound h4 h5 (by rw [hst]; exact h3) h7
      exact ⟨h8, hrev.elsewhere.trans (h6.trans h9)⟩
    · split
      · obtain ⟨h8, h9⟩ := grantPass_sound hrev.site
        exact ⟨h8, hrev.elsewhere.trans h9⟩
      · refine ⟨⟨hrev.site, fun hf => ?_⟩, hrev.elsewhere⟩
        rw [hst] at hf; rw [hf] at h3; simp at h3

/-! ### RETIRE -/

theorem foldl_endWait_site (ws : List WaitNo) (s : State) (W : WaitNo → Prop) (hs : s.SiteLaw r noLease W) (hnd : ws.Nodup)
    (hw : ∀ w ∈ ws, ∃ c n l, s.waitAt r w = .waiting c n l) :
    (ws.foldl (fun t w => t.endWait w .withdrawn .withdrawn) s).SiteLaw r noLease (fun i => W i ∨ i ∈ ws)
      ∧ s.Elsewhere r (ws.foldl (fun t w => t.endWait w .withdrawn .withdrawn) s)
      ∧ (ws.foldl (fun t w => t.endWait w .withdrawn .withdrawn) s).res r = s.res r := by
  induction ws generalizing s W with
  | nil => exact ⟨by simpa using hs, .refl r s, rfl⟩
  | cons w ws ih =>
    obtain ⟨hnot, hnd⟩ := List.nodup_cons.mp hnd
    obtain ⟨c, n, l, hwa⟩ := hw w (by simp)
    obtain ⟨hst, hr⟩ := waitAt_eq_waiting.mp hwa
    have h1 : (s.endWait w .withdrawn .withdrawn).SiteLaw r noLease (fun i => W i ∨ i = w) := by
      rw [endWait_eq hst]
      refine .flag ?_ _ _
      unfold State.SiteLaw
      rw [res_setLease, res_setWait, leaseAt_setLease, leaseAt_setWait, waitAt_setLease, waitAt_setWait]
      exact Site.waitGone hs hwa
    have h2 : s.Elsewhere r (s.endWait w .withdrawn .withdrawn) := by
      rw [endWait_eq hst]
      exact .trans (waitGone_elsewhere hs hwa (by simp) rfl) (.flag _ _ _)
    have h3 : (s.endWait w .withdrawn .withdrawn).res r = s.res r := by rw [endWait_eq hst]; rfl
    obtain ⟨h4, h5, h6⟩ := ih _ _ h1 hnd fun i hi => by
      obtain ⟨c', n', l', h'⟩ := hw i (by simp [hi])
      refine ⟨c', n', l', ?_⟩
      rw [endWait_eq hst, waitAt_flag, waitAt_setLease, waitAt_setWait, setAt_apply,
        if_neg (by rintro rfl; exact hnot hi), h']
    refine ⟨?_, h2.trans h5, h6.trans h3⟩
    rw [List.foldl_cons]
    convert h4 using 1
    funext i; simp [or_assoc]

theorem withdrawWaits_site (hs : s.SiteLaw r noLease noWait) :
    (s.withdrawWaits r).SiteLaw r noLease noWait ∧ s.Elsewhere r (s.withdrawWaits r)
      ∧ (s.withdrawWaits r).res r = { s.res r with queue := [] } := by
  obtain ⟨h1, h2, h3⟩ := foldl_endWait_site (s.res r).queue s noWait hs hs.queueNodup fun w hw =>
    ((hs.mem_queue w).mp hw).resolve_right id
  unfold State.withdrawWaits
  dsimp only
  refine ⟨.setRes ?_, h2.trans (.setRes _ _), by rw [res_setRes_self, h3]⟩
  refine Site.withdrawn h1 fun w => (waitAt_free_or w).resolve_right fun hw => ?_
  have hm := (h1.mem_queue w).mpr (.inl hw)
  rw [h3] at hm
  obtain ⟨c, n, l, hw⟩ := hw
  rw [h1.goneWait w (.inr hm)] at hw
  cases hw

theorem retire_sound (hs : s.Sound r) (hr : (s.res r).st ≠ .retiring) :
    (s.retire r).2.Sound r ∧ s.Elsewhere r (s.retire r).2 := by
  obtain ⟨h1, h2, h3⟩ := withdrawWaits_site hs.site
  have hV : ∀ w, (s.withdrawWaits r).waitAt r w = .free := h1.waitAt_free (by rw [h3])
  have hh1 : ((s.withdrawWaits r).res r).holders = (s.res r).holders := by rw [h3]
  unfold State.retire
  dsimp only
  split
  · rename_i hh
    have hn : (s.res r).retireNotice = false := by
      by_contra hne; exact hr (hs.site.notice.mp (by simpa using hne))
    have hslot : (s.res r).slot = none := by
      cases hsl : (s.res r).slot with
      | none => rfl
      | some l => have := hs.site.slotHolder l hsl; rw [hh] at this; cases this
    have hnone : ∀ l, ((s.withdrawWaits r).leaseAt r l).holding? = none := fun l => by
      by_contra hne
      have := Site.mem_holders h1 l |>.mpr (.inl (Option.isSome_iff_ne_none.mpr hne))
      rw [hh1, hh] at this; cases this
    have h4 := Site.retired h1 hnone hV
    unfold State.undefine
    refine ⟨⟨.setRes ?_, by simp⟩, h2.trans (.setRes _ _)⟩
    rw [h3] at h4 ⊢
    simpa [hh, hn, hslot] using h4
  · rename_i hh
    have hrev := foldl_applyRevocation_revoked (c := .retire) (g := (s.res r).attrs.grace) (s.res r).holders _ h1
      (hs.site.holdersNodup) fun l hl => ((h1.mem_holders l).mp (by rw [hh1]; exact hl)).resolve_right id
    set s2 := (s.res r).holders.foldl (State.applyRevocation .retire (s.res r).attrs.grace) (s.withdrawWaits r) with hs2
    obtain ⟨slot, hres⟩ := hrev.res
    rw [h3] at hres
    have hhold : (s2.res r).holders = (s.res r).holders := by rw [hres]
    have hq : (s2.res r).queue = [] := by rw [hres]
    have hn : (s2.res r).retireNotice = false := by
      by_contra hne
      have := hrev.site.notice.mp (by simpa using hne)
      rw [hres] at this; exact hr this
    split
    · obtain ⟨G, h4, h5, h6, h7⟩ := endHolders_site hrev.site (by rw [hhold]; exact fun l hl => graced_term (hrev.graced l hl))
      have hV' : ∀ w, (s2.endHolders r).waitAt r w = .free := fun w => (waitAt_free_or w).resolve_right fun hw => by
        have := (h4.mem_queue w).mpr (.inl hw); simp [hq] at this
      have h8 := h4.retired h7 hV'
      unfold State.undefine
      refine ⟨⟨.setRes ?_, by simp⟩, h2.trans (hrev.elsewhere.trans (h6.trans (.setRes _ _)))⟩
      rw [h5]
      simpa [hq, hn] using h8
    · refine ⟨⟨.setRes ?_, by simp⟩, h2.trans (hrev.elsewhere.trans (.setRes _ _))⟩
      have h8 := Site.drained hrev.site (by rw [hhold]; exact hh) (fun l hl => ?_) (hrev.site.waitAt_free hq)
      · have hsl : (s2.res r).slot = none := by
          cases hsl : (s2.res r).slot with
          | none => rfl
          | some l =>
            exfalso
            obtain ⟨n, hn⟩ := (hrev.site.slot l hsl).resolve_left id
            have hm := hrev.site.slotHolder l hsl
            rw [hhold] at hm
            obtain ⟨h, g, he, _⟩ := hrev.graced l hm
            rw [he] at hn; cases hn
        simpa [hsl, hq] using h8
      · have hm := (hrev.site.mem_holders l).mpr (.inl hl)
        rw [hhold] at hm
        obtain ⟨h, g, he, hc⟩ := hrev.graced l hm
        rw [he]; simp [LeaseState.cause?, hc]

end Sys2Proof.Machine
end

