-- ==== Sys2Proof/Proofs/Lists.lean ====
section
/-! PROOFS. Lists, tombstones, generations and counts (R22, R49, R106, R144, R147) as one predicate, with exceptions while an
operation is under way. -/

namespace Sys2Proof.Machine

variable {s t u : State} {r : ResNo} {l : LeaseNo} {w : WaitNo} {p q : Port} {X Y : Ref → Prop} {x y : Ref} {c : Cause}

/-- The list of port `p` has an entry on the record. -/
def State.lists (s : State) (p : Port) (x : Ref) : Prop := x ∈ (s.attn p).map (·.ref)

/-- The entry that a tombstone wants: one on the record, with the cause given by its bit. -/
def State.tells (s : State) (p : Port) (x : Ref) (bit : Nat) : Prop :=
  ∃ e ∈ s.attn p, e.ref = x ∧ e.causes.getLsbD bit = true

/-- The bit of a wait's end cause (Table 9-1). -/
def WaitEnd.bit (x : WaitEnd) : Nat := if x = .expired then 0 else 1

/-- The laws of lists, tombstones, generations and counts, but for the records `X`: such a lease may have no grace left, and
such a tombstone no entry. -/
structure State.Orderly (X : Ref → Prop) (s : State) : Prop where
  nodup : ∀ p, ((s.attn p).map (·.ref)).Nodup
  lease : ∀ p l, s.lists p (.lease l) → (s.lease l).ownedBy p = true
    ∧ ((s.lease l).isHolder = true ∨ (s.lease l).isEnded = true)
  wait : ∀ p w, s.lists p (.wait w) → (s.wait w).ownedBy p = true ∧ (s.wait w).isEnded = true
  resource : ∀ p r, s.lists p (.resource r) → p = 0
  endedLease : ∀ l h c, (s.lease l).st = .ended h c → X (.lease l) ∨ s.tells h.claim.port (.lease l) 4
  endedWait : ∀ w c e, (s.wait w).st = .ended c e → X (.wait w) ∨ s.tells c.port (.wait w) e.bit
  leaseGen : ∀ l, (s.lease l).isFree = false → (s.lease l).gen ≠ 0
  waitGen : ∀ w, (s.wait w).isFree = false → (s.wait w).gen ≠ 0
  leaseCount : ∀ l, (s.lease l).counts = true ∨ X (.lease l) ∧ ∃ h g, (s.lease l).st = .grace h g
  waitCount : ∀ w, (s.wait w).counts = true

/-- A record may stand in the list of port `p`. -/
def State.Listable (s : State) (p : Port) : Ref → Prop
  | .lease l => (s.lease l).ownedBy p = true ∧ ((s.lease l).isHolder = true ∨ (s.lease l).isEnded = true)
  | .wait w => (s.wait w).ownedBy p = true ∧ (s.wait w).isEnded = true
  | .resource _ => p = 0

/-- No exceptions. -/
abbrev noRef : Ref → Prop := fun _ => False

/-! ### Flaggings and entries (R145, R148) -/

theorem lists_flag : (s.flag p x c).lists q y ↔ s.lists q y ∨ q = p ∧ y = x := by
  unfold State.lists State.flag
  by_cases hq : q = p
  · subst hq
    rw [attn_setAttn_self, map_ref_addCause]
    split
    · next h => exact ⟨.inl, fun h' => h'.elim id fun ⟨_, e⟩ => e ▸ h⟩
    · simp
  · simp [hq]

/-- A flagging takes no cause away. -/
theorem exists_mem_addCause_of_mem {e : Entry} {es : List Entry} (h : e ∈ es) :
    ∃ f ∈ addCause x c es, f.ref = e.ref ∧ ∀ i, e.causes.getLsbD i = true → f.causes.getLsbD i = true := by
  induction es with
  | nil => cases h
  | cons f es ih =>
    unfold addCause
    split
    · rcases List.mem_cons.mp h with rfl | h
      · exact ⟨_, List.mem_cons_self, rfl, fun i hi => by simp [BitVec.getLsbD_or, hi]⟩
      · exact ⟨e, List.mem_cons_of_mem _ h, rfl, fun _ => id⟩
    · rcases List.mem_cons.mp h with rfl | h
      · exact ⟨e, List.mem_cons_self, rfl, fun _ => id⟩
      · obtain ⟨g, hg, h'⟩ := ih h
        exact ⟨g, List.mem_cons_of_mem _ hg, h'⟩

theorem tells_flag {bit : Nat} (h : s.tells q x bit) : (s.flag p y c).tells q x bit := by
  obtain ⟨e, he, href, hbit⟩ := h
  by_cases hq : q = p
  · subst hq
    obtain ⟨f, hf, hfe, hcause⟩ := exists_mem_addCause_of_mem (x := y) (c := c) he
    exact ⟨f, by rw [State.flag, attn_setAttn_self]; exact hf, hfe.trans href, hcause bit hbit⟩
  · exact ⟨e, by rw [State.flag, attn_setAttn_ne _ _ _ hq]; exact he, href, hbit⟩

theorem tells_flag_self {bit : Nat} (hc : c.value.getLsbD bit = true) : (s.flag p x c).tells p x bit := by
  obtain ⟨e, he, href, hand⟩ := exists_mem_addCause x c (s.attn p)
  refine ⟨e, by rw [State.flag, attn_setAttn_self]; exact he, href, ?_⟩
  rw [← hand, BitVec.getLsbD_and, Bool.and_eq_true] at hc
  exact hc.1

theorem lists_withdraw : (s.withdraw p x).lists q y ↔ s.lists q y ∧ ¬ (q = p ∧ y = x) := by
  unfold State.lists State.withdraw
  by_cases hq : q = p
  · subst hq
    simp only [attn_setAttn_self, List.mem_map, List.mem_filter, decide_eq_true_eq]
    constructor
    · rintro ⟨e, ⟨he, hne⟩, rfl⟩
      exact ⟨⟨e, he, rfl⟩, fun h => hne h.2⟩
    · rintro ⟨⟨e, he, rfl⟩, hne⟩
      exact ⟨e, ⟨he, fun h => hne ⟨trivial, h⟩⟩, rfl⟩
  · simp [hq]

theorem tells_withdraw {bit : Nat} (h : s.tells q y bit) (hne : y ≠ x) : (s.withdraw p x).tells q y bit := by
  obtain ⟨e, he, rfl, hbit⟩ := h
  by_cases hq : q = p
  · subst hq
    exact ⟨e, by rw [State.withdraw, attn_setAttn_self]; exact List.mem_filter.mpr ⟨he, by simpa using hne⟩, rfl, hbit⟩
  · exact ⟨e, by rw [State.withdraw, attn_setAttn_ne _ _ _ hq]; exact he, rfl, hbit⟩

namespace State.Orderly

/-! ### Changes of one record or one list -/

/-- Fewer exceptions, where those given up keep the laws; or more. -/
theorem settle (h : s.Orderly X) (hl : ∀ l, X (.lease l) → Y (.lease l)
      ∨ (∀ h c, (s.lease l).st = .ended h c → s.tells h.claim.port (.lease l) 4) ∧ (s.lease l).counts = true)
    (hw : ∀ w, X (.wait w) → Y (.wait w) ∨ ∀ c e, (s.wait w).st = .ended c e → s.tells c.port (.wait w) e.bit) :
    s.Orderly Y where
  nodup := h.nodup
  lease := h.lease
  wait := h.wait
  resource := h.resource
  endedLease l k c hst := (h.endedLease l k c hst).elim (fun hx => (hl l hx).imp_right fun h' => h'.1 k c hst) .inr
  endedWait w c e hst := (h.endedWait w c e hst).elim (fun hx => (hw w hx).imp_right fun h' => h' c e hst) .inr
  leaseGen := h.leaseGen
  waitGen := h.waitGen
  leaseCount l := (h.leaseCount l).elim .inl fun ⟨hx, hg⟩ => (hl l hx).elim (fun hy => .inr ⟨hy, hg⟩) fun h' => .inl h'.2
  waitCount := h.waitCount

theorem mono (h : s.Orderly X) (hxy : ∀ x, X x → Y x) : s.Orderly Y :=
  h.settle (fun _ hx => .inl (hxy _ hx)) fun _ hx => .inl (hxy _ hx)

/-- The same leases, waits and lists. -/
theorem congr (h : s.Orderly X) (hl : t.leases = s.leases) (hw : t.waits = s.waits) (ha : t.attention = s.attention) :
    t.Orderly X := by
  have hlease (l : LeaseNo) : t.lease l = s.lease l := by simp only [State.lease, hl]
  have hwait (w : WaitNo) : t.wait w = s.wait w := by simp only [State.wait, hw]
  have hattn (p : Port) : t.attn p = s.attn p := by simp only [State.attn, ha]
  refine ⟨?_, ?_, ?_, ?_, ?_, ?_, ?_, ?_, ?_, ?_⟩ <;> simp only [State.lists, State.tells, hlease, hwait, hattn]
  · exact h.nodup
  · exact h.lease
  · exact h.wait
  · exact h.resource
  · exact h.endedLease
  · exact h.endedWait
  · exact h.leaseGen
  · exact h.waitGen
  · exact h.leaseCount
  · exact h.waitCount

theorem setRes (h : s.Orderly X) {y : Resource} : (s.setRes r y).Orderly X := h.congr rfl rfl rfl

theorem spendFree (h : s.Orderly X) : s.spendFree.Orderly X := h.congr rfl rfl rfl

/-- A lease record replaced: its entry, if it has one, fits the new record, and a new tombstone is an exception. -/
theorem setLease (h : s.Orderly X) {y : Lease}
    (hlist : ∀ p, s.lists p (.lease l) → y.ownedBy p = true ∧ (y.isHolder = true ∨ y.isEnded = true))
    (hended : ∀ h c, y.st = .ended h c → X (.lease l)) (hgen : y.isFree = false → y.gen ≠ 0)
    (hcount : y.counts = true ∨ X (.lease l) ∧ ∃ h g, y.st = .grace h g) : (s.setLease l y).Orderly X where
  nodup := h.nodup
  lease p i hi := by
    rw [lease_setLease]
    split
    · next e => exact hlist p (e ▸ hi)
    · exact h.lease p i hi
  wait := h.wait
  resource := h.resource
  endedLease i k c hst := by
    rw [lease_setLease] at hst
    split at hst
    · next e => exact .inl (e ▸ hended k c hst)
    · exact h.endedLease i k c hst
  endedWait := h.endedWait
  leaseGen i hi := by
    rw [lease_setLease] at hi ⊢
    split at hi
    · next e => rw [if_pos e]; exact hgen hi
    · next e => rw [if_neg e]; exact h.leaseGen i hi
  waitGen := h.waitGen
  leaseCount i := by
    rw [lease_setLease]
    split
    · next e => exact e ▸ hcount
    · exact h.leaseCount i
  waitCount := h.waitCount

/-- A wait record replaced. -/
theorem setWait (h : s.Orderly X) {y : Wait}
    (hlist : ∀ p, s.lists p (.wait w) → y.ownedBy p = true ∧ y.isEnded = true)
    (hended : ∀ c e, y.st = .ended c e → X (.wait w)) (hgen : y.isFree = false → y.gen ≠ 0)
    (hcount : y.counts = true) : (s.setWait w y).Orderly X where
  nodup := h.nodup
  lease := h.lease
  wait p i hi := by
    rw [wait_setWait]
    split
    · next e => exact hlist p (e ▸ hi)
    · exact h.wait p i hi
  resource := h.resource
  endedLease := h.endedLease
  endedWait i c e hst := by
    rw [wait_setWait] at hst
    split at hst
    · next he => exact .inl (he ▸ hended c e hst)
    · exact h.endedWait i c e hst
  leaseGen := h.leaseGen
  waitGen i hi := by
    rw [wait_setWait] at hi ⊢
    split at hi
    · next e => rw [if_pos e]; exact hgen hi
    · next e => rw [if_neg e]; exact h.waitGen i hi
  leaseCount := h.leaseCount
  waitCount i := by
    rw [wait_setWait]
    split
    · exact hcount
    · exact h.waitCount i

theorem flag (h : s.Orderly X) (hx : s.Listable p x) : (s.flag p x c).Orderly X where
  nodup q := by
    by_cases hq : q = p
    · subst hq
      rw [State.flag, attn_setAttn_self, map_ref_addCause]
      split
      · exact h.nodup q
      · next hnot =>
        exact List.nodup_append.mpr ⟨h.nodup q, by simp, fun a ha b hb e => hnot (List.mem_singleton.mp hb ▸ e ▸ ha)⟩
    · rw [State.flag, attn_setAttn_ne _ _ _ hq]
      exact h.nodup q
  lease q l hl := by
    rcases lists_flag.mp hl with hl | ⟨rfl, rfl⟩
    · exact h.lease q l hl
    · exact hx
  wait q w hw := by
    rcases lists_flag.mp hw with hw | ⟨rfl, rfl⟩
    · exact h.wait q w hw
    · exact hx
  resource q r hr := by
    rcases lists_flag.mp hr with hr | ⟨rfl, rfl⟩
    · exact h.resource q r hr
    · exact hx
  endedLease l k e hst := (h.endedLease l k e hst).imp_right tells_flag
  endedWait w k e hst := (h.endedWait w k e hst).imp_right tells_flag
  leaseGen := h.leaseGen
  waitGen := h.waitGen
  leaseCount := h.leaseCount
  waitCount := h.waitCount

/-- REVOKED on a tombstone: it is no exception any more. -/
theorem revoked (h : s.Orderly X) {k : Holding} {e : RevokeCause} (hl : (s.lease l).st = .ended k e) :
    (s.flag k.claim.port (.lease l) .revoked).Orderly fun y => X y ∧ y ≠ .lease l := by
  have hlisted : s.Listable k.claim.port (.lease l) := by simp [State.Listable, Lease.ownedBy, Lease.claim?, Lease.isEnded, hl]
  refine (h.flag hlisted).settle (fun i hi => ?_) fun w hw => .inl ⟨hw, nofun⟩
  by_cases hil : i = l
  · subst hil
    refine .inr ⟨fun k' e' hst => ?_, by simp [Lease.counts, hl]⟩
    rw [show (s.flag k.claim.port (.lease i) .revoked).lease i = s.lease i from rfl, hl] at hst
    obtain ⟨rfl, -⟩ := LeaseState.ended.inj hst
    exact tells_flag_self (by decide)
  · exact .inl ⟨hi, fun h => hil (Ref.lease.inj h)⟩

/-- The cause of a wait's end on its tombstone: it is no exception any more. -/
theorem waitEnded (h : s.Orderly X) {k : WaitClaim} {e : WaitEnd} (hw : (s.wait w).st = .ended k e)
    (hc : c.value.getLsbD e.bit = true) : (s.flag k.port (.wait w) c).Orderly fun y => X y ∧ y ≠ .wait w := by
  have hlisted : s.Listable k.port (.wait w) := by simp [State.Listable, Wait.ownedBy, Wait.claim?, Wait.isEnded, hw]
  refine (h.flag hlisted).settle (fun i hi => .inl ⟨hi, nofun⟩) fun i hi => ?_
  by_cases hiw : i = w
  · subst hiw
    refine .inr fun k' e' hst => ?_
    rw [show (s.flag k.port (.wait i) c).wait i = s.wait i from rfl, hw] at hst
    obtain ⟨rfl, rfl⟩ := WaitState.ended.inj hst
    exact tells_flag_self hc
  · exact .inl ⟨hi, fun h => hiw (Ref.wait.inj h)⟩

theorem withdraw (h : s.Orderly X) : (s.withdraw p x).Orderly fun y => X y ∨ y = x where
  nodup q := by
    by_cases hq : q = p
    · subst hq
      rw [State.withdraw, attn_setAttn_self]
      exact (h.nodup q).sublist (List.filter_sublist.map _)
    · rw [State.withdraw, attn_setAttn_ne _ _ _ hq]
      exact h.nodup q
  lease q l hl := h.lease q l (lists_withdraw.mp hl).1
  wait q w hw := h.wait q w (lists_withdraw.mp hw).1
  resource q r hr := h.resource q r (lists_withdraw.mp hr).1
  endedLease l k e hst := by
    by_cases hx : Ref.lease l = x
    · exact .inl (.inr hx)
    · exact (h.endedLease l k e hst).imp .inl fun ht => tells_withdraw ht hx
  endedWait w k e hst := by
    by_cases hx : Ref.wait w = x
    · exact .inl (.inr hx)
    · exact (h.endedWait w k e hst).imp .inl fun ht => tells_withdraw ht hx
  leaseGen := h.leaseGen
  waitGen := h.waitGen
  leaseCount l := (h.leaseCount l).imp_right fun ⟨hx, hg⟩ => ⟨.inl hx, hg⟩
  waitCount := h.waitCount

end State.Orderly

end Sys2Proof.Machine
end

