-- ==== Sys2Proof/Proofs/ListOps.lean ====
section
/-! PROOFS. The shared operations keep lists, tombstones, generations and counts in order. -/

namespace Sys2Proof.Machine

variable {s t u : State} {r : ResNo} {l : LeaseNo} {w : WaitNo} {p q : Port} {X Y : Ref → Prop} {x : Ref} {c : Cause}

/-- What a grant at the resource needs of its attributes (R4). -/
def State.Ranged (s : State) (r : ResNo) : Prop := (s.res r).attrs.inRange = true ∨ (s.res r).queue = []

/-- A defined resource has its attributes in range, and an UNDEFINED one no queue. -/
theorem State.Sound.ranged (h : s.Sound r) : s.Ranged r := by
  by_cases hu : (s.res r).st = .undefined
  · exact .inr (h.site.undefined hu).2.1
  · exact .inl (h.site.range hu)

theorem State.Ranged.congr (h : s.Ranged r) (ht : t.res r = s.res r) : t.Ranged r := by
  unfold State.Ranged
  rw [ht]
  exact h

theorem givenTerm_ne_zero {a : Attrs} (h : a.inRange = true) (n : Half) : a.givenTerm n ≠ 0 := by
  simp only [Attrs.inRange, decide_eq_true_eq] at h
  obtain ⟨-, -, hd, hle, -⟩ := h
  unfold Attrs.givenTerm
  split
  · exact hd
  · split
    · bv_omega
    · assumption

namespace State.Orderly

/-- A RESERVED or FREE record is in no list. -/
theorem unlisted (h : s.Orderly X) (hh : (s.lease l).isHolder = false) (he : (s.lease l).isEnded = false) (p : Port) :
    ¬ s.lists p (.lease l) := fun hl => by
  have := (h.lease p l hl).2
  simp [hh, he] at this

theorem unlistedWait (h : s.Orderly X) (he : (s.wait w).isEnded = false) (p : Port) : ¬ s.lists p (.wait w) := fun hw => by
  have := (h.wait p w hw).2
  simp [he] at this

/-- A record out of FREE becomes a holder of the same port. -/
theorem toHolder (h : s.Orderly X) {y : Lease} (hown : ∀ p, (s.lease l).ownedBy p = true → y.ownedBy p = true)
    (hgen : y.gen = (s.lease l).gen) (hold : (s.lease l).isFree = false) (hy : y.isHolder = true)
    (hcount : y.counts = true ∨ X (.lease l) ∧ ∃ h g, y.st = .grace h g) : (s.setLease l y).Orderly X :=
  h.setLease (fun p hp => ⟨hown p (h.lease p l hp).1, .inl hy⟩)
    (fun k c hst => by simp [Lease.isHolder, hst] at hy) (fun _ => hgen ▸ h.leaseGen l hold) hcount

/-- A record in no list returns to FREE. -/
theorem freeLease (h : s.Orderly X) (hl : ∀ p, ¬ s.lists p (.lease l)) : (s.setLease l (s.lease l).freed).Orderly X :=
  h.setLease (fun p hp => absurd hp (hl p)) (fun _ _ hst => absurd hst nofun) (fun hf => absurd hf (by simp [Lease.isFree, Lease.freed]))
    (.inl rfl)

theorem freeWait (h : s.Orderly X) (hw : ∀ p, ¬ s.lists p (.wait w)) : (s.setWait w (s.wait w).freed).Orderly X :=
  h.setWait (fun p hp => absurd hp (hw p)) (fun _ _ hst => absurd hst nofun) (fun hf => absurd hf (by simp [Wait.isFree, Wait.freed]))
    rfl

end State.Orderly

/-! ### The grant pass -/

theorem grantWait_orderly (h : s.Orderly X) (ha : (s.res r).attrs.inRange = true) : (s.grantWait r w).Orderly X := by
  rcases hw : (s.wait w).st with _ | ⟨c, n, l⟩ | ⟨c, e⟩
  · simpa [State.grantWait, hw] using h
  · rcases hl : (s.lease l).st with _ | k | _ | _ | _
    case reserved =>
      rw [grantWait_eq hw hl]
      have hfreed := (h.setRes (r := r) (y := { (s.res r).join l k.mode with queue := (s.res r).queue.filter (· ≠ w) })).freeWait
        (w := w) (h.unlistedWait (by simp [Wait.isEnded, hw]))
      refine .flag (hfreed.setLease ?_ nofun (fun _ => ?_) (.inl ?_)) ?_
      · exact fun p hp => absurd hp (h.unlisted (by simp [Lease.isHolder, hl]) (by simp [Lease.isEnded, hl]) p)
      · exact h.leaseGen l (by simp [Lease.isFree, hl])
      · simpa [Lease.counts, grantedState] using givenTerm_ne_zero ha c.term
      · simp [State.Listable, Lease.ownedBy, Lease.claim?, Lease.isHolder, grantedState]
    all_goals simpa [State.grantWait, hw, hl] using h
  · simpa [State.grantWait, hw] using h

theorem grantShared_orderly (ws : List WaitNo) (s : State) (h : s.Orderly X) (ha : (s.res r).attrs.inRange = true) :
    (s.grantShared r ws).Orderly X := by
  induction ws generalizing s with
  | nil => exact h
  | cons w ws ih =>
    unfold State.grantShared
    split
    · exact ih _ (grantWait_orderly h ha) (by rw [grantWait_kept.1]; exact ha)
    · exact h

theorem grantPass_orderly (h : s.Orderly X) (ha : s.Ranged r) : (s.grantPass r).Orderly X := by
  rcases ha with ha | hq
  · unfold State.grantPass
    split
    · split
      · exact h
      · split
        · exact h
        · split
          · exact grantShared_orderly _ _ (grantWait_orderly h ha) (by rw [grantWait_kept.1]; exact ha)
          · exact grantWait_orderly h ha
    · split
      · exact grantShared_orderly _ _ h ha
      · exact h
    · exact h
  · have : s.grantPass r = s := by
      simp only [State.grantPass, hq, State.grantShared, ite_self]
      split <;> rfl
    rw [this]
    exact h

/-! ### Holders leaving -/

theorem promotionCompletes_orderly (h : s.Orderly X) (ha : s.Ranged r) : (s.promotionCompletes r l).Orderly X := by
  rcases hl : (s.lease l).st with _ | k | ⟨k, a⟩ | _ | _
  case active =>
    have hcount := h.leaseCount l
    simp only [State.promotionCompletes, hl]
    have hset {e : Quad} {m : Mode} {x : Resource} : ((s.setRes r x).setLease l
        ⟨(s.lease l).gen, .active ⟨{ k.claim with mode := m }, e, k.grantedTerm, k.renews⟩ { a with promo := none }⟩).Orderly X := by
      refine h.setRes.toHolder (fun p hp => ?_) rfl (by simp [Lease.isFree, hl]) rfl (.inl ?_)
      · simpa [Lease.ownedBy, Lease.claim?, hl] using hp
      · have := hcount.resolve_right (by simp [hl])
        simp only [Lease.counts, hl, Bool.decide_and, Bool.and_eq_true, decide_eq_true_eq] at this
        simpa [Lease.counts] using this.1
    split
    · refine grantPass_orderly (.flag (hset (m := k.claim.mode) (e := k.epoch)) ?_) ?_
      · simp [State.Listable, Lease.ownedBy, Lease.claim?, Lease.isHolder]
      · simpa [State.Ranged] using ha
    · refine grantPass_orderly (.flag (hset (m := .exclusive) (e := (s.res r).epoch + 1)) ?_) ?_
      · simp [State.Listable, Lease.ownedBy, Lease.claim?, Lease.isHolder, promotedState]
      · simpa [State.Ranged] using ha
  all_goals simpa only [State.promotionCompletes, hl] using h

theorem completeRetirement_orderly (h : s.Orderly X) : (s.completeRetirement r).Orderly X := by
  simp only [State.completeRetirement]
  split
  · exact .flag h.setRes rfl
  · exact h.setRes

theorem lastHolderLeft_orderly (h : s.Orderly X) (ha : s.Ranged r) : (s.lastHolderLeft r).Orderly X := by
  have hpass : (if (s.res r).attrs.settle = 0 then (s.setRes r { s.res r with st := .free }).grantPass r
      else s.setRes r { s.res r with st := .settling (s.res r).attrs.settle }).Orderly X := by
    split
    · exact grantPass_orderly h.setRes (by simpa [State.Ranged] using ha)
    · exact h.setRes
  simp only [State.lastHolderLeft]
  split
  · exact completeRetirement_orderly h
  · exact hpass
  · exact hpass
  · exact h

theorem leave_orderly (h : s.Orderly X) (ha : s.Ranged r) : (s.leave r l).Orderly X := by
  have ha' : (s.setRes r ((s.res r).without l)).Ranged r := by simpa [State.Ranged, Resource.without] using ha
  simp only [State.leave]
  split
  · exact lastHolderLeft_orderly h.setRes ha'
  · split
    · exact promotionCompletes_orderly h.setRes ha'
    · exact grantPass_orderly h.setRes ha'
  · exact grantPass_orderly h.setRes ha'

/-! ### Grace and forced ends -/

/-- A grace of 0 makes the lease an exception until its end. -/
theorem enterGrace_orderly {k : RevokeCause} {g : Byte} (h : s.Orderly X) (hg : g ≠ 0 ∨ X (.lease l)) :
    (s.enterGrace l k g).Orderly X := by
  rcases hl : (s.lease l).st with _ | _ | ⟨k', a⟩ | _ | _
  case active =>
    have hset : (s.setLease l ⟨(s.lease l).gen, .grace k' ⟨g, k, a.sent⟩⟩).Orderly X := by
      refine h.toHolder (fun p hp => ?_) rfl (by simp [Lease.isFree, hl]) rfl (hg.imp ?_ fun hx => ⟨hx, _, _, rfl⟩)
      · simpa [Lease.ownedBy, Lease.claim?, hl] using hp
      · exact fun hg => by simpa [Lease.counts] using hg
    have hlisted : (s.setLease l ⟨(s.lease l).gen, .grace k' ⟨g, k, a.sent⟩⟩).Listable k'.claim.port (.lease l) := by
      simp [State.Listable, Lease.ownedBy, Lease.claim?, Lease.isHolder]
    by_cases hslot : (s.res k'.claim.res).slot = some l
    · rw [enterGrace_slot hl hslot]
      exact .flag (.setRes (.flag hset hlisted)) hlisted
    · rw [enterGrace_eq hl hslot]
      exact .flag hset hlisted
  all_goals simpa only [State.enterGrace, hl] using h

theorem escalate_orderly {k : RevokeCause} {g : Byte} (h : s.Orderly X) (hg : g ≠ 0 ∨ X (.lease l)) :
    (s.escalate l k g).Orderly X := by
  rcases hl : (s.lease l).st with _ | _ | _ | ⟨k', y⟩ | _
  case grace =>
    have hset : (s.setLease l ⟨(s.lease l).gen, .grace k' (y.escalated k g)⟩).Orderly X := by
      refine h.toHolder (fun p hp => ?_) rfl (by simp [Lease.isFree, hl]) rfl ?_
      · simpa [Lease.ownedBy, Lease.claim?, hl] using hp
      · rcases h.leaseCount l with hcount | ⟨hx, -⟩
        · refine hg.imp (fun hg => ?_) fun hx => ⟨hx, _, _, rfl⟩
          simp only [Lease.counts, hl, decide_eq_true_eq] at hcount
          simp only [Lease.counts, GracePart.escalated]
          split
          · exact decide_eq_true hg
          · exact decide_eq_true hcount
        · exact .inr ⟨hx, _, _, rfl⟩
    have hlisted : (s.setLease l ⟨(s.lease l).gen, .grace k' (y.escalated k g)⟩).Listable k'.claim.port (.lease l) := by
      simp [State.Listable, Lease.ownedBy, Lease.claim?, Lease.isHolder]
    rw [escalate_eq hl]
    split
    · exact .flag hset hlisted
    · exact hset
  all_goals simpa only [State.escalate, hl] using h

theorem applyRevocation_orderly {k : RevokeCause} {g : Byte} (h : s.Orderly X) (hg : g ≠ 0 ∨ X (.lease l)) :
    (State.applyRevocation k g s l).Orderly X := by
  unfold State.applyRevocation
  split
  · exact enterGrace_orderly h hg
  · exact escalate_orderly h hg
  · exact h

theorem foldl_applyRevocation_orderly {k : RevokeCause} {g : Byte} (ls : List LeaseNo) (s : State) (h : s.Orderly X)
    (hg : g ≠ 0 ∨ ∀ l ∈ ls, X (.lease l)) : (ls.foldl (State.applyRevocation k g) s).Orderly X := by
  induction ls generalizing s with
  | nil => exact h
  | cons l ls ih =>
    exact ih _ (applyRevocation_orderly h (hg.imp_right fun hx => hx l List.mem_cons_self))
      (hg.imp_right fun hx i hi => hx i (List.mem_cons_of_mem _ hi))

/-- A lease in GRACE becomes a tombstone that has no entry yet. -/
theorem tombstone_orderly {k : Holding} {y : GracePart} (h : s.Orderly X) (hl : (s.lease l).st = .grace k y) :
    (s.setLease l { s.lease l with st := .ended k y.cause }).Orderly fun x => X x ∨ x = .lease l := by
  refine (h.mono fun _ => .inl).setLease (fun p hp => ⟨?_, .inr rfl⟩) (fun _ _ _ => .inr rfl) (fun _ => ?_) (.inl rfl)
  · have := (h.lease p l hp).1
    simpa [Lease.ownedBy, Lease.claim?, hl] using this
  · exact h.leaseGen l (by simp [Lease.isFree, hl])

/-- With REVOKED flagged the tombstone is in order. -/
theorem tombstone_revoked {k : Holding} {y : GracePart} (h : s.Orderly X) (hl : (s.lease l).st = .grace k y) :
    ((s.setLease l { s.lease l with st := .ended k y.cause }).flag k.claim.port (.lease l) .revoked).Orderly
      fun x => X x ∧ x ≠ .lease l :=
  ((tombstone_orderly h hl).revoked (k := k) (e := y.cause) (by rw [lease_setLease_self])).mono
    fun _ hx => ⟨hx.1.resolve_right hx.2, hx.2⟩

theorem endLease_grace {k : Holding} {y : GracePart} (hl : (s.lease l).st = .grace k y) :
    s.endLease l = s.setLease l { s.lease l with st := .ended k y.cause } := by
  simp only [State.endLease, hl]

theorem forcedEnd_orderly {k : Holding} {y : GracePart} (h : s.Orderly X) (hl : (s.lease l).st = .grace k y)
    (ha : s.Ranged k.claim.res) : (s.forcedEnd l).Orderly fun x => X x ∧ x ≠ .lease l := by
  simp only [State.forcedEnd, hl, endLease_grace hl]
  split
  · split
    · have hended : ((s.setLease l { s.lease l with st := .ended k y.cause }).spendFree.lease l).st = .ended k y.cause := by
        rw [show (s.setLease l _).spendFree.lease l = (s.setLease l _).lease l from rfl, lease_setLease_self]
      have hleave := leave_orderly (l := l) (tombstone_orderly h hl).spendFree (r := k.claim.res) ha
      refine (hleave.revoked (k := k) (e := y.cause) ?_).mono fun _ hx => ⟨hx.1.resolve_right hx.2, hx.2⟩
      rw [(leave_ended hended).1]
      exact hended
    · exact leave_orderly (.spendFree (tombstone_revoked h hl)) ha
  · exact leave_orderly (tombstone_revoked h hl) ha

theorem endOne_orderly {k : Holding} {y : GracePart} (h : s.Orderly X) (hl : (s.lease l).st = .grace k y) :
    ((s.endLease l).flagLease l .revoked).Orderly fun x => X x ∧ x ≠ .lease l := by
  have hclaim : (((s.setLease l { s.lease l with st := .ended k y.cause }).lease l).claim?) = some k.claim := by
    rw [lease_setLease_self]
    rfl
  simp only [endLease_grace hl, State.flagLease, hclaim]
  exact tombstone_revoked h hl

theorem lease_endOne_ne {l' : LeaseNo} (hne : l' ≠ l) : ((s.endLease l).flagLease l .revoked).lease l' = s.lease l' := by
  rw [lease_flagLease]
  unfold State.endLease
  split
  · rw [lease_setLease_ne _ _ _ hne]
  · rfl

theorem foldl_endOne_orderly (ls : List LeaseNo) (s : State) (h : s.Orderly X) (hnd : ls.Nodup)
    (hl : ∀ l ∈ ls, ∃ k y, (s.lease l).st = .grace k y) :
    (ls.foldl (fun t l => (t.endLease l).flagLease l .revoked) s).Orderly fun x => X x ∧ ∀ l ∈ ls, x ≠ .lease l := by
  induction ls generalizing s X with
  | nil => exact h.mono fun _ hx => ⟨hx, nofun⟩
  | cons l ls ih =>
    obtain ⟨hnot, hnd⟩ := List.nodup_cons.mp hnd
    obtain ⟨k, y, hst⟩ := hl l List.mem_cons_self
    refine (ih _ (endOne_orderly h hst) hnd fun i hi => ?_).mono fun x hx => ⟨hx.1.1, fun i hi => ?_⟩
    · rw [lease_endOne_ne fun e : i = l => hnot (e ▸ hi)]
      exact hl i (List.mem_cons_of_mem _ hi)
    · rcases List.mem_cons.mp hi with rfl | hi
      · exact hx.1.2
      · exact hx.2 i hi

theorem endHolders_orderly (h : s.Orderly X) (hnd : (s.res r).holders.Nodup)
    (hl : ∀ l ∈ (s.res r).holders, ∃ k y, (s.lease l).st = .grace k y) :
    (s.endHolders r).Orderly fun x => X x ∧ ∀ l ∈ (s.res r).holders, x ≠ .lease l :=
  .setRes (foldl_endOne_orderly _ s h hnd hl)

/-! ### Waits leaving -/

theorem dropWait_orderly (h : s.Orderly X) (ha : s.Ranged r) : (s.dropWait r w).Orderly X := by
  simp only [State.dropWait]
  split
  · refine grantPass_orderly h.setRes (ha.imp (fun ha => ?_) fun hq => ?_)
    · simpa using ha
    · simp [hq]
  · exact h.setRes

/-- The reserved lease of a wait returns to FREE. -/
theorem freeReserved_orderly {k : Claim} (h : s.Orderly X) (hl : (s.lease l).st = .reserved k) :
    (s.setLease l (s.lease l).freed).Orderly X :=
  h.freeLease (h.unlisted (by simp [Lease.isHolder, hl]) (by simp [Lease.isEnded, hl]))

theorem endWait_orderly {k : WaitClaim} {n : Half} {k' : Claim} {e : WaitEnd} (h : s.Orderly X)
    (hw : (s.wait w).st = .waiting k n l) (hl : (s.lease l).st = .reserved k') (hc : c.value.getLsbD e.bit = true) :
    (s.endWait w e c).Orderly X := by
  have hset : (s.setWait w ⟨(s.wait w).gen, .ended k e⟩).Orderly fun x => X x ∨ x = .wait w := by
    refine (h.mono fun _ => .inl).setWait (fun p hp => ⟨?_, rfl⟩) (fun _ _ _ => .inr rfl) (fun _ => ?_) rfl
    · exact absurd hp (h.unlistedWait (by simp [Wait.isEnded, hw]) p)
    · exact h.waitGen w (by simp [Wait.isFree, hw])
  rw [endWait_eq hw]
  refine ((freeReserved_orderly hset (k := k') hl).waitEnded (k := k) (e := e) ?_ hc).mono
    fun x hx => hx.1.resolve_right hx.2
  exact congrArg Wait.st (wait_setWait_self s w _)

/-! ### Contention notices -/

theorem contendHolder_orderly (h : s.Orderly X) : (s.contendHolder l).Orderly X := by
  rcases ht : (s.lease l).toTell
  · rw [contendHolder_untold ht]
    exact h
  · have hclaim := lease_claim_told (s.lease l)
    have hcount := h.leaseCount l
    have hholder : (s.lease l).isHolder = true ∧ (s.lease l).isFree = false ∧ (s.lease l).told.isHolder = true
        ∧ (s.lease l).told.gen = (s.lease l).gen ∧ ((s.lease l).told.counts = true
          ∨ X (.lease l) ∧ ∃ h g, (s.lease l).told.st = .grace h g) := by
      rcases hl : (s.lease l).st <;>
        simp_all [Lease.toTell, Lease.isHolder, Lease.isFree, Lease.told, Lease.counts]
    obtain ⟨hh, hf, hh', hgen, hc⟩ := hholder
    have hset : (s.setLease l (s.lease l).told).Orderly X :=
      h.toHolder (fun p hp => by simpa [Lease.ownedBy, hclaim] using hp) hgen hf hh' hc
    rw [contendHolder_told ht, State.flagLease, lease_setLease_self]
    split
    · next k hk =>
      refine hset.flag ⟨?_, .inl ?_⟩
      · rw [lease_setLease_self]
        exact lease_ownedBy_of_claim hk
      · rw [lease_setLease_self]
        exact hh'
    · exact hset

theorem contend_orderly (ls : List LeaseNo) (s : State) (h : s.Orderly X) : (s.contend ls).Orderly X := by
  induction ls generalizing s with
  | nil => exact h
  | cons l ls ih => exact ih _ (contendHolder_orderly h)

end Sys2Proof.Machine
end

