-- ==== Sys2Proof/Proofs/Lawful.lean ====
section
/-! PROOFS. The laws of the records together, and what keeps them: a session end, and the tick at any record. -/

namespace Sys2Proof.Machine

variable {s t u : State} {r : ResNo} {l : LeaseNo} {w : WaitNo} {p q : Port} {X Y : Ref → Prop} {x : Ref} {c : Cause}
  {st : SessState} {cause : EndCause}

/-! ### A session end (R136, R137) -/

/-- The records of a port are freed and its list emptied. -/
theorem dropPort_orderly (h : s.Orderly noRef) : (s.dropPort p st cause).Orderly noRef := by
  have hlists {q : Port} {x : Ref} (hx : (s.dropPort p st cause).lists q x) : q ≠ p ∧ s.lists q x := by
    unfold State.lists at hx
    rw [attn_dropPort] at hx
    split at hx
    · cases hx
    · exact ⟨‹_›, hx⟩
  have htells {q : Port} {x : Ref} {bit : Nat} (hq : q ≠ p) (ht : s.tells q x bit) :
      (s.dropPort p st cause).tells q x bit := by
    unfold State.tells
    rw [attn_dropPort, if_neg hq]
    exact ht
  have hother {q : Port} {y : Lease} (hq : q ≠ p) (hy : y.ownedBy q = true) : ¬ y.ownedBy p = true := fun hp => by
    rw [lease_ownedBy_iff_place] at hy hp
    exact hq (Option.some.inj (hy.symm.trans hp))
  have hotherWait {q : Port} {y : Wait} (hq : q ≠ p) (hy : y.ownedBy q = true) : ¬ y.ownedBy p = true := fun hp => by
    rw [wait_ownedBy_iff_place] at hy hp
    exact hq (Option.some.inj (hy.symm.trans hp))
  constructor
  case nodup =>
    intro q
    rw [attn_dropPort]
    split
    · exact List.nodup_nil
    · exact h.nodup q
  case lease =>
    intro q l hl
    obtain ⟨hq, hl⟩ := hlists hl
    obtain ⟨hown, hst⟩ := h.lease q l hl
    rw [lease_dropPort, if_neg (hother hq hown)]
    exact ⟨hown, hst⟩
  case wait =>
    intro q w hw
    obtain ⟨hq, hw⟩ := hlists hw
    obtain ⟨hown, hst⟩ := h.wait q w hw
    rw [wait_dropPort, if_neg (hotherWait hq hown)]
    exact ⟨hown, hst⟩
  case resource => exact fun q r hr => h.resource q r (hlists hr).2
  case endedLease =>
    intro l k e hst
    rw [lease_dropPort] at hst
    split at hst
    · cases hst
    · next hown =>
      refine .inr (htells (fun hk => hown ?_) ((h.endedLease l k e hst).resolve_left id))
      rw [← hk]
      exact lease_ownedBy_of_claim (by simp [Lease.claim?, hst])
  case endedWait =>
    intro w k e hst
    rw [wait_dropPort] at hst
    split at hst
    · cases hst
    · next hown =>
      refine .inr (htells (fun hk => hown ?_) ((h.endedWait w k e hst).resolve_left id))
      simp [Wait.ownedBy, Wait.claim?, hst, hk]
  case leaseGen =>
    intro l hl
    rw [lease_dropPort] at hl ⊢
    split at hl
    · cases hl
    · next hown => rw [if_neg hown]; exact h.leaseGen l hl
  case waitGen =>
    intro w hw
    rw [wait_dropPort] at hw ⊢
    split at hw
    · cases hw
    · next hown => rw [if_neg hown]; exact h.waitGen w hw
  case leaseCount =>
    intro l
    rw [lease_dropPort]
    split
    · exact .inl rfl
    · exact h.leaseCount l
  case waitCount =>
    intro w
    rw [wait_dropPort]
    split
    · rfl
    · exact h.waitCount w

theorem treatClaim_orderly (h : s.Orderly X) (k : ResNo × PortClaim) (ha : s.Ranged k.1) : (s.treatClaim k).Orderly X := by
  obtain ⟨r, l | w⟩ := k
  · exact leave_orderly h ha
  · exact dropWait_orderly h ha

theorem foldl_treatClaim_orderly (cs : List (ResNo × PortClaim)) (s : State) (h : s.Orderly X) (ha : ∀ k ∈ cs, s.Ranged k.1)
    (hnd : (cs.map (·.1)).Nodup) : (cs.foldl State.treatClaim s).Orderly X := by
  induction cs generalizing s with
  | nil => exact h
  | cons k cs ih =>
    obtain ⟨hnot, hnd⟩ := List.nodup_cons.mp hnd
    refine ih _ (treatClaim_orderly h k (ha k List.mem_cons_self)) (fun k' hk' => ?_) hnd
    exact (ha k' (List.mem_cons_of_mem _ hk')).congr
      ((treatClaim_opAt s k).other k'.1 fun e => hnot (List.mem_map.mpr ⟨k', hk', e⟩))

theorem endSession_orderly (h : s.Orderly noRef) (ha : ∀ r, s.Ranged r) : (s.endSession p st cause).Orderly noRef := by
  have hperm := sortByRank_perm (fun c : ResNo × PortClaim => Config.treatmentRank s.freeCount c.1) (s.claims p)
  rw [endSession_eq]
  refine foldl_treatClaim_orderly _ _ (dropPort_orderly h).spendFree (fun k _ => by
    have hres : (s.dropPort p st cause).spendFree.res k.1 = s.res k.1 := by
      rw [State.spendFree, res_with_freeCount, res_dropPort]
    exact (ha k.1).congr hres) ?_
  exact (hperm.map _).nodup_iff.mpr claims_nodup

/-! ### Sessions -/

/-- The session record is within its ranges (R106, Table 8-1). -/
def Session.Kept (x : Session) : Prop := (x.leaseQuota.toNat ≤ 96 ∧ x.waitQuota.toNat ≤ 48) ∧ x.counts = true

/-- The laws of the records, of the timebase and of countdowns still due. -/
structure State.Lawful (s : State) : Prop where
  sound : ∀ r, s.Sound r
  orderly : s.Orderly noRef
  quiet : s.SessionLaw
  session : ∀ p, (s.session p).Kept
  clock : s.TimebaseLaw
  due : s.DueLaw

theorem State.Lawful.silent (h : s.Lawful) (hp : s.attached p = false) : s.Silent p where
  lease := (h.quiet p hp).2.1
  wait := (h.quiet p hp).2.2
  zero hz := hz ▸ hp

/-- A port that owns a record is ATTACHED (R128). -/
theorem State.Lawful.attached (h : s.Lawful) (hp : ¬ s.Silent p) : s.attached p = true := by
  rcases ha : s.attached p
  · exact absurd (h.silent ha) hp
  · rfl

/-- A tame change keeps the law of the sessions. -/
theorem State.Tame.sessionLaw (ht : s.Tame t) (h : s.SessionLaw) : t.SessionLaw := fun p hp => by
  rw [ht.attached] at hp
  have hsilent : s.Silent p := ⟨(h p hp).2.1, (h p hp).2.2, fun hz => hz ▸ hp⟩
  exact ⟨(ht.quiet p hsilent).trans (h p hp).1, (ht.silent hsilent).lease, (ht.silent hsilent).wait⟩

theorem State.Lawful.ofTame (h : s.Lawful) (ht : s.Tame t) (hs : ∀ r, t.Sound r) (ho : t.Orderly noRef) : t.Lawful where
  sound := hs
  orderly := ho
  quiet := ht.sessionLaw h.quiet
  session p := by
    simp only [State.session, ht.sessions]
    exact h.session p
  clock := by
    unfold State.TimebaseLaw
    rw [ht.timebase]
    exact h.clock
  due := by
    unfold State.DueLaw
    rw [ht.due, ht.rstN, ht.timebase]
    exact h.due

/-- Other stores and the pins. -/
theorem State.Lawful.congr (h : s.Lawful) (hr : t.resources = s.resources) (hl : t.leases = s.leases)
    (hw : t.waits = s.waits) (ha : t.attention = s.attention) (hses : t.sessions = s.sessions)
    (ht : t.TimebaseLaw) (hd : t.DueLaw) : t.Lawful where
  sound r := by
    have hres : t.res r = s.res r := by simp only [State.res, hr]
    have hlease : t.leaseAt r = s.leaseAt r := by funext l; simp only [State.leaseAt, State.lease, hl]
    have hwait : t.waitAt r = s.waitAt r := by funext w; simp only [State.waitAt, State.wait, hw]
    exact ⟨(h.sound r).site.of_eq hres hlease hwait, by rw [hres]; exact (h.sound r).served⟩
  orderly := h.orderly.congr hl hw ha
  quiet p hp := by
    simp only [State.attached, State.session, hses] at hp
    simp only [State.attn, State.lease, State.wait, ha, hl, hw]
    exact h.quiet p hp
  session p := by
    simp only [State.session, hses]
    exact h.session p
  clock := ht
  due := hd

theorem State.Lawful.setLink (h : s.Lawful) {k : Link} : (s.setLink p k).Lawful := h.congr rfl rfl rfl rfl rfl h.clock h.due

/-- A session record replaced by one that is as open. -/
theorem State.Lawful.setSession (h : s.Lawful) {y : Session} (hy : y.Kept)
    (ha : y.isAttached = false → s.attached p = false ∨ s.attn p = [] ∧ (∀ l, (s.lease l).ownedBy p = false)
      ∧ ∀ w, (s.wait w).ownedBy p = false) : (s.setSession p y).Lawful where
  sound r := ⟨(h.sound r).site, (h.sound r).served⟩
  orderly := h.orderly.congr rfl rfl rfl
  quiet q hq := by
    by_cases hqp : q = p
    · subst hqp
      simp only [State.attached, session_setSession_self] at hq
      rcases ha hq with h' | h'
      · exact h.quiet q h'
      · exact h'
    · have : s.attached q = false := by simpa [State.attached, session_setSession, hqp] using hq
      exact h.quiet q this
  session q := by
    rw [session_setSession]
    split
    · exact hy
    · exact h.session q
  clock := h.clock
  due := h.due

/-- The end of a session leaves the port without records, and its quotas. -/
theorem endSession_lawful (h : s.Lawful) (hst : ∀ n, st ≠ .attached n) : (s.endSession p st cause).Lawful where
  sound := endSession_sound h.sound
  orderly := endSession_orderly h.orderly fun r => (h.sound r).ranged
  quiet q hq := by
    rw [endSession_eq] at hq ⊢
    have htame := foldl_treatClaim_tame (sortByRank (fun c => Config.treatmentRank s.freeCount c.1) (s.claims p))
      (s.dropPort p st cause).spendFree
    rw [htame.attached] at hq
    have hdrop : (s.dropPort p st cause).Silent q ∧ (s.dropPort p st cause).attn q = [] := by
      by_cases hqp : q = p
      · subst hqp
        exact ⟨silent_dropPort hst, by rw [attn_dropPort, if_pos rfl]⟩
      · have hatt : s.attached q = false := by
          have : (s.dropPort p st cause).attached q = false := hq
          simpa only [State.attached, session_dropPort, if_neg hqp] using this
        have hsilent := h.silent hatt
        refine ⟨⟨fun l => ?_, fun w => ?_, fun hz => ?_⟩, ?_⟩
        · rw [lease_dropPort]
          split
          · rfl
          · exact hsilent.lease l
        · rw [wait_dropPort]
          split
          · rfl
          · exact hsilent.wait w
        · rw [← hz]
          exact hq
        · rw [attn_dropPort, if_neg hqp]
          exact (h.quiet q hatt).1
    have hs : (s.dropPort p st cause).spendFree.Silent q := ⟨hdrop.1.lease, hdrop.1.wait, hdrop.1.zero⟩
    exact ⟨(htame.quiet q hs).trans hdrop.2, (htame.silent hs).lease, (htame.silent hs).wait⟩
  session q := by
    rw [endSession_eq]
    have htame := foldl_treatClaim_tame (sortByRank (fun c => Config.treatmentRank s.freeCount c.1) (s.claims p))
      (s.dropPort p st cause).spendFree
    have hsession : ((sortByRank (fun c => Config.treatmentRank s.freeCount c.1) (s.claims p)).foldl State.treatClaim
        (s.dropPort p st cause).spendFree).session q = (s.dropPort p st cause).session q := by
      simp only [State.session, htame.sessions]
      rfl
    rw [hsession, session_dropPort]
    split
    · refine ⟨(h.session p).1, ?_⟩
      rcases st with _ | n | _
      · rfl
      · exact absurd rfl (hst n)
      · rfl
    · exact h.session q
  clock := by
    unfold State.TimebaseLaw
    rw [endSession_frame.timebase]
    exact h.clock
  due := by
    unfold State.DueLaw
    rw [endSession_frame.due, endSession_frame.rstN, endSession_frame.timebase]
    exact h.due

theorem loseSession_lawful (h : s.Lawful) : (s.loseSession p cause).Lawful := by
  rw [loseSession_eq]
  exact (endSession_lawful h fun _ hst => SessState.noConfusion hst).setLink

/-! ### The tick at any record (R106) -/

theorem half_sub_one_ne_zero {n : Half} (h : ¬ n.toNat ≤ 1) : n - 1 ≠ 0 := by bv_omega

theorem byte_sub_one_ne_zero {n : Byte} (h : ¬ n.toNat ≤ 1) : n - 1 ≠ 0 := by bv_omega

theorem tickSettle_orderly (h : s.Orderly noRef) (ha : s.Ranged r) : (s.tickSettle r).Orderly noRef := by
  simp only [State.tickSettle]
  split
  · split
    · exact grantPass_orderly h.setRes (by simpa [State.Ranged] using ha)
    · exact h.setRes
  · exact h

theorem termExpires_orderly (h : s.Lawful) : (s.termExpires l).Orderly noRef := by
  rcases hl : (s.lease l).st with _ | _ | ⟨k, a⟩ | _ | _
  case active =>
    have hla : s.leaseAt k.claim.res l = .active k a := leaseAt_eq_active.mpr ⟨hl, rfl⟩
    obtain ⟨h1, -, hres, hseen⟩ := enterGrace_site (c := .term) (g := (s.res k.claim.res).attrs.grace)
      (h.sound k.claim.res).site hla
    have hranged : (s.enterGrace l .term (s.res k.claim.res).attrs.grace).Ranged k.claim.res := by
      have := (h.sound k.claim.res).ranged
      unfold State.Ranged at this ⊢
      rw [hres]
      exact this
    have hgraced : (s.enterGrace l .term (s.res k.claim.res).attrs.grace).leaseAt k.claim.res l =
        .grace k ⟨(s.res k.claim.res).attrs.grace, .term, a.sent⟩ := by
      rw [hseen]
      simp [setAt_apply]
    have hnext : ∃ u : State, u = (if (s.res k.claim.res).attrs.grace = 0
        then (s.enterGrace l .term (s.res k.claim.res).attrs.grace).forcedEnd l
        else s.enterGrace l .term (s.res k.claim.res).attrs.grace) ∧ u.Orderly noRef ∧ u.Ranged k.claim.res := by
      refine ⟨_, rfl, ?_⟩
      split
      · refine ⟨?_, (forcedEnd_sound h1 hgraced).1.ranged⟩
        have := forcedEnd_orderly (enterGrace_orderly (h.orderly.mono (Y := (· = .lease l)) nofun) (.inr rfl))
          (leaseAt_eq_grace.mp hgraced).1 hranged
        exact this.mono fun _ hx => hx.2 hx.1
      · exact ⟨enterGrace_orderly h.orderly (.inl ‹_›), hranged⟩
    obtain ⟨u, hu, horderly, hr⟩ := hnext
    simp only [State.termExpires, hl, ← hu]
    split
    · exact grantPass_orderly horderly hr
    · exact horderly
  all_goals simpa only [State.termExpires, hl] using h.orderly

theorem tickLease_orderly (h : s.Lawful) : (s.tickLease l).Orderly noRef := by
  have hcount := (h.orderly.leaseCount l).resolve_right fun hx => hx.1
  rcases hl : (s.lease l).st with _ | _ | ⟨k, a⟩ | ⟨k, y⟩ | _
  case active =>
    simp only [State.tickLease, hl]
    split
    · exact termExpires_orderly h
    · next hn =>
      refine h.orderly.toHolder (fun p hp => ?_) rfl (by simp [Lease.isFree, hl]) rfl (.inl ?_)
      · simpa [Lease.ownedBy, Lease.claim?, hl] using hp
      · simp only [Lease.counts, hl, Bool.decide_and, Bool.and_eq_true, decide_eq_true_eq] at hcount
        simpa [Lease.counts] using ⟨half_sub_one_ne_zero hn, hcount.2⟩
  case grace =>
    simp only [State.tickLease, hl]
    split
    · exact (forcedEnd_orderly h.orderly hl (h.sound _).ranged).mono fun _ hx => hx.1
    · next hn =>
      refine h.orderly.toHolder (fun p hp => ?_) rfl (by simp [Lease.isFree, hl]) rfl (.inl ?_)
      · simpa [Lease.ownedBy, Lease.claim?, hl] using hp
      · simpa [Lease.counts] using byte_sub_one_ne_zero hn
  all_goals simpa only [State.tickLease, hl] using h.orderly

theorem tickPromo_orderly (h : s.Lawful) : (s.tickPromo l).Orderly noRef := by
  have hcount := (h.orderly.leaseCount l).resolve_right fun hx => hx.1
  rcases hl : (s.lease l).st with _ | _ | ⟨k, a⟩ | _ | _
  case active =>
    have hset (b : ActivePart) (hb : b.termLeft = a.termLeft) (hp : b.promo ≠ some 0) :
        (s.setLease l ⟨(s.lease l).gen, .active k b⟩).Orderly noRef := by
      refine h.orderly.toHolder (fun p hp => ?_) rfl (by simp [Lease.isFree, hl]) rfl (.inl ?_)
      · simpa [Lease.ownedBy, Lease.claim?, hl] using hp
      · simp only [Lease.counts, hl, Bool.decide_and, Bool.and_eq_true, decide_eq_true_eq] at hcount
        simpa [Lease.counts, hb] using ⟨hcount.1, hp⟩
    simp only [State.tickPromo, hl]
    split
    · split
      · refine grantPass_orderly (.flag (.setRes (hset { a with promo := none } rfl nofun)) ?_) ?_
        · simp [State.Listable, Lease.ownedBy, Lease.claim?, Lease.isHolder]
        · simpa [State.Ranged] using (h.sound k.claim.res).ranged
      · next n _ hn => exact hset { a with promo := some (n - 1) } rfl fun e => half_sub_one_ne_zero hn (Option.some.inj e)
    · exact h.orderly
  all_goals simpa only [State.tickPromo, hl] using h.orderly

/-- The lease reserved for a WAITING wait is RESERVED (R50). -/
theorem State.Lawful.reserved (h : s.Lawful) {k : WaitClaim} {n : Half} (hw : (s.wait w).st = .waiting k n l) :
    (s.lease l).st = .reserved k.leaseClaim :=
  (leaseAt_eq_reserved.mp ((h.sound k.res).site.reserve w k n l (waitAt_eq_waiting.mpr ⟨hw, rfl⟩))).1

theorem tickWait_orderly (h : s.Lawful) : (s.tickWait w).Orderly noRef := by
  rcases hw : (s.wait w).st with _ | ⟨k, n, l⟩ | _
  case waiting =>
    simp only [State.tickWait, hw]
    split
    · refine dropWait_orderly (endWait_orderly h.orderly hw (h.reserved hw) (by decide)) ?_
      rw [endWait_eq hw]
      exact (h.sound k.res).ranged
    · next hn =>
      refine h.orderly.setWait (fun p hp => ?_) nofun (fun _ => ?_) ?_
      · exact absurd hp (h.orderly.unlistedWait (by simp [Wait.isEnded, hw]) p)
      · exact h.orderly.waitGen w (by simp [Wait.isFree, hw])
      · simpa [Wait.counts] using half_sub_one_ne_zero hn
  all_goals simpa only [State.tickWait, hw] using h.orderly

theorem tickLive_lawful (h : s.Lawful) : (s.tickLive p).Lawful := by
  unfold State.tickLive
  split
  · next n hn =>
    split
    · exact loseSession_lawful h
    · next hgt =>
      refine h.setSession ⟨(h.session p).1, ?_⟩ (fun ha => by cases ha)
      have := (h.session p).2
      simp only [Session.counts, hn, decide_eq_true_eq] at this
      simpa [Session.counts] using ⟨this.1, half_sub_one_ne_zero hgt⟩
  · exact h

theorem tickAt_lawful (h : s.Lawful) (x : TickRef) : (s.tickAt x).Lawful := by
  have hs := tickAt_sound x h.sound
  cases x with
  | settle r => exact h.ofTame tickSettle_tame hs (tickSettle_orderly h.orderly (h.sound r).ranged)
  | lease l => exact h.ofTame tickLease_tame hs (tickLease_orderly h)
  | promo l => exact h.ofTame tickPromo_tame hs (tickPromo_orderly h)
  | wait w => exact h.ofTame tickWait_tame hs (tickWait_orderly h)
  | live p => exact tickLive_lawful h

end Sys2Proof.Machine
end

