-- ==== Sys2Proof/Proofs/LawfulLeases.lean ====
section
/-! PROOFS. The laws of the records under the requests on leases and waits. -/

namespace Sys2Proof.Machine

variable {s t : State} {r : ResNo} {l : LeaseNo} {w : WaitNo} {p : Port} {c : RevokeCause}

/-! ### Tombstones that are answered for or fetched (R39, R42, R63) -/

/-- A lease record that no resource sees. -/
theorem State.Sound.setLease_unseen {y : Lease} (h : s.Sound r) (hl : s.leaseAt r l = .free) (hy : y.seenAt r = .free) :
    (s.setLease l y).Sound r :=
  ⟨.setLease (by rw [hy, setAt_same hl]; exact h.site), h.served⟩

theorem State.Sound.setWait_unseen {y : Wait} (h : s.Sound r) (hw : s.waitAt r w = .free) (hy : y.seenAt r = .free) :
    (s.setWait w y).Sound r := by
  refine ⟨?_, h.served⟩
  unfold State.SiteLaw
  rw [waitAt_setWait, hy, setAt_same hw]
  exact h.site

/-- A lease whose entry is withdrawn returns to FREE. -/
theorem freed_withdraw_orderly (h : s.Orderly noRef) (hp : (s.lease l).ownedBy p = true) :
    ((s.setLease l (s.lease l).freed).withdraw p (.lease l)).Orderly noRef := by
  have hfree : ((s.withdraw p (.lease l)).setLease l (s.lease l).freed).Orderly fun y => False ∨ y = .lease l := by
    refine State.Orderly.freeLease (h.withdraw (x := .lease l)) fun q hq => ?_
    obtain ⟨hlist, hne⟩ := lists_withdraw.mp hq
    have hown := (h.lease q l hlist).1
    rw [lease_ownedBy_iff_place] at hown hp
    exact hne ⟨Option.some.inj (hown.symm.trans hp), rfl⟩
  refine hfree.settle (fun i hi => .inr ?_) fun w hw => absurd hw (by simp)
  obtain rfl : i = l := by simpa using hi
  rw [lease_setLease_self]
  exact ⟨fun _ _ hst => absurd hst (by simp [Lease.freed]), rfl⟩

theorem freedWait_withdraw_orderly (h : s.Orderly noRef) (hp : (s.wait w).ownedBy p = true) :
    ((s.setWait w (s.wait w).freed).withdraw p (.wait w)).Orderly noRef := by
  have hfree : ((s.withdraw p (.wait w)).setWait w (s.wait w).freed).Orderly fun y => False ∨ y = .wait w := by
    refine State.Orderly.freeWait (h.withdraw (x := .wait w)) fun q hq => ?_
    obtain ⟨hlist, hne⟩ := lists_withdraw.mp hq
    have hown := (h.wait q w hlist).1
    rw [wait_ownedBy_iff_place] at hown hp
    exact hne ⟨Option.some.inj (hown.symm.trans hp), rfl⟩
  refine hfree.settle (fun i hi => absurd hi (by simp)) fun i hi => .inr ?_
  obtain rfl : i = w := by simpa using hi
  rw [wait_setWait_self]
  exact fun _ _ hst => absurd hst (by simp [Wait.freed])

theorem freed_withdraw_tame (hp : (s.lease l).ownedBy p = true) :
    s.Tame ((s.setLease l (s.lease l).freed).withdraw p (.lease l)) :=
  .trans (t := s.withdraw p (.lease l)) (.setAttn (not_silent_of_lease hp)) (.setLease (.inr rfl))

theorem freedWait_withdraw_tame (hp : (s.wait w).ownedBy p = true) :
    s.Tame ((s.setWait w (s.wait w).freed).withdraw p (.wait w)) :=
  .trans (t := s.withdraw p (.wait w)) (.setAttn (not_silent_of_wait hp)) (.setWait (.inr rfl))

theorem leaseAt_of_ended {k : Holding} (hl : (s.lease l).st = .ended k c) (r : ResNo) : s.leaseAt r l = .free := by
  simp [State.leaseAt, Lease.seenAt, hl]

theorem waitAt_of_ended {k : WaitClaim} {e : WaitEnd} (hw : (s.wait w).st = .ended k e) (r : ResNo) :
    s.waitAt r w = .free := by
  simp [State.waitAt, Wait.seenAt, hw]

theorem answerEnded_lawful {k : Holding} (h : s.Lawful) (hp : (s.lease l).ownedBy p = true)
    (hl : (s.lease l).st = .ended k c) : (s.answerEnded p l c).2.Lawful :=
  h.ofTame (freed_withdraw_tame hp)
    (fun r => ⟨((h.sound r).setLease_unseen (y := (s.lease l).freed) (leaseAt_of_ended hl r) rfl).site, (h.sound r).served⟩)
    (freed_withdraw_orderly h.orderly hp)

/-! ### RENEW and RELEASE -/

/-- A resource that holds a lease has its attributes in range (R4). -/
theorem State.SiteLaw.inRange_of_holding {G : LeaseNo → Prop} {W : WaitNo → Prop} {k : Claim} {e : Quad}
    (hs : s.SiteLaw r G W) (hl : (s.leaseAt r l).holding? = some (k, e)) : (s.res r).attrs.inRange = true := by
  refine hs.range fun hu => ?_
  have hm := hs.mem_of_holding hl
  rw [(hs.undefined hu).1] at hm
  cases hm

theorem renewed_lawful {k : Holding} {n : Half} {promo : Option Half} (h : s.Lawful) (hn : n ≠ 0)
    (hl : (∃ a, (s.lease l).st = .active k a ∧ a.promo = promo)
      ∨ ∃ g, (s.lease l).st = .grace k g ∧ g.cause = .term ∧ promo = none) :
    (s.setLease l { s.lease l with st := renewedState k n promo }).Lawful := by
  have hholder : (s.lease l).claim? = some k.claim ∧ (s.lease l).isFree = false := by
    rcases hl with ⟨a, hl, -⟩ | ⟨g, hl, -⟩ <;> simp [Lease.claim?, Lease.isFree, hl]
  have hpromo : promo ≠ some 0 := by
    rcases hl with ⟨a, hl, rfl⟩ | ⟨g, hl, -, rfl⟩
    · have hcount := (h.orderly.leaseCount l).resolve_right fun hx => hx.1
      simp only [Lease.counts, hl, Bool.decide_and, Bool.and_eq_true, decide_eq_true_eq] at hcount
      exact hcount.2
    · nofun
  refine h.ofTame (.setLease (.inl ?_)) (fun r => ?_) ?_
  · rw [lease_place_of_claim hholder.1, lease_place_of_claim (c := k.claim) rfl]
  · rcases hl with ⟨a, hl, ha⟩ | ⟨g, hl, hg, rfl⟩
    · exact (h.sound r).sameRole (c := k.claim) (e := k.epoch) (by rw [hl]; rfl) rfl
        (by rw [hl]; simp [LeaseState.promo?, renewedState, ha]) (by rw [hl]; simp [LeaseState.cause?])
    · by_cases hr : k.claim.res = r
      · refine ⟨.setLease ?_, (h.sound r).served⟩
        rw [renewedState, seenAt_mk_active _ _ (by exact hr)]
        exact (h.sound r).site.rescue (leaseAt_eq_grace.mpr ⟨hl, hr⟩) (by rw [hg]; nofun) rfl rfl rfl
      · refine (h.sound r).setLease_unseen (seenAt_off ?_) (seenAt_off ?_)
        · intro c hc; rw [hl] at hc; cases hc; exact hr
        · intro c hc; cases hc; exact hr
  · refine h.orderly.toHolder (fun q hq => ?_) rfl hholder.2 rfl (.inl ?_)
    · rw [Lease.ownedBy, hholder.1] at hq
      exact hq
    · simpa [Lease.counts, renewedState] using ⟨hn, hpromo⟩

theorem State.Lawful.flagHolder {x : Cause} (h : s.Lawful) (hp : (s.lease l).ownedBy p = true)
    (hl : (s.lease l).isHolder = true) : (s.flag p (.lease l) x).Lawful :=
  h.ofTame (.flagOwner hp) (fun r => (h.sound r).flag _ _) (h.orderly.flag ⟨hp, .inl hl⟩)

theorem renewLease_lawful (h : s.Lawful) (hp : (s.lease l).ownedBy p = true) (body : List Byte) :
    (renewLease l p body s).2.Lawful := by
  rcases hl : (s.lease l).st with _ | _ | ⟨k, a⟩ | ⟨k, g⟩ | ⟨k, c⟩
  case active =>
    simp only [renewLease, hl]
    refine renewed_lawful h (givenTerm_ne_zero ?_ _) (.inl ⟨a, hl, rfl⟩)
    exact (h.sound _).site.inRange_of_holding (k := k.claim) (e := k.epoch) (l := l) (by rw [leaseAt_eq_active.mpr ⟨hl, rfl⟩]; rfl)
  case grace =>
    simp only [renewLease, hl]
    split
    · next hg =>
      refine (renewed_lawful h (givenTerm_ne_zero ?_ _) (.inr ⟨g, hl, hg, rfl⟩)).flagHolder ?_ ?_
      · exact (h.sound _).site.inRange_of_holding (k := k.claim) (e := k.epoch) (l := l) (by rw [leaseAt_eq_grace.mpr ⟨hl, rfl⟩]; rfl)
      · rw [lease_setLease_self]
        simpa [Lease.ownedBy, Lease.claim?, hl, renewedState] using hp
      · rw [lease_setLease_self]
        rfl
    · exact h
  case ended => simpa only [renewLease, hl] using answerEnded_lawful h hp hl
  all_goals simpa only [renewLease, hl] using h

theorem releaseHolder_lawful {k : Holding} (h : s.Lawful) (hp : (s.lease l).ownedBy p = true)
    (hl : (∃ a, (s.lease l).st = .active k a) ∨ ∃ g, (s.lease l).st = .grace k g) :
    (s.releaseHolder p l k.claim.res).Lawful := by
  have hholding : (s.leaseAt k.claim.res l).holding? = some (k.claim, k.epoch) := by
    rcases hl with ⟨a, hl⟩ | ⟨g, hl⟩
    · rw [leaseAt_eq_active.mpr ⟨hl, rfl⟩]; rfl
    · rw [leaseAt_eq_grace.mpr ⟨hl, rfl⟩]; rfl
  have hlive : ∀ c, (s.lease l).st.live? = some c → c.res = k.claim.res := by
    rcases hl with ⟨a, hl⟩ | ⟨g, hl⟩ <;> (intro c hc; rw [hl] at hc; cases hc; rfl)
  have hgone := holderGone_one (y := (s.lease l).freed) (h.sound k.claim.res).site hholding rfl
  obtain ⟨hsound, helse⟩ := leave_sound (s := (s.setLease l (s.lease l).freed).withdraw p (.lease l)) hgone
  refine h.ofTame ((freed_withdraw_tame hp).trans leave_tame) ?_
    (leave_orderly (freed_withdraw_orderly h.orderly hp) (h.sound k.claim.res).ranged)
  exact (State.Elsewhere.trans (.setLease hlive fun c hc => by cases hc) (.trans (.setAttn _ _) helse)).all_sound h.sound hsound

theorem releaseLease_lawful (h : s.Lawful) (hp : (s.lease l).ownedBy p = true) (body : List Byte) :
    (releaseLease l p body s).2.Lawful := by
  rcases hl : (s.lease l).st with _ | _ | ⟨k, a⟩ | ⟨k, g⟩ | ⟨k, c⟩
  case active => simpa only [releaseLease, hl] using releaseHolder_lawful h hp (.inl ⟨a, hl⟩)
  case grace => simpa only [releaseLease, hl] using releaseHolder_lawful h hp (.inr ⟨g, hl⟩)
  case ended => simpa only [releaseLease, hl] using answerEnded_lawful h hp hl
  all_goals simpa only [releaseLease, hl] using h

/-! ### PROMOTE and DEMOTE -/

/-- An ACTIVE lease in mode SHARED stands at a SHARED resource (R3). -/
theorem State.SiteLaw.shared_of_active {k : Holding} {a : ActivePart} (hs : s.SiteLaw r noLease noWait)
    (hl : s.leaseAt r l = .active k a) (hm : k.claim.mode ≠ .exclusive) : (s.res r).st = .shared := by
  have hhold : (s.leaseAt r l).holding? = some (k.claim, k.epoch) := by rw [hl]; rfl
  have hmem := hs.mem_of_holding hhold
  rcases holder_st hs (List.ne_nil_of_mem hmem) with hst | hst | hst
  · exact absurd ((hs.exclusive hst).2 l _ _ hhold) hm
  · exact hst
  · have := (hs.retiring hst).2.2 l _ _ hhold
    rw [hl] at this
    cases this

theorem promoteNow_lawful {k : Holding} {a : ActivePart} (h : s.Lawful) (hl : (s.lease l).st = .active k a)
    (hm : k.claim.mode ≠ .exclusive) (hslot : (s.res k.claim.res).slot = none) (hh : (s.res k.claim.res).holders = [l]) :
    (s.promoteNow l k a).2.Lawful := by
  have hla : s.leaseAt k.claim.res l = .active k a := leaseAt_eq_active.mpr ⟨hl, rfl⟩
  have hsite := (h.sound k.claim.res).site
  have hnew : (s.promoteNow l k a).2.Sound k.claim.res := by
    refine ⟨.setLease ?_, by simp [State.promoteNow]⟩
    rw [res_setRes_self, leaseAt_setRes, waitAt_setRes, promotedState, seenAt_mk_active _ _ (by exact rfl)]
    have := hsite.promoted (h' := ⟨{ k.claim with mode := .exclusive }, (s.res k.claim.res).epoch + 1, k.grantedTerm, k.renews⟩)
      (a' := { a with promo := none }) hla hh (hsite.shared_of_active hla hm) rfl rfl rfl
    rw [← hslot] at this
    exact this
  have helse : s.Elsewhere k.claim.res (s.promoteNow l k a).2 := by
    refine .trans (.setRes s _) (.setLease ?_ ?_)
    · intro c hc; rw [lease_setRes, hl] at hc; cases hc; rfl
    · intro c hc; cases hc; rfl
  refine h.ofTame (.trans .setRes (.setLease (.inl ?_))) (helse.all_sound h.sound hnew) ?_
  · rw [lease_setRes, lease_place_of_claim (x := s.lease l) (c := k.claim) (by simp [Lease.claim?, hl])]
    rfl
  · have hcount := (h.orderly.leaseCount l).resolve_right fun hx => hx.1
    simp only [Lease.counts, hl, Bool.decide_and, Bool.and_eq_true, decide_eq_true_eq] at hcount
    refine State.Orderly.toHolder h.orderly.setRes (fun q hq => ?_) rfl (by simp [Lease.isFree, hl]) rfl (.inl ?_)
    · simpa [Lease.ownedBy, Lease.claim?, hl, promotedState] using hq
    · simpa [Lease.counts, promotedState] using hcount.1

theorem promotePending_lawful {k : Holding} {a : ActivePart} {n : Half} (h : s.Lawful) (hl : (s.lease l).st = .active k a)
    (hm : k.claim.mode ≠ .exclusive) (hslot : (s.res k.claim.res).slot = none) (hn : n ≠ 0) :
    (s.promotePending l k a n).2.Lawful := by
  have hla : s.leaseAt k.claim.res l = .active k a := leaseAt_eq_active.mpr ⟨hl, rfl⟩
  have hsite := (h.sound k.claim.res).site
  have hmode : k.claim.mode = .shared := by
    cases hk : k.claim.mode
    · exact absurd hk hm
    · rfl
  obtain ⟨t, ht⟩ : ∃ t, t = (s.setRes k.claim.res { s.res k.claim.res with slot := some l }).setLease l
    { s.lease l with st := .active k { a with promo := some n } } := ⟨_, rfl⟩
  have hnew : t.Sound k.claim.res := by
    subst ht
    refine ⟨.setLease ?_, by simpa using (h.sound k.claim.res).served⟩
    rw [res_setRes_self, leaseAt_setRes, waitAt_setRes, seenAt_mk_active _ _ rfl]
    exact hsite.slotFilled hla hmode hslot rfl
  have helse : s.Elsewhere k.claim.res t := by
    subst ht
    refine .trans (.setRes s _) (.setLease ?_ ?_)
    · intro c hc; rw [lease_setRes, hl] at hc; cases hc; rfl
    · intro c hc; cases hc; rfl
  have htame : s.Tame t := by
    subst ht
    refine .trans .setRes (.setLease (.inl ?_))
    rw [lease_setRes, lease_place_of_claim (x := s.lease l) (c := k.claim) (by simp [Lease.claim?, hl])]
    rfl
  have horder : t.Orderly noRef := by
    subst ht
    have hcount := (h.orderly.leaseCount l).resolve_right fun hx => hx.1
    simp only [Lease.counts, hl, Bool.decide_and, Bool.and_eq_true, decide_eq_true_eq] at hcount
    refine State.Orderly.toHolder h.orderly.setRes (fun q hq => ?_) rfl (by simp [Lease.isFree, hl]) rfl (.inl ?_)
    · simpa [Lease.ownedBy, Lease.claim?, hl] using hq
    · simpa [Lease.counts] using ⟨hcount.1, hn⟩
  simp only [State.promotePending, ← ht]
  exact h.ofTame (htame.trans (contend_tame _)) (fun r => contend_sound _ (helse.all_sound h.sound hnew r)) (contend_orderly _ _ horder)

theorem promoteLease_lawful (h : s.Lawful) (hp : (s.lease l).ownedBy p = true) (body : List Byte) :
    (promoteLease l p body s).2.Lawful := by
  rcases hl : (s.lease l).st with _ | _ | ⟨k, a⟩ | ⟨k, g⟩ | ⟨k, c⟩
  case ended => simpa only [promoteLease, hl] using answerEnded_lawful h hp hl
  case active =>
    simp only [promoteLease, hl]
    split
    · exact h
    · next hm =>
      split
      · exact h
      · next hslot =>
        have hslot : (s.res k.claim.res).slot = none := by simpa using hslot
        split
        · next hh =>
          split
          · exact h
          · exact promoteNow_lawful h hl hm hslot hh
        · split
          · exact h
          · next hn => exact promotePending_lawful h hl hm hslot hn
  all_goals simpa only [promoteLease, hl] using h

theorem demoteNow_lawful {k : Holding} {a : ActivePart} (h : s.Lawful) (hl : (s.lease l).st = .active k a)
    (hm : k.claim.mode = .exclusive) (hshare : (s.res k.claim.res).attrs.shareLimit ≠ 0) : (s.demoteNow l k a).2.Lawful := by
  have hla : s.leaseAt k.claim.res l = .active k a := leaseAt_eq_active.mpr ⟨hl, rfl⟩
  obtain ⟨t, ht⟩ : ∃ t, t = (s.setRes k.claim.res { s.res k.claim.res with
      st := .shared, epoch := (s.res k.claim.res).epoch + 1 }).setLease l { s.lease l with
      st := .active { k with claim := { k.claim with mode := .shared }, epoch := (s.res k.claim.res).epoch + 1 } a } := ⟨_, rfl⟩
  have hnew : t.SiteLaw k.claim.res noLease noWait := by
    subst ht
    refine .setLease ?_
    rw [res_setRes_self, leaseAt_setRes, waitAt_setRes, seenAt_mk_active _ _ (by exact rfl)]
    exact (h.sound k.claim.res).site.demoted hla hm hshare rfl rfl
  obtain ⟨hsound, hpass⟩ := grantPass_sound hnew
  have helse : s.Elsewhere k.claim.res t := by
    subst ht
    refine .trans (.setRes s _) (.setLease ?_ ?_)
    · intro c hc; rw [lease_setRes, hl] at hc; cases hc; rfl
    · intro c hc; cases hc; rfl
  have htame : s.Tame t := by
    subst ht
    refine .trans .setRes (.setLease (.inl ?_))
    rw [lease_setRes, lease_place_of_claim (x := s.lease l) (c := k.claim) (by simp [Lease.claim?, hl])]
    rfl
  have horder : t.Orderly noRef := by
    subst ht
    have hcount := (h.orderly.leaseCount l).resolve_right fun hx => hx.1
    refine State.Orderly.toHolder h.orderly.setRes (fun q hq => ?_) rfl (by simp [Lease.isFree, hl]) rfl (.inl ?_)
    · simpa [Lease.ownedBy, Lease.claim?, hl] using hq
    · simpa [Lease.counts, hl] using hcount
  have hranged : t.Ranged k.claim.res := by
    subst ht
    simpa [State.Ranged] using (h.sound k.claim.res).ranged
  simp only [State.demoteNow, ← ht]
  exact h.ofTame (htame.trans grantPass_tame) ((helse.trans hpass).all_sound h.sound hsound) (grantPass_orderly horder hranged)

theorem demoteLease_lawful (h : s.Lawful) (hp : (s.lease l).ownedBy p = true) (body : List Byte) :
    (demoteLease l p body s).2.Lawful := by
  rcases hl : (s.lease l).st with _ | _ | ⟨k, a⟩ | ⟨k, g⟩ | ⟨k, c⟩
  case ended => simpa only [demoteLease, hl] using answerEnded_lawful h hp hl
  case active =>
    simp only [demoteLease, hl]
    split
    · exact h
    · next hm =>
      obtain ⟨hmode, hshare⟩ := not_or.mp hm
      split
      · exact h
      · refine demoteNow_lawful h hl ?_ hshare
        cases hk : k.claim.mode
        · rfl
        · exact absurd hk hmode
  all_goals simpa only [demoteLease, hl] using h

/-- A request on a lease id changes nothing, or speaks of a lease of the port. -/
theorem withLease_lawful {own : LeaseNo → Owner} {body : List Byte} (h : s.Lawful)
    (hown : ∀ l, (s.lease l).ownedBy p = true → (own l p body s).2.Lawful) : (withLease own p body s).2.Lawful := by
  simp only [withLease]
  split
  · exact h
  · exact h
  · next l hl =>
    refine hown l ?_
    simp only [State.resolveLease] at hl
    split at hl
    · cases hl
    · split at hl
      · split at hl
        · next ho => cases hl; exact ho
        · cases hl
      · cases hl

/-! ### CANCEL_WAIT -/

theorem cancelNamed_lawful (h : s.Lawful) (hp : (s.wait w).ownedBy p = true) : (cancelNamed p w s).2.Lawful := by
  rcases hw : (s.wait w).st with _ | ⟨k, n, l⟩ | ⟨k, e⟩
  case free => simpa only [cancelNamed, hw] using h
  case waiting =>
    simp only [cancelNamed, hw]
    have hwa : s.waitAt k.res w = .waiting k n l := waitAt_eq_waiting.mpr ⟨hw, rfl⟩
    have hgone := waitGone_site (y := (s.wait w).freed) (z := (s.lease l).freed) (h.sound k.res).site hwa rfl rfl
    have helse := waitGone_elsewhere (y := (s.wait w).freed) (z := (s.lease l).freed) (h.sound k.res).site hwa
      (by simp [Wait.freed]) rfl
    obtain ⟨hsound, hdrop⟩ := dropWait_sound hgone (h.sound k.res).served
    refine h.ofTame (.trans (.trans (.setWait (.inr rfl)) (.setLease (.inr rfl))) dropWait_tame)
      ((helse.trans hdrop).all_sound h.sound hsound) (dropWait_orderly ?_ (h.sound k.res).ranged)
    have hfreed := h.orderly.freeWait (w := w) (h.orderly.unlistedWait (by simp [Wait.isEnded, hw]))
    exact freeReserved_orderly hfreed (k := k.leaseClaim) (h.reserved hw)
  case ended =>
    simp only [cancelNamed, hw]
    exact h.ofTame (freedWait_withdraw_tame hp)
      (fun r => ⟨((h.sound r).setWait_unseen (y := (s.wait w).freed) (waitAt_of_ended hw r) rfl).site, (h.sound r).served⟩)
      (freedWait_withdraw_orderly h.orderly hp)

theorem cancelWaitOwner_lawful (h : s.Lawful) (p : Port) (body : List Byte) : (cancelWaitOwner p body s).2.Lawful := by
  simp only [cancelWaitOwner]
  split
  · exact h
  · exact h
  · next w hw =>
    refine cancelNamed_lawful h ?_
    simp only [State.resolveWait] at hw
    split at hw
    · cases hw
    · split at hw
      · split at hw
        · next ho => cases hw; exact ho
        · cases hw
      · cases hw

end Sys2Proof.Machine
end

