-- ==== Sys2Proof/Proofs/LawfulTable.lean ====
section
/-! PROOFS. The laws of the records under every request. -/

namespace Sys2Proof.Machine

variable {s t : State} {r : ResNo} {l : LeaseNo} {w : WaitNo} {p : Port} {X : Ref → Prop} {body : List Byte}

/-! ### ACQUIRE -/

theorem SessionLaw_setLease {y : Lease} (h : s.SessionLaw) (hy : ∀ q, y.ownedBy q = true → s.attached q = true) :
    (s.setLease l y).SessionLaw := fun q hq => by
  refine ⟨(h q hq).1, fun i => ?_, (h q hq).2.2⟩
  rw [lease_setLease]
  split
  · by_contra hne
    have : s.attached q = false := hq
    rw [hy q (eq_true_of_ne_false hne)] at this
    cases this
  · exact (h q hq).2.1 i

theorem SessionLaw_setWait {y : Wait} (h : s.SessionLaw) (hy : ∀ q, y.ownedBy q = true → s.attached q = true) :
    (s.setWait w y).SessionLaw := fun q hq => by
  refine ⟨(h q hq).1, (h q hq).2.1, fun i => ?_⟩
  rw [wait_setWait]
  split
  · by_contra hne
    have : s.attached q = false := hq
    rw [hy q (eq_true_of_ne_false hne)] at this
    cases this
  · exact (h q hq).2.2 i

/-- No live lease of a port at a resource where it has no live claim (R27). -/
theorem port_ne_of_hasLiveClaim (h : s.hasLiveClaim p r = false) (l : LeaseNo) (c : Claim)
    (hl : (s.leaseAt r l).live? = some c) : c.port ≠ p := by
  rintro rfl
  obtain ⟨hc, hr⟩ := claim_of_leaseAt hl
  have hnone := (Bool.or_eq_false_iff.mp h).1
  rw [List.any_eq_false] at hnone
  have hlive : (s.lease l).liveClaim c.port r = true := by
    have hended : (s.lease l).isEnded = false := by
      unfold State.leaseAt Lease.seenAt at hl
      cases hst : (s.lease l).st <;> simp_all [Lease.isEnded, LeaseState.live?]
    simp [Lease.liveClaim, hended, hc, hr]
  exact hnone l (List.mem_finRange l) hlive

theorem leaseAt_of_free (h : (s.lease l).isFree = true) (r : ResNo) : s.leaseAt r l = .free := by
  unfold State.leaseAt Lease.seenAt
  cases hst : (s.lease l).st <;> simp_all [Lease.isFree]

theorem waitAt_of_free (h : (s.wait w).isFree = true) (r : ResNo) : s.waitAt r w = .free := by
  unfold State.waitAt Wait.seenAt
  cases hst : (s.wait w).st <;> simp_all [Wait.isFree]

theorem live_of_isFree (h : (s.lease l).isFree = true) : (s.lease l).st.live? = none := by
  cases hst : (s.lease l).st <;> simp_all [Lease.isFree, LeaseState.live?]

theorem nextGen_ne_zero (g : Byte) : nextGen g ≠ 0 := by
  unfold nextGen
  split
  · decide
  · bv_omega

/-- A record in FREE is in no list. -/
theorem State.Orderly.free_unlisted (h : s.Orderly X) (hl : (s.lease l).isFree = true) (q : Port) :
    ¬ s.lists q (.lease l) :=
  h.unlisted (by cases hst : (s.lease l).st <;> simp_all [Lease.isFree, Lease.isHolder])
    (by cases hst : (s.lease l).st <;> simp_all [Lease.isFree, Lease.isEnded]) q

theorem State.Orderly.free_unlistedWait (h : s.Orderly X) (hw : (s.wait w).isFree = true) (q : Port) :
    ¬ s.lists q (.wait w) :=
  h.unlistedWait (by cases hst : (s.wait w).st <;> simp_all [Wait.isFree, Wait.isEnded]) q

theorem grantNow_lawful {a : AcquireArgs} (h : s.Lawful) (hp : s.attached p = true) (ha : s.Admits p a)
    (hl : (s.lease l).isFree = true) (hg : (s.res a.res).grantable a.mode = true) : (s.grantNow p a l).2.Lawful := by
  have hsite := (h.sound a.res).site
  have hclaim := port_ne_of_hasLiveClaim ha.claim
  have hfree := leaseAt_of_free hl a.res
  obtain ⟨-, hcase⟩ := grantable_iff.mp hg
  obtain ⟨x, hx⟩ : ∃ x, x = (s.res a.res).join l a.mode := ⟨_, rfl⟩
  obtain ⟨n, hn⟩ : ∃ n, n = (s.res a.res).attrs.givenTerm a.term := ⟨_, rfl⟩
  have hnew : Site x (setAt (s.leaseAt a.res) l (.active ⟨⟨p, a.res, a.mode, a.contend⟩, x.epoch, n, 0⟩ ⟨n, false, none⟩))
      (s.waitAt a.res) noLease noWait ∧ x.st ≠ .free := by
    rcases hcase with hst | ⟨hst, hm, -, hroom⟩
    · have hmode : a.mode.resState ≠ .free := by cases a.mode <;> nofun
      have := hsite.join_free (h := ⟨⟨p, a.res, a.mode, a.contend⟩, (s.res a.res).epoch + 1, n, 0⟩) (a := ⟨n, false, none⟩)
        hfree hst ha.mode rfl rfl hclaim
      simp only [hx, Resource.join, hst]
      exact ⟨this, hmode⟩
    · have := hsite.join_shared (h := ⟨⟨p, a.res, a.mode, a.contend⟩, (s.res a.res).epoch, n, 0⟩) (a := ⟨n, false, none⟩)
        hfree hst hm hroom rfl rfl hclaim
      simp only [hx, Resource.join, hst]
      rw [hst] at this
      exact ⟨this, nofun⟩
  have hterm : n ≠ 0 := hn ▸ givenTerm_ne_zero (hsite.range ha.defined) _
  simp only [State.grantNow, ← hx, ← hn, grantedState]
  constructor
  case sound =>
    refine State.Elsewhere.all_sound (r := a.res) (.trans (.setRes s x) (.setLease ?_ ?_)) h.sound ⟨.setLease ?_, ?_⟩
    · intro c hc; rw [lease_setRes, live_of_isFree hl] at hc; cases hc
    · intro c hc; cases hc; rfl
    · rw [res_setRes_self, leaseAt_setRes, waitAt_setRes, seenAt_mk_active _ _ (by exact rfl)]
      exact hnew.1
    · rw [res_setLease, res_setRes_self]
      exact fun hst => absurd hst hnew.2
  case orderly =>
    refine State.Orderly.setLease h.orderly.setRes (fun q hq => ?_) (fun _ _ hst => by cases hst)
      (fun _ => nextGen_ne_zero _) (.inl ?_)
    · exact absurd hq (h.orderly.free_unlisted hl q)
    · simpa [Lease.counts] using hterm
  case quiet =>
    refine SessionLaw_setLease (s := s.setRes a.res x) h.quiet fun q hq => ?_
    obtain rfl : p = q := by simpa [Lease.ownedBy, Lease.claim?] using hq
    exact hp
  case session => exact h.session
  case clock => exact h.clock
  case due => exact h.due

theorem queued_lawful {a : AcquireArgs} (h : s.Lawful) (hp : s.attached p = true) (ha : s.Admits p a)
    (hl : (s.lease l).isFree = true) (hw : (s.wait w).isFree = true) (hg : (s.res a.res).grantable a.mode = false)
    (hn : a.patience ≠ 0) (hq : (s.res a.res).queue.length < (s.res a.res).attrs.queueLimit.toNat) :
    (s.queued p a l w).Lawful := by
  have hsite := (h.sound a.res).site
  have hwaiting : (s.wait w).st = .free := by cases hst : (s.wait w).st <;> simp_all [Wait.isFree]
  have hnew := hsite.enqueue (n := a.patience) (c := ⟨p, a.res, a.mode, a.term, a.contend⟩) (leaseAt_of_free hl a.res)
    (waitAt_of_free hw a.res) ha.defined ha.notRetiring hq ha.mode (port_ne_of_hasLiveClaim ha.claim)
  have hserved : (s.res a.res).st = .free → (s.res a.res).epoch = maxEpoch := fun hst => by
    rcases (h.sound a.res).served hst with hempty | he
    · exact absurd (grantable_iff.mpr ⟨hempty, .inl hst⟩) (ne_true_of_eq_false hg)
    · exact he
  unfold State.queued
  constructor
  case sound =>
    refine State.Elsewhere.all_sound (r := a.res) (.trans (.setLease ?_ ?_) (.trans (.setWait ?_ ?_) (.setRes _ _))) h.sound ⟨.setRes ?_, ?_⟩
    · intro c hc; rw [live_of_isFree hl] at hc; cases hc
    · intro c hc; cases hc; rfl
    · intro c n l hc; rw [wait_setLease, hwaiting] at hc; cases hc
    · intro c n l hc; cases hc; rfl
    · rw [leaseAt_setWait, waitAt_setWait, leaseAt_setLease, waitAt_setLease, seenAt_mk_reserved _ (by exact rfl)]
      simpa [Wait.seenAt, WaitClaim.leaseClaim] using hnew
    · rw [res_setRes_self]
      exact fun hst => .inr (hserved hst)
  case orderly =>
    have hlease := h.orderly.setLease (l := l) (y := ⟨nextGen (s.lease l).gen, .reserved ⟨p, a.res, a.mode, a.contend⟩⟩)
      (fun q hq => absurd hq (h.orderly.free_unlisted hl q)) (fun _ _ hst => by cases hst) (fun _ => nextGen_ne_zero _) (.inl rfl)
    refine .setRes (hlease.setWait (fun q hq => ?_) (fun _ _ hst => by cases hst) (fun _ => nextGen_ne_zero _) ?_)
    · exact absurd hq (h.orderly.free_unlistedWait hw q)
    · simpa [Wait.counts] using hn
  case quiet =>
    have hlease : (s.setLease l ⟨nextGen (s.lease l).gen, .reserved ⟨p, a.res, a.mode, a.contend⟩⟩).SessionLaw :=
      SessionLaw_setLease h.quiet fun q hq => by
        obtain rfl : p = q := by simpa [Lease.ownedBy, Lease.claim?] using hq
        exact hp
    refine SessionLaw_setWait hlease fun q hq => ?_
    obtain rfl : p = q := by simpa [Wait.ownedBy, Wait.claim?] using hq
    exact hp
  case session => exact h.session
  case clock => exact h.clock
  case due => exact h.due

theorem State.Lawful.contend (h : s.Lawful) (ls : List LeaseNo) : (s.contend ls).Lawful :=
  h.ofTame (contend_tame ls) (fun r => contend_sound ls (h.sound r)) (contend_orderly ls s h.orderly)

theorem acquireOwner_lawful (h : s.Lawful) (hp : s.attached p = true) : (acquireOwner p body s).2.Lawful := by
  obtain ⟨result, he⟩ | ⟨a, l, ha, hl, ⟨hg, -, he⟩ | ⟨w, hw, -, hg, hn, hq, he⟩⟩ := acquireOwner_cases p body s
  · rw [he]
    exact h
  · rw [he]
    exact grantNow_lawful h hp ha (free_of_freeLease hl) hg
  · rw [he, enqueue_eq]
    exact (queued_lawful h hp ha (free_of_freeLease hl) (free_of_freeWait hw) hg hn hq).contend _

/-! ### DEFINE, REVOKE and RETIRE -/

theorem defineOwner_lawful (h : s.Lawful) : (defineOwner p body s).2.Lawful := by
  simp only [defineOwner]
  split
  · exact h
  · next r hr =>
    split
    · exact h
    · next hrange =>
      split
      · exact h
      · next hst =>
        have hst : (s.res r).st = .undefined := by simpa using hst
        have hsite := (h.sound r).site
        refine h.ofTame .setRes ((State.Elsewhere.setRes s _).all_sound h.sound ⟨.setRes ?_, fun _ => .inl ?_⟩) h.orderly.setRes
        · exact hsite.defined hst (eq_true_of_ne_false hrange)
        · rw [res_setRes_self]
          exact (hsite.undefined hst).2.1

theorem lease_of_graced {c : RevokeCause} (h : (s.leaseAt r l).graced c) : ∃ k y, (s.lease l).st = .grace k y := by
  obtain ⟨k, y, hl, -⟩ := h
  exact ⟨k, y, (leaseAt_eq_grace.mp hl).1⟩

/-- Every holder in grace, and then ended. -/
theorem endHolders_revoked_orderly {c : RevokeCause} (hrev : s.Revoked r c (s.res r).holders t)
    (ho : t.Orderly fun x => ∃ l ∈ (s.res r).holders, x = .lease l) : (t.endHolders r).Orderly noRef := by
  obtain ⟨slot, hres⟩ := hrev.res
  have hhold : (t.res r).holders = (s.res r).holders := by rw [hres]
  refine (endHolders_orderly ho hrev.site.holdersNodup fun l hl => lease_of_graced (hrev.graced l (hhold ▸ hl))).mono ?_
  rintro x ⟨⟨l, hl, rfl⟩, hne⟩
  exact hne l (hhold ▸ hl) rfl

theorem revoke_orderly {g : Byte} (h : s.Orderly noRef) (hs : s.Sound r) : (s.revoke r g).Orderly noRef := by
  have hrev := foldl_applyRevocation_revoked (c := .supervisor) (g := g) (s.res r).holders s hs.site hs.site.holdersNodup
    fun l hl => ((hs.site.mem_holders l).mp hl).resolve_right id
  obtain ⟨slot, hres⟩ := hrev.res
  have hranged : ((s.res r).holders.foldl (State.applyRevocation .supervisor g) s).Ranged r := by
    have := hs.ranged
    unfold State.Ranged at this ⊢
    rw [hres]
    exact this
  simp only [State.revoke]
  split
  · exact h
  · split
    · refine lastHolderLeft_orderly (endHolders_revoked_orderly hrev (foldl_applyRevocation_orderly _ _ (h.mono nofun)
        (.inr fun l hl => ⟨l, hl, rfl⟩))) ?_
      obtain ⟨G, -, hend, -⟩ := endHolders_site hrev.site fun l hl => graced_term (hrev.graced l (by rw [hres] at hl; exact hl))
      unfold State.Ranged at hranged ⊢
      rw [hend]
      exact hranged
    · next hg =>
      have hfold := foldl_applyRevocation_orderly (k := .supervisor) (s.res r).holders _ h (.inl hg)
      split
      · exact grantPass_orderly hfold hranged
      · exact hfold

theorem revoke_tame {g : Byte} : s.Tame (s.revoke r g) := by
  have hfold := State.Tame.foldl (fun t l => applyRevocation_tame (s := t) (l := l) (c := .supervisor) (g := g)) (s.res r).holders s
  simp only [State.revoke]
  split
  · exact .refl s
  · split
    · exact .after lastHolderLeft_tame (.after endHolders_tame hfold)
    · split
      · exact .after grantPass_tame hfold
      · exact hfold

theorem revokeOwner_lawful (h : s.Lawful) : (revokeOwner p body s).2.Lawful := by
  simp only [revokeOwner]
  split
  · exact h
  · next r hr =>
    split
    · exact h
    · obtain ⟨hsound, helse⟩ := revoke_sound (g := if byteAt body 1 = 255 then (s.res r).attrs.grace else byteAt body 1) (h.sound r)
      exact h.ofTame revoke_tame (helse.all_sound h.sound hsound) (revoke_orderly h.orderly (h.sound r))

theorem foldl_endWait_orderly (ws : List WaitNo) (s : State) (W : WaitNo → Prop) (hs : s.SiteLaw r noLease W) (hnd : ws.Nodup)
    (hw : ∀ w ∈ ws, ∃ c n l, s.waitAt r w = .waiting c n l) (h : s.Orderly X) :
    (ws.foldl (fun t w => t.endWait w .withdrawn .withdrawn) s).Orderly X := by
  induction ws generalizing s W with
  | nil => exact h
  | cons w ws ih =>
    obtain ⟨hnot, hnd⟩ := List.nodup_cons.mp hnd
    obtain ⟨c, n, l, hwa⟩ := hw w List.mem_cons_self
    obtain ⟨hst, -⟩ := waitAt_eq_waiting.mp hwa
    obtain ⟨hlease, -⟩ := leaseAt_eq_reserved.mp (hs.reserve w c n l hwa)
    have hstep := (foldl_endWait_site [w] s W hs (List.nodup_singleton w) (by simpa using ⟨c, n, l, hwa⟩)).1
    refine ih _ _ hstep hnd (fun i hi => ?_) (endWait_orderly h hst hlease (by decide))
    obtain ⟨c', n', l', h'⟩ := hw i (List.mem_cons_of_mem _ hi)
    refine ⟨c', n', l', ?_⟩
    change (s.endWait w .withdrawn .withdrawn).waitAt r i = _
    rw [endWait_eq hst, waitAt_flag, waitAt_setLease, waitAt_setWait, setAt_apply, if_neg fun e : i = w => hnot (e ▸ hi), h']

theorem withdrawWaits_orderly (h : s.Orderly X) (hs : s.SiteLaw r noLease noWait) : (s.withdrawWaits r).Orderly X :=
  .setRes (foldl_endWait_orderly _ s noWait hs hs.queueNodup (fun w hw => ((hs.mem_queue w).mp hw).resolve_right id) h)

theorem retire_orderly (h : s.Orderly noRef) (hs : s.Sound r) : (s.retire r).2.Orderly noRef := by
  obtain ⟨hsite, -, hres⟩ := withdrawWaits_site hs.site
  have horder {X : Ref → Prop} (hX : ∀ x, noRef x → X x) : (s.withdrawWaits r).Orderly X :=
    (withdrawWaits_orderly h hs.site).mono hX
  have hhold : ((s.withdrawWaits r).res r).holders = (s.res r).holders := by rw [hres]
  have hrev := foldl_applyRevocation_revoked (c := .retire) (g := (s.res r).attrs.grace) (s.res r).holders _ hsite
    hs.site.holdersNodup fun l hl => ((hsite.mem_holders l).mp (hhold ▸ hl)).resolve_right id
  simp only [State.retire]
  split
  · exact .setRes (horder fun _ => id)
  · split
    · refine .setRes (endHolders_revoked_orderly (by rw [hhold]; exact hrev) ?_)
      rw [hhold]
      exact foldl_applyRevocation_orderly _ _ (horder nofun) (.inr fun l hl => ⟨l, hl, rfl⟩)
    · exact .setRes (foldl_applyRevocation_orderly _ _ (horder fun _ => id) (.inl ‹_›))

theorem withdrawWaits_tame : s.Tame (s.withdrawWaits r) :=
  .after .setRes (.foldl (fun _ _ => endWait_tame) _ _)

theorem retire_tame : s.Tame (s.retire r).2 := by
  have hfold := (withdrawWaits_tame (s := s) (r := r)).trans
    (State.Tame.foldl (fun t l => applyRevocation_tame (s := t) (l := l) (c := .retire) (g := (s.res r).attrs.grace))
      (s.res r).holders (s.withdrawWaits r))
  simp only [State.retire]
  split
  · exact .after .setRes withdrawWaits_tame
  · split
    · exact .after .setRes (.after endHolders_tame hfold)
    · exact .after .setRes hfold

theorem retireOwner_lawful (h : s.Lawful) : (retireOwner p body s).2.Lawful := by
  simp only [retireOwner]
  split
  · exact h
  · next r hr =>
    split
    · exact h
    · split
      · exact h
      · obtain ⟨hsound, helse⟩ := retire_sound (h.sound r) ‹_›
        exact h.ofTame retire_tame (helse.all_sound h.sound hsound) (retire_orderly h.orderly (h.sound r))

end Sys2Proof.Machine
end

