-- ==== Sys2Proof/Proofs/LawfulRequests.lean ====
section
/-! PROOFS. The laws of the records under the requests on sessions, lists, gates and the timebase, and under resets. -/

namespace Sys2Proof.Machine

variable {s t : State} {r : ResNo} {l : LeaseNo} {w : WaitNo} {p q : Port} {X : Ref → Prop} {body : List Byte}
  {e : Entry} {es : List Entry}

/-! ### FETCH_NOTICE (R149, R151) -/

theorem lists_popped {x : Ref} (he : s.attn p = e :: es) (h : (s.setAttn p es).lists q x) : s.lists q x := by
  unfold State.lists at h ⊢
  by_cases hq : q = p
  · subst hq
    rw [attn_setAttn_self] at h
    rw [he]
    exact List.mem_cons_of_mem _ h
  · rwa [attn_setAttn_ne _ _ _ hq] at h

theorem tells_popped {x : Ref} {bit : Nat} (he : s.attn p = e :: es) (hx : x ≠ e.ref) (h : s.tells q x bit) :
    (s.setAttn p es).tells q x bit := by
  obtain ⟨f, hf, rfl, hbit⟩ := h
  by_cases hq : q = p
  · subst hq
    rw [he] at hf
    refine ⟨f, ?_, rfl, hbit⟩
    rw [attn_setAttn_self]
    exact (List.mem_cons.mp hf).resolve_left fun hfe => hx (hfe ▸ rfl)
  · exact ⟨f, by rw [attn_setAttn_ne _ _ _ hq]; exact hf, rfl, hbit⟩

theorem not_lists_popped (h : s.Orderly noRef) (he : s.attn p = e :: es) : ¬ (s.setAttn p es).lists p e.ref := by
  have hnd := h.nodup p
  rw [he] at hnd
  unfold State.lists
  rw [attn_setAttn_self]
  exact (List.nodup_cons.mp hnd).1

theorem popped_orderly (h : s.Orderly noRef) (he : s.attn p = e :: es) : (s.setAttn p es).Orderly (· = e.ref) where
  nodup q := by
    by_cases hq : q = p
    · subst hq
      have hnd := h.nodup q
      rw [he] at hnd
      rw [attn_setAttn_self]
      exact (List.nodup_cons.mp hnd).2
    · rw [attn_setAttn_ne _ _ _ hq]
      exact h.nodup q
  lease q l hl := h.lease q l (lists_popped he hl)
  wait q w hw := h.wait q w (lists_popped he hw)
  resource q r hr := h.resource q r (lists_popped he hr)
  endedLease l k c hst := by
    by_cases hx : Ref.lease l = e.ref
    · exact .inl hx
    · exact .inr (tells_popped he hx ((h.endedLease l k c hst).resolve_left id))
  endedWait w k c hst := by
    by_cases hx : Ref.wait w = e.ref
    · exact .inl hx
    · exact .inr (tells_popped he hx ((h.endedWait w k c hst).resolve_left id))
  leaseGen := h.leaseGen
  waitGen := h.waitGen
  leaseCount l := .inl ((h.leaseCount l).resolve_right fun hx => hx.1)
  waitCount := h.waitCount

/-- The tombstone fetched is FREE, so that every tombstone left has its entry. -/
theorem fetched_orderly (h : s.Orderly noRef) (he : s.attn p = e :: es) : ((s.setAttn p es).freeFetched e.ref).Orderly noRef := by
  have hpop := popped_orderly h he
  have hgone := not_lists_popped h he
  have hlisted : s.lists p e.ref := by
    unfold State.lists
    rw [he]
    exact List.mem_cons_self
  rcases hx : e.ref with l | w | r
  · rw [hx] at hgone hlisted
    simp only [hx] at hpop
    have hown := (h.lease p l hlisted).1
    simp only [State.freeFetched]
    split
    · have hfree : ((s.setAttn p es).setLease l (s.lease l).freed).Orderly (· = .lease l) := by
        refine hpop.freeLease fun q hq => ?_
        have hown' := (hpop.lease q l hq).1
        rw [lease_ownedBy_iff_place] at hown hown'
        exact hgone (Option.some.inj (hown.symm.trans hown') ▸ hq)
      refine hfree.settle (fun i hi => .inr ?_) fun w hw => by cases hw
      obtain rfl := Ref.lease.inj hi
      rw [lease_setLease_self]
      exact ⟨fun _ _ hst => LeaseState.noConfusion hst, rfl⟩
    · next hended =>
      refine hpop.settle (fun i hi => .inr ?_) fun w hw => by cases hw
      obtain rfl := Ref.lease.inj hi
      refine ⟨fun k c hst => absurd ?_ hended, (h.leaseCount i).resolve_right fun hx => hx.1⟩
      rw [lease_setAttn] at hst ⊢
      simp [Lease.isEnded, hst]
  · rw [hx] at hgone hlisted
    simp only [hx] at hpop
    have hown := (h.wait p w hlisted).1
    simp only [State.freeFetched]
    split
    · have hfree : ((s.setAttn p es).setWait w (s.wait w).freed).Orderly (· = .wait w) := by
        refine hpop.freeWait fun q hq => ?_
        have hown' := (hpop.wait q w hq).1
        rw [wait_ownedBy_iff_place] at hown hown'
        exact hgone (Option.some.inj (hown.symm.trans hown') ▸ hq)
      refine hfree.settle (fun i hi => by cases hi) fun i hi => .inr ?_
      obtain rfl := Ref.wait.inj hi
      rw [wait_setWait_self]
      exact fun _ _ hst => by cases hst
    · next hended =>
      refine hpop.settle (fun i hi => by cases hi) fun i hi => .inr fun k c hst => absurd ?_ hended
      obtain rfl := Ref.wait.inj hi
      rw [wait_setAttn] at hst ⊢
      simp [Wait.isEnded, hst]
  · simp only [hx] at hpop
    exact hpop.settle (fun i hi => by cases hi) fun i hi => by cases hi

theorem fetchNoticeOwner_lawful (h : s.Lawful) : (fetchNoticeOwner p body s).2.Lawful := by
  rcases he : s.attn p with _ | ⟨e, es⟩
  · simpa only [fetchNoticeOwner, he] using h
  · simp only [fetchNoticeOwner, he]
    have hquiet : (s.setAttn p es).SessionLaw := fun q hq => by
      have hempty := h.quiet q hq
      refine ⟨?_, hempty.2⟩
      by_cases hqp : q = p
      · rw [← hqp, hempty.1] at he
        cases he
      · rw [attn_setAttn_ne _ _ _ hqp]
        exact hempty.1
    have htame : (s.setAttn p es).Tame ((s.setAttn p es).freeFetched e.ref) := by
      unfold State.freeFetched
      split
      · split
        · exact .setLease (.inr rfl)
        · exact .refl _
      · split
        · exact .setWait (.inr rfl)
        · exact .refl _
      · exact .refl _
    refine ⟨fun r => ?_, fetched_orderly h.orderly he, htame.sessionLaw hquiet, fun q => ?_, ?_, ?_⟩
    · have hs : (s.setAttn p es).Sound r := ⟨(h.sound r).site, (h.sound r).served⟩
      unfold State.freeFetched
      split
      · next l _ =>
        split
        · next hended =>
          refine hs.setLease_unseen ?_ rfl
          unfold State.leaseAt Lease.seenAt
          cases hst : ((s.setAttn p es).lease l).st <;> simp_all [Lease.isEnded]
        · exact hs
      · next w _ =>
        split
        · next hended =>
          refine hs.setWait_unseen ?_ rfl
          unfold State.waitAt Wait.seenAt
          cases hst : ((s.setAttn p es).wait w).st <;> simp_all [Wait.isEnded]
        · exact hs
      · exact hs
    · simp only [State.session, htame.sessions]
      exact h.session q
    · unfold State.TimebaseLaw
      rw [htame.timebase]
      exact h.clock
    · unfold State.DueLaw
      rw [htame.due, htame.rstN, htame.timebase]
      exact h.due

/-! ### Sessions -/

theorem counts_opened {x : Session} {n : Half} : Session.counts { x with st := .attached (liveOf n), window := n } = true := by
  unfold Session.counts liveOf
  by_cases hn : n = 0
  · simp [hn]
  · rw [if_neg hn]
    exact decide_eq_true ⟨hn, hn⟩

theorem State.Lawful.openSession {n : Half} (h : s.Lawful) : (s.openSession p n).Lawful :=
  h.setSession ⟨(h.session p).1, counts_opened (x := { s.session p with number := _ })⟩ fun ha => by cases ha

theorem attachOwner_lawful (h : s.Lawful) : (attachOwner p body s).2.Lawful := by
  simp only [attachOwner]
  refine State.Lawful.openSession ?_
  split
  · exact endSession_lawful h fun _ hst => SessState.noConfusion hst
  · exact h

theorem setQuotaOwner_lawful (h : s.Lawful) : (setQuotaOwner p body s).2.Lawful := by
  simp only [setQuotaOwner]
  split
  · exact h
  · next q _ =>
    split
    · exact h
    · next hq =>
      refine h.setSession ⟨?_, (h.session q).2⟩ fun ha => .inl ha
      exact ⟨Nat.le_of_not_lt fun hlt => hq (.inl hlt), Nat.le_of_not_lt fun hlt => hq (.inr hlt)⟩

theorem evictOwner_lawful (h : s.Lawful) : (evictOwner p body s).2.Lawful := by
  simp only [evictOwner]
  split
  · exact h
  · split
    · exact h
    · split
      · exact h
      · exact loseSession_lawful h

theorem State.Lawful.renewLiveness (h : s.Lawful) : (s.renewLiveness p).Lawful := by
  simp only [State.renewLiveness]
  split
  · exact h.setSession ⟨(h.session p).1, counts_opened⟩ fun ha => by cases ha
  · exact h

/-! ### Resets -/

/-- No record out of FREE, no entry. -/
theorem cleared_lawful {t : State} (hl : ∀ l, (t.lease l).st = .free) (hw : ∀ w, (t.wait w).st = .free)
    (ha : ∀ p, t.attn p = []) (hr : ∀ r, Site (t.res r) (fun _ => .free) (fun _ => .free) noLease noWait)
    (hq : ∀ r, (t.res r).queue = []) (hs : ∀ p, (t.session p).Kept)
    (hc : t.TimebaseLaw) (hd : t.DueLaw) : t.Lawful where
  sound r := by
    have hlease : t.leaseAt r = fun _ => .free := by funext l; simp [State.leaseAt, Lease.seenAt, hl]
    have hwait : t.waitAt r = fun _ => .free := by funext w; simp [State.waitAt, Wait.seenAt, hw]
    refine ⟨?_, fun _ => .inl (hq r)⟩
    unfold State.SiteLaw
    rw [hlease, hwait]
    exact hr r
  orderly := by
    refine ⟨?_, ?_, ?_, ?_, ?_, ?_, ?_, ?_, ?_, ?_⟩ <;>
      simp [State.lists, ha, hl, hw, Lease.isFree, Wait.isFree, Lease.counts, Wait.counts]
  quiet p _ := ⟨ha p, fun l => by simp [Lease.ownedBy, Lease.claim?, hl], fun w => by simp [Wait.ownedBy, Wait.claim?, hw]⟩
  session := hs
  clock := hc
  due := hd

theorem queue_warm (x : Resource) : x.warm.queue = [] := by rw [resource_warm_eq]

theorem warm_lawful (h : s.Lawful) : s.warm.Lawful :=
  cleared_lawful (fun l => by rw [lease_warm]; rfl) (fun w => by rw [wait_warm]; rfl) (fun _ => attn_warm)
    (fun r => by rw [res_warm]; exact (h.sound r).site.warm) (fun r => by rw [res_warm]; exact queue_warm _)
    (fun p => by rw [session_warm]; exact ⟨(h.session p).1, rfl⟩) ⟨h.clock.1, h.clock.2.1, fun _ => h.clock.1⟩ (by simpa only [State.DueLaw, State.warm] using h.due)

/-! ### Every request -/

theorem lawful_of_reads {own : Owner} (h : s.Lawful) (hr : ∀ p body s, (own p body s).2 = s) : (own p body s).2.Lawful := by
  rw [hr]
  exact h

theorem ownerOf_lawful (k : Req) (h : s.Lawful) (hp : k.needsSession = true → s.attached p = true)
    (hd : k = .haltTimebase → s.due = []) : (ownerOf k p body s).2.Lawful := by
  cases k
  case attach => exact attachOwner_lawful (p := p) (body := body) h
  case detach => exact endSession_lawful h fun _ hst => SessState.noConfusion hst
  case keepalive => exact h
  case portStatus => exact lawful_of_reads h portStatusOwner_reads
  case acquire => exact acquireOwner_lawful h (hp rfl)
  case renew => exact withLease_lawful h fun l hl => renewLease_lawful h hl body
  case release => exact withLease_lawful h fun l hl => releaseLease_lawful h hl body
  case queryLease => exact withLease_lawful h fun _ _ => h
  case promote => exact withLease_lawful h fun l hl => promoteLease_lawful h hl body
  case demote => exact withLease_lawful h fun l hl => demoteLease_lawful h hl body
  case cancelWait => exact cancelWaitOwner_lawful h p body
  case queryResource => exact lawful_of_reads h queryResourceOwner_reads
  case checkEpoch => exact lawful_of_reads h checkEpochOwner_reads
  case scan => exact lawful_of_reads h scanOwner_reads
  case fetchNotice => exact fetchNoticeOwner_lawful (p := p) (body := body) h
  case define => exact defineOwner_lawful (p := p) (body := body) h
  case retire => exact retireOwner_lawful (p := p) (body := body) h
  case revoke => exact revokeOwner_lawful (p := p) (body := body) h
  case setQuota => exact setQuotaOwner_lawful (p := p) (body := body) h
  case evict => exact evictOwner_lawful (p := p) (body := body) h
  case warmReset => exact warm_lawful h
  case startTimebase =>
    simp only [ownerOf, startTimebaseOwner]
    refine h.congr rfl rfl rfl rfl rfl ?_ ⟨h.due.1, h.due.2.imp_left fun hr => ⟨hr.1, ?_⟩⟩
    · unfold State.TimebaseLaw
      split
      · exact ⟨h.clock.1, h.clock.2.1, fun _ => h.clock.1⟩
      · exact h.clock
    · simp [hr.2]
  case haltTimebase => exact h.congr rfl rfl rfl rfl rfl ⟨h.clock.1, h.clock.2.1, nofun⟩ ⟨h.due.1, .inr (hd rfl)⟩
  case setTimebase =>
    simp only [ownerOf, setTimebaseOwner]
    split
    · exact h
    · next hm =>
      exact h.congr rfl rfl rfl rfl rfl ⟨Nat.le_add_left 1 _, (halfAt body 0).isLt, fun hr => absurd hr hm⟩
        ⟨h.due.1, h.due.2.imp_left fun hr => absurd hr.2 hm⟩
  case bindGate =>
    simp only [ownerOf, bindGateOwner]
    split
    · exact h
    · split
      · exact h
      · exact h.congr rfl rfl rfl rfl rfl h.clock h.due
  case unbindGate =>
    simp only [ownerOf, unbindGateOwner]
    split
    · exact h
    · split
      · exact h
      · exact h.congr rfl rfl rfl rfl rfl h.clock h.due

end Sys2Proof.Machine
end

