-- ==== Sys2Proof/Proofs/LawfulTick.lean ====
section
/-! PROOFS. The laws of the records under every command. -/

namespace Sys2Proof.Machine

variable {s t : State} {r : ResNo} {l : LeaseNo} {w : WaitNo} {p : Port} {late : List TickRef} {x y : Lease} {v z : Wait}

/-! ### A tick lowers counts and nothing else (R106) -/

/-- A lease state without its counts. -/
def LeaseState.still : LeaseState → LeaseState
  | .active h a => .active h { a with termLeft := 0, promo := a.promo.map fun _ => 0 }
  | .grace h g => .grace h { g with graceLeft := 0 }
  | c => c

/-- A wait state without its count. -/
def WaitState.still : WaitState → WaitState
  | .waiting c _ l => .waiting c 0 l
  | c => c

theorem still_ticked (x : Lease) : x.ticked.st.still = x.st.still := by
  unfold Lease.ticked
  split <;> simp_all [LeaseState.still]

theorem still_promoTicked (x : Lease) : x.promoTicked.st.still = x.st.still := by
  unfold Lease.promoTicked
  split <;> simp_all [LeaseState.still, Function.comp_def]

theorem wait_still_ticked (v : Wait) : v.ticked.st.still = v.st.still := by
  unfold Wait.ticked
  split <;> simp_all [WaitState.still]

theorem lease_still_lower : ((s.lower late).lease l).st.still = (s.lease l).st.still := by
  rw [lease_lower, apply_unlessLate (g := fun x : Lease => x.st.still) still_promoTicked,
    apply_unlessLate (g := fun x : Lease => x.st.still) still_ticked]

theorem wait_still_lower : ((s.lower late).wait w).st.still = (s.wait w).st.still := by
  rw [wait_lower, apply_unlessLate (g := fun v : Wait => v.st.still) wait_still_ticked]

/-! What two records that are alike but for their counts share. -/

theorem holding_still (c : LeaseState) : c.still.holding? = c.holding? := by cases c <;> rfl
theorem live_still (c : LeaseState) : c.still.live? = c.live? := by cases c <;> rfl
theorem cause_still (c : LeaseState) : c.still.cause? = c.cause? := by cases c <;> rfl
theorem promo_still (c : LeaseState) : c.still.promo?.isSome = c.promo?.isSome := by
  cases c <;> simp [LeaseState.still, LeaseState.promo?]
theorem still_eq_reserved {c : LeaseState} {k : Claim} : c.still = .reserved k ↔ c = .reserved k := by
  cases c <;> simp [LeaseState.still]
theorem still_eq_free {c : LeaseState} : c.still = .free ↔ c = .free := by cases c <;> simp [LeaseState.still]
theorem still_eq_ended {c : LeaseState} {h : Holding} {e : RevokeCause} : c.still = .ended h e ↔ c = .ended h e := by
  cases c <;> simp [LeaseState.still]
theorem wait_still_eq_free {c : WaitState} : c.still = .free ↔ c = .free := by cases c <;> simp [WaitState.still]
theorem wait_still_eq_ended {c : WaitState} {k : WaitClaim} {e : WaitEnd} : c.still = .ended k e ↔ c = .ended k e := by
  cases c <;> simp [WaitState.still]
theorem wait_still_eq_waiting {c : WaitState} {k : WaitClaim} :
    (∃ n, c = .waiting k n l) ↔ c.still = .waiting k 0 l := by
  cases c <;> simp [WaitState.still]

theorem claim_still (x : Lease) : x.claim? = Lease.claim? ⟨x.gen, x.st.still⟩ := by
  unfold Lease.claim? LeaseState.still
  cases x.st <;> rfl
theorem listed_still (x : Lease) : (x.isHolder || x.isEnded)
    = (Lease.isHolder ⟨x.gen, x.st.still⟩ || Lease.isEnded ⟨x.gen, x.st.still⟩) := by
  unfold Lease.isHolder Lease.isEnded LeaseState.still
  cases x.st <;> rfl
theorem wait_isEnded_still (v : Wait) : v.isEnded = Wait.isEnded ⟨v.gen, v.st.still⟩ := by
  unfold Wait.isEnded WaitState.still
  cases v.st <;> rfl
theorem wait_claim_still (v : Wait) : v.claim? = Wait.claim? ⟨v.gen, v.st.still⟩ := by
  unfold Wait.claim? WaitState.still
  cases v.st <;> rfl

theorem still_seenAt (x : Lease) : (x.seenAt r).still = if (x.st.still.live?).map (·.res) = some r then x.st.still else .free := by
  rw [seenAt_eq, live_still]
  split <;> rfl

theorem wait_still_seenAt (v : Wait) : (v.seenAt r).still = match v.st.still with
    | .waiting c n l => if c.res = r then .waiting c n l else .free
    | _ => .free := by
  unfold Wait.seenAt
  cases v.st with
  | free => rfl
  | ended => rfl
  | waiting c n l => by_cases hc : c.res = r <;> simp [hc, WaitState.still]

/-- A resource whose leases and waits differ in their counts alone. -/
theorem Site.congr_still {x : Resource} {L L' : LeaseNo → LeaseState} {V V' : WaitNo → WaitState} {G : LeaseNo → Prop}
    {W : WaitNo → Prop} (hs : Site x L V G W) (hL : ∀ l, (L' l).still = (L l).still)
    (hV : ∀ w, (V' w).still = (V w).still) : Site x L' V' G W := by
  have hpromo (l : LeaseNo) : (L' l).promo?.isSome = (L l).promo?.isSome := by rw [← promo_still, hL, promo_still]
  refine hs.congr_role (fun l => ?_) (fun l n h => ?_) (fun l n h => ?_) (fun l h => ?_) (fun l k => ?_) (fun l => ?_)
    (fun l h => ?_) (fun w c n l h => ?_) (fun w c n l h => ?_) fun w h => ?_
  · rw [← holding_still, hL, holding_still]
  · exact Option.isSome_iff_exists.mp (hpromo l ▸ by simp [h])
  · exact Option.isSome_iff_exists.mp (hpromo l ▸ by simp [h])
  · rwa [← cause_still, hL, cause_still]
  · rw [← still_eq_reserved, hL, still_eq_reserved]
  · rw [← live_still, hL, live_still]
  · rwa [← still_eq_free, hL, still_eq_free]
  · rw [wait_still_eq_waiting, ← hV, ← wait_still_eq_waiting]
    exact ⟨n, h⟩
  · rw [wait_still_eq_waiting, hV, ← wait_still_eq_waiting]
    exact ⟨n, h⟩
  · rwa [← wait_still_eq_free, hV, wait_still_eq_free]

/-! ### No count falls to 0 -/

theorem lowered_ne_zero {n : Half} (h : n ≠ 0) : lowered n ≠ 0 := by
  unfold lowered
  split
  · exact h
  · exact half_sub_one_ne_zero ‹_›

theorem loweredByte_ne_zero {n : Byte} (h : n ≠ 0) : loweredByte n ≠ 0 := by
  unfold loweredByte
  split
  · exact h
  · exact byte_sub_one_ne_zero ‹_›

theorem unlessLate_of {α : Type} {P : α → Prop} {f : α → α} {k : TickRef} (hf : ∀ a, P a → P (f a)) {a : α} (h : P a) :
    P (unlessLate late k f a) := by
  unfold unlessLate
  split
  · exact h
  · exact hf a h

theorem counts_ticked (x : Lease) (h : x.counts = true) : x.ticked.counts = true := by
  rcases x with ⟨g, _ | _ | ⟨k, a⟩ | ⟨k, a⟩ | _⟩
  case active =>
    simp only [Lease.counts, decide_eq_true_eq] at h
    exact decide_eq_true ⟨lowered_ne_zero h.1, h.2⟩
  case grace =>
    simp only [Lease.counts, decide_eq_true_eq] at h
    exact decide_eq_true (loweredByte_ne_zero h)
  all_goals exact h

theorem counts_promoTicked (x : Lease) (h : x.counts = true) : x.promoTicked.counts = true := by
  rcases x with ⟨g, _ | _ | ⟨k, a⟩ | ⟨k, a⟩ | _⟩
  case active =>
    simp only [Lease.counts, decide_eq_true_eq] at h
    refine decide_eq_true ⟨h.1, fun hp => ?_⟩
    obtain ⟨n, hn, h0⟩ := Option.map_eq_some_iff.mp hp
    exact lowered_ne_zero (fun e => h.2 (by rw [hn, e])) h0
  all_goals exact h

theorem wait_counts_ticked (v : Wait) (h : v.counts = true) : v.ticked.counts = true := by
  rcases v with ⟨g, _ | ⟨c, n, l⟩ | _⟩
  case waiting =>
    simp only [Wait.counts, decide_eq_true_eq] at h
    exact decide_eq_true (lowered_ne_zero h)
  all_goals exact h

theorem session_kept_ticked (x : Session) (h : x.Kept) : x.ticked.Kept := by
  obtain ⟨st, number, window, lq, wq, last⟩ := x
  rcases st with _ | (_ | n) | _
  case attached.some =>
    obtain ⟨hquota, hcount⟩ := h
    simp only [Session.counts, decide_eq_true_eq] at hcount
    exact ⟨hquota, decide_eq_true ⟨hcount.1, lowered_ne_zero hcount.2⟩⟩
  all_goals exact h

theorem attached_ticked (x : Session) : x.ticked.isAttached = x.isAttached := by
  obtain ⟨st, number, window, lq, wq, last⟩ := x
  rcases st with _ | (_ | n) | _ <;> rfl

theorem site_ticked {x : Resource} {L : LeaseNo → LeaseState} {V : WaitNo → WaitState} {G : LeaseNo → Prop}
    {W : WaitNo → Prop} (hs : Site x L V G W) : Site x.ticked L V G W := by
  unfold Resource.ticked
  split
  · next n hn => exact hs.settleLowered hn (loweredByte_ne_zero (hs.settling n hn).2)
  · exact hs

theorem served_ticked {x : Resource} (h : x.st = .free → x.queue = [] ∨ x.epoch = maxEpoch) :
    x.ticked.st = .free → x.ticked.queue = [] ∨ x.ticked.epoch = maxEpoch := by
  unfold Resource.ticked
  split
  · nofun
  · exact h

theorem lower_lawful (h : s.Lawful) : (s.lower late).Lawful := by
  have hst (l : LeaseNo) : ((s.lower late).lease l).st.still = (s.lease l).st.still := lease_still_lower
  have hwst (w : WaitNo) : ((s.lower late).wait w).st.still = (s.wait w).st.still := wait_still_lower
  have hgen (l : LeaseNo) : ((s.lower late).lease l).gen = (s.lease l).gen := by
    rw [lease_lower, apply_unlessLate gen_promoTicked, apply_unlessLate gen_ticked]
  have hwgen (w : WaitNo) : ((s.lower late).wait w).gen = (s.wait w).gen := by
    rw [wait_lower, apply_unlessLate wait_gen_ticked]
  have hclaim (l : LeaseNo) : ((s.lower late).lease l).claim? = (s.lease l).claim? := by
    rw [claim_still, hst, hgen, ← claim_still]
  have hwclaim (w : WaitNo) : ((s.lower late).wait w).claim? = (s.wait w).claim? := by
    rw [wait_claim_still, hwst, hwgen, ← wait_claim_still]
  have hown (l : LeaseNo) (p : Port) : ((s.lower late).lease l).ownedBy p = (s.lease l).ownedBy p := by
    simp only [Lease.ownedBy, hclaim]
  have hwown (w : WaitNo) (p : Port) : ((s.lower late).wait w).ownedBy p = (s.wait w).ownedBy p := by
    simp only [Wait.ownedBy, hwclaim]
  have hattn (p : Port) : (s.lower late).attn p = s.attn p := by simp only [State.attn, State.lower]
  constructor
  case sound =>
    intro r
    refine ⟨?_, ?_⟩
    · unfold State.SiteLaw
      rw [res_lower]
      refine unlessLate_of (P := fun x => Site x _ _ noLease noWait) (fun _ => site_ticked) ?_
      refine (h.sound r).site.congr_still (fun l => ?_) fun w => ?_
      · unfold State.leaseAt
        rw [still_seenAt, hst, ← still_seenAt]
      · unfold State.waitAt
        rw [wait_still_seenAt, hwst, ← wait_still_seenAt]
    · rw [res_lower]
      exact unlessLate_of (P := fun x : Resource => x.st = .free → x.queue = [] ∨ x.epoch = maxEpoch)
        (fun _ => served_ticked) (h.sound r).served
  case orderly =>
    have ho := h.orderly
    constructor
    case nodup => simpa only [hattn] using ho.nodup
    case lease =>
      intro p l hl
      rw [hown]
      refine ⟨?_, ?_⟩
      · simp only [State.lists, hattn] at hl
        exact (ho.lease p l hl).1
      · simp only [State.lists, hattn] at hl
        have hlisted := (ho.lease p l hl).2
        rwa [← Bool.or_eq_true, listed_still, ← hst, ← hgen, ← listed_still, Bool.or_eq_true] at hlisted
    case wait =>
      intro p w hw
      rw [hwown]
      simp only [State.lists, hattn] at hw
      refine ⟨(ho.wait p w hw).1, ?_⟩
      rw [wait_isEnded_still, hwst, hwgen, ← wait_isEnded_still]
      exact (ho.wait p w hw).2
    case resource => simpa only [State.lists, hattn] using ho.resource
    case endedLease =>
      intro l k c hl
      rw [← still_eq_ended, hst, still_eq_ended] at hl
      simpa only [State.tells, hattn] using ho.endedLease l k c hl
    case endedWait =>
      intro w k c hw
      rw [← wait_still_eq_ended, hwst, wait_still_eq_ended] at hw
      simpa only [State.tells, hattn] using ho.endedWait w k c hw
    case leaseGen =>
      intro l hl
      rw [hgen]
      refine ho.leaseGen l ?_
      rw [Bool.eq_false_iff, ne_eq, lease_isFree_iff_place] at hl ⊢
      rwa [Lease.place, ← hclaim]
    case waitGen =>
      intro w hw
      rw [hwgen]
      refine ho.waitGen w ?_
      rw [Bool.eq_false_iff, ne_eq, wait_isFree_iff_place] at hw ⊢
      rwa [Wait.place, ← hwclaim]
    case leaseCount =>
      intro l
      refine .inl ?_
      rw [lease_lower]
      exact unlessLate_of (P := fun x : Lease => x.counts = true) counts_promoTicked
        (unlessLate_of (P := fun x : Lease => x.counts = true) counts_ticked ((ho.leaseCount l).resolve_right fun hx => hx.1))
    case waitCount =>
      intro w
      rw [wait_lower]
      exact unlessLate_of (P := fun v : Wait => v.counts = true) wait_counts_ticked (ho.waitCount w)
  case quiet =>
    intro p hp
    have hatt : s.attached p = false := by
      simpa only [State.attached, session_lower, apply_unlessLate attached_ticked] using hp
    simpa only [hattn, hown, hwown] using h.quiet p hatt
  case session =>
    intro p
    rw [session_lower]
    exact unlessLate_of (P := Session.Kept) session_kept_ticked (h.session p)
  case clock => exact h.clock
  case due => simpa only [State.DueLaw, State.lower] using h.due

end Sys2Proof.Machine
end

