-- ==== Sys2Proof/Proofs/ResponseBounds.lean ====
section
/-! PROOFS. The bounds on response bodies, and the laws of the link ports. -/

namespace Sys2Proof.Machine

variable {s t : State} {p : Port} {k : Req} {body : List Byte} {rq : Request} {x : Link}

/-! ### Response bodies (Table 11-2) -/

@[simp] theorem length_bytes2 (n : Half) : (bytes2 n).length = 2 := rfl
@[simp] theorem length_bytes4 (n : Quad) : (bytes4 n).length = 4 := rfl

@[simp] theorem length_gateReport (g : Gate) : g.report.length = 4 := by
  unfold Gate.report
  split <;> rfl

@[simp] theorem length_holderEntry (y : Lease) : y.holderEntry.length = 4 := by
  unfold Lease.holderEntry
  split <;> rfl

@[simp] theorem length_headWaiter (y : Resource) : (s.headWaiter y).length = 2 := by
  unfold State.headWaiter
  split
  · next w _ _ => cases h : (s.wait w).claim? <;> rfl
  · rfl

@[simp] theorem length_flatMap_holderEntry (ls : List LeaseNo) :
    (ls.flatMap fun l => (s.lease l).holderEntry).length = 4 * ls.length := by
  induction ls with
  | nil => rfl
  | cons l ls ih =>
    rw [List.flatMap_cons, List.length_append, ih, length_holderEntry, List.length_cons]
    omega

theorem length_resourceReport (r : ResNo) (h : (s.res r).holders.length ≤ 4) : (s.resourceReport r).length ≤ 38 := by
  simp only [State.resourceReport, List.length_append, List.length_cons, List.length_nil, length_bytes2, length_bytes4,
    length_flatMap_holderEntry, length_headWaiter]
  omega

@[simp] theorem length_leaseReport (y : Lease) (l : LeaseNo) : (y.report l).length = 22 := by
  unfold Lease.report
  split <;> rfl

@[simp] theorem length_waitReport (y : Wait) (w : WaitNo) : (y.report w).length = 9 := by
  unfold Wait.report
  split <;> rfl

theorem length_snapshot (h : ∀ r, (s.res r).holders.length ≤ 4) (y : Ref) : (s.snapshot y).length ≤ 38 := by
  cases y with
  | lease l => simp [State.snapshot]
  | wait w => simp [State.snapshot]
  | resource r => exact length_resourceReport r (h r)

/-- The body of a reply fits a response frame. -/
def Reply.Fits (rp : Reply) : Prop := rp.body.length ≤ 42

@[simp] theorem fits_refuse (r : Result) : (Reply.refuse r).Fits := Nat.zero_le _

/-- The owner's reply fits, whatever it meets. -/
def Owner.Fits (own : Owner) : Prop := ∀ p body s, (own p body s).1.Fits

theorem withLease_fits {own : LeaseNo → Owner} (h : ∀ l, (own l).Fits) : (withLease own).Fits := by
  intro p body s
  simp only [withLease]
  split
  · exact fits_refuse _
  · exact fits_refuse _
  · exact h _ _ _ _

theorem acquireOwner_fits : acquireOwner.Fits := by
  intro p body s
  rcases acquireOwner_cases p body s with ⟨result, h⟩ | ⟨a, l, -, -, ⟨-, -, h⟩ | ⟨w, -, -, -, -, -, h⟩⟩ <;> rw [h]
  · exact fits_refuse _
  · simp [Reply.Fits, State.grantNow]
  · simp [Reply.Fits, State.enqueue]

theorem renewOwner_fits : renewOwner.Fits := by
  refine withLease_fits fun l p body s => ?_
  simp only [renewLease, State.answerEnded]
  repeat' split
  all_goals simp [Reply.Fits, Reply.refuse]

theorem releaseOwner_fits : releaseOwner.Fits := by
  refine withLease_fits fun l p body s => ?_
  simp only [releaseLease, State.answerEnded]
  repeat' split
  all_goals simp [Reply.Fits, Reply.refuse]

theorem promoteOwner_fits : promoteOwner.Fits := by
  refine withLease_fits fun l p body s => ?_
  simp only [promoteLease, State.answerEnded, State.promoteNow, State.promotePending]
  repeat' split
  all_goals simp [Reply.Fits, Reply.refuse]

theorem demoteOwner_fits : demoteOwner.Fits := by
  refine withLease_fits fun l p body s => ?_
  simp only [demoteLease, State.answerEnded, State.demoteNow]
  repeat' split
  all_goals simp [Reply.Fits, Reply.refuse]

theorem cancelWaitOwner_fits : cancelWaitOwner.Fits := by
  intro p body s
  simp only [cancelWaitOwner, cancelNamed]
  repeat' split
  all_goals simp [Reply.Fits, Reply.refuse]

theorem retireOwner_fits : retireOwner.Fits := by
  intro p body s
  simp only [retireOwner, State.retire]
  repeat' split
  all_goals simp [Reply.Fits, Reply.refuse]

theorem portStatusOwner_fits : portStatusOwner.Fits := by
  intro p body s
  simp only [portStatusOwner, State.portReport]
  split <;> simp [Reply.Fits, Reply.refuse]

theorem checkEpochOwner_fits : checkEpochOwner.Fits := by
  intro p body s
  simp only [checkEpochOwner]
  split <;> simp [Reply.Fits, Reply.refuse]

theorem scanOwner_fits : scanOwner.Fits := by
  intro p body s
  simp only [scanOwner, State.scanReport]
  repeat' split
  all_goals simp [Reply.Fits, Reply.refuse]

theorem defineOwner_fits : defineOwner.Fits := by
  intro p body s
  simp only [defineOwner]
  repeat' split
  all_goals simp [Reply.Fits, Reply.refuse]

theorem revokeOwner_fits : revokeOwner.Fits := by
  intro p body s
  simp only [revokeOwner]
  repeat' split
  all_goals simp [Reply.Fits, Reply.refuse]

theorem setQuotaOwner_fits : setQuotaOwner.Fits := by
  intro p body s
  simp only [setQuotaOwner]
  repeat' split
  all_goals simp [Reply.Fits, Reply.refuse]

theorem evictOwner_fits : evictOwner.Fits := by
  intro p body s
  simp only [evictOwner]
  repeat' split
  all_goals simp [Reply.Fits, Reply.refuse]

theorem bindGateOwner_fits : bindGateOwner.Fits := by
  intro p body s
  simp only [bindGateOwner]
  repeat' split
  all_goals simp [Reply.Fits, Reply.refuse]

theorem unbindGateOwner_fits : unbindGateOwner.Fits := by
  intro p body s
  simp only [unbindGateOwner]
  repeat' split
  all_goals simp [Reply.Fits, Reply.refuse]

theorem setTimebaseOwner_fits : setTimebaseOwner.Fits := by
  intro p body s
  simp only [setTimebaseOwner]
  split <;> simp [Reply.Fits, Reply.refuse, timebaseBody]

/-- Every reply fits, where no holder list is longer than four. -/
theorem ownerOf_fits (k : Req) (h : ∀ r, (s.res r).holders.length ≤ 4) : (ownerOf k p body s).1.Fits := by
  cases k
  case fetchNotice =>
    simp only [ownerOf, fetchNoticeOwner]
    split
    · exact Nat.le_of_ble_eq_true rfl
    · next e es _ =>
      have := length_snapshot h e.ref
      simp only [Reply.Fits, List.length_append, List.length_cons, List.length_nil]
      omega
  case queryResource =>
    simp only [ownerOf, queryResourceOwner]
    split
    · exact fits_refuse _
    · next r _ => exact (length_resourceReport r (h r)).trans (by omega)
  case attach => simp [ownerOf, attachOwner, Reply.Fits, attachBody]
  case keepalive => simp [ownerOf, keepaliveOwner, Reply.Fits]
  case queryLease => exact withLease_fits (fun l p body s => by simp [Reply.Fits]) p body s
  case startTimebase => simp [ownerOf, startTimebaseOwner, Reply.Fits, timebaseBody]
  case haltTimebase => simp [ownerOf, haltTimebaseOwner, Reply.Fits, timebaseBody]
  case detach | warmReset => exact Nat.zero_le _
  case portStatus => exact portStatusOwner_fits p body s
  case acquire => exact acquireOwner_fits p body s
  case renew => exact renewOwner_fits p body s
  case release => exact releaseOwner_fits p body s
  case promote => exact promoteOwner_fits p body s
  case demote => exact demoteOwner_fits p body s
  case cancelWait => exact cancelWaitOwner_fits p body s
  case checkEpoch => exact checkEpochOwner_fits p body s
  case scan => exact scanOwner_fits p body s
  case define => exact defineOwner_fits p body s
  case retire => exact retireOwner_fits p body s
  case revoke => exact revokeOwner_fits p body s
  case setQuota => exact setQuotaOwner_fits p body s
  case bindGate => exact bindGateOwner_fits p body s
  case unbindGate => exact unbindGateOwner_fits p body s
  case setTimebase => exact setTimebaseOwner_fits p body s
  case evict => exact evictOwner_fits p body s

/-! ### Link ports (R156, R161, R163 to R165) -/

/-- The queues of a link port and what waits in them are within bounds. -/
def Link.Fits (x : Link) : Prop :=
  x.requests.length ≤ Config.queueDepth ∧ x.responses.length ≤ Config.queueDepth
    ∧ (∀ rq ∈ x.requests, rq.body.length ≤ Config.maxBody) ∧ ∀ rp ∈ x.responses, rp.body.length ≤ 42

/-- All the laws. -/
structure State.Fit (s : State) : Prop where
  lawful : s.Lawful
  links : ∀ p, (s.link p).Fits

theorem State.Fit.setLink (h : s.Fit) (hx : x.Fits) : (s.setLink p x).Fit where
  lawful := h.lawful.setLink
  links q := by
    rw [link_setLink]
    split
    · exact hx
    · exact h.links q

theorem State.Fit.renewLiveness (h : s.Fit) : (s.renewLiveness p).Fit where
  lawful := h.lawful.renewLiveness
  links q := by
    rw [renewLiveness_eq]
    exact h.links q

theorem csFall_fit (h : s.Fit) : (s.csFall p).Fit := by
  simp only [State.csFall]
  split
  · exact h
  · split
    · exact h.setLink (h.links p)
    · exact h.setLink (h.links p)

theorem firstByte_fit {b : Byte} (h : s.Fit) : (s.firstByte p b).Fit := by
  simp only [State.firstByte]
  split
  · split
    · exact h.setLink (h.links p)
    · exact h.setLink (h.links p)
    · exact h.setLink (h.links p)
    · exact h.setLink (h.links p)
  · exact h

theorem length_frameRequest {stored : List Byte} {count : Nat} {cut : Bool} (h : frameRequest stored count cut = some rq) :
    rq.body.length ≤ Config.maxBody := by
  simp only [frameRequest] at h
  split at h
  · cases h
  · next hok =>
    split at h
    · cases h
    · cases h
      have : ¬ Config.maxBody < (stored.getD 2 0).toNat := fun hlt => hok (.inr (.inl hlt))
      exact (List.length_take_le _ _).trans (Nat.le_of_not_lt this)

theorem endAction_fit {cut : Bool} (h : s.Fit) : (s.endAction p cut).Fit := by
  obtain ⟨hreq, hresp, hbody, hrbody⟩ := h.links p
  unfold State.endAction
  split
  · simp only [State.judgeFrame]
    split
    · exact h.setLink (h.links p)
    · next rq hrq =>
      split
      · exact (h.setLink (x := { s.link p with refused := true }) (h.links p)).renewLiveness
      · next hroom =>
        refine (h.setLink (x := { s.link p with requests := (s.link p).requests ++ [rq] }) ⟨?_, hresp, ?_, hrbody⟩).renewLiveness
        · simpa using Nat.lt_of_not_le hroom
        · intro r hr
          rcases List.mem_append.mp hr with hr | hr
          · exact hbody r hr
          · exact List.mem_singleton.mp hr ▸ length_frameRequest hrq
  · unfold State.endCollect
    split
    · split
      · refine h.setLink ⟨hreq, ?_, hbody, fun r hr => hrbody r (List.mem_of_mem_drop hr)⟩
        rw [List.length_drop]
        omega
      · exact h
    · exact h
  · exact h

theorem csRise_fit {cut : Bool} (h : s.Fit) : (s.csRise p cut).Fit :=
  (endAction_fit h).setLink ((endAction_fit h).links p)

theorem abandon_fit (h : s.Fit) : (s.abandon p).Fit := by
  unfold State.abandon
  split
  · exact csRise_fit (csFall_fit h)
  · exact csRise_fit h
  · exact h

theorem reach_fit {b : Byte} (h : s.Fit) (hr : s.reach p b = some t) : t.Fit := by
  unfold State.reach at hr
  split at hr
  · exact Option.some.inj hr ▸ firstByte_fit (csFall_fit h)
  · exact Option.some.inj hr ▸ firstByte_fit h
  · split at hr
    · exact Option.some.inj hr ▸ h
    · cases hr

theorem shift_fits {bytes : List Byte} (h : x.Fits) : (x.shift bytes).Fits := by
  unfold Link.shift
  split
  · exact h
  · exact h
  · exact h
  · exact h

theorem transact_fit {b : Byte} {bytes : List Byte} {e : CsEnd} (h : s.Fit) : (s.transact p b bytes e).Fit := by
  unfold State.transact
  split
  · exact h.setLink (h.links p)
  · split
    · exact abandon_fit h
    · split
      · exact h
      · next t ht =>
        have hfit := reach_fit h ht
        split
        · exact csRise_fit (hfit.setLink (shift_fits (hfit.links p)))
        · exact hfit.setLink (shift_fits (hfit.links p))

end Sys2Proof.Machine
end

