-- ==== Sys2Proof/Proofs/LawfulCommands.lean ====
section
/-! PROOFS. Every command at the laws together. -/

namespace Sys2Proof.Machine

variable {s t : State} {p q : Port} {k : Req} {body : List Byte} {rq : Request} {x : Link} {cause : EndCause}

/-! ### Ticks -/

theorem flushed_fits : x.flushed.Fits :=
  ⟨Nat.zero_le _, Nat.zero_le _, fun _ hr => absurd hr List.not_mem_nil, fun _ hr => absurd hr List.not_mem_nil⟩

theorem link_loseSession : (s.loseSession p cause).link q = if q = p then (s.link p).flushed else s.link q := by
  rw [loseSession_eq, link_setLink]
  split
  · rfl
  · simp only [State.link, endSession_links]

theorem loseSession_links_fit (h : ∀ q, (s.link q).Fits) (q : Port) : ((s.loseSession p cause).link q).Fits := by
  rw [link_loseSession]
  split
  · exact flushed_fits
  · exact h q

theorem tickAt_fit (h : s.Fit) (y : TickRef) : (s.tickAt y).Fit := by
  refine ⟨tickAt_lawful h.lawful y, fun q => ?_⟩
  have tame {t : State} (ht : s.Tame t) : (t.link q).Fits := by
    simp only [State.link, ht.links]
    exact h.links q
  cases y with
  | settle r => exact tame tickSettle_tame
  | lease l => exact tame tickLease_tame
  | promo l => exact tame tickPromo_tame
  | wait w => exact tame tickWait_tame
  | live p =>
    simp only [State.tickAt, State.tickLive]
    split
    · split
      · exact loseSession_links_fit h.links q
      · exact h.links q
    · exact h.links q

theorem foldl_tickAt_fit (ys : List TickRef) (s : State) (h : s.Fit) : (ys.foldl State.tickAt s).Fit := by
  induction ys generalizing s with
  | nil => exact h
  | cons y ys ih => exact ih _ (tickAt_fit h y)

/-- Other countdowns due, a free value spent. -/
theorem State.Fit.congr (h : s.Fit) (hr : t.resources = s.resources) (hl : t.leases = s.leases)
    (hw : t.waits = s.waits) (ha : t.attention = s.attention) (hses : t.sessions = s.sessions) (hk : t.links = s.links)
    (ht : t.TimebaseLaw) (hd : t.DueLaw) : t.Fit where
  lawful := h.lawful.congr hr hl hw ha hses ht hd
  links q := by
    simp only [State.link, hk]
    exact h.links q

theorem finishTick_fit (h : s.Fit) : s.finishTick.Fit := by
  by_cases hc : s.counting = true
  · by_cases hd : s.due = []
    · rw [finishTick_of_none_due hd]
      exact h
    · rw [finishTick_eq hc hd]
      exact foldl_tickAt_fit _ _ (h.congr rfl rfl rfl rfl rfl rfl h.lawful.clock ⟨List.nodup_nil, .inr rfl⟩)
  · rw [finishTick_of_not_counting (eq_false_of_ne_true hc)]
    exact h

theorem tick_fit (h : s.Fit) (hc : s.counting = true) : s.tick.Fit where
  lawful := by
    have hrun := counting_iff.mp hc
    refine (lower_lawful (late := s.late.headD []) h.lawful).congr ?_ ?_ ?_ ?_ ?_ ?_ ?_
    all_goals simp only [State.tick, State.lower, State.TimebaseLaw, State.DueLaw]
    · exact ⟨h.lawful.clock.1, h.lawful.clock.2.1, fun _ => h.lawful.clock.1⟩
    · exact ⟨toReach_nodup, .inl hrun⟩
  links q := by
    have hlink : s.tick.link q = s.link q := by simp only [State.link, State.tick, State.lower]
    rw [hlink]
    exact h.links q

theorem counted_fit (h : s.Fit) (hp : s.timebase.prescaler + 1 < s.timebase.divider) : s.counted.Fit :=
  h.congr rfl rfl rfl rfl rfl rfl ⟨h.lawful.clock.1, h.lawful.clock.2.1, fun _ => hp⟩ h.lawful.due

/-! ### Requests -/

theorem warm_fits : x.warm.Fits :=
  ⟨Nat.zero_le _, Nat.zero_le _, fun _ hr => absurd hr List.not_mem_nil, fun _ hr => absurd hr List.not_mem_nil⟩

/-- A request's own rule leaves each link port as it is or empties it. -/
theorem ownerOf_links (k : Req) (p : Port) (body : List Byte) (s : State) (q : Port) (h : (s.link q).Fits) :
    ((ownerOf k p body s).2.link q).Fits
      ∧ ((ownerOf k p body s).2.link q).responses.length ≤ (s.link q).responses.length := by
  by_cases hevict : k = .evict
  · subst hevict
    have same : (s.link q).Fits ∧ (s.link q).responses.length ≤ (s.link q).responses.length := ⟨h, Nat.le_refl _⟩
    simp only [ownerOf, evictOwner]
    split
    · exact same
    · split
      · exact same
      · split
        · exact same
        · rw [link_loseSession]
          split
          · exact ⟨flushed_fits, Nat.zero_le _⟩
          · exact same
  · by_cases hwarm : k = .warmReset
    · subst hwarm
      simp only [ownerOf, warmResetOwner, link_warm]
      exact ⟨warm_fits, Nat.zero_le _⟩
    · rw [(ownerOf_local hevict hwarm).link_eq]
      exact ⟨h, Nat.le_refl _⟩

theorem popRequest_fit (h : s.Fit) : (s.popRequest p).Fit := by
  obtain ⟨hreq, hresp, hbody, hrbody⟩ := h.links p
  refine h.setLink ⟨?_, hresp, fun r hr => hbody r (List.mem_of_mem_drop hr), hrbody⟩
  rw [List.length_drop]
  omega

theorem place_fit {rp : Reply} (h : s.Fit) (hroom : (s.link p).responses.length < Config.queueDepth) (hrp : rp.Fits) :
    (s.place p rq rp).Fit := by
  obtain ⟨hreq, hresp, hbody, hrbody⟩ := h.links p
  refine h.setLink ⟨hreq, ?_, hbody, fun r hr => ?_⟩
  · simpa using hroom
  · rcases List.mem_append.mp hr with hr | hr
    · exact hrbody r hr
    · rw [List.mem_singleton.mp hr]
      exact hrp

theorem room_popRequest (h : s.takeable p = some rq) :
    ((s.popRequest p).link p).responses.length < Config.queueDepth := by
  obtain ⟨-, hroom, -⟩ := takeable_eq_some.mp h
  rw [State.popRequest, link_setLink_self]
  exact hroom

theorem answer_fit (h : s.Fit) (hd : k = .haltTimebase → s.precheck k p body = none → s.due = []) :
    (s.answer k (ownerOf k) p body).2.Fit ∧ (s.answer k (ownerOf k) p body).1.Fits
      ∧ ((s.answer k (ownerOf k) p body).2.link p).responses.length ≤ (s.link p).responses.length := by
  simp only [State.answer]
  split
  · exact ⟨h, fits_refuse _, Nat.le_refl _⟩
  · next hpre =>
    have hsession := (precheck_none (rq := ⟨0, 0, body⟩) |>.mp hpre).2.1
    refine ⟨⟨ownerOf_lawful k h.lawful (fun hn => ?_) fun hk => hd hk hpre, fun q => (ownerOf_links k p body s q (h.links q)).1⟩,
      ownerOf_fits k fun r => (h.lawful.sound r).site.few, (ownerOf_links k p body s p (h.links p)).2⟩
    exact hsession hn

theorem serve_fit (h : s.Fit)
    (hd : k = .haltTimebase → ∀ rq, s.takeable p = some rq → rq.code = k.code → s.precheck k p rq.body = none → s.due = []) :
    (s.serve k (ownerOf k) p).Fit := by
  simp only [State.serve]
  split
  · next rq hrq =>
    split
    · next hcode =>
      obtain ⟨hfit, hreply, hroom⟩ := answer_fit (popRequest_fit h) (p := p) fun hk hpre => hd hk rq hrq hcode hpre
      exact place_fit hfit (Nat.lt_of_le_of_lt hroom (room_popRequest hrq)) hreply
    · exact h
  · exact h

theorem tickEnded_fit (h : s.Fit) : (s.tickEnded k p).Fit := by
  simp only [State.tickEnded]
  split
  · split
    · exact finishTick_fit h
    · exact h
  · exact h

/-- A request that passes its checks finds no countdown due once the tick in progress has ended. -/
theorem tickEnded_due (h : s.DueLaw) (ht : (s.tickEnded k p).takeable p = some rq) (hcode : rq.code = k.code)
    (hpre : (s.tickEnded k p).precheck k p rq.body = none) : (s.tickEnded k p).due = [] := by
  by_cases hc : s.counting = true
  · rcases he : s.takeable p with _ | rq'
    · simp only [State.tickEnded, he] at ht
      cases ht
    · by_cases hok : rq'.code = k.code ∧ s.precheck k p rq'.body = none
      · simp only [State.tickEnded, he, if_pos hok]
        exact finishTick_due hc
      · have hsame : s.tickEnded k p = s := by simp only [State.tickEnded, he, if_neg hok]
        rw [hsame] at ht hpre
        obtain rfl := Option.some.inj (he.symm.trans ht)
        exact absurd ⟨hcode, hpre⟩ hok
  · have hdue : s.due = [] := h.2.resolve_left fun hrun => hc (counting_iff.mpr hrun)
    have hsame : s.tickEnded k p = s := by
      simp only [State.tickEnded, finishTick_of_none_due hdue, ite_self]
      split <;> rfl
    rw [hsame, hdue]

theorem request_fit (k : Req) (h : s.Fit) : ((s.takenIn k p).serve k (ownerOf k) p).Fit := by
  by_cases hk : k = .haltTimebase
  · subst hk
    exact serve_fit (tickEnded_fit h) fun _ rq ht hcode hpre => tickEnded_due h.lawful.due ht hcode hpre
  · refine serve_fit ?_ fun hk' => absurd hk' hk
    unfold State.takenIn
    split
    · exact tickEnded_fit h
    · exact tickEnded_fit h
    · exact h

/-! ### Every command -/

theorem leads_fit (h : s.Fit) (hl : s.Leads t) : t.Fit := by
  cases hl with
  | stays => exact h
  | request k p => exact request_fit k h
  | unknown p rq hrq => exact place_fit (popRequest_fit h) (room_popRequest hrq) (fits_refuse _)
  | transact p b bytes e => exact transact_fit h
  | fall p => exact csFall_fit h
  | firstByte p b => exact firstByte_fit h
  | tick hc => exact tick_fit (finishTick_fit h) (counting_finishTick.trans hc)
  | counted hc hp => exact counted_fit (finishTick_fit h) (by rw [finishTick_frame.timebase]; exact hp)
  | reached y hc hy =>
    refine tickAt_fit (h.congr (t := { s with due := s.due.erase y }) rfl rfl rfl rfl rfl rfl h.lawful.clock ⟨h.lawful.due.1.erase y, .inl ?_⟩) y
    exact counting_iff.mp hc
  | rise => exact h.congr rfl rfl rfl rfl rfl rfl h.lawful.clock ⟨h.lawful.due.1, h.lawful.due.2.imp_left fun hr => ⟨rfl, hr.2⟩⟩
  | gateOeN high => exact h.congr rfl rfl rfl rfl rfl rfl h.lawful.clock h.lawful.due

end Sys2Proof.Machine
end

