-- ==== Sys2Proof/Proofs/StepLaws.lean ====
section
/-! PROOFS. The laws as they are stated, and as they are kept. -/

namespace Sys2Proof.Machine

variable {s t : State} {r : ResNo} {l : LeaseNo} {w : WaitNo} {p q : Port} {c : Claim} {e : Quad}

/-! ### What a resource sees of the records, in the terms of the laws -/

theorem holding_leaseAt : (s.leaseAt r l).holding? = some (c, e) ↔ (s.lease l).isHolder = true
    ∧ (s.lease l).claim? = some c ∧ (s.lease l).epoch? = some e ∧ c.res = r := by
  unfold State.leaseAt
  rw [seenAt_eq]
  cases hst : (s.lease l).st with
  | active h a | grace h a =>
    by_cases hr : h.claim.res = r
    · simp only [LeaseState.live?, LeaseState.holding?, Lease.isHolder, Lease.claim?, Lease.epoch?, hst, hr, Option.map_some, if_true,
        Option.some.injEq, Prod.mk.injEq, true_and]
      exact ⟨fun ⟨h1, h2⟩ => ⟨h1, h2, h1 ▸ hr⟩, fun ⟨h1, h2, _⟩ => ⟨h1, h2⟩⟩
    · simp only [LeaseState.live?, LeaseState.holding?, Lease.isHolder, Lease.claim?, Lease.epoch?, hst, hr, Option.map_some, if_false,
        Option.some.injEq, true_and, reduceCtorEq]
      exact ⟨False.elim, fun ⟨h1, _, h2⟩ => hr (h1 ▸ h2)⟩
  | reserved k => by_cases hr : k.res = r <;> simp [LeaseState.live?, LeaseState.holding?, Lease.isHolder, hst, hr]
  | _ => simp [LeaseState.live?, LeaseState.holding?, Lease.isHolder, hst]

theorem isHolder_leaseAt : (s.leaseAt r l).holding?.isSome = true ↔
    (s.lease l).isHolder = true ∧ (s.lease l).claim?.map (·.res) = some r := by
  rw [Option.isSome_iff_exists]
  constructor
  · rintro ⟨⟨c, e⟩, h⟩
    obtain ⟨hh, hc, -, hr⟩ := holding_leaseAt.mp h
    exact ⟨hh, by rw [hc, Option.map_some, hr]⟩
  · rintro ⟨hh, hc⟩
    obtain ⟨c, hc, hr⟩ := Option.map_eq_some_iff.mp hc
    obtain ⟨e, he⟩ : ∃ e, (s.lease l).epoch? = some e := by
      cases hst : (s.lease l).st <;> simp_all [Lease.isHolder, Lease.epoch?]
    exact ⟨(c, e), holding_leaseAt.mpr ⟨hh, hc, he, hr⟩⟩

theorem promo_leaseAt : (∃ n, (s.leaseAt r l).promo? = some n) ↔
    (s.lease l).isPromoting = true ∧ (s.lease l).claim?.map (·.res) = some r := by
  unfold State.leaseAt
  rw [seenAt_eq, ← Option.isSome_iff_exists]
  cases hst : (s.lease l).st with
  | active h a =>
    by_cases hr : h.claim.res = r <;>
      simp [LeaseState.live?, LeaseState.promo?, Lease.isPromoting, Lease.claim?, hst, hr]
  | reserved k => by_cases hr : k.res = r <;> simp [LeaseState.live?, LeaseState.promo?, Lease.isPromoting, hst, hr]
  | grace h a => by_cases hr : h.claim.res = r <;> simp [LeaseState.live?, LeaseState.promo?, Lease.isPromoting, hst, hr]
  | _ => simp [LeaseState.live?, LeaseState.promo?, Lease.isPromoting, hst]

theorem live_leaseAt : (s.lease l).liveClaim p r = true ↔ ∃ c, (s.leaseAt r l).live? = some c ∧ c.port = p := by
  unfold State.leaseAt
  rw [seenAt_eq]
  cases hst : (s.lease l).st with
  | reserved c =>
    by_cases hr : c.res = r <;> simp [LeaseState.live?, Lease.liveClaim, Lease.isEnded, Lease.claim?, hst, hr]
  | active h a | grace h a =>
    by_cases hr : h.claim.res = r <;> simp [LeaseState.live?, Lease.liveClaim, Lease.isEnded, Lease.claim?, hst, hr]
  | _ => simp [LeaseState.live?, Lease.liveClaim, Lease.isEnded, Lease.claim?, hst]

theorem cause_leaseAt (h : (s.lease l).claim?.map (·.res) = some r) :
    (s.leaseAt r l).cause? = (s.lease l).graceCause? := by
  unfold State.leaseAt
  rw [seenAt_eq]
  cases hst : (s.lease l).st <;> simp_all [LeaseState.live?, LeaseState.cause?, Lease.graceCause?, Lease.claim?]

theorem waiting_waitAt : (∃ c n l, s.waitAt r w = .waiting c n l) ↔
    (s.wait w).isWaiting = true ∧ (s.wait w).claim?.map (·.res) = some r := by
  cases hst : (s.wait w).st with
  | waiting c n l => simp [waitAt_eq_waiting, Wait.isWaiting, Wait.claim?, hst]
  | _ => simp [waitAt_eq_waiting, Wait.isWaiting, hst]

theorem reserved_iff {v : Wait} : v.reserved? = some l ↔ ∃ c n, v.st = .waiting c n l := by
  unfold Wait.reserved?
  cases v.st <;> simp

theorem isReserved_iff {y : Lease} : y.isReserved = true ↔ ∃ c, y.st = .reserved c := by
  unfold Lease.isReserved
  cases y.st <;> simp

/-! ### Counting records -/

theorem length_filter_eq_one {n : Nat} {P : Fin n → Bool} :
    ((List.finRange n).filter P).length = 1 ↔ (∃ a, P a = true) ∧ ∀ a b, P a = true → P b = true → a = b := by
  constructor
  · intro h
    obtain ⟨v, hv⟩ := List.length_eq_one_iff.mp h
    have hmem (a : Fin n) : P a = true ↔ a = v := by
      have hmem := List.mem_singleton (a := a) (b := v)
      rw [← hv] at hmem
      simpa using hmem
    exact ⟨⟨v, (hmem v).mpr rfl⟩, fun a b ha hb => ((hmem a).mp ha).trans ((hmem b).mp hb).symm⟩
  · rintro ⟨⟨a, ha⟩, huniq⟩
    have hfilter : (List.finRange n).filter P = [a] := by
      refine List.perm_singleton.mp ((List.perm_ext_iff_of_nodup ((List.nodup_finRange n).filter P)
        (List.nodup_singleton a)).mpr fun b => ?_)
      simp only [List.mem_filter, List.mem_finRange, true_and, List.mem_singleton]
      exact ⟨fun hb => huniq b a hb ha, fun hb => hb ▸ ha⟩
    rw [hfilter]
    rfl

theorem length_filter_le_one {n : Nat} {P : Fin n → Bool} :
    ((List.finRange n).filter P).length ≤ 1 ↔ ∀ a b, P a = true → P b = true → a = b := by
  constructor
  · intro h a b ha hb
    have hpos : 0 < ((List.finRange n).filter P).length := List.length_pos_of_mem (List.mem_filter.mpr ⟨List.mem_finRange a, ha⟩)
    exact (length_filter_eq_one.mp (by omega)).2 a b ha hb
  · intro h
    by_cases hex : ∃ a, P a = true
    · exact (length_filter_eq_one.mpr ⟨hex, h⟩).le
    · have : (List.finRange n).filter P = [] := List.filter_eq_nil_iff.mpr fun a _ ha => hex ⟨a, ha⟩
      rw [this]
      exact Nat.zero_le _

/-! ### From the laws as they are stated -/

theorem claim_of_holder (hh : s.HolderLaw) (hl : l ∈ (s.res r).holders) : (s.lease l).claim?.map (·.res) = some r :=
  (((hh r).2 l).mp hl).2

theorem agrees_cases (h : s.Inv) (r : ResNo) :
    ((s.res r).st ≠ .shared → (s.res r).slot = none) ∧ ((s.res r).retireNotice = true ↔ (s.res r).st = .retiring)
      ∧ ((s.res r).st = .undefined → (s.res r).holders = [] ∧ (s.res r).queue = [] ∧ (s.res r).attrs = .cleared)
      ∧ ((s.res r).st = .free → (s.res r).holders = [] ∧ ((s.res r).queue = [] ∨ (s.res r).epoch = maxEpoch))
      ∧ (∀ n, (s.res r).st = .settling n → (s.res r).holders = [] ∧ n ≠ 0)
      ∧ ((s.res r).st = .exclusive → (s.res r).holders.length = 1
        ∧ ∀ l ∈ (s.res r).holders, (s.lease l).claim?.map (·.mode) = some .exclusive)
      ∧ ((s.res r).st = .shared → 1 ≤ (s.res r).holders.length
        ∧ (s.res r).holders.length ≤ (s.res r).attrs.shareLimit.toNat
        ∧ ∀ l ∈ (s.res r).holders, (s.lease l).claim?.map (·.mode) = some .shared)
      ∧ ((s.res r).st = .retiring → 1 ≤ (s.res r).holders.length ∧ (s.res r).queue = []
        ∧ ∀ l ∈ (s.res r).holders, (s.lease l).graceCause? = some .retire) := by
  have hagree := h.agreement r
  rcases hst : (s.res r).st <;> simp only [State.agrees, hst, decide_eq_true_eq] at hagree <;> simp_all

/-- The mode of every holder, in the terms of the site. -/
theorem mode_of_holding {m : Mode} (hall : ∀ l ∈ (s.res r).holders, (s.lease l).claim?.map (·.mode) = some m)
    (hh : s.HolderLaw) (hl : (s.leaseAt r l).holding? = some (c, e)) : c.mode = m := by
  obtain ⟨hholder, hc, -, hr⟩ := holding_leaseAt.mp hl
  have := hall l (((hh r).2 l).mpr ⟨hholder, by rw [hc, Option.map_some, hr]⟩)
  rw [hc, Option.map_some] at this
  exact Option.some.inj this

theorem waiting_of_wait (hr : s.ReserveLaw) {k : WaitClaim} {n : Half} (hw : (s.wait w).st = .waiting k n l) :
    (s.lease l).st = .reserved k.leaseClaim := by
  obtain ⟨hres, hclaim⟩ := hr.1 w l (reserved_iff.mpr ⟨k, n, hw⟩)
  obtain ⟨c, hc⟩ := isReserved_iff.mp hres
  simp only [Lease.claim?, Wait.claim?, hc, hw, Option.map_some, Option.some.injEq] at hclaim
  rw [hc, hclaim]

theorem siteLaw_of_inv (h : s.Inv) (r : ResNo) : s.SiteLaw r noLease noWait := by
  obtain ⟨hslot, hnotice, hundef, hfree, hsettling, hexcl, hshared, hretiring⟩ := agrees_cases h r
  have hmem (l : LeaseNo) : l ∈ (s.res r).holders ↔ (s.leaseAt r l).holding?.isSome = true := by
    rw [(h.holders r).2 l, isHolder_leaseAt]
  have hclaim {l : LeaseNo} (hl : l ∈ (s.res r).holders) : (s.lease l).claim?.map (·.res) = some r :=
    claim_of_holder h.holders hl
  constructor
  case holdersNodup => exact (h.holders r).1
  case mem_holders => exact fun l => (hmem l).trans ⟨.inl, fun h => h.resolve_right id⟩
  case gone => exact fun _ => False.elim
  case epoch =>
    intro l c e hl
    have he := h.epochs r l ((hmem l).mpr (by rw [hl]; rfl))
    exact Option.some.inj ((holding_leaseAt.mp hl).2.2.1.symm.trans he)
  case queueNodup => exact (h.queues r).1
  case queueLimit => exact (h.queues r).2.1
  case mem_queue =>
    intro w
    rw [(h.queues r).2.2 w, waiting_waitAt]
    exact ⟨.inl, fun h => h.resolve_right id⟩
  case goneWait => exact fun _ => False.elim
  case reserve =>
    intro w c n l hw
    obtain ⟨hw, hr⟩ := waitAt_eq_waiting.mp hw
    exact leaseAt_eq_reserved.mpr ⟨waiting_of_wait h.reserves hw, hr⟩
  case reserve_inj =>
    intro w w' c c' n n' l hw hw'
    have hw := reserved_iff.mpr ⟨c, n, (waitAt_eq_waiting.mp hw).1⟩
    have hw' := reserved_iff.mpr ⟨c', n', (waitAt_eq_waiting.mp hw').1⟩
    have hone := length_filter_eq_one.mp (h.reserves.2 l (h.reserves.1 w l hw).1)
    exact hone.2 w w' (decide_eq_true hw) (decide_eq_true hw')
  case reserved =>
    intro l k hl
    obtain ⟨hl, hr⟩ := leaseAt_eq_reserved.mp hl
    obtain ⟨w, hw⟩ := (length_filter_eq_one.mp (h.reserves.2 l (isReserved_iff.mpr ⟨k, hl⟩))).1
    obtain ⟨c, n, hw⟩ := reserved_iff.mp (of_decide_eq_true hw)
    have hc := LeaseState.reserved.inj (hl.symm.trans (waiting_of_wait h.reserves hw))
    exact ⟨w, c, n, waitAt_eq_waiting.mpr ⟨hw, by rw [← hr, hc]; rfl⟩⟩
  case claims =>
    intro l l' c c' hl hl' hp
    exact length_filter_le_one.mp (h.claims c.port r) l l' (live_leaseAt.mpr ⟨c, hl, rfl⟩) (live_leaseAt.mpr ⟨c', hl', hp.symm⟩)
  case slot =>
    intro l hl
    obtain ⟨hp, hm⟩ := h.slots.1 r l hl
    exact .inr (promo_leaseAt.mpr ⟨hp, hclaim hm⟩)
  case slotHolder => exact fun l hl => (h.slots.1 r l hl).2
  case promo =>
    intro l n hl
    obtain ⟨hp, hc⟩ := promo_leaseAt.mp ⟨n, hl⟩
    obtain ⟨c, hc', hs⟩ := h.slots.2 l hp
    have : (s.lease l).claim? = some c := hc'
    rw [this, Option.map_some] at hc
    rwa [Option.some.inj hc] at hs
  case slotShared => exact hslot
  case undefined => exact hundef
  case free => exact fun hst => (hfree hst).1
  case settling => exact hsettling
  case exclusive => exact fun hst => ⟨(hexcl hst).1, fun l c e hl => mode_of_holding (hexcl hst).2 h.holders hl⟩
  case shared =>
    exact fun hst => ⟨(hshared hst).1, (hshared hst).2.1, fun l c e hl => mode_of_holding (hshared hst).2.2 h.holders hl⟩
  case retiring =>
    intro hst
    obtain ⟨hpos, hq, hall⟩ := hretiring hst
    refine ⟨hpos, hq, fun l c e hl => ?_⟩
    have hm := (hmem l).mpr (by rw [hl]; rfl)
    rw [cause_leaseAt (hclaim hm)]
    exact hall l hm
  case notice => exact hnotice
  case range => exact (h.ranges r).1
  case few => exact (h.ranges r).2.1
  case sharedWait =>
    intro w c n l hw hm
    obtain ⟨hst, hr⟩ := waitAt_eq_waiting.mp hw
    refine (h.ranges r).2.2 w (((h.queues r).2.2 w).mpr (waiting_waitAt.mp ⟨c, n, l, hw⟩)) ?_
    simp [Wait.mode?, Wait.claim?, hst, hm]

theorem orderly_of_inv (h : s.Inv) : s.Orderly noRef := by
  have entry {p : Port} {x : Ref} (hx : s.lists p x) : ∃ e ∈ s.attn p, e.ref = x := List.mem_map.mp hx
  constructor
  case nodup => exact fun p => (h.lists p).1
  case lease =>
    intro p l hl
    obtain ⟨e, he, href⟩ := entry hl
    have := (h.lists p).2 e he
    rw [href] at this
    simpa using this
  case wait =>
    intro p w hw
    obtain ⟨e, he, href⟩ := entry hw
    have := (h.lists p).2 e he
    rw [href] at this
    simpa using this
  case resource =>
    intro p r hr
    obtain ⟨e, he, href⟩ := entry hr
    have := (h.lists p).2 e he
    rw [href] at this
    simpa using this
  case endedLease =>
    intro l k c hl
    obtain ⟨k', hk, hex⟩ := h.tombstones.1 l (by simp [Lease.isEnded, hl])
    obtain rfl : k.claim = k' := by simpa [Lease.claim?, hl] using hk
    exact .inr hex
  case endedWait => exact fun w c e hw => .inr (h.tombstones.2 w c e hw)
  case leaseGen => exact h.generations.1
  case waitGen => exact h.generations.2
  case leaseCount => exact fun l => .inl (h.counts.1 l)
  case waitCount => exact h.counts.2.1

/-- The laws as they are kept follow from the laws as they are stated. -/
theorem fit_of_inv (h : s.Inv) : s.Fit where
  lawful := {
    sound := fun r => ⟨siteLaw_of_inv h r, fun hst => ((agrees_cases h r).2.2.2.1 hst).2⟩
    orderly := orderly_of_inv h
    quiet := h.sessions
    session := fun p => ⟨h.quotas p, h.counts.2.2 p⟩
    clock := h.timebase
    due := h.due }
  links := h.links

/-! ### Back to the laws as they are stated -/

section
variable (h : s.Lawful)
include h

theorem State.Lawful.holderLaw : s.HolderLaw := fun r => by
  refine ⟨(h.sound r).site.holdersNodup, fun l => ?_⟩
  rw [← isHolder_leaseAt, (h.sound r).site.mem_holders l]
  exact ⟨fun h => h.resolve_right id, .inl⟩

theorem State.Lawful.queueLaw : s.QueueLaw := fun r => by
  refine ⟨(h.sound r).site.queueNodup, (h.sound r).site.queueLimit, fun w => ?_⟩
  rw [← waiting_waitAt, (h.sound r).site.mem_queue w]
  exact ⟨fun h => h.resolve_right id, .inl⟩

theorem State.Lawful.reserveLaw : s.ReserveLaw := by
  refine ⟨fun w l hl => ?_, fun l hl => ?_⟩
  · obtain ⟨c, n, hw⟩ := reserved_iff.mp hl
    have hlease := h.reserved hw
    exact ⟨isReserved_iff.mpr ⟨_, hlease⟩, by simp [Lease.claim?, Wait.claim?, hlease, hw]⟩
  · obtain ⟨k, hk⟩ := isReserved_iff.mp hl
    have hsite := (h.sound k.res).site
    obtain ⟨w, c, n, hw⟩ := hsite.reserved l k (leaseAt_eq_reserved.mpr ⟨hk, rfl⟩)
    obtain ⟨hst, -⟩ := waitAt_eq_waiting.mp hw
    refine length_filter_eq_one.mpr ⟨⟨w, decide_eq_true (reserved_iff.mpr ⟨c, n, hst⟩)⟩, fun a b ha hb => ?_⟩
    have seen {v : WaitNo} (hv : decide ((s.wait v).reserved? = some l) = true) :
        ∃ c n, s.waitAt k.res v = .waiting c n l := by
      obtain ⟨c, n, hv⟩ := reserved_iff.mp (of_decide_eq_true hv)
      have hc := LeaseState.reserved.inj (hk.symm.trans (h.reserved hv))
      exact ⟨c, n, waitAt_eq_waiting.mpr ⟨hv, by rw [hc]; rfl⟩⟩
    obtain ⟨c1, n1, ha⟩ := seen ha
    obtain ⟨c2, n2, hb⟩ := seen hb
    exact hsite.reserve_inj a b c1 c2 n1 n2 l ha hb

theorem State.Lawful.claimLaw : s.ClaimLaw := fun p r => length_filter_le_one.mpr fun l l' hl hl' => by
  obtain ⟨c, hc, hp⟩ := live_leaseAt.mp hl
  obtain ⟨c', hc', hp'⟩ := live_leaseAt.mp hl'
  exact (h.sound r).site.claims l l' c c' hc hc' (hp.trans hp'.symm)

theorem State.Lawful.holding_of_mem (hl : l ∈ (s.res r).holders) : ∃ c e, (s.leaseAt r l).holding? = some (c, e)
    ∧ (s.lease l).claim? = some c ∧ (s.lease l).epoch? = some e ∧ c.res = r := by
  obtain ⟨⟨c, e⟩, hc⟩ := Option.isSome_iff_exists.mp ((((h.sound r).site.mem_holders l).mp hl).resolve_right id)
  obtain ⟨-, h1, h2, h3⟩ := holding_leaseAt.mp hc
  exact ⟨c, e, hc, h1, h2, h3⟩

theorem State.Lawful.epochLaw : s.EpochLaw := fun r l hl => by
  obtain ⟨c, e, hc, -, he, -⟩ := h.holding_of_mem hl
  rw [he, (h.sound r).site.epoch l c e hc]

theorem State.Lawful.slotLaw : s.SlotLaw := by
  refine ⟨fun r l hl => ?_, fun l hl => ?_⟩
  · have hslot : (s.res r).slot = some l := hl
    exact ⟨(promo_leaseAt.mp (((h.sound r).site.slot l hslot).resolve_left id)).1, (h.sound r).site.slotHolder l hslot⟩
  · obtain ⟨c, hc⟩ : ∃ c, (s.lease l).claim? = some c := by
      cases hst : (s.lease l).st <;> simp_all [Lease.isPromoting, Lease.claim?]
    obtain ⟨n, hn⟩ := promo_leaseAt.mpr ⟨hl, by rw [hc, Option.map_some]⟩
    exact ⟨c, hc, (h.sound c.res).site.promo l n hn⟩

theorem State.Lawful.agreementLaw : s.AgreementLaw := fun r => by
  have hs := (h.sound r).site
  have hslot : (s.res r).holders = [] → (s.res r).slot = none := fun hh => by
    cases hslot : (s.res r).slot with
    | none => rfl
    | some l => exact absurd (hh ▸ hs.slotHolder l hslot) List.not_mem_nil
  have hnotice : (s.res r).st ≠ .retiring → (s.res r).retireNotice = false := fun hst =>
    eq_false_of_ne_true fun hn => hst (hs.notice.mp hn)
  have mode {m : Mode} (hall : ∀ l c e, (s.leaseAt r l).holding? = some (c, e) → c.mode = m) :
      ∀ l ∈ (s.res r).holders, (s.lease l).claim?.map (·.mode) = some m := fun l hl => by
    obtain ⟨c, e, hc, hclaim, -, -⟩ := h.holding_of_mem hl
    rw [hclaim, Option.map_some, hall l c e hc]
  rcases hst : (s.res r).st <;> simp only [State.agrees, hst, decide_eq_true_eq]
  case undefined =>
    obtain ⟨hh, hq, ha⟩ := hs.undefined hst
    exact ⟨hh, hq, hslot hh, ha, hnotice (by simp [hst])⟩
  case free => exact ⟨hs.free hst, hslot (hs.free hst), (h.sound r).served hst, hnotice (by simp [hst])⟩
  case settling n =>
    obtain ⟨hh, hn⟩ := hs.settling n hst
    exact ⟨hh, hslot hh, hn, hnotice (by simp [hst])⟩
  case exclusive =>
    obtain ⟨hlen, hall⟩ := hs.exclusive hst
    exact ⟨hlen, hs.slotShared (by simp [hst]), hnotice (by simp [hst]), mode hall⟩
  case shared =>
    obtain ⟨hpos, hle, hall⟩ := hs.shared hst
    exact ⟨hpos, hle, hnotice (by simp [hst]), mode hall⟩
  case retiring =>
    obtain ⟨hpos, hq, hall⟩ := hs.retiring hst
    refine ⟨hpos, hq, hs.slotShared (by simp [hst]), hs.notice.mpr hst, fun l hl => ?_⟩
    obtain ⟨c, e, hc, hclaim, -, hr⟩ := h.holding_of_mem hl
    rw [← cause_leaseAt (r := r) (by rw [hclaim, Option.map_some, hr])]
    exact hall l c e hc

theorem State.Lawful.listLaw : s.ListLaw := fun p => by
  refine ⟨h.orderly.nodup p, fun e he => ?_⟩
  have hlisted : s.lists p e.ref := List.mem_map.mpr ⟨e, he, rfl⟩
  split
  · next l href => simpa using h.orderly.lease p l (href ▸ hlisted)
  · next w href => simpa using h.orderly.wait p w (href ▸ hlisted)
  · next r href => exact decide_eq_true (h.orderly.resource p r (href ▸ hlisted))

theorem State.Lawful.tombstoneLaw : s.TombstoneLaw := by
  refine ⟨fun l hl => ?_, fun w c x hw => (h.orderly.endedWait w c x hw).resolve_left id⟩
  rcases hst : (s.lease l).st with _ | _ | _ | _ | ⟨k, c⟩ <;> simp only [Lease.isEnded, hst, Bool.false_eq_true] at hl
  exact ⟨k.claim, by simp [Lease.claim?, hst], (h.orderly.endedLease l k c hst).resolve_left id⟩

theorem State.Lawful.rangeLaw : s.RangeLaw := fun r => by
  refine ⟨(h.sound r).site.range, (h.sound r).site.few, fun w hw hm => ?_⟩
  obtain ⟨c, n, l, hst, -, -, hwa⟩ := (h.sound r).site.queued hw
  refine (h.sound r).site.sharedWait w c n l hwa ?_
  simpa [Wait.mode?, Wait.claim?, hst] using hm

end

/-- The laws as they are stated follow from the laws as they are kept. -/
theorem inv_of_fit (h : s.Fit) : s.Inv where
  holders := h.lawful.holderLaw
  queues := h.lawful.queueLaw
  reserves := h.lawful.reserveLaw
  claims := h.lawful.claimLaw
  agreement := h.lawful.agreementLaw
  epochs := h.lawful.epochLaw
  slots := h.lawful.slotLaw
  lists := h.lawful.listLaw
  tombstones := h.lawful.tombstoneLaw
  sessions := h.lawful.quiet
  links := h.links
  timebase := h.lawful.clock
  quotas p := (h.lawful.session p).1
  ranges := h.lawful.rangeLaw
  generations := ⟨h.lawful.orderly.leaseGen, h.lawful.orderly.waitGen⟩
  counts := ⟨fun l => (h.lawful.orderly.leaseCount l).resolve_right fun hx => hx.1, h.lawful.orderly.waitCount,
    fun p => (h.lawful.session p).2⟩
  due := h.lawful.due

/-! ### COLD_RESET and the step -/

theorem reset_lawful : State.reset.Lawful :=
  (fit_of_inv Sys2Proof.Proofs.resetKeepsLaws).lawful

theorem coldReset_fit : s.coldReset.Fit where
  lawful := reset_lawful.congr rfl rfl rfl rfl rfl reset_lawful.clock ⟨List.nodup_nil, .inr rfl⟩
  links p := by
    have hlink : s.coldReset.link p = (s.link p).cold := by simp [State.coldReset, State.link]
    rw [hlink]
    exact ⟨Nat.zero_le _, Nat.zero_le _, fun _ hr => absurd hr List.not_mem_nil, fun _ hr => absurd hr List.not_mem_nil⟩

theorem exec_fit {i : Instr} (h : s.Fit) (ht : exec i s = .next t) : t.Fit := by
  by_cases hi : i = .coldReset
  · rw [hi, exec_coldReset] at ht
    exact Host.Outcome.next.inj ht ▸ coldReset_fit
  · obtain ⟨u, hu, hl⟩ := exec_leads i hi s
    rw [hu] at ht
    exact Host.Outcome.next.inj ht ▸ leads_fit h hl

theorem step_fit (h : s.Fit) (ht : step s = .next t) : t.Fit := by
  unfold step at ht
  split at ht
  · exact Host.Outcome.next.inj ht ▸ h
  · next c rest _ =>
    have hrest : ({ s with pending := rest } : State).Fit := h.congr rfl rfl rfl rfl rfl rfl h.lawful.clock h.lawful.due
    exact exec_fit hrest ht

end Sys2Proof.Machine

namespace Sys2Proof.Proofs

open Sys2Proof Sys2Proof.Machine

/-- Settles O58: the laws as they are kept, which each command preserves, are the laws as they are stated. -/
theorem stepKeepsLaws : Obligations.StepKeepsLaws := fun _ _ h ht => inv_of_fit (step_fit (fit_of_inv h) ht)

end Sys2Proof.Proofs
end

