-- ==== Sys2Proof/Proofs/Locality.lean ====
section
/-! PROOFS. What an operation at one resource reads and writes: the records of that resource alone, so that two states alike
in those records are left alike in them. -/

namespace Sys2Proof.Machine

variable {s t u : State} {r : ResNo} {l : LeaseNo} {w : WaitNo} {p q : Port} {P : Ref → Bool} {x : Ref} {c : Cause}

/-- Two states are alike in the records `P`: the records themselves, the entries on them, and the sessions. -/
structure State.Alike (P : Ref → Bool) (s t : State) : Prop where
  res : ∀ r, P (.resource r) = true → t.res r = s.res r
  lease : ∀ l, P (.lease l) = true → t.lease l = s.lease l
  wait : ∀ w, P (.wait w) = true → t.wait w = s.wait w
  attn : ∀ q, (t.attn q).filter (fun e => P e.ref) = (s.attn q).filter fun e => P e.ref
  sessions : t.sessions = s.sessions

/-- What has changed is a record of `P` or an entry on one. -/
structure State.Within (P : Ref → Bool) (s t : State) : Prop where
  alike : s.Alike (fun x => !P x) t
  stores : t = { s with resources := t.resources, leases := t.leases, waits := t.waits, attention := t.attention }

/-- Two runs, from states alike in the records `P`: they stay alike in them, and the first changes nothing else. -/
structure State.Twin (P : Ref → Bool) (s t u : State) : Prop where
  alike : t.Alike P u
  within : s.Within P t

/-- The resource and the records it names are of `P`: its holders, the waits of its queue and the leases reserved for them. -/
structure State.Tidy (P : Ref → Bool) (r : ResNo) (s : State) (y : Resource) : Prop where
  resource : P (.resource r) = true
  holder : ∀ l ∈ y.holders, P (.lease l) = true
  queue : ∀ w ∈ y.queue, P (.wait w) = true ∧ ∀ c n l, (s.wait w).st = .waiting c n l → P (.lease l) = true

namespace State.Alike

theorem refl (P : Ref → Bool) (s : State) : s.Alike P s :=
  ⟨fun _ _ => rfl, fun _ _ => rfl, fun _ _ => rfl, fun _ => rfl, rfl⟩

theorem trans (h : s.Alike P t) (h' : t.Alike P u) : s.Alike P u where
  res r hr := (h'.res r hr).trans (h.res r hr)
  lease l hl := (h'.lease l hl).trans (h.lease l hl)
  wait w hw := (h'.wait w hw).trans (h.wait w hw)
  attn q := (h'.attn q).trans (h.attn q)
  sessions := h'.sessions.trans h.sessions

/-- Fewer records. -/
theorem mono {Q : Ref → Bool} (h : s.Alike P t) (hQ : ∀ x, Q x = true → P x = true) : s.Alike Q t where
  res r hr := h.res r (hQ _ hr)
  lease l hl := h.lease l (hQ _ hl)
  wait w hw := h.wait w (hQ _ hw)
  attn q := by
    have hfilter (es : List Entry) : es.filter (fun e => Q e.ref) = (es.filter fun e => P e.ref).filter fun e => Q e.ref := by
      rw [List.filter_filter]
      refine List.filter_congr fun e _ => ?_
      rcases hq : Q e.ref
      · rfl
      · rw [hQ _ hq]; rfl
    rw [hfilter, h.attn q, ← hfilter]
  sessions := h.sessions

theorem attached (h : s.Alike P t) (p : Port) : t.attached p = s.attached p := by
  simp only [State.attached, State.session, h.sessions]

theorem tidy {y : Resource} (h : s.Alike P t) (hs : s.Tidy P r y) : t.Tidy P r y where
  resource := hs.resource
  holder := hs.holder
  queue w hw := by
    rw [h.wait w (hs.queue w hw).1]
    exact hs.queue w hw

end State.Alike

/-! ### The steps an operation is made of -/

theorem filter_addCause (es : List Entry) : (addCause x c es).filter (fun e => P e.ref) =
    if P x = true then addCause x c (es.filter fun e => P e.ref) else es.filter fun e => P e.ref := by
  induction es with
  | nil => by_cases hx : P x = true <;> simp [addCause, hx]
  | cons e es ih =>
    have hcons (es : List Entry) : addCause x c (e :: es) =
        if e.ref = x then { e with causes := e.causes ||| c.value } :: es else e :: addCause x c es := rfl
    rw [hcons]
    by_cases he : e.ref = x
    · subst he
      by_cases hx : P e.ref = true <;> simp [hx, hcons]
    · rw [if_neg he, List.filter_cons, ih]
      by_cases hex : P e.ref = true
      · by_cases hx : P x = true <;> simp [hx, hex, he, hcons]
      · by_cases hx : P x = true <;> simp [hx, hex]

namespace State.Twin

theorem start (h : s.Alike P t) : s.Twin P s t := ⟨h, .refl _ s, rfl⟩

theorem setRes {y : Resource} (h : s.Twin P t u) (hr : P (.resource r) = true) : s.Twin P (t.setRes r y) (u.setRes r y) where
  alike := {
    res := fun r' hr' => by
      rw [res_setRes, res_setRes]
      split
      · rfl
      · exact h.alike.res r' hr'
    lease := h.alike.lease
    wait := h.alike.wait
    attn := h.alike.attn
    sessions := h.alike.sessions }
  within := {
    alike := {
      res := fun r' hr' => by
        rw [res_setRes]
        split
        · next e => simp [e, hr] at hr'
        · exact h.within.alike.res r' hr'
      lease := h.within.alike.lease
      wait := h.within.alike.wait
      attn := h.within.alike.attn
      sessions := h.within.alike.sessions }
    stores := by
      rw [h.within.stores]
      rfl }

theorem setLease {y : Lease} (h : s.Twin P t u) (hl : P (.lease l) = true) : s.Twin P (t.setLease l y) (u.setLease l y) where
  alike := {
    res := h.alike.res
    lease := fun l' hl' => by
      rw [lease_setLease, lease_setLease]
      split
      · rfl
      · exact h.alike.lease l' hl'
    wait := h.alike.wait
    attn := h.alike.attn
    sessions := h.alike.sessions }
  within := {
    alike := {
      res := h.within.alike.res
      lease := fun l' hl' => by
        rw [lease_setLease]
        split
        · next e => simp [e, hl] at hl'
        · exact h.within.alike.lease l' hl'
      wait := h.within.alike.wait
      attn := h.within.alike.attn
      sessions := h.within.alike.sessions }
    stores := by
      rw [h.within.stores]
      rfl }

theorem setWait {y : Wait} (h : s.Twin P t u) (hw : P (.wait w) = true) : s.Twin P (t.setWait w y) (u.setWait w y) where
  alike := {
    res := h.alike.res
    lease := h.alike.lease
    wait := fun w' hw' => by
      rw [wait_setWait, wait_setWait]
      split
      · rfl
      · exact h.alike.wait w' hw'
    attn := h.alike.attn
    sessions := h.alike.sessions }
  within := {
    alike := {
      res := h.within.alike.res
      lease := h.within.alike.lease
      wait := fun w' hw' => by
        rw [wait_setWait]
        split
        · next e => simp [e, hw] at hw'
        · exact h.within.alike.wait w' hw'
      attn := h.within.alike.attn
      sessions := h.within.alike.sessions }
    stores := by
      rw [h.within.stores]
      rfl }

theorem flag (h : s.Twin P t u) (hx : P x = true) : s.Twin P (t.flag p x c) (u.flag p x c) where
  alike := {
    res := h.alike.res
    lease := h.alike.lease
    wait := h.alike.wait
    attn := fun q => by
      by_cases hq : q = p
      · subst hq
        rw [State.flag, State.flag, attn_setAttn_self, attn_setAttn_self, filter_addCause, filter_addCause, h.alike.attn]
      · rw [State.flag, State.flag, attn_setAttn_ne _ _ _ hq, attn_setAttn_ne _ _ _ hq]
        exact h.alike.attn q
    sessions := h.alike.sessions }
  within := {
    alike := {
      res := h.within.alike.res
      lease := h.within.alike.lease
      wait := h.within.alike.wait
      attn := fun q => by
        rw [← h.within.alike.attn q]
        by_cases hq : q = p
        · subst hq
          rw [State.flag, attn_setAttn_self, filter_addCause (P := fun x => !P x), if_neg (by simp [hx])]
        · rw [State.flag, attn_setAttn_ne _ _ _ hq]
      sessions := h.within.alike.sessions }
    stores := by
      rw [h.within.stores]
      rfl }

end State.Twin

/-! ### The operations at a resource (R7, R8, R54 to R57, R76, R77, R100) -/

/-- A grant makes no wait WAITING. -/
theorem waiting_of_grantWait {i : WaitNo} {k : WaitClaim} {n : Half} (h : ((s.grantWait r w).wait i).st = .waiting k n l) :
    (s.wait i).st = .waiting k n l := by
  rcases hst : (s.wait w).st with _ | ⟨c, m, l'⟩ | ⟨c, e⟩
  case waiting =>
    rcases hlst : (s.lease l').st with _ | k' | _ | _ | _
    case reserved =>
      rw [grantWait_eq hst hlst, wait_flag, wait_setLease, wait_setWait] at h
      split at h
      · cases h
      · exact h
    all_goals simpa only [State.grantWait, hst, hlst] using h
  all_goals simpa only [State.grantWait, hst] using h

section
variable (h : s.Twin P t u)
include h

theorem grantWait_twin (hr : P (.resource r) = true) (hw : P (.wait w) = true)
    (hl : ∀ c n l, (t.wait w).st = .waiting c n l → P (.lease l) = true) : s.Twin P (t.grantWait r w) (u.grantWait r w) := by
  have hwait := h.alike.wait w hw
  rcases hst : (t.wait w).st with _ | ⟨c, n, l⟩ | ⟨c, e⟩
  case waiting =>
    have hlP := hl c n l hst
    have hlease := h.alike.lease l hlP
    rcases hlst : (t.lease l).st with _ | k | _ | _ | _
    case reserved =>
      rw [grantWait_eq hst hlst, grantWait_eq (s := u) (hwait ▸ hst) (hlease ▸ hlst), hwait, hlease, h.alike.res r hr]
      exact (((h.setRes hr).setWait hw).setLease hlP).flag hlP
    all_goals simpa only [State.grantWait, hwait, hst, hlease, hlst] using h
  all_goals simpa only [State.grantWait, hwait, hst] using h

theorem grantShared_twin (ws : List WaitNo) (hr : P (.resource r) = true)
    (hws : ∀ w ∈ ws, P (.wait w) = true ∧ ∀ c n l, (t.wait w).st = .waiting c n l → P (.lease l) = true) :
    s.Twin P (t.grantShared r ws) (u.grantShared r ws) := by
  induction ws generalizing t u with
  | nil => exact h
  | cons w ws ih =>
    obtain ⟨hw, hl⟩ := hws w List.mem_cons_self
    unfold State.grantShared
    rw [h.alike.res r hr, h.alike.wait w hw]
    split
    · refine ih (grantWait_twin h hr hw hl) fun i hi => ⟨(hws i (List.mem_cons_of_mem _ hi)).1, fun c n l hst => ?_⟩
      exact (hws i (List.mem_cons_of_mem _ hi)).2 c n l (waiting_of_grantWait hst)
    · exact h

theorem grantPass_twin (ht : t.Tidy P r (t.res r)) : s.Twin P (t.grantPass r) (u.grantPass r) := by
  unfold State.grantPass
  rw [h.alike.res r ht.resource]
  split
  · split
    · exact h
    · next w ws hq =>
      obtain ⟨hw, hl⟩ := ht.queue w (hq ▸ List.mem_cons_self)
      have hgrant := grantWait_twin h ht.resource hw hl
      rw [h.alike.wait w hw]
      split
      · exact h
      · split
        · refine grantShared_twin hgrant ws ht.resource fun i hi => ?_
          obtain ⟨hi, hil⟩ := ht.queue i (hq ▸ List.mem_cons_of_mem _ hi)
          exact ⟨hi, fun c n l hst => hil c n l (waiting_of_grantWait hst)⟩
        · exact hgrant
  · split
    · exact grantShared_twin h _ ht.resource ht.queue
    · exact h
  · exact h

theorem promotionCompletes_twin (ht : t.Tidy P r (t.res r)) (hl : P (.lease l) = true) :
    s.Twin P (t.promotionCompletes r l) (u.promotionCompletes r l) := by
  unfold State.promotionCompletes
  rw [h.alike.res r ht.resource, h.alike.lease l hl]
  split
  · dsimp only
    split
    · refine grantPass_twin (((h.setRes ht.resource).setLease hl).flag hl) ?_
      simpa using ⟨ht.resource, ht.holder, ht.queue⟩
    · refine grantPass_twin (((h.setRes ht.resource).setLease hl).flag hl) ?_
      simpa using ⟨ht.resource, ht.holder, ht.queue⟩
  · exact h

theorem completeRetirement_twin (hr : P (.resource r) = true) :
    s.Twin P (t.completeRetirement r) (u.completeRetirement r) := by
  unfold State.completeRetirement
  rw [h.alike.res r hr, h.alike.attached 0]
  dsimp only
  split
  · exact (h.setRes hr).flag hr
  · exact h.setRes hr

theorem lastHolderLeft_twin (ht : t.Tidy P r (t.res r)) : s.Twin P (t.lastHolderLeft r) (u.lastHolderLeft r) := by
  have hpass : s.Twin P (if (t.res r).attrs.settle = 0 then (t.setRes r { t.res r with st := .free }).grantPass r
        else t.setRes r { t.res r with st := .settling (t.res r).attrs.settle })
      (if (t.res r).attrs.settle = 0 then (u.setRes r { t.res r with st := .free }).grantPass r
        else u.setRes r { t.res r with st := .settling (t.res r).attrs.settle }) := by
    split
    · refine grantPass_twin (h.setRes ht.resource) ?_
      simpa using ⟨ht.resource, ht.holder, ht.queue⟩
    · exact h.setRes ht.resource
  unfold State.lastHolderLeft
  rw [h.alike.res r ht.resource]
  dsimp only
  split
  · exact completeRetirement_twin h ht.resource
  · exact hpass
  · exact hpass
  · exact h

theorem leave_twin (ht : t.Tidy P r ((t.res r).without l)) : s.Twin P (t.leave r l) (u.leave r l) := by
  have hset := h.setRes (y := (t.res r).without l) ht.resource
  have htidy : (t.setRes r ((t.res r).without l)).Tidy P r ((t.setRes r ((t.res r).without l)).res r) := by
    rw [res_setRes_self]
    exact ⟨ht.resource, ht.holder, ht.queue⟩
  unfold State.leave
  rw [h.alike.res r ht.resource]
  dsimp only
  split
  · exact lastHolderLeft_twin hset htidy
  · next q hq =>
    split
    · exact promotionCompletes_twin hset htidy (ht.holder q (hq ▸ List.mem_singleton_self q))
    · exact grantPass_twin hset htidy
  · exact grantPass_twin hset htidy

theorem dropWait_twin (ht : t.Tidy P r { t.res r with queue := (t.res r).queue.filter (· ≠ w) }) :
    s.Twin P (t.dropWait r w) (u.dropWait r w) := by
  have hset := h.setRes (y := { t.res r with queue := (t.res r).queue.filter (· ≠ w) }) ht.resource
  unfold State.dropWait
  rw [h.alike.res r ht.resource]
  dsimp only
  split
  · refine grantPass_twin hset ?_
    rw [res_setRes_self]
    exact ⟨ht.resource, ht.holder, ht.queue⟩
  · exact hset

end

end Sys2Proof.Machine
end

