-- ==== Sys2Proof/Proofs/SessionEndOrder.lean ====
section
/-! PROOFS. A session end treats each claim once, whatever the order (spec section 8.5). -/

namespace Sys2Proof.Machine

variable {s t u d : State} {r : ResNo} {l : LeaseNo} {w : WaitNo} {p q : Port} {P : Ref → Bool} {st : SessState}
  {cause : EndCause} {cs : List (ResNo × PortClaim)}

/-! ### The records of one resource -/

/-- The resource a record is of, as the state has it. -/
def State.resOf (d : State) : Ref → Option ResNo
  | .lease l => (d.lease l).claim?.map (·.res)
  | .wait w => (d.wait w).claim?.map (·.res)
  | .resource r => some r

/-- The records of resource `r`. -/
def State.at (d : State) (r : ResNo) (x : Ref) : Bool := decide (d.resOf x = some r)

/-- The listed records that are not to leave are of the resource. -/
theorem tidy_of_site {G : LeaseNo → Prop} {W : WaitNo → Prop} {y : Resource} (hs : d.SiteLaw r G W)
    (hh : ∀ l ∈ y.holders, l ∈ (d.res r).holders ∧ ¬ G l) (hq : ∀ w ∈ y.queue, w ∈ (d.res r).queue ∧ ¬ W w) :
    d.Tidy (d.at r) r y where
  resource := decide_eq_true rfl
  holder l hl := by
    obtain ⟨hm, hG⟩ := hh l hl
    exact decide_eq_true (isHolder_leaseAt.mp (((hs.mem_holders l).mp hm).resolve_right hG)).2
  queue w hw := by
    obtain ⟨hm, hW⟩ := hq w hw
    have hwaiting := ((hs.mem_queue w).mp hm).resolve_right hW
    refine ⟨decide_eq_true (waiting_waitAt.mp hwaiting).2, fun c n l hst => ?_⟩
    obtain ⟨c', n', l', hwa⟩ := hwaiting
    obtain ⟨hst', -⟩ := waitAt_eq_waiting.mp hwa
    obtain ⟨rfl, rfl, rfl⟩ := WaitState.waiting.inj (hst.symm.trans hst')
    obtain ⟨hl, hr⟩ := leaseAt_eq_reserved.mp (hs.reserve w c n l hwa)
    refine decide_eq_true ?_
    simp only [State.resOf, Lease.claim?, hl, Option.map_some, hr]

/-! ### One claim after the other -/

/-- The records the treatment of a claim comes upon are of its resource. -/
def State.TidyFor (P : Ref → Bool) (t : State) : ResNo × PortClaim → Prop
  | (r, .holder l) => t.Tidy P r ((t.res r).without l)
  | (r, .waiter w) => t.Tidy P r { t.res r with queue := (t.res r).queue.filter (· ≠ w) }

theorem State.TidyFor.resource {k : ResNo × PortClaim} (h : t.TidyFor P k) : P (.resource k.1) = true := by
  obtain ⟨r, l | w⟩ := k
  · exact State.Tidy.resource h
  · exact State.Tidy.resource h

theorem State.Alike.tidyFor {k : ResNo × PortClaim} (h : t.Alike P u) (ht : t.TidyFor P k) : u.TidyFor P k := by
  have hr := h.res k.1 ht.resource
  obtain ⟨r, l | w⟩ := k
  · unfold State.TidyFor at ht ⊢
    dsimp only at hr ht ⊢
    rw [hr]
    exact h.tidy ht
  · unfold State.TidyFor at ht ⊢
    dsimp only at hr ht ⊢
    rw [hr]
    exact h.tidy ht

theorem treatClaim_twin {k : ResNo × PortClaim} (h : s.Twin P t u) (ht : t.TidyFor P k) :
    s.Twin P (t.treatClaim k) (u.treatClaim k) := by
  obtain ⟨r, l | w⟩ := k
  · exact leave_twin h ht
  · exact dropWait_twin h ht

/-- Stores changed in two runs. -/
theorem stores_trans
    (h : t = { s with resources := t.resources, leases := t.leases, waits := t.waits, attention := t.attention })
    (h' : u = { t with resources := u.resources, leases := u.leases, waits := u.waits, attention := u.attention }) :
    u = { s with resources := u.resources, leases := u.leases, waits := u.waits, attention := u.attention } := by
  rw [h] at h'
  exact h'

/-- What is of another resource, or of none, is not of this one. -/
theorem at_of_ne {x : Ref} {o : Option ResNo} (hx : d.resOf x = o) (ho : o ≠ some r) : (!d.at r x) = true := by
  simp [State.at, hx, ho]

/-- The treatments of claims at distinct resources: each comes upon its resource as it was at first, and leaves it for good. -/
structure State.Treated (d t u : State) (cs : List (ResNo × PortClaim)) : Prop where
  other : ∀ r, r ∉ cs.map (·.1) → t.Alike (d.at r) u
  claim : ∀ k ∈ cs, (t.treatClaim k).Alike (d.at k.1) u
  none : t.Alike (fun x => decide (d.resOf x = none)) u
  stores : u = { t with resources := u.resources, leases := u.leases, waits := u.waits, attention := u.attention }

theorem foldl_treatClaim_treated (cs : List (ResNo × PortClaim)) (t : State) (hnd : (cs.map (·.1)).Nodup)
    (ht : ∀ k ∈ cs, t.TidyFor (d.at k.1) k) : d.Treated t (cs.foldl State.treatClaim t) cs := by
  induction cs generalizing t with
  | nil => exact ⟨fun _ _ => .refl _ t, nofun, .refl _ t, rfl⟩
  | cons k ks ih =>
    obtain ⟨hnot, hnd⟩ := List.nodup_cons.mp hnd
    have hfirst := (treatClaim_twin (.start (.refl _ t)) (ht k List.mem_cons_self)).within
    have helse {r : ResNo} (hr : r ≠ k.1) : t.Alike (d.at r) (t.treatClaim k) :=
      hfirst.alike.mono fun x hx => at_of_ne (of_decide_eq_true hx) fun e => hr (Option.some.inj e)
    have hne {k' : ResNo × PortClaim} (hk' : k' ∈ ks) : k'.1 ≠ k.1 := fun e =>
      hnot (List.mem_map.mpr ⟨k', hk', e⟩)
    have hlater := ih (t.treatClaim k) hnd fun k' hk' => (helse (hne hk')).tidyFor (ht k' (List.mem_cons_of_mem _ hk'))
    refine ⟨fun r hr => ?_, fun k' hk' => ?_, ?_, stores_trans hfirst.stores hlater.stores⟩
    · obtain ⟨hrk, hrks⟩ := not_or.mp (fun h => hr (List.mem_cons.mpr h))
      exact (helse hrk).trans (hlater.other r hrks)
    · rcases List.mem_cons.mp hk' with rfl | hk'
      · exact hlater.other _ hnot
      · exact (treatClaim_twin (.start (helse (hne hk'))) (ht _ (List.mem_cons_of_mem _ hk'))).alike.trans (hlater.claim k' hk')
    · have hnone : t.Alike (fun x => decide (d.resOf x = none)) (t.treatClaim k) :=
        hfirst.alike.mono fun x hx => at_of_ne (of_decide_eq_true hx) nofun
      exact hnone.trans hlater.none

/-! ### The session end -/

/-- Each claim of the port comes upon records of its resource. -/
theorem tidyFor_dropPort (hs : ∀ r, s.Sound r) {k : ResNo × PortClaim} (hk : k ∈ s.claims p) :
    (s.dropPort p st cause).TidyFor ((s.dropPort p st cause).at k.1) k := by
  have hsite := (dropPort_pending (p := p) (st := st) (e := cause) hs).site k.1
  obtain ⟨r, c⟩ := k
  have only {c' : PortClaim} (hc' : (r, c') ∈ s.claims p) : c' = c :=
    Option.some.inj ((mem_claims.mp hc').symm.trans (mem_claims.mp hk))
  cases c with
  | holder l =>
    refine tidy_of_site hsite (fun i hi => ?_) fun w hw => ⟨hw, fun hc => PortClaim.noConfusion (only hc)⟩
    obtain ⟨hi, hne⟩ := List.mem_filter.mp hi
    exact ⟨hi, fun hc => of_decide_eq_true hne (PortClaim.holder.inj (only hc))⟩
  | waiter w =>
    refine tidy_of_site hsite (fun i hi => ⟨hi, fun hc => PortClaim.noConfusion (only hc)⟩) fun i hi => ?_
    obtain ⟨hi, hne⟩ := List.mem_filter.mp hi
    exact ⟨hi, fun hc => of_decide_eq_true hne (PortClaim.waiter.inj (only hc))⟩

theorem alike_spendFree : d.Alike P d.spendFree := ⟨fun _ _ => rfl, fun _ _ => rfl, fun _ _ => rfl, fun _ => rfl, rfl⟩

theorem endSession_treated (hs : ∀ r, s.Sound r) : (s.dropPort p st cause).Treated (s.dropPort p st cause).spendFree
    (s.endSession p st cause) (s.claims p) := by
  have hperm := sortByRank_perm (fun c : ResNo × PortClaim => Config.treatmentRank s.freeCount c.1) (s.claims p)
  have h := foldl_treatClaim_treated (d := s.dropPort p st cause)
    (sortByRank (fun c => Config.treatmentRank s.freeCount c.1) (s.claims p)) (s.dropPort p st cause).spendFree
    ((hperm.map _).nodup_iff.mpr claims_nodup)
    fun k hk => alike_spendFree.tidyFor (tidyFor_dropPort hs (hperm.mem_iff.mp hk))
  rw [← endSession_eq] at h
  exact ⟨fun r hr => h.other r fun hm => hr ((hperm.map _).mem_iff.mp hm), fun k hk => h.claim k (hperm.mem_iff.mpr hk),
    h.none, h.stores⟩

/-- The outcome at a resource: that of the one claim there, if there is one. -/
def State.treatedAt (s : State) (p : Port) (d : State) (r : ResNo) : State :=
  match s.claimAt p r with
  | none => d
  | some (.holder l) => d.leave r l
  | some (.waiter w) => d.dropWait r w

theorem endSession_alike (hs : ∀ r, s.Sound r) (r : ResNo) :
    (s.treatedAt p (s.dropPort p st cause) r).Alike ((s.dropPort p st cause).at r) (s.endSession p st cause) := by
  have htreated := endSession_treated (p := p) (st := st) (cause := cause) hs
  have hclaim {c : PortClaim} (hc : s.claimAt p r = some c) : ((s.dropPort p st cause).treatClaim (r, c)).Alike
      ((s.dropPort p st cause).at r) (s.endSession p st cause) := by
    have hk := mem_claims.mpr hc
    exact (treatClaim_twin (.start alike_spendFree) (tidyFor_dropPort hs hk)).alike.trans (htreated.claim _ hk)
  unfold State.treatedAt
  split
  · next hc =>
    refine alike_spendFree.trans (htreated.other r fun hm => ?_)
    obtain ⟨⟨r', c⟩, hk, rfl⟩ := List.mem_map.mp hm
    exact Option.some_ne_none _ ((mem_claims.mp hk).symm.trans hc)
  · next l hc => exact hclaim hc
  · next w hc => exact hclaim hc

theorem endSession_none (hs : ∀ r, s.Sound r) :
    (s.dropPort p st cause).Alike (fun x => decide ((s.dropPort p st cause).resOf x = none)) (s.endSession p st cause) :=
  alike_spendFree.trans (endSession_treated hs).none

/-- A freed lease is no record of any resource, and stays FREE. -/
theorem lease_endSession_owned (hs : ∀ r, s.Sound r) (hl : (s.lease l).ownedBy p = true) :
    (s.endSession p st cause).lease l = (s.lease l).freed := by
  have hd : (s.dropPort p st cause).lease l = (s.lease l).freed := by rw [lease_dropPort, if_pos hl]
  rw [← hd]
  exact (endSession_none hs).lease l (decide_eq_true (by simp only [State.resOf, hd]; rfl))

theorem wait_endSession_owned (hs : ∀ r, s.Sound r) (hw : (s.wait w).ownedBy p = true) :
    (s.endSession p st cause).wait w = (s.wait w).freed := by
  have hd : (s.dropPort p st cause).wait w = (s.wait w).freed := by rw [wait_dropPort, if_pos hw]
  rw [← hd]
  exact (endSession_none hs).wait w (decide_eq_true (by simp only [State.resOf, hd]; rfl))

theorem not_holder_endSession (hs : ∀ r, s.Sound r) (hc : s.claimAt p r = some (.holder l)) :
    l ∉ ((s.endSession p st cause).res r).holders := fun hm => by
  obtain ⟨c, e, hl, hp⟩ := (claimAt_holder (hs r).site).mp hc
  have hown := ((holder_owned_iff (hs r).site).mpr ⟨c, e, hl, hp⟩).2
  have hhold := (((endSession_sound (p := p) (st := st) (e := cause) hs r).site.mem_holders l).mp hm).resolve_right id
  rw [isHolder_leaseAt, lease_endSession_owned hs hown] at hhold
  exact Bool.noConfusion hhold.1

theorem not_waiter_endSession (hs : ∀ r, s.Sound r) (hc : s.claimAt p r = some (.waiter w)) :
    w ∉ ((s.endSession p st cause).res r).queue := fun hm => by
  obtain ⟨c, n, l, hw, hp⟩ := (claimAt_waiter (hs r).site).mp hc
  have hown := ((waiter_owned_iff (hs r).site).mpr ⟨c, n, l, hw, hp⟩).2
  have hwait := (((endSession_sound (p := p) (st := st) (e := cause) hs r).site.mem_queue w).mp hm).resolve_right id
  rw [waiting_waitAt, wait_endSession_owned hs hown] at hwait
  exact Bool.noConfusion hwait.1

/-- No entry is on a record that is FREE. -/
theorem resOf_of_listed (h : s.Lawful) {e : Entry}
    (he : e ∈ (s.endSession p st cause).attn q) : (s.dropPort p st cause).resOf e.ref ≠ none := fun hnone => by
  have hlisted : (s.endSession p st cause).lists q e.ref := List.mem_map.mpr ⟨e, he, rfl⟩
  have horder := endSession_orderly (p := p) (st := st) (cause := cause) h.orderly fun r => (h.sound r).ranged
  have hsame := endSession_none (p := p) (st := st) (cause := cause) h.sound
  rcases href : e.ref with l | w | r
  · rw [href] at hlisted hnone
    have hown := (horder.lease q l hlisted).1
    rw [hsame.lease l (decide_eq_true hnone)] at hown
    obtain ⟨c, hc, -⟩ := ownedBy_iff.mp hown
    simp [State.resOf, hc] at hnone
  · rw [href] at hlisted hnone
    have hown := (horder.wait q w hlisted).1
    rw [hsame.wait w (decide_eq_true hnone)] at hown
    obtain ⟨c, hc, -⟩ := wait_ownedBy_iff.mp hown
    simp [State.resOf, hc] at hnone
  · rw [href] at hnone
    cases hnone

end Sys2Proof.Machine

namespace Sys2Proof.Proofs

open Sys2Proof Sys2Proof.Machine

/-- Settles O26: an operation at one resource reads and writes the records of that resource alone, so that the treatments
do not see each other. -/
theorem sessionEndTreatsEachResource : Obligations.SessionEndTreatsEachResource := by
  intro s p st cause hinv u d resOf
  have hlawful := (fit_of_inv hinv).lawful
  have hresOf : resOf = d.resOf := funext fun x => by cases x <;> rfl
  clear_value resOf
  subst hresOf
  refine ⟨fun r => ?each, fun l hl => ?freeLease, fun w hw => ?freeWait, fun q e he => ?entry, ?stores⟩
  case each =>
    have halike := endSession_alike (p := p) (st := st) (cause := cause) hlawful.sound r
    have hres : u.res r = (s.treatedAt p d r).res r := halike.res r (decide_eq_true rfl)
    refine ⟨hres, fun l hc => not_holder_endSession hlawful.sound hc, fun w hc => not_waiter_endSession hlawful.sound hc,
      fun hc => ?_, fun l hl => halike.lease l (decide_eq_true hl), fun w hw => halike.wait w (decide_eq_true hw), halike.attn⟩
    rw [hres]
    simp only [State.treatedAt, hc]
    exact res_dropPort _ _ _
  case freeLease => exact (endSession_none hlawful.sound).lease l (decide_eq_true hl)
  case freeWait => exact (endSession_none hlawful.sound).wait w (decide_eq_true hw)
  case entry => exact resOf_of_listed hlawful he
  case stores =>
    have hcount : d.freeCount = s.freeCount := by simp only [d, State.dropPort, State.setAttn, State.setSession]
    have hstores := (endSession_treated (p := p) (st := st) (cause := cause) hlawful.sound).stores
    simp only [State.spendFree] at hstores
    rw [← hcount]
    exact hstores

end Sys2Proof.Proofs
end

