-- ==== Sys2Proof/Proofs/RevocationRecords.lean ====
section
/-! PROOFS. REVOKE and RETIRE, record by record (spec sections 5.3 and 5.4). -/

namespace Sys2Proof.Machine

variable {s t u : State} {r : ResNo} {l : LeaseNo} {w : WaitNo} {p q : Port} {X E : Ref → Prop} {x y : Ref} {c : Cause}
  {k : RevokeCause} {g : Byte}

/-! ### The causes of an entry (R145) -/

/-- The causes a list has on a record; none without an entry. -/
def causesIn (x : Ref) (es : List Entry) : Byte := (es.find? fun e => e.ref = x).elim 0 (·.causes)

theorem causesOf_eq (s : State) (p : Port) (x : Ref) : s.causesOf p x = causesIn x (s.attn p) := by
  unfold State.causesOf causesIn
  cases (s.attn p).find? fun e => e.ref = x <;> rfl

theorem causesIn_addCause (es : List Entry) :
    causesIn y (addCause x c es) = if y = x then causesIn x es ||| c.value else causesIn y es := by
  induction es with
  | nil =>
    by_cases h : y = x
    · simp [causesIn, addCause, h]
    · simp [causesIn, addCause, h, Ne.symm h]
  | cons e es ih =>
    have hcons : addCause x c (e :: es) = if e.ref = x then { e with causes := e.causes ||| c.value } :: es
        else e :: addCause x c es := rfl
    rw [hcons]
    by_cases he : e.ref = x
    · by_cases h : y = x
      · simp [causesIn, he, h]
      · simp [causesIn, he, h, Ne.symm h]
    · rw [if_neg he]
      by_cases hy : e.ref = y
      · have h : y ≠ x := fun h => he (hy.trans h)
        simp [causesIn, hy, h]
      · have hrest (fs : List Entry) : causesIn y (e :: fs) = causesIn y fs := by simp [causesIn, hy]
        have hx : causesIn x (e :: es) = causesIn x es := by simp [causesIn, he]
        rw [hrest, hrest, ih, hx]

theorem causesOf_flag : (s.flag p x c).causesOf q y = if q = p ∧ y = x then s.causesOf p x ||| c.value else s.causesOf q y := by
  simp only [causesOf_eq]
  by_cases hq : q = p
  · subst hq
    rw [State.flag, attn_setAttn_self, causesIn_addCause]
    by_cases hy : y = x <;> simp [hy]
  · rw [State.flag, attn_setAttn_ne _ _ _ hq, if_neg fun h => hq h.1]

theorem causesOf_flag_self : (s.flag p x c).causesOf p x = s.causesOf p x ||| c.value := by
  rw [causesOf_flag, if_pos ⟨rfl, rfl⟩]

theorem causesOf_of_not_listed (h : ¬ s.lists p x) : s.causesOf p x = 0 := by
  rw [causesOf_eq, causesIn, List.find?_eq_none.mpr fun e he href => h (List.mem_map.mpr ⟨e, he, of_decide_eq_true href⟩)]
  rfl

@[simp] theorem causesOf_setRes (z : Resource) : (s.setRes r z).causesOf q y = s.causesOf q y := rfl
@[simp] theorem causesOf_setLease (z : Lease) : (s.setLease l z).causesOf q y = s.causesOf q y := rfl
@[simp] theorem causesOf_setWait (z : Wait) : (s.setWait w z).causesOf q y = s.causesOf q y := rfl

/-! ### What is left alone -/

/-- The change is at resource `r`, at the records `X` and at the entries on the records `E`; entries keep their places. -/
structure State.Touches (r : ResNo) (X E : Ref → Prop) (s t : State) : Prop where
  lease : ∀ l, ¬ X (.lease l) → t.lease l = s.lease l
  wait : ∀ w, ¬ X (.wait w) → t.wait w = s.wait w
  other : ∀ r', r' ≠ r → t.res r' = s.res r'
  causes : ∀ q y, ¬ E y → t.causesOf q y = s.causesOf q y
  places : ∀ q, (s.attn q).map (·.ref) <+: (t.attn q).map (·.ref)
  stores : t = { s with resources := t.resources, leases := t.leases, waits := t.waits, attention := t.attention }

namespace State.Touches

theorem refl (s : State) : s.Touches r X E s :=
  ⟨fun _ _ => rfl, fun _ _ => rfl, fun _ _ => rfl, fun _ _ _ => rfl, fun _ => List.prefix_refl _, rfl⟩

theorem trans (h : s.Touches r X E t) (h' : t.Touches r X E u) : s.Touches r X E u where
  lease l hl := (h'.lease l hl).trans (h.lease l hl)
  wait w hw := (h'.wait w hw).trans (h.wait w hw)
  other r' hr := (h'.other r' hr).trans (h.other r' hr)
  causes q y hy := (h'.causes q y hy).trans (h.causes q y hy)
  places q := (h.places q).trans (h'.places q)
  stores := stores_trans h.stores h'.stores

/-- More records, more entries. -/
theorem mono {X' E' : Ref → Prop} (h : s.Touches r X E t) (hX : ∀ x, X x → X' x) (hE : ∀ x, E x → E' x) :
    s.Touches r X' E' t where
  lease l hl := h.lease l fun hx => hl (hX _ hx)
  wait w hw := h.wait w fun hx => hw (hX _ hx)
  other := h.other
  causes q y hy := h.causes q y fun hx => hy (hE _ hx)
  places := h.places
  stores := h.stores

theorem setRes {z : Resource} : s.Touches r X E (s.setRes r z) where
  lease _ _ := rfl
  wait _ _ := rfl
  other r' hr := by rw [res_setRes, if_neg hr]
  causes _ _ _ := rfl
  places _ := List.prefix_refl _
  stores := rfl

theorem setLease {z : Lease} (hl : X (.lease l)) : s.Touches r X E (s.setLease l z) where
  lease i hi := by rw [lease_setLease, if_neg fun e : i = l => hi (e ▸ hl)]
  wait _ _ := rfl
  other _ _ := rfl
  causes _ _ _ := rfl
  places _ := List.prefix_refl _
  stores := rfl

theorem setWait {z : Wait} (hw : X (.wait w)) : s.Touches r X E (s.setWait w z) where
  lease _ _ := rfl
  wait i hi := by rw [wait_setWait, if_neg fun e : i = w => hi (e ▸ hw)]
  other _ _ := rfl
  causes _ _ _ := rfl
  places _ := List.prefix_refl _
  stores := rfl

theorem flag (hx : E x) : s.Touches r X E (s.flag p x c) where
  lease _ _ := rfl
  wait _ _ := rfl
  other _ _ := rfl
  causes q y hy := by rw [causesOf_flag, if_neg fun h : q = p ∧ y = x => hy (h.2 ▸ hx)]
  places q := by
    by_cases hq : q = p
    · subst hq
      rw [State.flag, attn_setAttn_self, map_ref_addCause]
      split
      · exact List.prefix_refl _
      · exact List.prefix_append _ _
    · rw [State.flag, attn_setAttn_ne _ _ _ hq]
  stores := rfl

end State.Touches

/-! ### One holder placed in grace or escalated (R84, R87, R91, R98) -/

/-- A holder as a revocation leaves it. -/
def Lease.revoked (k : RevokeCause) (g : Byte) (z : Lease) : Lease :=
  match z.st with
  | .active h a => ⟨z.gen, .grace h ⟨g, k, a.sent⟩⟩
  | .grace h x => ⟨z.gen, .grace h (x.escalated k g)⟩
  | _ => z

/-- The causes a revocation flags on a holder: REVOKE_PENDING for a change, PROMOTE_ENDED for the one in the slot. -/
def Lease.revokedBits (k : RevokeCause) (g : Byte) (inSlot : Prop) [Decidable inSlot] (z : Lease) : Byte :=
  match z.st with
  | .active _ _ => 4 ||| if inSlot then 64 else 0
  | .grace _ x => if (x.escalated k g).cause ≠ x.cause ∨ (x.escalated k g).graceLeft ≠ x.graceLeft then 4 else 0
  | _ => 0

/-- Some holders of the resource have been placed in grace or escalated. -/
structure State.Placed (r : ResNo) (k : RevokeCause) (g : Byte) (ls : List LeaseNo) (s t : State) : Prop where
  touches : s.Touches r (fun y => ∃ l ∈ ls, y = .lease l) (fun y => ∃ l ∈ ls, y = .lease l) t
  lease : ∀ l ∈ ls, t.lease l = (s.lease l).revoked k g
  causes : ∀ l ∈ ls, ∀ c ∈ (s.lease l).claim?,
    t.causesOf c.port (.lease l) = s.causesOf c.port (.lease l) ||| (s.lease l).revokedBits k g ((s.res r).slot = some l)
  slot : ∀ l, l ∉ ls → ((t.res r).slot = some l ↔ (s.res r).slot = some l)

theorem applyRevocation_placed {c : Claim} (hh : (s.lease l).isHolder = true) (hc : (s.lease l).claim? = some c)
    (hr : c.res = r) : s.Placed r k g [l] (State.applyRevocation k g s l) := by
  have single {y : Ref} : y = .lease l → ∃ l' ∈ [l], y = .lease l' := fun h => ⟨l, List.mem_singleton_self l, h⟩
  rcases hst : (s.lease l).st with _ | _ | ⟨h, a⟩ | ⟨h, x⟩ | _ <;>
    simp only [Lease.isHolder, hst, Bool.false_eq_true] at hh
  case active =>
    have hclaim : (s.lease l).claim? = some h.claim := by simp [Lease.claim?, hst]
    obtain rfl := Option.some.inj (hclaim.symm.trans hc)
    subst hr
    simp only [State.applyRevocation, hst]
    by_cases hslot : (s.res h.claim.res).slot = some l
    · rw [enterGrace_slot hst hslot]
      refine ⟨.trans (.setLease (single rfl)) (.trans (.flag (single rfl)) (.trans .setRes (.flag (single rfl)))),
        fun i hi => ?_, fun i hi c' hc' => ?_, fun i hi => ?_⟩
      · obtain rfl := List.mem_singleton.mp hi
        simp [Lease.revoked, hst]
      · obtain rfl := List.mem_singleton.mp hi
        obtain rfl := Option.some.inj (hclaim.symm.trans hc')
        rw [causesOf_flag_self, causesOf_setRes, causesOf_flag_self, causesOf_setLease, BitVec.or_assoc]
        simp [Lease.revokedBits, hst, hslot, Cause.value]
      · have hne : l ≠ i := fun e => hi (List.mem_singleton.mpr e.symm)
        simp [hslot, hne]
    · rw [enterGrace_eq hst hslot]
      refine ⟨.trans (.setLease (single rfl)) (.flag (single rfl)), fun i hi => ?_, fun i hi c' hc' => ?_, fun i _ => Iff.rfl⟩
      · obtain rfl := List.mem_singleton.mp hi
        simp [Lease.revoked, hst]
      · obtain rfl := List.mem_singleton.mp hi
        obtain rfl := Option.some.inj (hclaim.symm.trans hc')
        rw [causesOf_flag_self, causesOf_setLease]
        simp [Lease.revokedBits, hst, hslot, Cause.value]
  case grace =>
    have hclaim : (s.lease l).claim? = some h.claim := by simp [Lease.claim?, hst]
    simp only [State.applyRevocation, hst, escalate_eq hst]
    have hset : s.Touches r (fun y => ∃ l' ∈ [l], y = .lease l') (fun y => ∃ l' ∈ [l], y = .lease l')
        (s.setLease l ⟨(s.lease l).gen, .grace h (x.escalated k g)⟩) := .setLease (single rfl)
    split
    · next hchange =>
      refine ⟨hset.trans (.flag (single rfl)), fun i hi => ?_, fun i hi c' hc' => ?_, fun i _ => Iff.rfl⟩
      · obtain rfl := List.mem_singleton.mp hi
        simp [Lease.revoked, hst]
      · obtain rfl := List.mem_singleton.mp hi
        obtain rfl := Option.some.inj (hclaim.symm.trans hc')
        rw [causesOf_flag_self, causesOf_setLease]
        simp only [Lease.revokedBits, hst, if_pos hchange, Cause.value]
    · next hchange =>
      refine ⟨hset, fun i hi => ?_, fun i hi c' hc' => ?_, fun i _ => Iff.rfl⟩
      · obtain rfl := List.mem_singleton.mp hi
        simp [Lease.revoked, hst]
      · obtain rfl := List.mem_singleton.mp hi
        rw [causesOf_setLease]
        simp only [Lease.revokedBits, hst, if_neg hchange]
        exact BitVec.or_zero.symm

/-- The leases are holders of the resource. -/
def State.HoldersOf (s : State) (r : ResNo) (ls : List LeaseNo) : Prop :=
  ls.Nodup ∧ ∀ l ∈ ls, (s.lease l).isHolder = true ∧ (s.lease l).claim?.map (·.res) = some r

theorem foldl_applyRevocation_placed (ls : List LeaseNo) (s : State) (h : s.HoldersOf r ls) :
    s.Placed r k g ls (ls.foldl (State.applyRevocation k g) s) := by
  induction ls generalizing s with
  | nil => exact ⟨.refl s, nofun, nofun, fun _ _ => Iff.rfl⟩
  | cons l ls ih =>
    obtain ⟨hnd, hall⟩ := h
    obtain ⟨hnot, hnd⟩ := List.nodup_cons.mp hnd
    obtain ⟨hh, hres⟩ := hall l List.mem_cons_self
    obtain ⟨c, hc, hr⟩ := Option.map_eq_some_iff.mp hres
    have hfirst := applyRevocation_placed (k := k) (g := g) hh hc hr
    have hkept {i : LeaseNo} (hi : i ∈ ls) : (State.applyRevocation k g s l).lease i = s.lease i :=
      hfirst.touches.lease i fun ⟨j, hj, e⟩ => hnot (List.mem_singleton.mp hj ▸ Ref.lease.inj e ▸ hi)
    have hlater := ih (State.applyRevocation k g s l) ⟨hnd, fun i hi => hkept hi ▸ hall i (List.mem_cons_of_mem _ hi)⟩
    refine ⟨(hfirst.touches.mono ?_ ?_).trans (hlater.touches.mono ?_ ?_), fun i hi => ?_, fun i hi c' hc' => ?_, fun i hi => ?_⟩
    · exact fun _ ⟨j, hj, e⟩ => ⟨j, List.mem_singleton.mp hj ▸ List.mem_cons_self, e⟩
    · exact fun _ ⟨j, hj, e⟩ => ⟨j, List.mem_singleton.mp hj ▸ List.mem_cons_self, e⟩
    · exact fun _ ⟨j, hj, e⟩ => ⟨j, List.mem_cons_of_mem _ hj, e⟩
    · exact fun _ ⟨j, hj, e⟩ => ⟨j, List.mem_cons_of_mem _ hj, e⟩
    · rcases List.mem_cons.mp hi with rfl | hi
      · rw [List.foldl_cons, hlater.touches.lease i fun ⟨j, hj, e⟩ => hnot (Ref.lease.inj e ▸ hj)]
        exact hfirst.lease i (List.mem_singleton_self i)
      · rw [List.foldl_cons, hlater.lease i hi, hkept hi]
    · rcases List.mem_cons.mp hi with rfl | hi
      · rw [List.foldl_cons, hlater.touches.causes _ _ fun ⟨j, hj, e⟩ => hnot (Ref.lease.inj e ▸ hj)]
        exact hfirst.causes i (List.mem_singleton_self i) c' hc'
      · have hne : i ≠ l := fun e => hnot (e ▸ hi)
        have hbit : (((State.applyRevocation k g s l).res r).slot = some i) = ((s.res r).slot = some i) :=
          propext (hfirst.slot i (by simpa using hne))
        rw [List.foldl_cons, hlater.causes i hi c' (by rwa [hkept hi]), hkept hi,
          hfirst.touches.causes _ _ fun ⟨j, hj, e⟩ => hne (List.mem_singleton.mp hj ▸ Ref.lease.inj e)]
        simp only [hbit]
    · rw [List.mem_cons, not_or] at hi
      rw [List.foldl_cons, hlater.slot i hi.2, hfirst.slot i (by simpa using hi.1)]

/-! ### The forced ends of every holder (R86) -/

/-- Some holders in grace have ended. -/
structure State.Ended (r : ResNo) (ls : List LeaseNo) (s t : State) : Prop where
  touches : s.Touches r (fun y => ∃ l ∈ ls, y = .lease l) (fun y => ∃ l ∈ ls, y = .lease l) t
  lease : ∀ l ∈ ls, ∀ h x, (s.lease l).st = .grace h x → t.lease l = ⟨(s.lease l).gen, .ended h x.cause⟩
    ∧ t.causesOf h.claim.port (.lease l) = s.causesOf h.claim.port (.lease l) ||| 16

theorem endOne_ended {h : Holding} {x : GracePart} (hst : (s.lease l).st = .grace h x) :
    s.Ended r [l] ((s.endLease l).flagLease l .revoked) := by
  have single {y : Ref} : y = .lease l → ∃ l' ∈ [l], y = .lease l' := fun h => ⟨l, List.mem_singleton_self l, h⟩
  have hclaim : ((s.setLease l ⟨(s.lease l).gen, .ended h x.cause⟩).lease l).claim? = some h.claim := by
    rw [lease_setLease_self]
    rfl
  simp only [endLease_grace hst, State.flagLease, hclaim]
  refine ⟨.trans (.setLease (single rfl)) (.flag (single rfl)), fun i hi h' x' hst' => ?_⟩
  obtain rfl := List.mem_singleton.mp hi
  obtain ⟨rfl, rfl⟩ := LeaseState.grace.inj (hst.symm.trans hst')
  refine ⟨?_, ?_⟩
  · rw [lease_flag, lease_setLease_self]
  · rw [causesOf_flag_self, causesOf_setLease]
    rfl

theorem foldl_endOne_ended (ls : List LeaseNo) (s : State) (hnd : ls.Nodup)
    (hl : ∀ l ∈ ls, ∃ h x, (s.lease l).st = .grace h x) :
    s.Ended r ls (ls.foldl (fun t l => (t.endLease l).flagLease l .revoked) s) := by
  induction ls generalizing s with
  | nil => exact ⟨.refl s, nofun⟩
  | cons l ls ih =>
    obtain ⟨hnot, hnd⟩ := List.nodup_cons.mp hnd
    obtain ⟨h, x, hst⟩ := hl l List.mem_cons_self
    have hfirst := endOne_ended (r := r) hst
    have hkept {i : LeaseNo} (hi : i ∈ ls) : ((s.endLease l).flagLease l .revoked).lease i = s.lease i :=
      lease_endOne_ne fun e : i = l => hnot (e ▸ hi)
    have hlater := ih ((s.endLease l).flagLease l .revoked) hnd fun i hi => hkept hi ▸ hl i (List.mem_cons_of_mem _ hi)
    refine ⟨(hfirst.touches.mono ?_ ?_).trans (hlater.touches.mono ?_ ?_), fun i hi h' x' hst' => ?_⟩
    · exact fun _ ⟨j, hj, e⟩ => ⟨j, List.mem_singleton.mp hj ▸ List.mem_cons_self, e⟩
    · exact fun _ ⟨j, hj, e⟩ => ⟨j, List.mem_singleton.mp hj ▸ List.mem_cons_self, e⟩
    · exact fun _ ⟨j, hj, e⟩ => ⟨j, List.mem_cons_of_mem _ hj, e⟩
    · exact fun _ ⟨j, hj, e⟩ => ⟨j, List.mem_cons_of_mem _ hj, e⟩
    · rcases List.mem_cons.mp hi with rfl | hi
      · have hlast {y : Ref} (hy : y = .lease i) : ¬ ∃ j ∈ ls, y = .lease j :=
          fun ⟨j, hj, e⟩ => hnot (Ref.lease.inj (hy.symm.trans e) ▸ hj)
        rw [List.foldl_cons, hlater.touches.lease i (hlast rfl), hlater.touches.causes _ _ (hlast rfl)]
        exact hfirst.lease i (List.mem_singleton_self i) h' x' hst'
      · have hne : i ≠ l := fun e => hnot (e ▸ hi)
        obtain ⟨h1, h2⟩ := hlater.lease i hi h' x' (by rwa [hkept hi])
        rw [hkept hi] at h1
        rw [hfirst.touches.causes _ _ fun ⟨j, hj, e⟩ => hne (List.mem_singleton.mp hj ▸ Ref.lease.inj e)] at h2
        exact ⟨h1, h2⟩

/-! ### The withdrawal of a queue (R96) -/

/-- Some WAITING waits have been withdrawn, their leases returned to FREE. -/
structure State.Withdrawn (r : ResNo) (ws : List WaitNo) (s t : State) : Prop where
  touches : s.Touches r (fun y => (∃ w ∈ ws, y = .wait w) ∨ ∃ w ∈ ws, ∃ l, (s.wait w).reserved? = some l ∧ y = .lease l)
    (fun y => ∃ w ∈ ws, y = .wait w) t
  wait : ∀ w ∈ ws, ∀ c n l, (s.wait w).st = .waiting c n l → t.wait w = ⟨(s.wait w).gen, .ended c .withdrawn⟩
    ∧ t.lease l = (s.lease l).freed ∧ t.causesOf c.port (.wait w) = s.causesOf c.port (.wait w) ||| 2

theorem endWait_withdrawn {c : WaitClaim} {n : Half} (hst : (s.wait w).st = .waiting c n l) :
    s.Withdrawn r [w] (s.endWait w .withdrawn .withdrawn) := by
  have hmem := List.mem_singleton_self w
  rw [endWait_eq hst]
  refine ⟨.trans (.setWait (.inl ⟨w, hmem, rfl⟩)) (.trans (.setLease (.inr ⟨w, hmem, l, reserved_iff.mpr ⟨c, n, hst⟩, rfl⟩))
    (.flag ⟨w, hmem, rfl⟩)), fun i hi c' n' l' hst' => ?_⟩
  obtain rfl := List.mem_singleton.mp hi
  obtain ⟨rfl, rfl, rfl⟩ := WaitState.waiting.inj (hst.symm.trans hst')
  refine ⟨?_, ?_, ?_⟩
  · rw [wait_flag, wait_setLease, wait_setWait_self]
  · rw [lease_flag, lease_setLease_self]
  · rw [causesOf_flag_self]
    rfl

theorem foldl_endWait_withdrawn (ws : List WaitNo) (s : State) (hnd : ws.Nodup)
    (hw : ∀ w ∈ ws, ∃ c n l, (s.wait w).st = .waiting c n l)
    (hinj : ∀ w ∈ ws, ∀ w' ∈ ws, ∀ l, (s.wait w).reserved? = some l → (s.wait w').reserved? = some l → w = w') :
    s.Withdrawn r ws (ws.foldl (fun t w => t.endWait w .withdrawn .withdrawn) s) := by
  induction ws generalizing s with
  | nil => exact ⟨.refl s, nofun⟩
  | cons w ws ih =>
    obtain ⟨hnot, hnd⟩ := List.nodup_cons.mp hnd
    obtain ⟨c, n, l, hst⟩ := hw w List.mem_cons_self
    have hfirst := endWait_withdrawn (r := r) hst
    have hkept {i : WaitNo} (hi : i ∈ ws) : (s.endWait w .withdrawn .withdrawn).wait i = s.wait i := by
      refine hfirst.touches.wait i ?_
      rintro (⟨j, hj, e⟩ | ⟨_, _, _, _, e⟩)
      · exact hnot (List.mem_singleton.mp hj ▸ Ref.wait.inj e ▸ hi)
      · cases e
    have htail {i : WaitNo} (hi : i ∈ ws) : i ∈ w :: ws := List.mem_cons_of_mem _ hi
    have hlater := ih (s.endWait w .withdrawn .withdrawn) hnd (fun i hi => hkept hi ▸ hw i (htail hi))
      fun i hi j hj => by rw [hkept hi, hkept hj]; exact hinj i (htail hi) j (htail hj)
    have hentry {j : WaitNo} (hj : j ∈ ws) (h : Ref.wait w = .wait j) : False := hnot (Ref.wait.inj h ▸ hj)
    refine ⟨(hfirst.touches.mono ?_ ?_).trans (hlater.touches.mono ?_ ?_), fun i hi c' n' l' hst' => ?_⟩
    · rintro _ (⟨j, hj, e⟩ | ⟨j, hj, m, hm, e⟩)
      · exact .inl ⟨j, List.mem_singleton.mp hj ▸ List.mem_cons_self, e⟩
      · exact .inr ⟨j, List.mem_singleton.mp hj ▸ List.mem_cons_self, m, hm, e⟩
    · exact fun _ ⟨j, hj, e⟩ => ⟨j, List.mem_singleton.mp hj ▸ List.mem_cons_self, e⟩
    · rintro _ (⟨j, hj, e⟩ | ⟨j, hj, m, hm, e⟩)
      · exact .inl ⟨j, htail hj, e⟩
      · exact .inr ⟨j, htail hj, m, hkept hj ▸ hm, e⟩
    · exact fun _ ⟨j, hj, e⟩ => ⟨j, htail hj, e⟩
    · rcases List.mem_cons.mp hi with rfl | hi
      · obtain ⟨h1, h2, h3⟩ := hfirst.wait i (List.mem_singleton_self i) c' n' l' hst'
        rw [List.foldl_cons]
        refine ⟨?_, ?_, ?_⟩
        · rw [hlater.touches.wait i ?_, h1]
          rintro (⟨j, hj, e⟩ | ⟨_, _, _, _, e⟩)
          · exact hentry hj e
          · cases e
        · rw [hlater.touches.lease l' ?_, h2]
          rintro (⟨_, _, e⟩ | ⟨j, hj, m, hm, e⟩)
          · cases e
          · obtain rfl := Ref.lease.inj e
            rw [hkept hj] at hm
            exact hnot (hinj i List.mem_cons_self j (htail hj) l' (reserved_iff.mpr ⟨c', n', hst'⟩) hm ▸ hj)
        · rw [hlater.touches.causes _ _ fun ⟨j, hj, e⟩ => hentry hj e, h3]
      · obtain ⟨h1, h2, h3⟩ := hlater.wait i hi c' n' l' (by rwa [hkept hi])
        have hne : i ≠ w := fun e => hnot (e ▸ hi)
        have hlease : (s.endWait w .withdrawn .withdrawn).lease l' = s.lease l' := by
          refine hfirst.touches.lease l' ?_
          rintro (⟨_, _, e⟩ | ⟨j, hj, m, hm, e⟩)
          · cases e
          · obtain rfl := Ref.lease.inj e
            rw [List.mem_singleton.mp hj] at hm
            exact hne (hinj i (htail hi) w List.mem_cons_self l' (reserved_iff.mpr ⟨c', n', hst'⟩) hm)
        rw [hkept hi] at h1
        rw [hlease] at h2
        rw [hfirst.touches.causes _ _ fun ⟨j, hj, e⟩ => hne (List.mem_singleton.mp hj ▸ Ref.wait.inj e)] at h3
        exact ⟨h1, h2, h3⟩

end Sys2Proof.Machine
end

