-- ==== Sys2Proof/Proofs/RevokeRetire.lean ====
section
/-! PROOFS. The outcomes of REVOKE and RETIRE (spec sections 5.3 and 5.4). -/

namespace Sys2Proof.Machine

variable {s t v : State} {r : ResNo} {l : LeaseNo} {w : WaitNo} {p : Port} {rq : Request} {k : RevokeCause} {g arg : Byte}
  {ls : List LeaseNo} {h : Holding} {a : ActivePart} {y : GracePart}

/-! ### Holders of a resource that keeps its laws -/

theorem holder_cases (hs : s.SiteLaw r noLease noWait) (hl : l ∈ (s.res r).holders) :
    (∃ h a, s.leaseAt r l = .active h a) ∨ ∃ h y, s.leaseAt r l = .grace h y := by
  have hholding := ((hs.mem_holders l).mp hl).resolve_right id
  cases hla : s.leaseAt r l with
  | active h a => exact .inl ⟨h, a, rfl⟩
  | grace h y => exact .inr ⟨h, y, rfl⟩
  | free | reserved _ | ended _ _ => rw [hla] at hholding; cases hholding

theorem holdersOf_site (hs : s.SiteLaw r noLease noWait) : s.HoldersOf r (s.res r).holders := by
  refine ⟨hs.holdersNodup, fun l hl => ?_⟩
  rcases holder_cases hs hl with ⟨h, a, hla⟩ | ⟨h, y, hla⟩
  · obtain ⟨hst, hr⟩ := leaseAt_eq_active.mp hla
    simp [Lease.isHolder, Lease.claim?, hst, hr]
  · obtain ⟨hst, hr⟩ := leaseAt_eq_grace.mp hla
    simp [Lease.isHolder, Lease.claim?, hst, hr]

/-- A holder in grace is not in the slot (R71). -/
theorem slot_ne_of_grace (hs : s.SiteLaw r noLease noWait) (hl : l ∈ (s.res r).holders) (hst : (s.lease l).st = .grace h y) :
    (s.res r).slot ≠ some l := fun hslot => by
  obtain ⟨n, hn⟩ := (hs.slot l hslot).resolve_left id
  rcases holder_cases hs hl with ⟨h', a', hla⟩ | ⟨h', y', hla⟩
  · exact nomatch hst.symm.trans (leaseAt_eq_active.mp hla).1
  · rw [hla] at hn
    cases hn

/-- With every holder in grace the slot is empty. -/
theorem slot_eq_none_of_graced {c : RevokeCause} (hs : t.SiteLaw r noLease noWait)
    (hl : ∀ l ∈ (t.res r).holders, (t.leaseAt r l).graced c) : (t.res r).slot = none := by
  by_contra hne
  obtain ⟨l, hslot⟩ := Option.ne_none_iff_exists'.mp hne
  obtain ⟨n, hn⟩ := (hs.slot l hslot).resolve_left id
  obtain ⟨h, y, he, -⟩ := hl l (hs.slotHolder l hslot)
  rw [he] at hn
  cases hn

/-! ### Every holder placed in grace or escalated -/

/-- What REVOKE and RETIRE leave of the holders before any of them ends. -/
def State.revokeAll (s : State) (r : ResNo) (k : RevokeCause) (g : Byte) : State :=
  (s.res r).holders.foldl (State.applyRevocation k g) s

theorem revokeAll_revoked (hs : s.SiteLaw r noLease noWait) : s.Revoked r k (s.res r).holders (s.revokeAll r k g) :=
  foldl_applyRevocation_revoked _ s hs hs.holdersNodup fun l hl => ((hs.mem_holders l).mp hl).resolve_right id

theorem revokeAll_placed (hs : s.SiteLaw r noLease noWait) : s.Placed r k g (s.res r).holders (s.revokeAll r k g) :=
  foldl_applyRevocation_placed _ s (holdersOf_site hs)

theorem revokeAll_res (hs : s.SiteLaw r noLease noWait) : (s.revokeAll r k g).res r = { s.res r with slot := none } := by
  have hrev := revokeAll_revoked (k := k) (g := g) hs
  obtain ⟨slot, hres⟩ := hrev.res
  have hslot := slot_eq_none_of_graced hrev.site fun l hl => hrev.graced l (by rwa [hres] at hl)
  rw [hres] at hslot ⊢
  rw [← hslot]

/-- The bit of PROMOTE_ENDED for the lease in the slot. -/
def State.slotBit (s : State) (r : ResNo) (l : LeaseNo) : Byte := if (s.res r).slot = some l then 64 else 0

theorem State.Placed.active (hp : s.Placed r k g ls t) (hl : l ∈ ls) (hst : (s.lease l).st = .active h a) :
    t.lease l = ⟨(s.lease l).gen, .grace h ⟨g, k, a.sent⟩⟩
      ∧ t.causesOf h.claim.port (.lease l) = s.causesOf h.claim.port (.lease l) ||| (4 ||| s.slotBit r l) := by
  have hlease := hp.lease l hl
  have hcauses := hp.causes l hl h.claim (by simp [Lease.claim?, hst])
  simp only [Lease.revoked, hst] at hlease
  simp only [Lease.revokedBits, hst] at hcauses
  exact ⟨hlease, hcauses⟩

theorem State.Placed.grace (hp : s.Placed r k g ls t) (hl : l ∈ ls) (hst : (s.lease l).st = .grace h y) :
    t.lease l = ⟨(s.lease l).gen, .grace h (y.escalated k g)⟩
      ∧ t.causesOf h.claim.port (.lease l) = s.causesOf h.claim.port (.lease l)
        ||| if y.cause ≠ (y.escalated k g).cause ∨ y.graceLeft ≠ (y.escalated k g).graceLeft then 4 else 0 := by
  have hlease := hp.lease l hl
  have hcauses := hp.causes l hl h.claim (by simp [Lease.claim?, hst])
  simp only [Lease.revoked, hst] at hlease
  simp only [Lease.revokedBits, hst] at hcauses
  refine ⟨hlease, hcauses.trans ?_⟩
  simp only [ne_comm (a := (y.escalated k g).cause), ne_comm (a := (y.escalated k g).graceLeft)]

/-! ### Every holder ended -/

/-- The revocation of every holder with a grace of 0, up to what the resource becomes. -/
structure State.Emptied (r : ResNo) (k : RevokeCause) (s v : State) : Prop where
  touches : s.Touches r (fun y => ∃ l ∈ (s.res r).holders, y = .lease l) (fun y => ∃ l ∈ (s.res r).holders, y = .lease l) v
  res : v.res r = { s.res r with holders := [], slot := none }
  active : ∀ l ∈ (s.res r).holders, ∀ h a, (s.lease l).st = .active h a → v.lease l = ⟨(s.lease l).gen, .ended h k⟩
    ∧ v.causesOf h.claim.port (.lease l) = s.causesOf h.claim.port (.lease l) ||| (20 ||| s.slotBit r l)
  grace : ∀ l ∈ (s.res r).holders, ∀ h y, (s.lease l).st = .grace h y →
    v.lease l = ⟨(s.lease l).gen, .ended h (y.cause.higher k)⟩
    ∧ v.causesOf h.claim.port (.lease l) = s.causesOf h.claim.port (.lease l) ||| 20

theorem slotBit_or_revoked : 4 ||| s.slotBit r l ||| 16 = 20 ||| s.slotBit r l := by
  unfold State.slotBit
  split <;> decide

theorem revokeAll_endHolders (hs : s.SiteLaw r noLease noWait) (hcount : ∀ l, (s.lease l).counts = true) :
    s.Emptied r k ((s.revokeAll r k 0).endHolders r) := by
  have hrev := revokeAll_revoked (k := k) (g := 0) hs
  have hplaced := revokeAll_placed (k := k) (g := 0) hs
  have hres := revokeAll_res (k := k) (g := 0) hs
  have hhold : ((s.revokeAll r k 0).res r).holders = (s.res r).holders := by rw [hres]
  have hended := foldl_endOne_ended (r := r) (s.res r).holders (s.revokeAll r k 0) hs.holdersNodup
    fun l hl => lease_of_graced (hrev.graced l hl)
  have hgone : ((s.revokeAll r k 0).endHolders r).res r = { s.res r with holders := [], slot := none } := by
    obtain ⟨-, -, hend, -⟩ := endHolders_site hrev.site fun l hl => graced_term (hrev.graced l (hhold ▸ hl))
    rw [hend, hres]
  rw [State.endHolders, hhold] at hgone ⊢
  refine ⟨hplaced.touches.trans (hended.touches.trans .setRes), hgone, fun l hl h a hst => ?_, fun l hl h y hst => ?_⟩
  · obtain ⟨hlease, hcauses⟩ := hplaced.active hl hst
    obtain ⟨hlease', hcauses'⟩ := hended.lease l hl h _ (by rw [hlease])
    refine ⟨by rw [lease_setRes, hlease', hlease], ?_⟩
    rw [causesOf_setRes, hcauses', hcauses, BitVec.or_assoc, slotBit_or_revoked]
  · obtain ⟨hlease, hcauses⟩ := hplaced.grace hl hst
    obtain ⟨hlease', hcauses'⟩ := hended.lease l hl h _ (by rw [hlease])
    have hleft : y.graceLeft ≠ 0 := by simpa [Lease.counts, hst] using hcount l
    have hzero : (y.escalated k 0).graceLeft = 0 := if_pos (by bv_omega)
    refine ⟨by rw [lease_setRes, hlease', hlease]; rfl, ?_⟩
    rw [causesOf_setRes, hcauses', hcauses, if_pos (.inr fun e => hleft (e.trans hzero)), BitVec.or_assoc]
    rfl

/-! ### REVOKE (R90 to R92) -/

theorem higher_supervisor (c : RevokeCause) : c.higher .supervisor = if c = .retire then .retire else .supervisor := by
  cases c <;> rfl

/-- REVOKE of a defined resource is answered with the number of its holders. -/
theorem exec_revoke (hpass : s.Passing .revoke p rq) (hb : rq.body = [byteOf r.val, arg]) (hst : (s.res r).st ≠ .undefined) :
    exec (.revoke p) s = .next ((s.revoke r (if arg = 255 then (s.res r).attrs.grace else arg)).replied p rq .done
      [byteOf (s.res r).holders.length]) := by
  have hr : resArg rq.body 0 = some r := by rw [hb]; exact resArg_byteOf_append r [arg]
  have harg : byteAt rq.body 1 = arg := by rw [hb]; rfl
  have ho : revokeOwner p rq.body s = (⟨.done, [byteOf (s.res r).holders.length]⟩,
      s.revoke r (if arg = 255 then (s.res r).attrs.grace else arg)) := by
    simp [revokeOwner, hr, hst, harg]
  exact congrArg Host.Outcome.next (serve_eq hpass revokeOwner_local ho)

theorem exec_revoke_undefined (hpass : s.Passing .revoke p rq) (hb : rq.body = [byteOf r.val, arg])
    (hst : (s.res r).st = .undefined) : exec (.revoke p) s = .next (s.replied p rq .noResource []) := by
  have hr : resArg rq.body 0 = some r := by rw [hb]; exact resArg_byteOf_append r [arg]
  have ho : revokeOwner p rq.body s = (.refuse .noResource, s) := by simp [revokeOwner, hr, hst]
  exact congrArg Host.Outcome.next (serve_eq hpass revokeOwner_local ho)

theorem revoke_of_no_holders (hh : (s.res r).holders = []) : s.revoke r g = s := if_pos hh

theorem revoke_of_grace (hh : (s.res r).holders ≠ []) (hg : g ≠ 0) : s.revoke r g =
    if (s.res r).slot = none then s.revokeAll r .supervisor g else (s.revokeAll r .supervisor g).grantPass r := by
  simp only [State.revoke, if_neg hh, if_neg hg]
  cases (s.res r).slot <;> rfl

theorem revoke_of_no_grace (hh : (s.res r).holders ≠ []) :
    s.revoke r 0 = ((s.revokeAll r .supervisor 0).endHolders r).lastHolderLeft r := by
  simp only [State.revoke, if_neg hh, if_pos]
  rfl

/-- A change at the leases of the holders alone leaves the waits. -/
theorem State.Touches.of_leases {E : Ref → Prop} (h : s.Touches r (fun y => ∃ l ∈ ls, y = .lease l) E v) :
    v = { s with resources := v.resources, leases := v.leases, attention := v.attention } := by
  have hw : v.waits = s.waits := waits_ext fun w => h.wait w (by rintro ⟨_, _, e⟩; cases e)
  have := h.stores
  rw [hw] at this
  exact this

/-- What a REVOKE leaves alone. -/
theorem State.Touches.rest (h : s.Touches r (fun y => ∃ l ∈ ls, y = .lease l) (fun y => ∃ l ∈ ls, y = .lease l) v) :
    (∀ l, l ∉ ls → v.lease l = s.lease l) ∧ (∀ r', r' ≠ r → v.res r' = s.res r')
      ∧ (∀ q y, (∀ l ∈ ls, y ≠ .lease l) → v.causesOf q y = s.causesOf q y)
      ∧ (∀ q, (s.attn q).map (·.ref) <+: (v.attn q).map (·.ref))
      ∧ v = { s with resources := v.resources, leases := v.leases, attention := v.attention } :=
  ⟨fun l hl => h.lease l fun ⟨_, hj, e⟩ => hl (Ref.lease.inj e ▸ hj), h.other,
    fun q y hy => h.causes q y fun ⟨l, hl, e⟩ => hy l hl e, h.places, h.of_leases⟩

/-! ### RETIRE (R95 to R98) -/

theorem exec_retire (hpass : s.Passing .retire p rq) (hb : rq.body = [byteOf r.val]) {result : Result}
    {body : List Byte} (ho : (if (s.res r).st = .undefined then (.refuse .noResource, s)
      else if (s.res r).st = .retiring then (.refuse .retiring, s) else s.retire r) = (⟨result, body⟩, t)) :
    exec (.retire p) s = .next (t.replied p rq result body) := by
  have hr : resArg rq.body 0 = some r := by rw [hb]; exact resArg_byteOf_append r []
  have howner : retireOwner p rq.body s = (⟨result, body⟩, t) := by simpa only [retireOwner, hr] using ho
  exact congrArg Host.Outcome.next (serve_eq hpass retireOwner_local howner)

theorem withdrawWaits_withdrawn (hs : s.SiteLaw r noLease noWait) : s.Withdrawn r (s.res r).queue (s.withdrawWaits r) := by
  have hwait {w : WaitNo} (hw : w ∈ (s.res r).queue) : ∃ c n l, s.waitAt r w = .waiting c n l :=
    ((hs.mem_queue w).mp hw).resolve_right id
  have hfold := foldl_endWait_withdrawn (r := r) (s.res r).queue s hs.queueNodup
    (fun w hw => let ⟨c, n, l, hwa⟩ := hwait hw; ⟨c, n, l, (waitAt_eq_waiting.mp hwa).1⟩) fun w hw w' hw' l hl hl' => by
      obtain ⟨c, n, i, hwa⟩ := hwait hw
      obtain ⟨c', n', j, hwa'⟩ := hwait hw'
      obtain rfl := Option.some.inj (hl.symm.trans (reserved_iff.mpr ⟨c, n, (waitAt_eq_waiting.mp hwa).1⟩))
      obtain rfl := Option.some.inj (hl'.symm.trans (reserved_iff.mpr ⟨c', n', (waitAt_eq_waiting.mp hwa').1⟩))
      exact hs.reserve_inj w w' c c' n n' l hwa hwa'
  exact ⟨hfold.touches.trans .setRes, hfold.wait⟩

/-- A holder is no wait's reserved lease. -/
theorem reserved_ne_of_holder (hs : s.SiteLaw r noLease noWait) (hl : l ∈ (s.res r).holders) (hw : w ∈ (s.res r).queue) :
    (s.wait w).reserved? ≠ some l := fun hres => by
  obtain ⟨c, n, i, hwa⟩ := ((hs.mem_queue w).mp hw).resolve_right id
  obtain rfl := Option.some.inj (hres.symm.trans (reserved_iff.mpr ⟨c, n, (waitAt_eq_waiting.mp hwa).1⟩))
  have hreserved := hs.reserve w c n l hwa
  rcases holder_cases hs hl with ⟨h, a, hla⟩ | ⟨h, y, hla⟩ <;> exact nomatch hla.symm.trans hreserved

/-- The withdrawal of the queue, as the holders see it. -/
theorem withdrawWaits_holder (hs : s.SiteLaw r noLease noWait) (hl : l ∈ (s.res r).holders) :
    (s.withdrawWaits r).lease l = s.lease l
      ∧ ∀ q, (s.withdrawWaits r).causesOf q (.lease l) = s.causesOf q (.lease l) := by
  have htouches := (withdrawWaits_withdrawn hs).touches
  refine ⟨htouches.lease l ?_, fun q => htouches.causes q _ ?_⟩
  · rintro (⟨_, _, e⟩ | ⟨w, hw, i, hres, e⟩)
    · cases e
    · exact reserved_ne_of_holder hs hl hw (Ref.lease.inj e ▸ hres)
  · rintro ⟨_, _, e⟩
    cases e

theorem slotBit_withdrawWaits (hs : s.SiteLaw r noLease noWait) : (s.withdrawWaits r).slotBit r l = s.slotBit r l := by
  rw [State.slotBit, (withdrawWaits_site hs).2.2, State.slotBit]

theorem slotBit_of_grace (hs : s.SiteLaw r noLease noWait) (hl : l ∈ (s.res r).holders) (hst : (s.lease l).st = .grace h y) :
    s.slotBit r l = 0 := if_neg (slot_ne_of_grace hs hl hst)

/-- The retiring of a resource without holders, of one whose holders end, and of one whose holders drain (R97, R98). -/
theorem retire_of_no_holders (hh : (s.res r).holders = []) : s.retire r =
    (⟨.done, [byteOf (s.res r).queue.length, byteOf (s.res r).holders.length]⟩, (s.withdrawWaits r).undefine r) := if_pos hh

theorem retire_of_no_grace (hs : s.SiteLaw r noLease noWait) (hh : (s.res r).holders ≠ []) (hg : (s.res r).attrs.grace = 0) :
    s.retire r = (⟨.done, [byteOf (s.res r).queue.length, byteOf (s.res r).holders.length]⟩,
      (((s.withdrawWaits r).revokeAll r .retire 0).endHolders r).undefine r) := by
  have hhold : ((s.withdrawWaits r).res r).holders = (s.res r).holders := by rw [(withdrawWaits_site hs).2.2]
  simp only [State.retire, if_neg hh, hg, State.revokeAll, hhold, if_true]

theorem retire_of_grace (hs : s.SiteLaw r noLease noWait) (hh : (s.res r).holders ≠ []) (hg : (s.res r).attrs.grace ≠ 0) :
    s.retire r = (⟨.pending, [byteOf (s.res r).queue.length, byteOf (s.res r).holders.length]⟩,
      ((s.withdrawWaits r).revokeAll r .retire (s.res r).attrs.grace).setRes r
        { s.res r with st := .retiring, queue := [], slot := none, retireNotice := true }) := by
  obtain ⟨hsite, -, hres⟩ := withdrawWaits_site hs
  have hhold : ((s.withdrawWaits r).res r).holders = (s.res r).holders := by rw [hres]
  have hdrained := revokeAll_res (k := .retire) (g := (s.res r).attrs.grace) hsite
  rw [State.revokeAll, hhold, hres] at hdrained
  simp only [State.retire, if_neg hh, if_neg hg, State.revokeAll, hhold, hdrained]

/-- What a retiring leaves of the waits, and what it leaves alone, whatever becomes of the holders. -/
theorem retire_rest (hs : s.SiteLaw r noLease noWait) (ho : s.Orderly noRef)
    (ht : (s.withdrawWaits r).Touches r (fun y => ∃ l ∈ (s.res r).holders, y = .lease l)
      (fun y => ∃ l ∈ (s.res r).holders, y = .lease l) t) :
    (∀ w ∈ (s.res r).queue, ∀ c n l, (s.wait w).st = .waiting c n l → t.wait w = ⟨(s.wait w).gen, .ended c .withdrawn⟩
        ∧ t.lease l = ⟨(s.lease l).gen, .free⟩ ∧ t.causesOf c.port (.wait w) = 2)
      ∧ (∀ q y, ¬ ((∃ l ∈ (s.res r).holders, y = .lease l) ∨ ∃ w ∈ (s.res r).queue, y = .wait w) →
        t.causesOf q y = s.causesOf q y)
      ∧ (∀ q, (s.attn q).map (·.ref) <+: (t.attn q).map (·.ref))
      ∧ (∀ r', r' ≠ r → t.res r' = s.res r') ∧ (∀ w, w ∉ (s.res r).queue → t.wait w = s.wait w)
      ∧ (∀ l, l ∉ (s.res r).holders → (∀ w ∈ (s.res r).queue, (s.wait w).reserved? ≠ some l) → t.lease l = s.lease l)
      ∧ t = { s with resources := t.resources, leases := t.leases, waits := t.waits, attention := t.attention } := by
  have hw := withdrawWaits_withdrawn hs
  have hwait (w : WaitNo) : t.wait w = (s.withdrawWaits r).wait w := ht.wait w (by rintro ⟨_, _, e⟩; cases e)
  have hlease {l : LeaseNo} (hl : l ∉ (s.res r).holders) : t.lease l = (s.withdrawWaits r).lease l :=
    ht.lease l fun ⟨_, hj, e⟩ => hl (Ref.lease.inj e ▸ hj)
  refine ⟨fun w hmem c n l hst => ?_, fun q y hy => ?_, fun q => (hw.touches.places q).trans (ht.places q),
    fun r' hr => (ht.other r' hr).trans (hw.touches.other r' hr), fun w hmem => ?_, fun l hl hres => ?_,
    stores_trans hw.touches.stores ht.stores⟩
  · obtain ⟨h1, h2, h3⟩ := hw.wait w hmem c n l hst
    have hnot : l ∉ (s.res r).holders := fun hl => reserved_ne_of_holder hs hl hmem (reserved_iff.mpr ⟨c, n, hst⟩)
    refine ⟨(hwait w).trans h1, (hlease hnot).trans h2, ?_⟩
    rw [ht.causes _ _ (by rintro ⟨_, _, e⟩; cases e), h3,
      causesOf_of_not_listed (ho.unlistedWait (by simp [Wait.isEnded, hst]) _)]
    rfl
  · rw [ht.causes q y fun hl => hy (.inl hl), hw.touches.causes q y fun hq => hy (.inr hq)]
  · refine (hwait w).trans (hw.touches.wait w ?_)
    rintro (⟨_, hj, e⟩ | ⟨_, _, _, _, e⟩)
    · exact hmem (Ref.wait.inj e ▸ hj)
    · cases e
  · refine (hlease hl).trans (hw.touches.lease l ?_)
    rintro (⟨_, _, e⟩ | ⟨w, hmem, i, hi, e⟩)
    · cases e
    · exact hres w hmem (Ref.lease.inj e ▸ hi)

theorem lease_undefine : (v.undefine r).lease l = v.lease l := rfl
theorem causesOf_undefine {q : Port} {x : Ref} : (v.undefine r).causesOf q x = v.causesOf q x := rfl

/-- An UNDEFINED resource is left by the retiring of one with no holder left. -/
theorem undefine_res (hv : v.res r = { s.res r with queue := [], holders := [], slot := none })
    (hnotice : (s.res r).retireNotice = false) :
    (v.undefine r).res r = ⟨.undefined, ⟨0, 0, 0, 0, 0, 0, 0⟩, (s.res r).epoch, [], [], none, false⟩ := by
  rw [State.undefine, res_setRes_self, hv]
  simp [hnotice, Attrs.cleared]

/-- A holder that drains (R98). -/
theorem retire_active (hs : s.SiteLaw r noLease noWait) (hl : l ∈ (s.res r).holders) (hst : (s.lease l).st = .active h a) :
    ((s.withdrawWaits r).revokeAll r .retire g).lease l = ⟨(s.lease l).gen, .grace h ⟨g, .retire, a.sent⟩⟩
      ∧ ((s.withdrawWaits r).revokeAll r .retire g).causesOf h.claim.port (.lease l)
        = s.causesOf h.claim.port (.lease l) ||| (4 ||| s.slotBit r l) := by
  obtain ⟨hsite, -, hres⟩ := withdrawWaits_site hs
  obtain ⟨hlease, hcauses⟩ := withdrawWaits_holder hs hl
  have hactive := (revokeAll_placed (k := .retire) (g := g) hsite).active (by rw [hres]; exact hl) (by rw [hlease]; exact hst)
  rwa [hlease, hcauses, slotBit_withdrawWaits hs] at hactive

theorem retire_grace (hs : s.SiteLaw r noLease noWait) (hl : l ∈ (s.res r).holders) (hst : (s.lease l).st = .grace h y) :
    ((s.withdrawWaits r).revokeAll r .retire g).lease l = ⟨(s.lease l).gen, .grace h (y.escalated .retire g)⟩
      ∧ ((s.withdrawWaits r).revokeAll r .retire g).causesOf h.claim.port (.lease l) = s.causesOf h.claim.port (.lease l)
        ||| if y.cause ≠ (y.escalated .retire g).cause ∨ y.graceLeft ≠ (y.escalated .retire g).graceLeft then 4 else 0 := by
  obtain ⟨hsite, -, hres⟩ := withdrawWaits_site hs
  obtain ⟨hlease, hcauses⟩ := withdrawWaits_holder hs hl
  have hgrace := (revokeAll_placed (k := .retire) (g := g) hsite).grace (by rw [hres]; exact hl) (by rw [hlease]; exact hst)
  rwa [hlease, hcauses] at hgrace

/-- The holders of a resource that is retired at once (R97, R98). -/
theorem retire_emptied (hs : s.SiteLaw r noLease noWait) (ho : s.Orderly noRef) :
    (s.withdrawWaits r).Emptied r .retire (((s.withdrawWaits r).revokeAll r .retire 0).endHolders r) :=
  revokeAll_endHolders (withdrawWaits_site hs).1
    fun l => ((withdrawWaits_orderly ho hs).leaseCount l).resolve_right fun h => h.1

theorem retire_ended (hs : s.SiteLaw r noLease noWait) (ho : s.Orderly noRef) (hl : l ∈ (s.res r).holders)
    (hst : (∃ a, (s.lease l).st = .active h a) ∨ ∃ y, (s.lease l).st = .grace h y) :
    (((s.withdrawWaits r).revokeAll r .retire 0).endHolders r).lease l = ⟨(s.lease l).gen, .ended h .retire⟩
      ∧ (((s.withdrawWaits r).revokeAll r .retire 0).endHolders r).causesOf h.claim.port (.lease l)
        = s.causesOf h.claim.port (.lease l) ||| (20 ||| s.slotBit r l) := by
  have hemptied := retire_emptied hs ho
  have hmem : l ∈ ((s.withdrawWaits r).res r).holders := by rw [(withdrawWaits_site hs).2.2]; exact hl
  obtain ⟨hlease, hcauses⟩ := withdrawWaits_holder hs hl
  rcases hst with ⟨a, hst⟩ | ⟨y, hst⟩
  · have hactive := hemptied.active l hmem h a (by rw [hlease]; exact hst)
    rwa [hlease, hcauses, slotBit_withdrawWaits hs] at hactive
  · have hgrace := hemptied.grace l hmem h y (by rw [hlease]; exact hst)
    rw [hlease, hcauses, higher_retire] at hgrace
    rw [slotBit_of_grace hs hl hst]
    exact hgrace

end Sys2Proof.Machine

namespace Sys2Proof.Proofs

open Sys2Proof Sys2Proof.Machine

/-- Settles O49: the holders revoked one by one, and then, with a grace of 0, ended one by one. -/
theorem revokeOutcomes : Obligations.RevokeOutcomes := by
  intro p r arg rq s hinv hpass hb x g slotBit cause rest
  have hlaw := (fit_of_inv hinv).lawful
  have hs := (hlaw.sound r).site
  have hdefined (hh : x.holders ≠ []) : x.st ≠ .undefined := fun hst => hh (hs.undefined hst).1
  refine ⟨exec_revoke_undefined hpass hb, fun hst hh => ?empty, fun hh hg => ?graced, fun hh hg => ?ended⟩
  case empty => rw [exec_revoke hpass hb hst, revoke_of_no_holders hh, hh]; rfl
  case graced =>
    have hplaced := revokeAll_placed (k := .supervisor) (g := g) hs
    refine ⟨s.revokeAll r .supervisor g, hplaced.touches.rest, ?_, revokeAll_res hs,
      fun l hl h a hst => hplaced.active hl hst, fun l hl h y hst => ?_⟩
    · rw [exec_revoke hpass hb (hdefined hh)]
      exact congrArg (fun t : State => Host.Outcome.next (t.replied p rq .done _)) (revoke_of_grace hh hg)
    · have hgrace := hplaced.grace hl hst
      simp only [GracePart.escalated, higher_supervisor] at hgrace
      exact hgrace
  case ended =>
    have hemptied := revokeAll_endHolders (k := .supervisor) hs hinv.counts.1
    have hrevoke : s.revoke r g = ((s.revokeAll r .supervisor 0).endHolders r).lastHolderLeft r := by
      rw [hg, revoke_of_no_grace hh]
    have hheld (hst : x.st ≠ .retiring) : x.st = .exclusive ∨ x.st = .shared :=
      (holder_st hs hh).imp_right fun h => h.resolve_right hst
    refine ⟨_, hemptied.touches.rest, hemptied.res, fun l hl h a hst => hemptied.active l hl h a hst, fun l hl h y hst => ?_,
      _, exec_revoke hpass hb (hdefined hh), fun hst => ?_, fun hst hsettle => ?_, fun hst hsettle => ?_⟩
    · have hgrace := hemptied.grace l hl h y hst
      rw [higher_supervisor] at hgrace
      exact hgrace
    · have hp : ((s.revokeAll r .supervisor 0).endHolders r).attached 0 = true := by
        rw [hemptied.touches.stores]
        exact Passing.eq_zero hpass rfl ▸ hpass.2.2.1 rfl
      have hretire := lastHolderLeft_retiring (s := (s.revokeAll r .supervisor 0).endHolders r) (r := r)
        (by rw [hemptied.res]; exact hst)
      rw [if_pos hp, hemptied.res] at hretire
      rw [← (hs.retiring hst).2.1]
      exact hrevoke.trans hretire
    · have hsettles := lastHolderLeft_settles (s := (s.revokeAll r .supervisor 0).endHolders r) (r := r)
        (by rw [hemptied.res]; exact hheld hst) (by rw [hemptied.res]; exact hsettle)
      rw [hemptied.res] at hsettles
      exact hrevoke.trans hsettles
    · have hfrees := lastHolderLeft_frees (s := (s.revokeAll r .supervisor 0).endHolders r) (r := r)
        (by rw [hemptied.res]; exact hheld hst) (by rw [hemptied.res]; exact hsettle)
      rw [hemptied.res] at hfrees
      exact hrevoke.trans hfrees

/-- Settles O48: the queue withdrawn, and then the holders as REVOKE treats them. -/
theorem retireOutcomes : Obligations.RetireOutcomes := by
  intro p r rq s hinv hpass hb x counts slotBit mine
  have hlaw := (fit_of_inv hinv).lawful
  have hs := (hlaw.sound r).site
  have ho := hlaw.orderly
  obtain ⟨hsite, -, hres⟩ := withdrawWaits_site hs
  have hhold : ((s.withdrawWaits r).res r).holders = x.holders := by rw [hres]
  refine ⟨fun hst => exec_retire (result := .noResource) (body := []) hpass hb (if_pos hst),
    fun hst => exec_retire (result := .retiring) (body := []) hpass hb ((if_neg (by rw [hst]; nofun)).trans (if_pos hst)),
    fun hst hst' => ?_⟩
  have hexec {result : Result} {body : List Byte} {t : State} (hr : s.retire r = (⟨result, body⟩, t)) :
      exec (.retire p) s = .next (t.replied p rq result body) := exec_retire hpass hb (by rw [if_neg hst, if_neg hst', hr])
  have hnotice : x.retireNotice = false := Bool.eq_false_iff.mpr fun h => hst' (hs.notice.mp h)
  by_cases hh : x.holders = []
  case pos =>
    have hres' : (s.withdrawWaits r).res r = { x with queue := [], holders := [], slot := none } := by
      rw [hres, ← hh, ← slot_eq_none_of_graced (c := .term) hs (by rw [hh]; nofun)]
    refine ⟨(s.withdrawWaits r).undefine r, ?_, retire_rest hs ho .setRes⟩
    rw [if_neg fun h => h.1 hh]
    exact ⟨hexec (retire_of_no_holders hh), undefine_res hres' hnotice, by rw [hh]; nofun⟩
  by_cases hg : x.attrs.grace = 0
  case pos =>
    have hemptied := retire_emptied hs ho
    have hres' := hemptied.res
    rw [hres] at hres'
    have htouches := hemptied.touches
    rw [hhold] at htouches
    refine ⟨(((s.withdrawWaits r).revokeAll r .retire 0).endHolders r).undefine r, ?_,
      retire_rest hs ho (htouches.trans .setRes)⟩
    rw [if_neg fun h => h.2 hg]
    refine ⟨hexec (retire_of_no_grace hs hh hg), undefine_res hres' hnotice, fun l hl h hla => ?_⟩
    rw [lease_undefine, causesOf_undefine]
    exact retire_ended hs ho hl hla
  case neg =>
    have htouches := (revokeAll_placed (k := .retire) (g := x.attrs.grace) hsite).touches
    rw [hhold] at htouches
    refine ⟨((s.withdrawWaits r).revokeAll r .retire x.attrs.grace).setRes r
      { x with st := .retiring, queue := [], slot := none, retireNotice := true }, ?_,
      retire_rest hs ho (htouches.trans .setRes)⟩
    rw [if_pos ⟨hh, hg⟩]
    refine ⟨hexec (retire_of_grace hs hh hg), res_setRes_self .., fun l hl h a hla => ?_, fun l hl h y hla => ?_⟩
    · rw [lease_setRes, causesOf_setRes]
      exact retire_active hs hl hla
    rw [lease_setRes, causesOf_setRes]
    have hgrace := retire_grace (g := x.attrs.grace) hs hl hla
    simp only [GracePart.escalated, higher_retire] at hgrace
    exact hgrace

end Sys2Proof.Proofs
end
